-- ==== Sys2Proof/Word.lean ====
section
/-! DEFINITION. The words, the index types and the two fixed-size containers of the model of the Bantrel T316. -/

namespace Sys2Proof

/-- A byte of a packet or of the array. -/
abbrev Byte := BitVec 8

/-- A word of the array: 8 bytes (Table 2). -/
abbrev Word := BitVec 64

/-- A 31-bit array address (Conventions, Addresses). -/
abbrev Addr := BitVec 31

/-- An arrival stamp: 64 bits (R35). -/
abbrev Stamp := BitVec 64

/-- A request tag, 0 to 63 (Table 2). -/
abbrev Tag := BitVec 6

/-- An instant, or a length of time, in quarter nanoseconds: every interval of the manual is a whole number of them. -/
abbrev Instant := Nat

abbrev BankId := Fin 16
abbrev GroupId := Fin 4
abbrev RowId := Fin 65536
/-- A line's place in its row (Table 6). -/
abbrev LineIx := Fin 32
/-- A word's place in its line (R1). -/
abbrev WordIx := Fin 8
abbrev SpareId := Fin 4
/-- A line of the array, by number: its line address divided by 64. -/
abbrev LineId := Fin 33554432
abbrev WatchId := Fin 32
abbrev RegionIx := Fin 8
abbrev FaultSlot := Fin 16

/-- The ports (Table 2). -/
inductive Port where
  | a | b | c
deriving DecidableEq, Repr

/-- The three ports in their order. -/
def Port.all : List Port := [.a, .b, .c]

/-- One thing for each port. -/
structure PerPort (α : Type) where
  a : α
  b : α
  c : α
deriving DecidableEq, Repr

namespace PerPort

variable {α β : Type}

def get (x : PerPort α) : Port → α
  | .a => x.a
  | .b => x.b
  | .c => x.c

def set (x : PerPort α) (p : Port) (v : α) : PerPort α :=
  match p with
  | .a => { x with a := v }
  | .b => { x with b := v }
  | .c => { x with c := v }

def all (v : α) : PerPort α := ⟨v, v, v⟩

def map (f : α → β) (x : PerPort α) : PerPort β := ⟨f x.a, f x.b, f x.c⟩

end PerPort

/-- A table of exactly `n` entries, numbered from 0. -/
structure Table (n : Nat) (α : Type) where
  items : List α
  size : items.length = n
deriving DecidableEq, Repr

namespace Table

variable {n : Nat} {α β : Type}

def get (t : Table n α) (i : Fin n) : α :=
  t.items[i.val]'(by rw [t.size]; exact i.isLt)

def set (t : Table n α) (i : Fin n) (x : α) : Table n α :=
  ⟨t.items.set i.val x, by rw [List.length_set]; exact t.size⟩

def modify (t : Table n α) (i : Fin n) (f : α → α) : Table n α :=
  t.set i (f (t.get i))

def replicate (n : Nat) (x : α) : Table n α :=
  ⟨List.replicate n x, List.length_replicate⟩

def map (f : α → β) (t : Table n α) : Table n β :=
  ⟨t.items.map f, by rw [List.length_map]; exact t.size⟩

/-- The table whose entry `i` is `f i`. -/
def ofFn (f : Fin n → α) : Table n α :=
  ⟨(List.finRange n).map f, by rw [List.length_map, List.length_finRange]⟩

end Table

end Sys2Proof
end

