-- ==== Sys2Proof/Config.lean ====
section
/-! DEFINITION. What one part fixes: its capacities (Table 2) and the free values, on which the manual says nothing. -/

namespace Sys2Proof.Config

/-- Records in one request queue (Table 2). -/
def queueDepth : Nat := 16
/-- Entries of the hold table (Table 2). -/
def holdEntries : Nat := 8
/-- Watch entries one port may own (Table 2). -/
def watchesPerPort : Nat := 16
/-- Notices in one notice queue (Table 2). -/
def noticeDepth : Nat := 8
/-- Queued repair jobs (Table 2). -/
def repairDepth : Nat := 4
/-- Packets in one replay buffer (Table 2). -/
def replayDepth : Nat := 32
/-- Responses in one refusal list (Table 50). -/
def refusalDepth : Nat := 16
/-- Bytes of the array: 2 GiB (Table 2). The spare rows' cells are numbered from here on. -/
def arrayBytes : Nat := 2147483648
/-- Bytes of one row (Table 2). -/
def rowBytes : Nat := 2048
/-- Pages of the array (Table 2). -/
def pages : Nat := 524288
/-- Lines of the array. -/
def lines : Nat := 33554432

/-- FREE VALUE. Which of several ports' control records, READY at one instant, is carried out first: the manual
gives no order between ports (R92 and R134 give the order within one). Its argument is the model's own counter. -/
opaque portOrder : Nat → Nat

/-- FREE VALUE. The outcome, of the four of Table 37, of reading a word with more than two wrong bits, and
the data it hands on if it is CLEAN or CORRECTED: Table 37 stops at two. Its arguments are the counter and the word. -/
opaque manyBadOutcome : Nat → Nat → Nat
opaque manyBadData : Nat → Nat → Word

end Sys2Proof.Config
end

