-- ==== Sys2Proof/Syntax.lean ====
section
/-! DEFINITION. The commands the part takes: one constructor for each row of spec/opcode_table.json.

Every command begins with `dt`, the time between the event before it and this one, in quarter nanoseconds
(notes/assumptions/2.md). Ports, banks, rows, groups, spares and lines are the operands the rows name. -/

namespace Sys2Proof

/-- A bit of a stored word that has gone wrong: the word of its line, and whether the bit is one of its check bits (R114). -/
structure Flip where
  word : WordIx
  inCheck : Bool
deriving DecidableEq, Repr

/-- The fields of a REQUEST packet after its packet kind and request kind (Table 52), as they stand on the wire: `body` is the body's
bytes as they came, whatever the length field says of them (notes/assumptions/30.md). For the rows that name an item of SET or GET,
`body` is what follows the item code. Machine/Receiving.lean reads these fields from a packet's bytes. -/
structure Request where
  seq : Byte
  tag : Tag
  posted : Bool
  /-- Bytes 4 to 7; bit 31 is ignored. -/
  addr : BitVec 32
  count : Byte
  body : List Byte
deriving DecidableEq, Repr

/-- The commands, in the order of the table. -/
inductive Instr where
  -- resets and pins
  | coldReset (dt : Nat)
  | warmReset (dt : Nat)
  | resetNRise (dt : Nat)
  | hotPinChange (dt : Nat) (level : Bool)
  -- the links: states and received packets
  | trainingStart (dt : Nat) (p : Port)
  | trainingComplete (dt : Nat) (p : Port)
  | trainingTimeout (dt : Nat) (p : Port)
  | signalLoss (dt : Nat) (p : Port)
  | silenceTimeout (dt : Nat) (p : Port)
  | resetPacket (dt : Nat) (p : Port)
  | badCheckPacket (dt : Nat) (p : Port)
  | requestDiscard (dt : Nat) (p : Port) (kind : Byte) (r : Request)
  | otherKindDiscard (dt : Nat) (p : Port) (kind : Byte)
  | ackReceived (dt : Nat) (p : Port) (n : Byte)
  | nakReceived (dt : Nat) (p : Port) (n : Byte)
  | idleReceived (dt : Nat) (p : Port)
  | ackTimerExpiry (dt : Nat) (p : Port)
  | keepaliveExpiry (dt : Nat) (p : Port)
  -- the links: sent packets
  | sendNak (dt : Nat) (p : Port)
  | sendReplay (dt : Nat) (p : Port)
  | sendInit (dt : Nat) (p : Port)
  /-- `refusalFirst` decides between a record and a refusal of one instant (R170). -/
  | sendResponse (dt : Nat) (p : Port) (refusalFirst : Bool)
  | sendNotice (dt : Nat) (p : Port)
  | sendAck (dt : Nat) (p : Port)
  | sendIdle (dt : Nat) (p : Port)
  -- requests
  | read (dt : Nat) (p : Port) (r : Request)
  | write (dt : Nat) (p : Port) (r : Request)
  | writePart (dt : Nat) (p : Port) (r : Request)
  | fence (dt : Nat) (p : Port) (r : Request)
  | fetchAdd (dt : Nat) (p : Port) (r : Request)
  | swap (dt : Nat) (p : Port) (r : Request)
  | compareSwap (dt : Nat) (p : Port) (r : Request)
  | watch (dt : Nat) (p : Port) (r : Request)
  | unwatch (dt : Nat) (p : Port) (r : Request)
  | noticeMask (dt : Nat) (p : Port) (r : Request)
  | regionSet (dt : Nat) (p : Port) (r : Request)
  | regionGet (dt : Nat) (p : Port) (r : Request)
  | repair (dt : Nat) (p : Port) (r : Request)
  | quiet (dt : Nat) (p : Port) (r : Request)
  | claim (dt : Nat) (p : Port) (r : Request)
  | release (dt : Nat) (p : Port) (r : Request)
  | setCloseIdle (dt : Nat) (p : Port) (r : Request)
  | setAgeLimit (dt : Nat) (p : Port) (r : Request)
  | setHotMode (dt : Nat) (p : Port) (r : Request)
  | setScrubInterval (dt : Nat) (p : Port) (r : Request)
  | setFaultThreshold (dt : Nat) (p : Port) (r : Request)
  | setAutoRepair (dt : Nat) (p : Port) (r : Request)
  | setQuietHold (dt : Nat) (p : Port) (r : Request)
  | wakeClear (dt : Nat) (p : Port) (r : Request)
  | countersClear (dt : Nat) (p : Port) (r : Request)
  | getCloseIdle (dt : Nat) (p : Port) (r : Request)
  | getAgeLimit (dt : Nat) (p : Port) (r : Request)
  | getHotMode (dt : Nat) (p : Port) (r : Request)
  | getScrubInterval (dt : Nat) (p : Port) (r : Request)
  | getFaultThreshold (dt : Nat) (p : Port) (r : Request)
  | getAutoRepair (dt : Nat) (p : Port) (r : Request)
  | getQuietHold (dt : Nat) (p : Port) (r : Request)
  | getClaimHolder (dt : Nat) (p : Port) (r : Request)
  | getQuietState (dt : Nat) (p : Port) (r : Request)
  | getWakeRecord (dt : Nat) (p : Port) (r : Request)
  | getRefreshDebt (dt : Nat) (p : Port) (r : Request)
  | getMissedRefreshCount (dt : Nat) (p : Port) (r : Request)
  | getCorrectedCounts (dt : Nat) (p : Port) (r : Request)
  | getScrubPointer (dt : Nat) (p : Port) (r : Request)
  | getLinkErrorCounts (dt : Nat) (p : Port) (r : Request)
  | getLostCount (dt : Nat) (p : Port) (r : Request)
  | getNoticeEnables (dt : Nat) (p : Port) (r : Request)
  | getFaultListSlot (dt : Nat) (p : Port) (r : Request)
  | getSpares (dt : Nat) (p : Port) (r : Request)
  | getRepairQueue (dt : Nat) (p : Port) (r : Request)
  | getCurrentJob (dt : Nat) (p : Port) (r : Request)
  -- array commands
  | openRow (dt : Nat) (bank : BankId) (row : RowId)
  | openSpare (dt : Nat) (bank : BankId) (spare : SpareId)
  | close (dt : Nat) (bank : BankId)
  /-- `flips`: the bits of the line's cells that have gone wrong since the last look. -/
  | readLine (dt : Nat) (bank : BankId) (line : LineIx) (flips : List Flip)
  | writeLine (dt : Nat) (bank : BankId) (line : LineIx)
  | refreshGroup (dt : Nat) (group : GroupId)
  | retain (dt : Nat)
  | resume (dt : Nat)
  | programSoft (dt : Nat) (bank : BankId) (spare : SpareId)
  | programFuse (dt : Nat) (bank : BankId) (spare : SpareId)
  -- expiries
  | pathOccupancyExpiry (dt : Nat)
  | timingIntervalExpiry (dt : Nat)
  | openDelayEnd (dt : Nat) (bank : BankId)
  | closeDelayEnd (dt : Nat) (bank : BankId)
  | groupRefreshEnd (dt : Nat) (group : GroupId)
  | programmingEnd (dt : Nat)
  | wakeTimerExpiry (dt : Nat)
  | idleTimerExpiry (dt : Nat) (bank : BankId)
  | rowOpenLimit (dt : Nat) (bank : BankId)
  | groupExpiry (dt : Nat)
  | recordAged (dt : Nat) (p : Port) (stamp : Stamp)
  | scrubStepTimerExpiry (dt : Nat)
  | idleHoldExpiry (dt : Nat)
  | claimTimerExpiry (dt : Nat)
  -- requests that name nothing the part knows
  | unknownRequestKind (dt : Nat) (p : Port) (kind : Byte) (r : Request)
  | setUnknownItem (dt : Nat) (p : Port) (r : Request)
  | getUnknownItem (dt : Nat) (p : Port) (r : Request)
deriving DecidableEq, Repr

end Sys2Proof
end

