-- ==== Sys2Proof/WellFormed.lean ====
section
/-! DEFINITION. Which commands are well formed: those whose operands fit the row they are written under (Tables 4, 51, 52, 58, 59). -/

namespace Sys2Proof

/-- A REQUEST's body is at most 520 bytes (Table 52), of which `before` stand before `body`. -/
def Request.wellFormed (before : Nat) (r : Request) : Bool := decide (before + r.body.length ≤ 520)

/-- The packet kinds a master sends (Table 51): REQUEST, ACK, NAK, IDLE, RESET. -/
def isMasterPacketKind (k : Byte) : Bool := k = 1 || k = 5 || k = 6 || k = 7 || k = 8

/-- The 18 request kinds (Table 4, Table 52). -/
def isRequestKind (k : Byte) : Bool := decide (1 ≤ k.toNat ∧ k.toNat ≤ 18)

/-- The item codes SET knows (Table 58). -/
def isSetCode (k : Byte) : Bool := decide (1 ≤ k.toNat ∧ k.toNat ≤ 9)

/-- The item codes GET can read (Tables 58 and 59). -/
def isGetCode (k : Byte) : Bool :=
  decide ((1 ≤ k.toNat ∧ k.toNat ≤ 7) ∨ (10 ≤ k.toNat ∧ k.toNat ≤ 23))

def Instr.wellFormed : Instr → Bool
  | .coldReset _ | .warmReset _ | .resetNRise _ | .hotPinChange _ _ => true
  | .trainingStart _ _ | .trainingComplete _ _ | .trainingTimeout _ _ | .signalLoss _ _ => true
  | .silenceTimeout _ _ | .resetPacket _ _ | .badCheckPacket _ _ => true
  | .requestDiscard _ _ _ r => r.wellFormed 0
  | .otherKindDiscard _ _ k => !isMasterPacketKind k
  | .ackReceived _ _ _ | .nakReceived _ _ _ | .idleReceived _ _ => true
  | .ackTimerExpiry _ _ | .keepaliveExpiry _ _ => true
  | .sendNak _ _ | .sendReplay _ _ | .sendInit _ _ | .sendResponse _ _ _ => true
  | .sendNotice _ _ | .sendAck _ _ | .sendIdle _ _ => true
  | .read _ _ r | .write _ _ r | .writePart _ _ r | .fence _ _ r => r.wellFormed 0
  | .fetchAdd _ _ r | .swap _ _ r | .compareSwap _ _ r | .watch _ _ r => r.wellFormed 0
  | .unwatch _ _ r | .noticeMask _ _ r | .regionSet _ _ r | .regionGet _ _ r => r.wellFormed 0
  | .repair _ _ r | .quiet _ _ r | .claim _ _ r | .release _ _ r => r.wellFormed 0
  | .setCloseIdle _ _ r | .setAgeLimit _ _ r | .setHotMode _ _ r => r.wellFormed 1
  | .setScrubInterval _ _ r | .setFaultThreshold _ _ r | .setAutoRepair _ _ r => r.wellFormed 1
  | .setQuietHold _ _ r | .wakeClear _ _ r | .countersClear _ _ r => r.wellFormed 1
  | .getCloseIdle _ _ r | .getAgeLimit _ _ r | .getHotMode _ _ r => r.wellFormed 1
  | .getScrubInterval _ _ r | .getFaultThreshold _ _ r | .getAutoRepair _ _ r => r.wellFormed 1
  | .getQuietHold _ _ r | .getClaimHolder _ _ r | .getQuietState _ _ r => r.wellFormed 1
  | .getWakeRecord _ _ r | .getRefreshDebt _ _ r | .getMissedRefreshCount _ _ r => r.wellFormed 1
  | .getCorrectedCounts _ _ r | .getScrubPointer _ _ r | .getLinkErrorCounts _ _ r => r.wellFormed 1
  | .getLostCount _ _ r | .getNoticeEnables _ _ r | .getFaultListSlot _ _ r => r.wellFormed 1
  | .getSpares _ _ r | .getRepairQueue _ _ r | .getCurrentJob _ _ r => r.wellFormed 1
  | .openRow _ _ _ | .openSpare _ _ _ | .close _ _ | .readLine _ _ _ _ | .writeLine _ _ _ => true
  | .refreshGroup _ _ | .retain _ | .resume _ | .programSoft _ _ _ | .programFuse _ _ _ => true
  | .pathOccupancyExpiry _ | .timingIntervalExpiry _ | .openDelayEnd _ _ | .closeDelayEnd _ _ => true
  | .groupRefreshEnd _ _ | .programmingEnd _ | .wakeTimerExpiry _ | .idleTimerExpiry _ _ => true
  | .rowOpenLimit _ _ | .groupExpiry _ | .recordAged _ _ _ | .scrubStepTimerExpiry _ => true
  | .idleHoldExpiry _ | .claimTimerExpiry _ => true
  | .unknownRequestKind _ _ k r => !isRequestKind k && r.wellFormed 0
  | .setUnknownItem _ _ r => !(r.body.head?.any isSetCode) && r.wellFormed 0
  | .getUnknownItem _ _ r => !(r.body.head?.any isGetCode) && r.wellFormed 0

end Sys2Proof
end

