-- ==== Sys2Proof/Decode.lean ====
section
/-! DEFINITION. The command a word spells by the bits of spec/opcode_table.json: no row of the table gives bits
(every row's "fields" is empty and none has "fixed"), so no word spells one. -/

namespace Sys2Proof

/-- No row of the table gives bits: every word spells none. -/
def decodeTableWord (_nbits _w : Nat) : Option Instr := none

end Sys2Proof
end

