-- ==== Sys2Proof/Machine/Timing.lean ====
section
/-! DEFINITION. The lengths of the part's intervals and timers (Tables 10, 33, 50, R157, R165, R176), in quarter nanoseconds. -/

namespace Sys2Proof.Machine

def ns (n : Nat) : Nat := 4 * n
def us (n : Nat) : Nat := ns (1000 * n)
def ms (n : Nat) : Nat := us (1000 * n)

/-- Open delay, 14 ns (Table 10). -/
def openDelay : Nat := ns 14
/-- Open minimum, 32 ns. -/
def openMinimum : Nat := ns 32
/-- Read-to-close, 8 ns. -/
def readToClose : Nat := ns 8
/-- Write recovery, 15 ns. -/
def writeRecovery : Nat := ns 15
/-- Close delay, 14 ns. -/
def closeDelay : Nat := ns 14
/-- Sibling spacing, 7 ns. -/
def siblingSpacing : Nat := ns 7
/-- Group spacing, 5 ns. -/
def groupSpacing : Nat := ns 5
/-- Activation window, 30 ns. -/
def windowLength : Nat := ns 30
/-- Access spacing in one group, 5 ns. -/
def accessSpacingSame : Nat := ns 5
/-- Access spacing between groups, 2.5 ns. -/
def accessSpacingOther : Nat := 10
/-- Turnaround in one group, 7.5 ns. -/
def turnaroundSame : Nat := 30
/-- Turnaround between groups, 2.5 ns. -/
def turnaroundOther : Nat := 10
/-- Path occupancy, 1.25 ns. -/
def pathOccupancy : Nat := 5
/-- Group refresh, 300 ns. -/
def groupRefresh : Nat := ns 300
/-- Row-open limit, 40 µs. -/
def rowOpenLength : Nat := us 40
/-- The quarter of the refresh interval in NORMAL, 1,000 ns (Table 33). -/
def quarterNormal : Nat := ns 1000
/-- The quarter of the refresh interval in HOT, 500 ns (Table 33). -/
def quarterHot : Nat := ns 500
/-- Soft programming, 1 µs (R17). -/
def softProgramming : Nat := us 1
/-- Fused programming, 200 µs (R17). -/
def fuseProgramming : Nat := us 200
/-- Wake delay, 10 µs (R157). -/
def wakeDelay : Nat := us 10
/-- Ack timer, 2 µs (R165). -/
def ackLength : Nat := us 2
/-- Keepalive timer, 100 µs (R165). -/
def keepaliveLength : Nat := us 100
/-- Silence timer, 1 ms (R161). -/
def silenceLength : Nat := ms 1
/-- Training timer, 1 ms (Table 50). -/
def trainingLength : Nat := ms 1
/-- Claim timer, 10 ms (R176). -/
def claimLength : Nat := ms 10
/-- One byte of a packet on the wire, 1 ns (R170). -/
def byteTime : Nat := ns 1

end Sys2Proof.Machine
end

