-- ==== Sys2Proof/Machine/State.lean ====
section
/-! DEFINITION. The state of the Bantrel T316, as plain data, and the state right after a cold reset. -/

namespace Sys2Proof.Machine

/-- A timer with three values: STOPPED, RUNNING (with the instant of its expiry) and EXPIRED (Tables 8 and 50).
A timer with two values, STOPPED and RUNNING, is an `Option Instant`: the instant of its expiry while it runs. -/
inductive Timer where
  | stopped
  | running (ends : Instant)
  | expired
deriving DecidableEq, Repr

/-! ## The array -/

/-- What a stored word's check bits say of it (R114): the word as written, that word with one or two bits wrong, with
more bits wrong, the poison mark, the poison mark with one check bit wrong. -/
inductive CheckState where
  | good
  | oneBad
  | twoBad
  | manyBad
  | poison
  | poisonOne
deriving DecidableEq, Repr

/-- The array's cells. `cells` gives the data bytes as last written, `marks` the check state of the words; an address not
listed reads as zero, a word not listed is good (notes/assumptions/5.md). Addresses below 2^31 are array addresses; the
spare rows' cells follow (R131). -/
structure Memory where
  cells : List Host.Cell
  marks : List (Nat × CheckState)
deriving DecidableEq, Repr

/-- A word as the check-bit unit hands it on: data, or poisoned (R114). -/
inductive CheckedWord where
  | data (w : Word)
  | poisoned
deriving DecidableEq, Repr

/-! ## The bank table -/

/-- Bank states (Table 9); `opened` is the manual's OPEN. -/
inductive BankState where
  | closed
  | opening
  | opened
  | closing
  | refreshing
  | repairing
  | retained
deriving DecidableEq, Repr

/-- The close marks of a bank: a set of causes (R21). -/
structure CloseMarks where
  openLimit : Bool
  urgentRefresh : Bool
  retention : Bool
  repair : Bool
deriving DecidableEq, Repr

/-- A bank record (Table 8). The repair phase is stored with the current job (`CurrentJob.phase`). -/
structure Bank where
  state : BankState
  openRow : Option RowId
  servedBy : Option SpareId
  streak : Nat
  firstStart : Bool
  lastOpen : Option Instant
  lastRead : Option Instant
  lastWrite : Option Instant
  lastClose : Option Instant
  lastRefresh : Option Instant
  idle : Timer
  openAge : Timer
  marks : CloseMarks
  /-- The bank was OPENING or OPEN at a warm reset: the part closes it on its own (R24). -/
  resetClose : Bool
  /-- A warm reset made the idle timer of this OPEN bank STOPPED (R24): it starts again at the next start of R19 or R22. -/
  idleReset : Bool
deriving DecidableEq, Repr

/-! ## Status codes, and what GET returns -/

/-- Status codes, in the order of Table 55. -/
inductive Status where
  | ok | casMiss | poisoned | full | notReady | malformed | split | tagBusy | noRegion
  | changing | denied | tableFull | noWatch | claimed | notClaimed | busy | overlap | noSpare
deriving DecidableEq, Repr

/-- A port's rights in a region (R87). -/
inductive Rights where
  | none | read | readWrite
deriving DecidableEq, Repr

inductive RegionState where
  | active | draining | disabled
deriving DecidableEq, Repr

/-- The range, rights and permissions of a region record (Table 29). -/
structure RegionBody where
  base : Nat
  limit : Nat
  rights : PerPort Rights
  atomics : Bool
  posting : Bool
  watches : Bool
deriving DecidableEq, Repr

/-- A pending replacement: what a REGION_SET carried (R87). -/
structure Replacement where
  enable : Bool
  body : RegionBody
deriving DecidableEq, Repr

/-- A region record (Table 29). -/
structure Region where
  state : RegionState
  body : RegionBody
  inFlight : Nat
  replacement : Option Replacement
deriving DecidableEq, Repr

inductive Vote where
  | awake | quiet
deriving DecidableEq, Repr

/-- The part states (Table 48). -/
inductive PartState where
  | active | settling | entering | retained | waking
deriving DecidableEq, Repr

inductive WakeCause where
  | request | vote | portOnline
deriving DecidableEq, Repr

/-- A port's enable set of optional notice kinds (R80). -/
structure Enables where
  integrity : Bool
  repairDone : Bool
  quietState : Bool
  claimLost : Bool
deriving DecidableEq, Repr

/-- The four link error counts (R167). -/
structure ErrorCounts where
  checkFailures : Nat
  seqDiscards : Nat
  strayAcks : Nat
  linkDrops : Nat
deriving DecidableEq, Repr

/-- A fault list entry (Table 38). -/
structure FaultEntry where
  bank : BankId
  row : RowId
  count : Nat
  stamp : Stamp
deriving DecidableEq, Repr

/-- Spare states (Table 43). -/
inductive SpareState where
  | free | soft | fused | retiredSoft | retiredFused
deriving DecidableEq, Repr

/-- A spare record (Table 42). -/
structure Spare where
  state : SpareState
  mapped : Option RowId
deriving DecidableEq, Repr

inductive RepairMode where
  | soft | fused
deriving DecidableEq, Repr

/-- The phases of a repair job (R133), which are the repair phases of its bank (R22). -/
inductive RepairPhase where
  | wait | copyOut | program | copyIn
deriving DecidableEq, Repr

/-- What a GET of the current job returns of it (R146). -/
structure JobView where
  bank : BankId
  row : RowId
  mode : RepairMode
  phase : RepairPhase
  chosen : SpareId
  previous : Option SpareId
  linesRead : Nat
  linesWritten : Nat
  poisonedWords : Nat
deriving DecidableEq, Repr

/-- A queued job as GET returns it (R146). -/
structure QueuedView where
  bank : BankId
  row : RowId
  mode : RepairMode
  requesters : Nat
deriving DecidableEq, Repr

/-- The values GET and REGION_GET return (R100, R182, Tables 58 and 59). -/
inductive Item where
  | setting (v : Nat)
  | claimHolder (p : Option Port)
  | quietState (part : PartState) (votes : PerPort (Option Vote))
  | wakeRecord (w : Option (WakeCause × Port))
  | refreshDebt (d : Int)
  | missedCount (n : Nat)
  | counts (corrected uncorrectable : Nat)
  | scrubPointer (line : LineId) (passes : Nat)
  | linkErrors (c : ErrorCounts)
  | lostCount (n : Nat)
  | enables (e : Enables)
  | faultSlot (e : Option FaultEntry)
  | spares (t : Table 4 Spare)
  | repairQueue (js : List QueuedView)
  | currentJob (j : Option JobView)
  | region (r : Region)
deriving DecidableEq, Repr

/-- The data a result carries besides its status (Table 53). -/
inductive ResultData where
  | none
  /-- A READ's lines, in ascending order, eight words each. -/
  | lines (ls : List (List CheckedWord))
  /-- An atomic's old word. -/
  | oldWord (w : Word)
  /-- A WATCH's id and word; the word is absent when poisoned (R70). -/
  | watch (id : Option WatchId) (word : Option Word)
  /-- The claim holder, for CLAIMED. -/
  | holder (p : Port)
  /-- A REPAIR's spare and poisoned word count. -/
  | repair (spare : Option SpareId) (poisonedWords : Nat)
  | item (i : Item)
deriving DecidableEq, Repr

structure Result where
  status : Status
  data : ResultData
deriving DecidableEq, Repr

/-! ## Request records -/

/-- What a REGION_SET carries, as its body gives it (R163). -/
structure RegionSetParams where
  index : Nat
  enable : Bool
  base : Nat
  limit : Nat
  rightsA : Nat
  rightsB : Nat
  rightsC : Nat
  atomics : Bool
  posting : Bool
  watches : Bool
deriving DecidableEq, Repr

/-- A request's kind with the fields that are present for it: address, line count, write data, byte mask, operands or
control parameters (Table 13). -/
inductive ReqOp where
  | read (addr : Addr) (count : Nat)
  /-- `data`: eight words for each line. -/
  | write (addr : Addr) (count : Nat) (data : List Word)
  /-- `mask`: bit k of its byte j is byte 8j + k of the line; `data`: the line's eight words. -/
  | writePart (addr : Addr) (mask : List Byte) (data : List Word)
  | fence
  | fetchAdd (addr : Addr) (addend : Word)
  | swap (addr : Addr) (new : Word)
  | compareSwap (addr : Addr) (compare new : Word)
  | watch (addr : Addr)
  | unwatch (id : Nat)
  | noticeMask (e : Enables)
  | regionSet (ps : RegionSetParams)
  | regionGet (index : Nat)
  | repair (bank : BankId) (row : RowId) (mode : RepairMode)
  | quiet (vote : Nat)
  | claim
  | release
  | set (code : Nat) (value : Nat)
  | get (code : Nat) (param : Option Nat)
deriving DecidableEq, Repr

inductive RecState where
  | waiting | ready | active | done
deriving DecidableEq, Repr

/-- Blocked reasons, in the order of Table 15. -/
inductive BlockReason where
  | retention | fence | order | hold | bank
deriving DecidableEq, Repr

/-- A request record (Table 13). `readLines` holds the checked lines read for it so far (R39, R59), `since` the instant of
its admission, from which its age runs (R36). -/
structure Record where
  port : Port
  tag : Tag
  op : ReqOp
  posted : Bool
  region : Option RegionIx
  stamp : Stamp
  state : RecState
  blocked : Option BlockReason
  aged : Bool
  linesDone : Nat
  readLines : List (List CheckedWord)
  result : Option Result
  doneAt : Option Instant
  since : Instant
deriving DecidableEq, Repr

/-! ## Holds, watches, notices -/

/-- Who holds a line (Table 21). -/
inductive Holder where
  | request (port : Port) (stamp : Stamp)
  | scrubber
deriving DecidableEq, Repr

structure Hold where
  line : LineId
  holder : Holder
deriving DecidableEq, Repr

/-- A watch entry; its id is its place in the watch table (Table 25). -/
structure Watch where
  owner : Port
  line : LineId
deriving DecidableEq, Repr

/-- The cause of a WATCH_ENDED (Table 26). -/
inductive WatchCause where
  | written (writer : Port)
  | cancelled
deriving DecidableEq, Repr

/-- A notice, by kind (and, for INTEGRITY, by subkind), with its fields (Table 26). -/
inductive Notice where
  | watchEnded (id : WatchId) (line : LineId) (cause : WatchCause)
  | error (tag : Tag) (status : Status)
  | uncorrectable (addr : Addr)
  | refreshMissed (group : GroupId)
  | repairAdvised (bank : BankId) (row : RowId)
  | repairDone (bank : BankId) (row : RowId) (spare : Option SpareId) (status : Status) (poisonedWords : Nat)
  | quietRetained
  | quietActive
  | claimLost
  | overflow (count : Nat)
deriving DecidableEq, Repr

/-- A port's notice queue, lost count and enable set (R76). -/
structure NoticeQueue where
  queue : List Notice
  lost : Nat
  enables : Enables
deriving DecidableEq, Repr

/-! ## The links -/

/-- What a part-to-port packet is (Table 51). -/
inductive Content where
  | response (tag : Tag) (result : Result)
  | notice (n : Notice)
  | init
  | ack
  | nak
  | idle
deriving DecidableEq, Repr

/-- A part-to-port packet: its header's sequence, ack field and free count, and what it is (R162). -/
structure Packet where
  seq : Byte
  ackField : Byte
  free : Nat
  content : Content
deriving DecidableEq, Repr

/-- A packet put on the wire, and the instant at which its last byte has gone (R170). -/
structure Transmission where
  packet : Packet
  ends : Instant
deriving DecidableEq, Repr

/-- A response to a refused request, waiting in the refusal list (R32), with its refusal instant (R170). -/
structure RefusedResponse where
  tag : Tag
  status : Status
  since : Instant
deriving DecidableEq, Repr

inductive LinkState where
  | down | training | up
deriving DecidableEq, Repr

/-- A link controller's state (Table 50). `replayAt` is the place, from the oldest, of the packet at the replay position. -/
structure Link where
  state : LinkState
  expected : Byte
  nakOutstanding : Bool
  nakDue : Bool
  sendSeq : Byte
  replay : List Packet
  replayAt : Option Nat
  initPending : Bool
  refusals : List RefusedResponse
  ackTimer : Timer
  keepalive : Timer
  silence : Option Instant
  training : Option Instant
  errors : ErrorCounts
  transmitter : Option Transmission
deriving DecidableEq, Repr

/-! ## The background blocks -/

/-- The refresh controller (Table 32). -/
structure Refresh where
  debt : Table 4 Int
  urgentAt : Table 4 (Option Instant)
  missed : Table 4 Nat
  rotation : GroupId
  quarter : Option Instant
deriving DecidableEq, Repr

/-- The check-bit unit's counts and fault list (R119, R120). -/
structure CheckUnit where
  corrected : Nat
  uncorrectable : Nat
  faults : Table 16 (Option FaultEntry)
deriving DecidableEq, Repr

inductive StepState where
  | none | started | holding | pending
deriving DecidableEq, Repr

/-- The scrubber (Table 41). `sweepAt` is the number of the next line the sweep writes; it is 33,554,432 after the last. -/
structure Scrubber where
  pointer : LineId
  passes : Nat
  timer : Option Instant
  step : StepState
  kept : List (WordIx × CheckedWord)
  sweepDone : Bool
  sweepAt : Nat
deriving DecidableEq, Repr

/-- A requester of a job (Table 44). -/
structure Requester where
  port : Port
  stamp : Stamp
  tag : Tag
deriving DecidableEq, Repr

/-- A repair job's fields that are always present (Table 44). -/
structure Job where
  bank : BankId
  row : RowId
  mode : RepairMode
  requesters : List Requester
deriving DecidableEq, Repr

/-- The current job's record (Table 44), with the end of its programming (R17). -/
structure CurrentJob where
  job : Job
  phase : RepairPhase
  chosen : SpareId
  previous : Option SpareId
  linesRead : Nat
  linesWritten : Nat
  poisonedWords : Nat
  programEnds : Option Instant
deriving DecidableEq, Repr

/-- The quiet controller (Table 47). -/
structure Quiet where
  part : PartState
  votes : PerPort (Option Vote)
  holdTimer : Option Instant
  wakeTimer : Option Instant
  wakeRecord : Option (WakeCause × Port)
deriving DecidableEq, Repr

/-- The claim (R176). -/
structure Claim where
  holder : Option Port
  timer : Option Instant
deriving DecidableEq, Repr

/-- The settings, in the units of SET (Table 58, R180). -/
structure Settings where
  closeIdle : Nat
  ageLimit : Nat
  hotMode : Nat
  scrubInterval : Nat
  faultThreshold : Nat
  autoRepair : Nat
  quietHold : Nat
deriving DecidableEq, Repr

/-! ## The state -/

structure State where
  /-- The commands that wait, first in first out. -/
  pending : List Instr
  /-- The present instant. -/
  now : Instant
  /-- The model's own counter for the free values (notes/assumptions/3.md). -/
  freeCount : Nat
  /-- RESET_N's level: true is high. -/
  resetN : Bool
  /-- HOT's level: true is high. -/
  hotPin : Bool
  mem : Memory
  banks : Table 16 Bank
  window : List Instant
  /-- The end of the path's occupancy while it is busy (R4). -/
  pathBusy : Option Instant
  stampCounter : Stamp
  queues : PerPort (List Record)
  detached : List Record
  holds : List Hold
  watches : Table 32 (Option Watch)
  notices : PerPort NoticeQueue
  regions : Table 8 Region
  refresh : Refresh
  checks : CheckUnit
  scrub : Scrubber
  remap : Table 16 (Table 4 Spare)
  repairQueue : List Job
  currentJob : Option CurrentJob
  /-- The lines the repair buffer has received, in ascending order (R133). -/
  repairBuffer : List (List CheckedWord)
  quiet : Quiet
  links : PerPort Link
  claim : Claim
  settings : Settings
deriving DecidableEq, Repr

/-- No step of this part stops with a fault: the manual answers what it cannot do with a status or a notice (Table 55),
and does not issue what is not legal (R4). -/
inductive Fault where
deriving DecidableEq, Repr

/-- The only refusal is the interface's own. -/
inductive Refusal where
  /-- Raised by `exec` alone, for a command that has no meaning yet; safe. No command of this model raises it. -/
  | notModelled (mnemonic : String)
deriving DecidableEq, Repr

/-! ## Reset values -/

/-- No close mark. -/
def CloseMarks.empty : CloseMarks := ⟨false, false, false, false⟩

/-- A bank record at cold reset (R23). -/
def Bank.reset : Bank :=
  { state := .closed, openRow := none, servedBy := none, streak := 0, firstStart := false, lastOpen := none,
    lastRead := none, lastWrite := none, lastClose := none, lastRefresh := none, idle := .stopped,
    openAge := .stopped, marks := .empty, resetClose := false, idleReset := false }

/-- All four optional kinds enabled (R80). -/
def Enables.all : Enables := ⟨true, true, true, true⟩

/-- A port's notices after a reset or a teardown (R84, R85). -/
def NoticeQueue.reset : NoticeQueue := { queue := [], lost := 0, enables := .all }

/-- Region 0 after a reset (R91). -/
def Region.whole : Region :=
  { state := .active, inFlight := 0, replacement := none,
    body := { base := 0, limit := 524287, rights := .all .readWrite, atomics := true, posting := true, watches := true } }

/-- Regions 1 to 7 after a reset (R91). -/
def Region.off : Region :=
  { state := .disabled, inFlight := 0, replacement := none,
    body := { base := 0, limit := 0, rights := .all .none, atomics := false, posting := false, watches := false } }

def regionsReset : Table 8 Region := (Table.replicate 8 Region.off).set 0 Region.whole

def ErrorCounts.zero : ErrorCounts := ⟨0, 0, 0, 0⟩

/-- A link at cold reset (R174). -/
def Link.reset : Link :=
  { state := .down, expected := 0, nakOutstanding := false, nakDue := false, sendSeq := 0, replay := [],
    replayAt := none, initPending := false, refusals := [], ackTimer := .stopped, keepalive := .stopped,
    silence := none, training := none, errors := .zero, transmitter := none }

/-- The settings' defaults (Table 58). -/
def Settings.default : Settings :=
  { closeIdle := 500, ageLimit := 4, hotMode := 0, scrubInterval := 8, faultThreshold := 4, autoRepair := 0,
    quietHold := 100 }

/-- The refresh controller at cold reset, its first quarter ending at `ends` (R111). -/
def Refresh.reset (ends : Instant) : Refresh :=
  { debt := .replicate 4 0, urgentAt := .replicate 4 none, missed := .replicate 4 0, rotation := 0,
    quarter := some ends }

/-- The check-bit unit after a reset (R130). -/
def CheckUnit.reset : CheckUnit := { corrected := 0, uncorrectable := 0, faults := .replicate 16 none }

/-- The scrubber at cold reset: the initial sweep begins (R128, R130). -/
def Scrubber.reset : Scrubber :=
  { pointer := 0, passes := 0, timer := none, step := .none, kept := [], sweepDone := false, sweepAt := 0 }

/-- The quiet controller at cold reset (R159). -/
def Quiet.reset : Quiet :=
  { part := .active, votes := .all none, holdTimer := none, wakeTimer := none, wakeRecord := none }

def Spare.unused : Spare := { state := .free, mapped := none }

/-- The part right after a cold reset at instant 0, RESET_N high and HOT low, with no spare ever fused
(R23, R53, R68, R85, R91, R111, R130, R147, R159, R174, R183; notes/assumptions/4.md to 7.md for what the rules leave open). -/
def State.reset : State :=
  { pending := [], now := 0, freeCount := 0, resetN := true, hotPin := false,
    mem := { cells := [], marks := [] },
    banks := .replicate 16 Bank.reset, window := [], pathBusy := none, stampCounter := 0,
    queues := .all [], detached := [], holds := [], watches := .replicate 32 none,
    notices := .all NoticeQueue.reset, regions := regionsReset, refresh := .reset quarterNormal,
    checks := .reset, scrub := .reset, remap := .replicate 16 (.replicate 4 Spare.unused),
    repairQueue := [], currentJob := none, repairBuffer := [], quiet := .reset, links := .all Link.reset,
    claim := { holder := none, timer := none }, settings := .default }

end Sys2Proof.Machine
end

