-- ==== Sys2Proof/Machine/Fields.lean ====
section
/-! DEFINITION. Address fields (R1, Table 6), pages (5.1) and byte order (R59, R162). -/

namespace Sys2Proof.Machine

/-! ## Lines by number: row, bank, line in row -/

/-- The row of a line (Table 6: A[30:15]). -/
def lineRow (l : LineId) : RowId := ⟨l.val / 512, by omega⟩

/-- The bank of a line: 4 × group + bank in group (R1; A[14:11]). -/
def lineBank (l : LineId) : BankId := ⟨l.val / 32 % 16, by omega⟩

/-- The line in row of a line (A[10:6]). -/
def lineIx (l : LineId) : LineIx := ⟨l.val % 32, by omega⟩

/-- The line of a row of a bank. -/
def mkLine (row : RowId) (bank : BankId) (line : LineIx) : LineId :=
  ⟨row.val * 512 + bank.val * 32 + line.val, by omega⟩

/-- The page of a line: A[30:12]. -/
def linePage (l : LineId) : Nat := l.val / 64

/-- The group of a bank: b div 4 (R1). -/
def groupOf (b : BankId) : GroupId := ⟨b.val / 4, by omega⟩

/-- Whether two banks are of one group. -/
def sameGroup (b k : BankId) : Bool := decide (groupOf b = groupOf k)

/-! ## Array addresses -/

/-- The line of an address, by number. -/
def addrLine (a : Addr) : LineId := ⟨a.toNat / 64, by have := a.isLt; omega⟩

/-- The word of an address within its line: byte in line div 8 (R1). -/
def addrWord (a : Addr) : WordIx := ⟨a.toNat % 64 / 8, by omega⟩

def lineAligned (a : Addr) : Bool := decide (a.toNat % 64 = 0)
def wordAligned (a : Addr) : Bool := decide (a.toNat % 8 = 0)

/-- The line address of a line. -/
def lineAddr (l : LineId) : Addr := BitVec.ofNat 31 (l.val * 64)

/-- The array address of a word of a line. -/
def wordAddr (l : LineId) (w : WordIx) : Addr := BitVec.ofNat 31 (l.val * 64 + w.val * 8)

/-! ## Byte order: least significant byte first (R59, R162) -/

/-- The number whose bytes, least significant first, are `bs`. -/
def leNat : List Byte → Nat
  | [] => 0
  | b :: bs => b.toNat + 256 * leNat bs

/-- The `n` low bytes of `v`, least significant first. -/
def leBytes : Nat → Nat → List Byte
  | 0, _ => []
  | n + 1, v => BitVec.ofNat 8 v :: leBytes n (v / 256)

/-- The word whose eight bytes, at rising addresses, are `bs` (R59). -/
def wordOfBytes (bs : List Byte) : Word := BitVec.ofNat 64 (leNat bs)

/-- A word's eight bytes, at rising addresses. -/
def wordBytes (w : Word) : List Byte := leBytes 8 w.toNat

/-- Whole words of a run of bytes; bytes beyond the last whole word are left out. -/
def wordsOfBytes : List Byte → List Word
  | b0 :: b1 :: b2 :: b3 :: b4 :: b5 :: b6 :: b7 :: bs =>
      wordOfBytes [b0, b1, b2, b3, b4, b5, b6, b7] :: wordsOfBytes bs
  | _ => []

end Sys2Proof.Machine
end

