-- ==== Sys2Proof/Machine/Memory.lean ====
section
/-! DEFINITION. The array's cells: sparse lists in one canonical form, words with their check state, and where an open
row's words lie (R2, R10, R114, R117, R131). -/

namespace Sys2Proof.Machine

/-! ## Sparse lists: keys strictly rising, no entry equal to what an unlisted key reads as -/

section Sparse

variable {α : Type} [DecidableEq α]

/-- The value at key `a`; an unlisted key reads as `d`. -/
def sparseGet (d : α) : List (Nat × α) → Nat → α
  | [], _ => d
  | (k, v) :: t, a => if a < k then d else if a = k then v else sparseGet d t a

/-- Write `x` at key `a`; writing `d` takes the entry out. -/
def sparseSet (d : α) : List (Nat × α) → Nat → α → List (Nat × α)
  | [], a, x => if x = d then [] else [(a, x)]
  | (k, v) :: t, a, x =>
      if a < k then (if x = d then (k, v) :: t else (a, x) :: (k, v) :: t)
      else if a = k then (if x = d then t else (a, x) :: t)
      else (k, v) :: sparseSet d t a x

/-- Every key of the list is at least `lo`, the keys rise strictly, and no entry holds `d`. -/
def sparseWf (d : α) : Nat → List (Nat × α) → Bool
  | _, [] => true
  | lo, (k, v) :: t => decide (lo ≤ k) && decide (v ≠ d) && sparseWf d (k + 1) t

end Sparse

/-! ## The array -/

/-- What an unlisted byte reads as (notes/assumptions/5.md). -/
def unlistedByte : Byte := 0

/-- The canonical form of the array's cells. -/
def Memory.wf (m : Memory) : Bool := sparseWf unlistedByte 0 m.cells && sparseWf CheckState.good 0 m.marks

def Memory.byte (m : Memory) (a : Nat) : Byte := sparseGet unlistedByte m.cells a
def Memory.mark (m : Memory) (a : Nat) : CheckState := sparseGet CheckState.good m.marks a

def Memory.setByte (m : Memory) (a : Nat) (b : Byte) : Memory := { m with cells := sparseSet unlistedByte m.cells a b }
def Memory.setMark (m : Memory) (a : Nat) (c : CheckState) : Memory := { m with marks := sparseSet CheckState.good m.marks a c }

/-- The eight bytes from `a` on, as a word (R59). -/
def Memory.word (m : Memory) (a : Nat) : Word := wordOfBytes ((List.range 8).map (fun i => m.byte (a + i)))

/-- Store bytes at rising addresses from `a`. -/
def Memory.setBytes (m : Memory) (a : Nat) : List Byte → Memory
  | [] => m
  | b :: bs => (m.setByte a b).setBytes (a + 1) bs

/-- Store one word with the check bits the check-bit unit supplies: data with good check bits, or the poison mark with
its data bits zero (R117). -/
def Memory.storeWord (m : Memory) (a : Nat) : CheckedWord → Memory
  | .data w => (m.setBytes a (wordBytes w)).setMark a .good
  | .poisoned => (m.setBytes a (wordBytes 0)).setMark a .poison

/-- One more bit of a stored word goes wrong, a check bit or a data bit (notes/assumptions/9.md). The poison mark stands in the check
bits alone, so a wrong data bit leaves a marked word marked (R114). -/
def CheckState.flip (inCheck : Bool) : CheckState → CheckState
  | .good => .oneBad
  | .oneBad => .twoBad
  | .twoBad => .manyBad
  | .manyBad => .manyBad
  | .poison => if inCheck then .poisonOne else .poison
  | .poisonOne => if inCheck then .manyBad else .poisonOne

/-- The cell address of the first byte of a line of what a bank has open: the row's own cells, or the spare's that serves
it (R2, R131). -/
def lineCell (bank : BankId) (row : RowId) (servedBy : Option SpareId) (line : LineIx) : Nat :=
  match servedBy with
  | none => row.val * 32768 + bank.val * 2048 + line.val * 64
  | some sp => Config.arrayBytes + (bank.val * 4 + sp.val) * 2048 + line.val * 64

/-- The cell address of a word of a line that begins at `base`. -/
def wordCell (base : Nat) (w : WordIx) : Nat := base + w.val * 8

/-- The eight words of a line. -/
def allWords : List WordIx := [0, 1, 2, 3, 4, 5, 6, 7]

/-- Let bits of a line's words go wrong, one for each entry. -/
def Memory.flipBits (m : Memory) (base : Nat) : List Flip → Memory
  | [] => m
  | f :: fs =>
      (m.setMark (wordCell base f.word) ((m.mark (wordCell base f.word)).flip f.inCheck)).flipBits base fs

/-! ## Reading a word through its check bits (R114, Table 37) -/

/-- The outcomes of Table 37. -/
inductive WordOutcome where
  | clean (w : Word)
  | corrected (w : Word)
  | uncorrectable
  | poisoned
deriving DecidableEq, Repr

/-- The free outcome of a word with more than two wrong bits (notes/assumptions/9.md). -/
def manyBadOutcome (k : Nat) (w : WordIx) : WordOutcome :=
  match Config.manyBadOutcome k w.val % 4 with
  | 0 => .clean (Config.manyBadData k w.val)
  | 1 => .corrected (Config.manyBadData k w.val)
  | 2 => .uncorrectable
  | _ => .poisoned

/-- The outcome of reading word `w` of the line whose cells begin at `base`; `k` feeds the free values. -/
def Memory.readWord (m : Memory) (k : Nat) (base : Nat) (w : WordIx) : WordOutcome :=
  match m.mark (wordCell base w) with
  | .good => .clean (m.word (wordCell base w))
  | .oneBad => .corrected (m.word (wordCell base w))
  | .twoBad => .uncorrectable
  | .manyBad => manyBadOutcome k w
  | .poison => .poisoned
  | .poisonOne => .poisoned

/-- The checked value handed on (Table 37). -/
def WordOutcome.checked : WordOutcome → CheckedWord
  | .clean w => .data w
  | .corrected w => .data w
  | .uncorrectable => .poisoned
  | .poisoned => .poisoned

/-- The outcomes of a line's eight words. -/
def Memory.readLine (m : Memory) (k : Nat) (base : Nat) : List WordOutcome := allWords.map (m.readWord k base)

/-- The write-back within a request's read: CORRECTED words with their corrected data, UNCORRECTABLE words with the poison
mark (R115). -/
def Memory.writeBack (m : Memory) (base : Nat) : List (WordIx × WordOutcome) → Memory
  | [] => m
  | (w, .corrected d) :: t => (m.storeWord (wordCell base w) (.data d)).writeBack base t
  | (w, .uncorrectable) :: t => (m.storeWord (wordCell base w) .poisoned).writeBack base t
  | (_, .clean _) :: t => m.writeBack base t
  | (_, .poisoned) :: t => m.writeBack base t

/-- Store the enabled words of a line; the others keep their contents and check bits (R10, R117). -/
def Memory.storeLine (m : Memory) (base : Nat) : List (WordIx × CheckedWord) → Memory
  | [] => m
  | (w, x) :: t => (m.storeWord (wordCell base w) x).storeLine base t

end Sys2Proof.Machine
end

