-- ==== Sys2Proof/Machine/Ops.lean ====
section
/-! DEFINITION. The named operations over the state: reading and replacing one entry of a table, counting up to a limit,
and placing notices (R76, R78, R80, R81). -/

namespace Sys2Proof.Machine

/-! ## One entry of a table -/

def State.bank (s : State) (b : BankId) : Bank := s.banks.get b
def State.setBank (s : State) (b : BankId) (x : Bank) : State := { s with banks := s.banks.set b x }
def State.queue (s : State) (p : Port) : List Record := s.queues.get p
def State.setQueue (s : State) (p : Port) (q : List Record) : State := { s with queues := s.queues.set p q }
def State.noticeQ (s : State) (p : Port) : NoticeQueue := s.notices.get p
def State.setNoticeQ (s : State) (p : Port) (q : NoticeQueue) : State := { s with notices := s.notices.set p q }
def State.region (s : State) (i : RegionIx) : Region := s.regions.get i
def State.setRegion (s : State) (i : RegionIx) (r : Region) : State := { s with regions := s.regions.set i r }
def State.link (s : State) (p : Port) : Link := s.links.get p
def State.setLink (s : State) (p : Port) (l : Link) : State := { s with links := s.links.set p l }
def State.vote (s : State) (p : Port) : Option Vote := s.quiet.votes.get p
def State.setVote (s : State) (p : Port) (v : Option Vote) : State :=
  { s with quiet := { s.quiet with votes := s.quiet.votes.set p v } }
def State.spares (s : State) (b : BankId) : Table 4 Spare := s.remap.get b
def State.setSpare (s : State) (b : BankId) (sp : SpareId) (x : Spare) : State :=
  { s with remap := s.remap.set b ((s.remap.get b).set sp x) }
def State.setWatch (s : State) (i : WatchId) (w : Option Watch) : State := { s with watches := s.watches.set i w }
def State.setMem (s : State) (m : Memory) : State := { s with mem := m }
def State.setHolds (s : State) (h : List Hold) : State := { s with holds := h }
def State.setScrub (s : State) (x : Scrubber) : State := { s with scrub := x }
def State.setQuiet (s : State) (q : Quiet) : State := { s with quiet := q }
def State.setRefresh (s : State) (r : Refresh) : State := { s with refresh := r }
def State.setChecks (s : State) (c : CheckUnit) : State := { s with checks := c }
def State.setClaim (s : State) (c : Claim) : State := { s with claim := c }
def State.setSettings (s : State) (c : Settings) : State := { s with settings := c }
def State.setJob (s : State) (j : Option CurrentJob) : State := { s with currentJob := j }

/-- A port is online while its link is UP (Conventions, Ports). -/
def State.online (s : State) (p : Port) : Bool := decide ((s.link p).state = .up)

/-- The repair phase a bank holds: that of the current job, if the job is on the bank (R22, Table 8). -/
def State.repairPhase (s : State) (b : BankId) : Option RepairPhase :=
  match s.currentJob with
  | some j => if j.job.bank = b then some j.phase else none
  | none => none

/-- The effective hot mode (R104). -/
def State.hot (s : State) : Bool := decide (s.settings.hotMode = 1) || s.hotPin

/-- The quarter that starts now (R103, Table 33). -/
def State.quarterLength (s : State) : Nat := if s.hot then quarterHot else quarterNormal

/-- The free count of a port (R51). -/
def State.freeSlots (s : State) (p : Port) : Nat := Config.queueDepth - (s.queue p).length

/-- Every request record of the part: those in the queues and the detached ones. -/
def State.records (s : State) : List Record := s.queue .a ++ s.queue .b ++ s.queue .c ++ s.detached

/-- Count one more, up to `top`. -/
def countUp (top n : Nat) : Nat := if n < top then n + 1 else n

/-- The top of a 16-bit count. -/
def top16 : Nat := 65535
/-- The top of a 32-bit count (R119). -/
def top32 : Nat := 4294967295

/-- The instant at which a timer of two values is over, now or before. -/
def State.reached (s : State) (t : Option Instant) : Bool :=
  match t with
  | some e => decide (e ≤ s.now)
  | none => false

/-- A RUNNING timer of three values is over. -/
def State.over (s : State) (t : Timer) : Bool :=
  match t with
  | .running e => decide (e ≤ s.now)
  | .stopped => false
  | .expired => false

/-- At least `len` has passed since the instant `t`, or there was none (R5). -/
def State.since (s : State) (t : Option Instant) (len : Nat) : Bool :=
  match t with
  | some i => decide (i + len ≤ s.now)
  | none => true

/-! ## Placing notices -/

/-- A notice copy reaches a port's queue: it joins, or is dropped and counted (R81). A port that is not online receives
nothing and counts nothing (R78). -/
def State.placeNotice (s : State) (p : Port) (n : Notice) : State :=
  if s.online p then
    let q := s.noticeQ p
    if q.queue.length < Config.noticeDepth then s.setNoticeQ p { q with queue := q.queue ++ [n] }
    else s.setNoticeQ p { q with lost := countUp 255 q.lost }
  else s

/-- A copy to a port if its enable set holds the kind (R78, R80). -/
def State.placeIf (s : State) (want : Enables → Bool) (n : Notice) (p : Port) : State :=
  if want (s.noticeQ p).enables then s.placeNotice p n else s

/-- A copy to each enabling port (R78). -/
def State.broadcast (s : State) (want : Enables → Bool) (n : Notice) : State :=
  ((s.placeIf want n .a).placeIf want n .b).placeIf want n .c

/-! ## Changing records in place -/

/-- Change the records of every queue and the detached ones. -/
def State.mapRecords (s : State) (f : Record → Record) : State :=
  { s with queues := s.queues.map (fun q => q.map f), detached := s.detached.map f }

/-- Change the record of that stamp, wherever it stands (a stamp names one record, R35). -/
def State.modRecord (s : State) (st : Stamp) (f : Record → Record) : State :=
  s.mapRecords (fun r => if r.stamp = st then f r else r)

/-- Change every bank record. -/
def State.mapBanks (s : State) (f : BankId → Bank → Bank) : State :=
  { s with banks := .ofFn (fun b => f b (s.bank b)) }

end Sys2Proof.Machine
end

