-- ==== Sys2Proof/Machine/Flags.lean ====
section
/-! DEFINITION. The conditions the blocks evaluate: kinds of requests and their lines (R25), holds (R54, R55), the waiting
conditions (R27), the settling conditions (R150) and the idle-timer condition (R18, R19). -/

namespace Sys2Proof.Machine

/-! ## Kinds (R25) -/

namespace ReqOp

/-- The lines of a request, as its first line and their number (R25). -/
def span : ReqOp → Option (LineId × Nat)
  | .read a n => some (addrLine a, n)
  | .write a n _ => some (addrLine a, n)
  | .writePart a _ _ => some (addrLine a, 1)
  | .fetchAdd a _ => some (addrLine a, 1)
  | .swap a _ => some (addrLine a, 1)
  | .compareSwap a _ _ => some (addrLine a, 1)
  | .watch a => some (addrLine a, 1)
  | .fence | .unwatch _ | .noticeMask _ | .regionSet _ | .regionGet _ | .repair _ _ _ | .quiet _ | .claim | .release
  | .set _ _ | .get _ _ => none

/-- FETCH_ADD, SWAP, COMPARE_SWAP. -/
def isAtomic : ReqOp → Bool
  | .fetchAdd _ _ | .swap _ _ | .compareSwap _ _ _ => true
  | .read _ _ | .write _ _ _ | .writePart _ _ _ | .fence | .watch _ | .unwatch _ | .noticeMask _ | .regionSet _
  | .regionGet _ | .repair _ _ _ | .quiet _ | .claim | .release | .set _ _ | .get _ _ => false

def isFence : ReqOp → Bool
  | .fence => true
  | .read _ _ | .write _ _ _ | .writePart _ _ _ | .fetchAdd _ _ | .swap _ _ | .compareSwap _ _ _ | .watch _ | .unwatch _
  | .noticeMask _ | .regionSet _ | .regionGet _ | .repair _ _ _ | .quiet _ | .claim | .release | .set _ _
  | .get _ _ => false

def isRepair : ReqOp → Bool
  | .repair _ _ _ => true
  | .read _ _ | .write _ _ _ | .writePart _ _ _ | .fetchAdd _ _ | .swap _ _ | .compareSwap _ _ _ | .watch _ | .unwatch _
  | .noticeMask _ | .regionSet _ | .regionGet _ | .fence | .quiet _ | .claim | .release | .set _ _ | .get _ _ => false

/-- A memory kind or WATCH: the kinds that have lines, a region and a bank. -/
def usesLines (o : ReqOp) : Bool := o.span.isSome

/-- The array kinds: the memory kinds, WATCH and REPAIR. -/
def isArray (o : ReqOp) : Bool := o.usesLines || o.isRepair

/-- FENCE and the control kinds: what is carried out without a line access. -/
def isControl (o : ReqOp) : Bool := !o.usesLines

/-- A word of a mask is whole when its byte is 0 or FFh: bit k of byte j of the mask stands for byte k of word j. -/
def maskPartly (mask : List Byte) : Bool := mask.any (fun b => decide (b ≠ 0 ∧ b ≠ 0xFF))

/-- A WRITE_PART that needs a merge (R40). -/
def isMerge : ReqOp → Bool
  | .writePart _ m _ => maskPartly m
  | .read _ _ | .write _ _ _ | .fence | .fetchAdd _ _ | .swap _ _ | .compareSwap _ _ _ | .watch _ | .unwatch _
  | .noticeMask _ | .regionSet _ | .regionGet _ | .repair _ _ _ | .quiet _ | .claim | .release | .set _ _
  | .get _ _ => false

/-- The first line access is a READ_LINE (R39, R40, R59). -/
def readsFirst : ReqOp → Bool
  | .read _ _ | .watch _ | .fetchAdd _ _ | .swap _ _ | .compareSwap _ _ _ => true
  | .writePart _ m _ => maskPartly m
  | .write _ _ _ | .fence | .unwatch _ | .noticeMask _ | .regionSet _ | .regionGet _ | .repair _ _ _ | .quiet _
  | .claim | .release | .set _ _ | .get _ _ => false

end ReqOp

/-! ## Lines of a record -/

/-- The line `i` places after `l`. -/
def lineAfter (l : LineId) (i : Nat) : LineId := ⟨(l.val + i) % 33554432, Nat.mod_lt _ (by decide)⟩

namespace Record

/-- Whether `l` is a line of the record. -/
def touches (r : Record) (l : LineId) : Bool :=
  match r.op.span with
  | some (a, n) => decide (a.val ≤ l.val ∧ l.val < a.val + n)
  | none => false

/-- Whether two records have a line in common (R37). -/
def overlaps (r q : Record) : Bool :=
  match r.op.span, q.op.span with
  | some (a, n), some (b, m) => decide (a.val < b.val + m ∧ b.val < a.val + n)
  | some _, none => false
  | none, _ => false

/-- The record's bank is `b`. -/
def onBank (r : Record) (b : BankId) : Bool :=
  match r.op.span with
  | some (a, _) => decide (lineBank a = b)
  | none => false

/-- The record is for that row of that bank (R18). -/
def onRow (r : Record) (b : BankId) (row : RowId) : Bool :=
  match r.op.span with
  | some (a, _) => decide (lineBank a = b ∧ lineRow a = row)
  | none => false

def isReady (r : Record) : Bool := decide (r.state = .ready)
def isActive (r : Record) : Bool := decide (r.state = .active)
def isDone (r : Record) : Bool := decide (r.state = .done)

/-- The record's next line access, if it is READY or ACTIVE: whether it is a READ_LINE, and its line (R39, R40, R59). -/
def nextAccess (r : Record) : Option (Bool × LineId) :=
  match r.op.span with
  | none => none
  | some (a, n) =>
      match r.state with
      | .ready => some (r.op.readsFirst, a)
      | .active =>
          match r.op with
          | .read _ _ => if r.linesDone < n then some (true, lineAfter a r.linesDone) else none
          | .write _ _ _ => if r.linesDone < n then some (false, lineAfter a r.linesDone) else none
          | .writePart _ _ _ | .fetchAdd _ _ | .swap _ _ | .compareSwap _ _ _ => some (false, a)
          | .watch _ | .fence | .unwatch _ | .noticeMask _ | .regionSet _ | .regionGet _ | .repair _ _ _ | .quiet _
          | .claim | .release | .set _ _ | .get _ _ => none
      | .waiting => none
      | .done => none

/-- An ACTIVE record still has a line access to `l` to issue (R55). -/
def accessesLater (r : Record) (l : LineId) : Bool :=
  r.isActive &&
    match r.op.span, r.op with
    | some (a, n), .read _ _ => decide (a.val + r.linesDone ≤ l.val ∧ l.val < a.val + n)
    | some (a, n), .write _ _ _ => decide (a.val + r.linesDone ≤ l.val ∧ l.val < a.val + n)
    | some (a, _), .writePart _ _ _ => decide (a = l)
    | some (a, _), .fetchAdd _ _ => decide (a = l)
    | some (a, _), .swap _ _ => decide (a = l)
    | some (a, _), .compareSwap _ _ _ => decide (a = l)
    | _, _ => false

/-- An ACTIVE record stands between a merge's READ_LINE and its WRITE_LINE on `l` (R40). -/
def mergesOn (r : Record) (l : LineId) : Bool := r.isActive && r.op.isMerge && r.touches l

end Record

/-! ## Holds (R54, R55) -/

/-- A holder other than `h` holds the line. -/
def State.heldByOther (s : State) (h : Holder) (l : LineId) : Bool :=
  s.holds.any (fun e => decide (e.line = l ∧ e.holder ≠ h))

def State.held (s : State) (l : LineId) : Bool := s.holds.any (fun e => decide (e.line = l))

def Record.holder (r : Record) : Holder := .request r.port r.stamp

/-- An ACTIVE record other than the holder still has an access to the line to issue (R55). -/
def State.accessPending (s : State) (h : Holder) (l : LineId) : Bool :=
  s.records.any (fun q => decide (q.holder ≠ h) && q.accessesLater l)

/-- R55, but for the repair phase: the cases of R56. -/
def State.holdFree (s : State) (h : Holder) (l : LineId) : Bool :=
  decide (s.holds.length < Config.holdEntries) && !s.held l && !s.accessPending h l

/-- R55: a hold on the line may be given to the holder. -/
def State.holdMayBeGiven (s : State) (h : Holder) (l : LineId) : Bool :=
  s.holdFree h l && (s.repairPhase (lineBank l)).isNone

/-! ## Waiting conditions (R27, Table 15) -/

/-- The earlier records of the record's port that are not DONE, detached ones included (R37, R52). -/
def State.earlierUndone (s : State) (r : Record) : List Record :=
  (s.queue r.port ++ s.detached.filter (fun q => decide (q.port = r.port))).filter
    (fun q => decide (q.stamp < r.stamp) && !q.isDone)

/-- The quiet controller is in RETAINED or WAKING. -/
def State.asleep (s : State) : Bool := decide (s.quiet.part = .retained ∨ s.quiet.part = .waking)

/-- One of the record's lines is held by another, or, for an atomic, it cannot take its hold (R56). -/
def State.holdBlocks (s : State) (r : Record) : Bool :=
  s.holds.any (fun e => r.touches e.line && decide (e.holder ≠ r.holder)) ||
    (r.op.isAtomic &&
      match r.op.span with
      | some (a, _) => !s.holdFree r.holder a
      | none => false)

/-- The bank of the record's address holds a repair phase. -/
def State.bankBlocks (s : State) (r : Record) : Bool :=
  match r.op.span with
  | some (a, _) => (s.repairPhase (lineBank a)).isSome
  | none => false

/-- The first condition of Table 15 that holds against the record, in the table's order. -/
def State.blockReason (s : State) (r : Record) : Option BlockReason :=
  let before := s.earlierUndone r
  if r.op.isArray && s.asleep then some .retention
  else if before.any (fun q => q.op.isFence) then some .fence
  else if (r.op.usesLines && before.any (fun q => r.overlaps q)) || (r.op.isFence && !before.isEmpty) then some .order
  else if r.op.usesLines && s.holdBlocks r then some .hold
  else if r.op.usesLines && s.bankBlocks r then some .bank
  else none

/-- A WAITING or READY record evaluated anew (R27); records in ACTIVE and DONE are not evaluated. -/
def State.review (s : State) (r : Record) : Record :=
  match r.state with
  | .waiting | .ready =>
      match s.blockReason r with
      | some x => { r with state := .waiting, blocked := some x }
      | none => { r with state := .ready, blocked := none }
  | .active | .done => r

/-! ## Banks and records (R18, R19) -/

/-- A READY or ACTIVE record is for that row of that bank. -/
def State.rowWanted (s : State) (b : BankId) (row : RowId) : Bool :=
  s.records.any (fun r => (r.isReady || r.isActive) && r.onRow b row)

/-- A READY record is for that row of that bank. -/
def State.rowReady (s : State) (b : BankId) (row : RowId) : Bool := s.records.any (fun r => r.isReady && r.onRow b row)

/-- An ACTIVE request record is on the bank. -/
def State.activeOn (s : State) (b : BankId) : Bool := s.records.any (fun r => r.isActive && r.onBank b)

/-- The idle timer started now, with the CLOSE_IDLE in force (R19). -/
def State.idleStart (s : State) : Timer :=
  if s.settings.closeIdle = 0 then .expired else .running (s.now + ns s.settings.closeIdle)

/-- What becomes of a bank's idle timer (R8, R19, R22): it runs while the bank is OPEN with no repair phase and no READY or
ACTIVE record for its open row. Where a warm reset made it STOPPED (R24), it starts at the next start these rules give. -/
def State.idleNext (s : State) (b : BankId) (x : Bank) : Bank :=
  match x.state, x.openRow with
  | .opened, some row =>
      if (s.repairPhase b).isSome || s.rowWanted b row then { x with idle := .stopped, idleReset := false }
      else match x.idle with
        | .stopped => if x.idleReset then x else { x with idle := s.idleStart }
        | .running _ => x
        | .expired => x
  | _, _ => { x with idle := .stopped }

/-! ## Settling (R150) -/

/-- No region is DRAINING. -/
def State.noDrain (s : State) : Bool := s.regions.items.all (fun r => decide (r.state ≠ .draining))

/-- No request record is in any queue and no detached record exists. -/
def State.noRecords (s : State) : Bool :=
  (s.queue .a).isEmpty && (s.queue .b).isEmpty && (s.queue .c).isEmpty && s.detached.isEmpty

/-- Every online port votes QUIET. -/
def State.allQuiet (s : State) : Bool := Port.all.all (fun p => !s.online p || decide (s.vote p = some .quiet))

/-- The seven settling conditions. A warm reset's close that has not ended is none of them (notes/assumptions/28.md). -/
def State.settled (s : State) : Bool :=
  s.allQuiet && s.noRecords && s.holds.isEmpty && (s.repairQueue.isEmpty && s.currentJob.isNone) && s.noDrain &&
    s.scrub.sweepDone && s.resetN

end Sys2Proof.Machine
end

