-- ==== Sys2Proof/Machine/Completion.lean ====
section
/-! DEFINITION. The region table's lookups and changes (R88, R93, R94, R96), the watch table's rechecks and firings (R71, R74), and
what a record's DONE does (R41, R50, R51, R90). -/

namespace Sys2Proof.Machine

/-! ## Regions -/

/-- The region covers the page (R88). -/
def Region.covers (r : Region) (page : Nat) : Bool :=
  decide (r.state ≠ .disabled ∧ r.body.base ≤ page ∧ page ≤ r.body.limit)

/-- The region indexes, in order. -/
def allRegions : List RegionIx := [0, 1, 2, 3, 4, 5, 6, 7]

/-- The covering region of a page, if any (R88). -/
def State.coveringRegion (s : State) (page : Nat) : Option RegionIx :=
  allRegions.find? (fun i => (s.region i).covers page)

/-- Two ranges of pages have a page in common (R93). -/
def rangesOverlap (b l b' l' : Nat) : Bool := decide (b ≤ l' ∧ b' ≤ l)

/-- The new range overlaps what region `r` has or waits for (R93). -/
def Region.conflicts (r : Region) (base limit : Nat) : Bool :=
  (decide (r.state ≠ .disabled) && rangesOverlap base limit r.body.base r.body.limit) ||
    match r.replacement with
    | some x => x.enable && rangesOverlap base limit x.body.base x.body.limit
    | none => false

/-- The overlap check fails: a region other than the target conflicts (R93). -/
def State.rangeTaken (s : State) (target : RegionIx) (base limit : Nat) : Bool :=
  allRegions.any (fun i => decide (i ≠ target) && (s.region i).conflicts base limit)

/-! ## Watches -/

/-- The watch ids, in order. -/
def allWatchIds : List WatchId := List.finRange 32

/-- An armed entry is to be cancelled: no region covers its line, or its owner has no rights there (R74). -/
def State.watchLapsed (s : State) (w : Watch) : Bool :=
  match s.coveringRegion (linePage w.line) with
  | none => true
  | some i => decide ((s.region i).body.rights.get w.owner = .none)

/-- The recheck of one entry (R74). -/
def State.recheckWatch (s : State) (i : WatchId) : State :=
  match s.watches.get i with
  | some w =>
      if s.watchLapsed w then (s.setWatch i none).placeNotice w.owner (.watchEnded i w.line .cancelled) else s
  | none => s

/-- The watch recheck, in ascending order of watch id (R74). -/
def State.recheckWatches (s : State) : State := allWatchIds.foldl State.recheckWatch s

/-- One entry meets a line write by port `p` (R71). -/
def State.fireWatch (p : Port) (l : LineId) (s : State) (i : WatchId) : State :=
  match s.watches.get i with
  | some w =>
      if w.line = l ∧ w.owner ≠ p then
        (s.setWatch i none).placeNotice w.owner (.watchEnded i w.line (.written p))
      else s
  | none => s

/-- A line write by port `p` fires the other ports' entries on the line (R71). -/
def State.fireWatches (s : State) (p : Port) (l : LineId) : State := allWatchIds.foldl (State.fireWatch p l) s

/-! ## Records that become DONE -/

/-- The record with its result fixed (R50). -/
def Record.finished (r : Record) (now : Instant) (res : Result) : Record :=
  { r with state := .done, blocked := none, result := some res, doneAt := some now }

/-- A FENCE or a control record becomes DONE (R42, R50). A record that has been discarded is not there to change (R52). -/
def State.finishControl (s : State) (st : Stamp) (res : Result) : State :=
  s.modRecord st (fun r => r.finished s.now res)

/-- A replacement takes effect on a region (R94). -/
def State.takeEffect (s : State) (i : RegionIx) (x : Replacement) : State :=
  (s.setRegion i { state := if x.enable then .active else .disabled, body := x.body,
                   inFlight := (s.region i).inFlight, replacement := none }).recheckWatches

/-- The ACTIVE REGION_SET whose drain of region `i` runs (R95). -/
def Record.drains (i : RegionIx) (r : Record) : Bool :=
  match r.op with
  | .regionSet ps => r.isActive && decide (ps.index = i.val)
  | _ => false

/-- The end of a drain (R96). -/
def State.endDrain (s : State) (i : RegionIx) : State :=
  match (s.region i).replacement with
  | none => s
  | some x =>
      let s' := s.takeEffect i x
      match s'.records.find? (Record.drains i) with
      | some r => s'.finishControl r.stamp ⟨.ok, .none⟩
      | none => s'

/-- A counted record of region `i` is DONE or discarded (R90); a drain may end by it (R96), before any record that the same DONE makes READY
is carried out (R98 and R100 let either come first: the model's choice, notes/assumptions/22.md). -/
def State.leaveRegion (s : State) (i : RegionIx) : State :=
  let g := s.region i
  let s' := s.setRegion i { g with inFlight := g.inFlight - 1 }
  if g.state = .draining ∧ g.inFlight - 1 = 0 then s'.endDrain i else s'

/-- The region of a record, if it is counted in one, loses it. -/
def State.leaveRegionOf (s : State) (r : Record) : State :=
  match r.region with
  | some i => s.leaveRegion i
  | none => s

/-- The record stands in its port's queue (it is not detached). -/
def State.queued (s : State) (r : Record) : Bool := (s.queue r.port).any (fun q => decide (q.stamp = r.stamp))

/-- Take the record of a stamp out of its queue. -/
def State.dropRecord (s : State) (p : Port) (st : Stamp) : State :=
  s.setQueue p ((s.queue p).filter (fun q => decide (q.stamp ≠ st)))

/-- A record of a memory kind or WATCH becomes DONE with a result (R41, R50, R51, R52): a non-posted one waits for its
response, a posted one leaves and reports a status other than OK, a detached one ends with its result dropped. A drain that this DONE
ends has ended before a REGION_SET or REGION_GET of the region that the same DONE makes READY, through a FENCE, is carried out: R98 and
R100 let either come first, and the order is the model's choice (notes/assumptions/22.md). -/
def State.finishMemory (s : State) (r : Record) (res : Result) : State :=
  if s.queued r then
    if r.posted then
      let s1 := s.dropRecord r.port r.stamp
      let s2 := if res.status = .ok then s1 else s1.placeNotice r.port (.error r.tag res.status)
      s2.leaveRegionOf r
    else (s.modRecord r.stamp (fun q => q.finished s.now res)).leaveRegionOf r
  else
    ({ s with detached := s.detached.filter (fun q => decide (q.stamp ≠ r.stamp)) }).leaveRegionOf r

end Sys2Proof.Machine
end

