-- ==== Sys2Proof/Machine/QuietControl.lean ====
section
/-! DEFINITION. The quiet controller's moves (R150, R151, R153, R155, R156). -/

namespace Sys2Proof.Machine

/-- Take the close mark RETENTION off every bank (R153). -/
def State.withdrawRetention (s : State) : State :=
  s.mapBanks (fun _ x => { x with marks := { x.marks with retention := false } })

/-- A settling condition ceases to hold, or a vote or a port changes: SETTLING ends (R150), ENTERING is abandoned (R153). -/
def State.quietBreak (s : State) : State :=
  match s.quiet.part with
  | .settling => s.setQuiet { s.quiet with part := .active, holdTimer := none }
  | .entering => (s.setQuiet { s.quiet with part := .active }).withdrawRetention
  | .active => s
  | .retained => s
  | .waking => s

/-- The entry to ENTERING: the mark RETENTION on every bank that is OPENING or OPEN (R151). -/
def State.enterEntering (s : State) : State :=
  (s.setQuiet { s.quiet with part := .entering, holdTimer := none }).mapBanks (fun _ x =>
    if x.state = .opening ∨ x.state = .opened then { x with marks := { x.marks with retention := true } } else x)

/-- SETTLING begins with the QUIET_HOLD in force; a QUIET_HOLD of 0 ends it at once (R150, R151). -/
def State.beginSettling (s : State) : State :=
  if s.settings.quietHold = 0 then s.enterEntering
  else s.setQuiet { s.quiet with part := .settling, holdTimer := some (s.now + us s.settings.quietHold) }

/-- The settling conditions evaluated after an event (R150, R153). -/
def State.reviewQuiet (s : State) : State :=
  let s' := if s.settled then s else s.quietBreak
  if s'.quiet.part = .active ∧ s'.settled = true then s'.beginSettling else s'

/-- A wake cause, if the part is RETAINED (R155); the wake record takes it if it is empty (R156). -/
def State.wakeCause (s : State) (c : WakeCause) (p : Port) : State :=
  if s.quiet.part = .retained then
    s.setQuiet { s.quiet with part := .waking, wakeRecord := s.quiet.wakeRecord.or (some (c, p)) }
  else s

end Sys2Proof.Machine
end

