-- ==== Sys2Proof/Machine/RepairControl.lean ====
section
/-! DEFINITION. The scrubber's step end (R126), the remap table (R2, R131) and the repair controller: taking and releasing a
bank (R22, R66, R137), merging and queueing jobs (R134 to R136) and completing them (R142). -/

namespace Sys2Proof.Machine

/-! ## The scrubber's steps -/

/-- The step timer started now with the SCRUB_INTERVAL in force; 0 does not start it (R124). -/
def State.scrubTimerStart (s : State) : Option Instant :=
  if s.settings.scrubInterval = 0 then none else some (s.now + us s.settings.scrubInterval)

/-- The end of a step: the pointer advances, a wrap counts a pass, the step timer starts (R126). -/
def State.scrubStepEnd (s : State) : State :=
  s.setScrub { s.scrub with
    step := .none, kept := [], timer := s.scrubTimerStart,
    pointer := lineAfter s.scrub.pointer 1,
    passes := if s.scrub.pointer.val + 1 = Config.lines then countUp top16 s.scrub.passes else s.scrub.passes }

/-- The scrubber's hold is released (R58). -/
def State.releaseScrubHold (s : State) : State :=
  s.setHolds (s.holds.filter (fun h => decide (h.holder ≠ .scrubber)))

/-! ## The remap table -/

/-- The spares of a bank, in order. -/
def allSpares : List SpareId := [0, 1, 2, 3]

/-- The spare serves the row: SOFT or FUSED with that mapped row (R2). -/
def Spare.serves (x : Spare) (row : RowId) : Bool :=
  decide ((x.state = .soft ∨ x.state = .fused) ∧ x.mapped = some row)

/-- The spare that serves a row of a bank (R2). -/
def State.servingSpare (s : State) (b : BankId) (row : RowId) : Option SpareId :=
  allSpares.find? (fun i => ((s.spares b).get i).serves row)

/-- The lowest-numbered FREE spare of a bank (R137). -/
def State.freeSpare (s : State) (b : BankId) : Option SpareId :=
  allSpares.find? (fun i => decide (((s.spares b).get i).state = .free))

/-! ## A job and its bank -/

/-- The bank side of taking a bank (R22). -/
def Bank.taken (x : Bank) : Bank :=
  match x.state with
  | .closed => { x with state := .repairing, idle := .stopped }
  | .opening | .opened => { x with marks := { x.marks with repair := true }, idle := .stopped }
  | .closing | .refreshing | .repairing | .retained => x

/-- A running job takes its bank (R22), with what the take ends at the hold table (R66). -/
def State.takeBank (s : State) (b : BankId) : State :=
  let s1 := s.setBank b (s.bank b).taken
  if (s.scrub.step = .holding ∨ s.scrub.step = .pending) ∧ lineBank s.scrub.pointer = b then
    s1.releaseScrubHold.scrubStepEnd
  else s1

/-- The bank side of a job's end (R22); it is a start of the idle timer of a bank left OPEN. -/
def State.releaseBank (s : State) (b : BankId) : State :=
  let x := s.bank b
  s.setBank b { x with
    state := if x.state = .repairing then BankState.closed else x.state,
    marks := { x.marks with repair := false }, idleReset := false }

/-- The fault list loses the entry of a bank and row (R123). -/
def CheckUnit.dropFault (c : CheckUnit) (b : BankId) (row : RowId) : CheckUnit :=
  { c with faults := c.faults.map (fun e =>
      match e with
      | some f => if f.bank = b ∧ f.row = row then none else some f
      | none => none) }

/-- A job completes, but for the start of the next one (R142): the bank, the requesters in the order of the list, the notice,
the fault list, the buffer and the record. -/
def State.endJob (s : State) (j : Job) (status : Status) (spare : Option SpareId) (poisonedWords : Nat) : State :=
  let s1 := ({ s with currentJob := none, repairBuffer := [] }).releaseBank j.bank
  let s2 := j.requesters.foldl (fun t q => t.finishControl q.stamp ⟨status, .repair spare poisonedWords⟩) s1
  let s3 := s2.broadcast Enables.repairDone (.repairDone j.bank j.row spare status poisonedWords)
  if status = .ok then s3.setChecks (s3.checks.dropFault j.bank j.row) else s3

/-- The record of a job at its start: lines read, lines written and poisoned words 0, the spare that serves the row as
previous spare, and the phase its bank is in after the take (R137, R138). -/
def State.startRecord (s : State) (j : Job) (sp : SpareId) : CurrentJob :=
  { job := j, chosen := sp, previous := s.servingSpare j.bank j.row, linesRead := 0, linesWritten := 0,
    poisonedWords := 0, programEnds := none,
    phase := if (s.bank j.bank).state = BankState.closed then .copyOut else .wait }

/-- The start of a job whose bank has a FREE spare (R137). -/
def State.runJob (s : State) (j : Job) (sp : SpareId) : State :=
  (s.setJob (some (s.startRecord j sp))).takeBank j.bank

/-- The head of the queue starts; a job with no FREE spare ends NO_SPARE and the next one starts (R137, R142). -/
def State.startJobs : List Job → State → State
  | [], s => { s with repairQueue := [] }
  | j :: rest, s =>
      match s.freeSpare j.bank with
      | some sp => ({ s with repairQueue := rest }).runJob j sp
      | none => State.startJobs rest ((s.takeBank j.bank).endJob j .noSpare none 0)

/-- The current job completes after its copy-in, and the next starts (R142). -/
def State.completeJob (s : State) (c : CurrentJob) : State :=
  let s' := s.endJob c.job .ok (some c.chosen) c.poisonedWords
  State.startJobs s'.repairQueue s'

/-! ## New jobs -/

/-- The two jobs are for one bank and row. -/
def Job.sameRow (j k : Job) : Bool := decide (j.bank = k.bank ∧ j.row = k.row)

/-- A new job merged into a queued or current one (R135). -/
def Job.merge (old new : Job) : Job :=
  { old with
    mode := if old.mode = .fused ∨ new.mode = .fused then .fused else .soft
    requesters := old.requesters ++ new.requesters }

/-- The new job may merge with the current one: its mode is satisfied, or the upgrade is in time (R135). -/
def CurrentJob.takes (c : CurrentJob) (new : Job) : Bool :=
  c.job.sameRow new &&
    (decide (new.mode = .soft) || decide (c.job.mode = .fused) || decide (c.phase = .wait ∨ c.phase = .copyOut))

def State.currentTakes (s : State) (new : Job) : Bool :=
  match s.currentJob with
  | some c => c.takes new
  | none => false

/-- A new job can be merged or queued (R134, R136). -/
def State.jobFits (s : State) (new : Job) : Bool :=
  s.repairQueue.any (fun j => j.sameRow new) || s.currentTakes new ||
    decide (s.repairQueue.length < Config.repairDepth)

/-- A new job that fits is merged, or joins the tail of the queue and starts at once if no job is current
(R134, R135, R136); a job queued is an event at the quiet controller (R150). -/
def State.submitJob (s : State) (new : Job) : State :=
  if s.repairQueue.any (fun j => j.sameRow new) then
    { s with repairQueue := s.repairQueue.map (fun j => if j.sameRow new then j.merge new else j) }
  else
    match s.currentJob with
    | some c =>
        if c.takes new then s.setJob (some { c with job := c.job.merge new })
        else ({ s with repairQueue := s.repairQueue ++ [new] }).quietBreak
    | none => State.startJobs (s.repairQueue ++ [new]) s.quietBreak

/-- A SOFT job from the fault list: merged, queued or dropped (R136). -/
def State.autoJob (s : State) (b : BankId) (row : RowId) : State :=
  let new : Job := { bank := b, row := row, mode := .soft, requesters := [] }
  if s.jobFits new then s.submitJob new else s

end Sys2Proof.Machine
end

