-- ==== Sys2Proof/Machine/CheckBits.lean ====
section
/-! DEFINITION. The check-bit unit's counts, notices and fault list (R115, R116, R119 to R122). -/

namespace Sys2Proof.Machine

/-- Who a READ_LINE is for, as the check-bit unit counts it: a request or the scrubber, or the repair buffer (R115, R116). -/
inductive ReadFor where
  | rowReader
  | copyOut
deriving DecidableEq, Repr

/-- The fault slots, in order. -/
def allFaultSlots : List FaultSlot := List.finRange 16

/-- The slot whose entry names the bank and row. -/
def CheckUnit.faultSlot (c : CheckUnit) (b : BankId) (row : RowId) : Option FaultSlot :=
  allFaultSlots.find? (fun i =>
    match c.faults.get i with
    | some f => decide (f.bank = b ∧ f.row = row)
    | none => false)

/-- The lowest-numbered empty slot. -/
def CheckUnit.emptySlot (c : CheckUnit) : Option FaultSlot :=
  allFaultSlots.find? (fun i => (c.faults.get i).isNone)

/-- Entry `f` goes before entry `g` when one is to be replaced: lower count, then lower stamp (R121). -/
def FaultEntry.lower (f g : FaultEntry) : Bool :=
  decide (f.count < g.count ∨ (f.count = g.count ∧ f.stamp < g.stamp))

/-- The slot to replace in a full list; of equal entries the lowest-numbered slot (R121). -/
def CheckUnit.victim (c : CheckUnit) : FaultSlot :=
  allFaultSlots.foldl (fun best i =>
    match c.faults.get i, c.faults.get best with
    | some f, some g => if f.lower g then i else best
    | _, _ => best) 0

/-- The slot a new entry takes (R121). -/
def CheckUnit.newSlot (c : CheckUnit) : FaultSlot :=
  match c.emptySlot with
  | some i => i
  | none => c.victim

/-- The fault list after one corrected word of a row, and the count its entry rose to, if it rose (R121). -/
def CheckUnit.noteFault (c : CheckUnit) (b : BankId) (row : RowId) (st : Stamp) : CheckUnit × Option Nat :=
  match c.faultSlot b row with
  | some i =>
      match c.faults.get i with
      | some f =>
          ({ c with faults := c.faults.set i (some { f with count := countUp 15 f.count, stamp := st }) },
            if f.count < 15 then some (f.count + 1) else none)
      | none => (c, none)
  | none =>
      ({ c with faults := c.faults.set c.newSlot (some { bank := b, row := row, count := 1, stamp := st }) }, some 1)

/-- A threshold met: REPAIR_ADVISED, and a SOFT job if AUTO_REPAIR is 1 (R122). A job that ends NO_SPARE at once has its REPAIR_DONE
before the notices of the same read's later words (notes/assumptions/10.md). -/
def State.advise (s : State) (b : BankId) (row : RowId) : State :=
  let s' := s.broadcast Enables.integrity (.repairAdvised b row)
  if s.settings.autoRepair = 1 then s'.autoJob b row else s'

/-- One corrected word of a row, for the fault list (R121, R122). -/
def State.noteFault (s : State) (b : BankId) (row : RowId) : State :=
  let (c, rose) := s.checks.noteFault b row s.stampCounter
  let s' := s.setChecks c
  if rose = some s.settings.faultThreshold then s'.advise b row else s'

/-- What the check-bit unit does with one word's outcome besides handing it on (R115, R116, R119). -/
def State.countWord (f : ReadFor) (l : LineId) (s : State) (x : WordIx × WordOutcome) : State :=
  match x.2 with
  | .clean _ => s
  | .poisoned => s
  | .corrected _ =>
      let s' := s.setChecks { s.checks with corrected := countUp top32 s.checks.corrected }
      match f with
      | .rowReader => s'.noteFault (lineBank l) (lineRow l)
      | .copyOut => s'
  | .uncorrectable =>
      (s.setChecks { s.checks with uncorrectable := countUp top32 s.checks.uncorrectable }).broadcast
        Enables.integrity (.uncorrectable (wordAddr l x.1))

/-- A line's outcomes with their words, in ascending order. -/
def numbered (os : List WordOutcome) : List (WordIx × WordOutcome) := allWords.zip os

/-- The counts, fault list and notices of one read, its words taken in ascending order (R119, R121). -/
def State.countLine (s : State) (f : ReadFor) (l : LineId) (os : List WordOutcome) : State :=
  (numbered os).foldl (State.countWord f l) s

/-- An outcome that needs the line to be written back: CORRECTED or UNCORRECTABLE. -/
def WordOutcome.bad : WordOutcome → Bool
  | .corrected _ => true
  | .uncorrectable => true
  | .clean _ => false
  | .poisoned => false

/-- The words a scrub step keeps: the CORRECTED ones as data, the UNCORRECTABLE ones marked poisoned (R125). -/
def keptWords (os : List WordOutcome) : List (WordIx × CheckedWord) :=
  ((numbered os).filter (fun x => x.2.bad)).map (fun x => (x.1, x.2.checked))

end Sys2Proof.Machine
end

