-- ==== Sys2Proof/Machine/Operands.lean ====
section
/-! DEFINITION. Every operand form: what the fields and the body of a REQUEST packet give for each request kind (Table 52, R163), and
when its form is wrong (R29). -/

namespace Sys2Proof.Machine

/-- The request kinds, in the order of Table 4 (Table 52: READ 1, GET 18). -/
inductive Kind where
  | read | write | writePart | fence | fetchAdd | swap | compareSwap | watch | unwatch | noticeMask | regionSet
  | regionGet | repair | quiet | claim | release | set | get
deriving DecidableEq, Repr

/-- The code of a kind in a REQUEST packet. -/
def Kind.code : Kind → Byte
  | .read => 1 | .write => 2 | .writePart => 3 | .fence => 4 | .fetchAdd => 5 | .swap => 6 | .compareSwap => 7
  | .watch => 8 | .unwatch => 9 | .noticeMask => 10 | .regionSet => 11 | .regionGet => 12 | .repair => 13
  | .quiet => 14 | .claim => 15 | .release => 16 | .set => 17 | .get => 18

/-- The kind a code names; none for an unknown kind (R29). -/
def Kind.ofCode (c : Byte) : Option Kind :=
  match c.toNat with
  | 1 => some .read | 2 => some .write | 3 => some .writePart | 4 => some .fence | 5 => some .fetchAdd
  | 6 => some .swap | 7 => some .compareSwap | 8 => some .watch | 9 => some .unwatch | 10 => some .noticeMask
  | 11 => some .regionSet | 12 => some .regionGet | 13 => some .repair | 14 => some .quiet | 15 => some .claim
  | 16 => some .release | 17 => some .set | 18 => some .get | _ => none

/-- WRITE and WRITE_PART, which alone may be posted (R25). -/
def Kind.mayPost : Kind → Bool
  | .write | .writePart => true
  | .read | .fence | .fetchAdd | .swap | .compareSwap | .watch | .unwatch | .noticeMask | .regionSet | .regionGet
  | .repair | .quiet | .claim | .release | .set | .get => false

/-- The array kinds (R25). -/
def Kind.isArray : Kind → Bool
  | .read | .write | .writePart | .fetchAdd | .swap | .compareSwap | .watch | .repair => true
  | .fence | .unwatch | .noticeMask | .regionSet | .regionGet | .quiet | .claim | .release | .set | .get => false

/-- A[30:0] of a REQUEST's bytes 4 to 7 (Table 52). -/
def reqAddr (r : Request) : Addr := BitVec.ofNat 31 r.addr.toNat

/-- The flags of NOTICE_MASK: bit 0 INTEGRITY, bit 1 REPAIR_DONE, bit 2 QUIET_STATE, bit 3 CLAIM_LOST (R163). -/
def enablesOf (b : Byte) : Enables :=
  { integrity := b.getLsbD 0, repairDone := b.getLsbD 1, quietState := b.getLsbD 2, claimLost := b.getLsbD 3 }

/-- The flags byte of an enable set (R163). -/
def Enables.byte (e : Enables) : Byte :=
  BitVec.ofNat 8 (e.integrity.toNat + 2 * e.repairDone.toNat + 4 * e.quietState.toNat + 8 * e.claimLost.toNat)

/-- 0 means no and any other value means yes (R163). -/
def yes (b : Byte) : Bool := decide (b ≠ 0)

/-- The parameters of a REGION_SET: index, enable, base page, limit page, rights A, B and C, the three permissions (R163). -/
def regionSetParams : List Byte → Option RegionSetParams
  | ix :: en :: b0 :: b1 :: b2 :: b3 :: l0 :: l1 :: l2 :: l3 :: ra :: rb :: rc :: at' :: po :: wa :: _ =>
      some { index := ix.toNat, enable := yes en, base := leNat [b0, b1, b2, b3], limit := leNat [l0, l1, l2, l3],
             rightsA := ra.toNat, rightsB := rb.toNat, rightsC := rc.toNat, atomics := yes at', posting := yes po,
             watches := yes wa }
  | _ => none

/-- A rights value: 0 NONE, 1 READ, 2 READ_WRITE (R163). -/
def rightsOf : Nat → Option Rights
  | 0 => some .none
  | 1 => some .read
  | 2 => some .readWrite
  | _ => none

/-- The parameters of a REPAIR, in range (R29, R163). -/
def repairOp : List Byte → Option ReqOp
  | b :: r0 :: r1 :: m :: _ =>
      if h : b.toNat < 16 ∧ leNat [r0, r1] < 65536 then
        if m.toNat = 0 then some (.repair ⟨b.toNat, h.1⟩ ⟨leNat [r0, r1], h.2⟩ .soft)
        else if m.toNat = 1 then some (.repair ⟨b.toNat, h.1⟩ ⟨leNat [r0, r1], h.2⟩ .fused)
        else none
      else none
  | _ => none

/-- The codes of GET that name a parameter (Table 59). -/
def getTakesParam (code : Nat) : Bool :=
  decide (code = 13 ∨ code = 14 ∨ (17 ≤ code ∧ code ≤ 21))

/-- The parameters of a GET (R163). -/
def getOp : List Byte → Option ReqOp
  | [] => none
  | c :: rest =>
      if getTakesParam c.toNat then
        match rest with
        | [] => none
        | x :: _ => some (.get c.toNat (some x.toNat))
      else some (.get c.toNat none)

/-- The operand words of an atomic: the whole words of its body (Table 52; notes/assumptions/11.md). -/
def operandWords (r : Request) : List Word := wordsOfBytes r.body

/-- A request of a known kind whose form is right, with its fields; none where its form is wrong (R29). The posted flag is
examined by `requestOp`. -/
def kindOp (k : Kind) (r : Request) : Option ReqOp :=
  let a := reqAddr r
  match k with
  | .read =>
      if lineAligned a ∧ 1 ≤ r.count.toNat ∧ r.count.toNat ≤ 8 then some (.read a r.count.toNat) else none
  | .write =>
      if lineAligned a ∧ 1 ≤ r.count.toNat ∧ r.count.toNat ≤ 8 ∧ r.body.length = 64 * r.count.toNat then
        some (.write a r.count.toNat (wordsOfBytes r.body))
      else none
  | .writePart =>
      if lineAligned a ∧ 72 ≤ r.body.length ∧ (r.body.take 8).any (fun b => decide (b ≠ 0)) then
        some (.writePart a (r.body.take 8) (wordsOfBytes ((r.body.drop 8).take 64)))
      else none
  | .fence => some .fence
  | .fetchAdd =>
      match operandWords r with
      | [x] => if wordAligned a then some (.fetchAdd a x) else none
      | _ => none
  | .swap =>
      match operandWords r with
      | [x] => if wordAligned a then some (.swap a x) else none
      | _ => none
  | .compareSwap =>
      match operandWords r with
      | [x, y] => if wordAligned a then some (.compareSwap a x y) else none
      | _ => none
  | .watch => if wordAligned a then some (.watch a) else none
  | .unwatch =>
      match r.body with
      | i :: _ => some (.unwatch i.toNat)
      | [] => none
  | .noticeMask =>
      match r.body with
      | f :: _ => some (.noticeMask (enablesOf f))
      | [] => none
  | .regionSet =>
      match regionSetParams r.body with
      | some ps => some (.regionSet ps)
      | none => none
  | .regionGet =>
      match r.body with
      | i :: _ => some (.regionGet i.toNat)
      | [] => none
  | .repair => repairOp r.body
  | .quiet =>
      match r.body with
      | v :: _ => some (.quiet v.toNat)
      | [] => none
  | .claim => some .claim
  | .release => some .release
  | .set =>
      match r.body with
      | c :: v0 :: v1 :: _ => some (.set c.toNat (leNat [v0, v1]))
      | _ => none
  | .get => getOp r.body

/-- A request whose form is right, with its fields; none is MALFORMED (R29). -/
def requestOp (code : Byte) (r : Request) : Option ReqOp :=
  match Kind.ofCode code with
  | none => none
  | some k => if r.posted ∧ k.mayPost = false then none else kindOp k r

/-- The request is of an array kind, for the sweep check (R28). -/
def codeIsArray (code : Byte) : Bool :=
  match Kind.ofCode code with
  | some k => k.isArray
  | none => false

/-- A refusal of it is answered by a response: it is not posted, or it is of a kind that cannot be posted or of no known
kind (R29, R32). -/
def answeredByResponse (code : Byte) (r : Request) : Bool :=
  !r.posted ||
    match Kind.ofCode code with
    | some k => !k.mayPost
    | none => true

end Sys2Proof.Machine
end

