-- ==== Sys2Proof/Machine/Control.lean ====
section
/-! DEFINITION. What the owning blocks do with a control record that is READY (R42): UNWATCH and NOTICE_MASK (Chapter 4), REGION_SET and
REGION_GET (Chapter 5), REPAIR (Chapter 8), QUIET (Chapter 9), CLAIM, RELEASE, SET and GET (Chapter 11); and FENCE (R38). -/

namespace Sys2Proof.Machine

/-! ## The claim (R176 to R178) -/

/-- What the claim check answers: nothing against the requester, or a result (R178). -/
def State.claimRefusal (s : State) (p : Port) : Option Result :=
  match s.claim.holder with
  | some h => if h = p then none else some ⟨.claimed, .holder h⟩
  | none => some ⟨.notClaimed, .none⟩

/-- The claim timer starts anew (R178). -/
def State.restartClaim (s : State) : State := s.setClaim { s.claim with timer := some (s.now + claimLength) }

/-- A CLAIM of port `p` (R177). -/
def State.doClaim (s : State) (p : Port) : State × Result :=
  match s.claim.holder with
  | none => (s.setClaim { holder := some p, timer := some (s.now + claimLength) }, ⟨.ok, .none⟩)
  | some h => if h = p then (s.restartClaim, ⟨.ok, .none⟩) else (s, ⟨.claimed, .holder h⟩)

/-- A RELEASE of port `p` (R177). -/
def State.doRelease (s : State) (p : Port) : State × Result :=
  if s.claim.holder = some p then (s.setClaim { holder := none, timer := none }, ⟨.ok, .none⟩)
  else (s, ⟨.notClaimed, .none⟩)

/-! ## Settings (R180, R181) -/

/-- The value of the setting a code of 1 to 7 names (Table 58). -/
def Settings.value (c : Settings) : Nat → Nat
  | 1 => c.closeIdle
  | 2 => c.ageLimit
  | 3 => c.hotMode
  | 4 => c.scrubInterval
  | 5 => c.faultThreshold
  | 6 => c.autoRepair
  | 7 => c.quietHold
  | _ => 0

/-- The value is in the item's range (Table 58). -/
def settingInRange (code v : Nat) : Bool :=
  match code with
  | 1 => decide (v ≤ 2000 ∧ v % 10 = 0)
  | 2 => decide (1 ≤ v ∧ v ≤ 16)
  | 3 => decide (v ≤ 1)
  | 4 => decide (v ≤ 255)
  | 5 => decide (1 ≤ v ∧ v ≤ 15)
  | 6 => decide (v ≤ 1)
  | 7 => decide (v ≤ 1000)
  | _ => true

/-- A record whose age reaches the limit, in µs, becomes aged (R36). -/
def Record.ageAt (now : Instant) (limit : Nat) (r : Record) : Record :=
  if r.since + us limit ≤ now then { r with aged := true } else r

/-- The setting a code names takes a value, with what its owner does at that instant: AGE_LIMIT lowered ages records (R36),
SCRUB_INTERVAL stops or starts the step timer (R124). -/
def State.putSetting (s : State) (code v : Nat) : State :=
  match code with
  | 1 => s.setSettings { s.settings with closeIdle := v }
  | 2 =>
      let s' := s.setSettings { s.settings with ageLimit := v }
      if v < s.settings.ageLimit then s'.mapRecords (Record.ageAt s.now v) else s'
  | 3 => s.setSettings { s.settings with hotMode := v }
  | 4 =>
      let s' := s.setSettings { s.settings with scrubInterval := v }
      if v = 0 then s'.setScrub { s.scrub with timer := none }
      else if s.settings.scrubInterval = 0 ∧ s.scrub.step = .none ∧ s.scrub.sweepDone = true ∧ s.asleep = false then
        s'.setScrub { s.scrub with timer := some (s.now + us v) }
      else s'
  | 5 => s.setSettings { s.settings with faultThreshold := v }
  | 6 => s.setSettings { s.settings with autoRepair := v }
  | 7 => s.setSettings { s.settings with quietHold := v }
  | _ => s

/-- WAKE_CLEAR (R181). -/
def State.clearWake (s : State) : State := s.setQuiet { s.quiet with wakeRecord := none }

/-- COUNTERS_CLEAR: the correction, missed-refresh and link error counts (R181). -/
def State.clearCounters (s : State) : State :=
  { s with
    checks := { s.checks with corrected := 0, uncorrectable := 0 }
    refresh := { s.refresh with missed := .replicate 4 0 }
    links := s.links.map (fun l => { l with errors := .zero }) }

/-- A SET of port `p`: the item, the claim, the range, then the change (R180). -/
def State.doSet (s : State) (p : Port) (code v : Nat) : State × Result :=
  if code = 8 then (s.clearWake, ⟨.ok, .none⟩)
  else if code = 0 ∨ 9 < code then (s, ⟨.malformed, .none⟩)
  else
    match s.claimRefusal p with
    | some res => (s, res)
    | none =>
        if code = 9 then (s.clearCounters.restartClaim, ⟨.ok, .none⟩)
        else if settingInRange code v then ((s.putSetting code v).restartClaim, ⟨.ok, .none⟩)
        else (s, ⟨.malformed, .none⟩)

/-! ## GET (R182) -/

def portOf : Nat → Option Port
  | 0 => some .a
  | 1 => some .b
  | 2 => some .c
  | _ => none

/-- What a GET of the current job returns of it (R146). -/
def CurrentJob.view (c : CurrentJob) : JobView :=
  { bank := c.job.bank, row := c.job.row, mode := c.job.mode, phase := c.phase, chosen := c.chosen, previous := c.previous,
    linesRead := c.linesRead, linesWritten := c.linesWritten, poisonedWords := c.poisonedWords }

def Job.view (j : Job) : QueuedView :=
  { bank := j.bank, row := j.row, mode := j.mode, requesters := j.requesters.length }

/-- The item a code names without a parameter (Tables 58 and 59). -/
def State.readPlain (s : State) (code : Nat) : Option Item :=
  match code with
  | 10 => some (.claimHolder s.claim.holder)
  | 11 => some (.quietState s.quiet.part s.quiet.votes)
  | 12 => some (.wakeRecord s.quiet.wakeRecord)
  | 15 => some (.counts s.checks.corrected s.checks.uncorrectable)
  | 16 => some (.scrubPointer s.scrub.pointer s.scrub.passes)
  | 22 => some (.repairQueue (s.repairQueue.map Job.view))
  | 23 => some (.currentJob (s.currentJob.map CurrentJob.view))
  | c => if 1 ≤ c ∧ c ≤ 7 then some (.setting (s.settings.value c)) else none

/-- The item a code names with a parameter, if the parameter is in range (Table 59). -/
def State.readWith (s : State) (code x : Nat) : Option Item :=
  match code with
  | 13 => if h : x < 4 then some (.refreshDebt (s.refresh.debt.get ⟨x, h⟩)) else none
  | 14 => if h : x < 4 then some (.missedCount (s.refresh.missed.get ⟨x, h⟩)) else none
  | 17 => (portOf x).map (fun p => .linkErrors (s.link p).errors)
  | 18 => (portOf x).map (fun p => .lostCount (s.noticeQ p).lost)
  | 19 => (portOf x).map (fun p => .enables (s.noticeQ p).enables)
  | 20 => if h : x < 16 then some (.faultSlot (s.checks.faults.get ⟨x, h⟩)) else none
  | 21 => if h : x < 16 then some (.spares (s.spares ⟨x, h⟩)) else none
  | _ => none

/-- The item a GET reads; none where the code names no readable item or the parameter is out of range (R182). -/
def State.readItem (s : State) (code : Nat) (param : Option Nat) : Option Item :=
  match param with
  | some x => s.readWith code x
  | none => s.readPlain code

/-- A GET's result (R182). -/
def State.getResult (s : State) (code : Nat) (param : Option Nat) : Result :=
  match s.readItem code param with
  | some i => ⟨.ok, .item i⟩
  | none => ⟨.malformed, .none⟩

/-! ## Regions (R92, R95, R100) -/

/-- The new record a REGION_SET carries; none where a rights value is none of the three (R92). -/
def RegionSetParams.body (x : RegionSetParams) : Option RegionBody :=
  match rightsOf x.rightsA, rightsOf x.rightsB, rightsOf x.rightsC with
  | some ra, some rb, some rc =>
      some { base := x.base, limit := x.limit, rights := ⟨ra, rb, rc⟩, atomics := x.atomics, posting := x.posting,
             watches := x.watches }
  | _, _, _ => none

/-- The target and the new record, if the form is right: index, base, limit and rights in range, whatever the enable
(R92, case 2). -/
def RegionSetParams.target (x : RegionSetParams) : Option (RegionIx × Replacement) :=
  if h : x.index < 8 ∧ x.base ≤ x.limit ∧ x.limit < Config.pages then
    match x.body with
    | some b => some (⟨x.index, h.1⟩, { enable := x.enable, body := b })
    | none => none
  else none

/-- The target begins a drain and the REGION_SET is ACTIVE (R95). -/
def State.beginDrain (s : State) (st : Stamp) (i : RegionIx) (x : Replacement) : State :=
  ((s.setRegion i { s.region i with state := .draining, replacement := some x }).modRecord st
    (fun r => { r with state := .active, blocked := none })).restartClaim.quietBreak

/-- A REGION_SET carried out: claim, form, busy, overlap, at once, drain (R92). -/
def State.doRegionSet (s : State) (p : Port) (st : Stamp) (x : RegionSetParams) : State :=
  match s.claimRefusal p with
  | some res => s.finishControl st res
  | none =>
      match x.target with
      | none => s.finishControl st ⟨.malformed, .none⟩
      | some (i, new) =>
          if (s.region i).state = .draining then s.finishControl st ⟨.busy, .none⟩
          else if new.enable ∧ s.rangeTaken i new.body.base new.body.limit then s.finishControl st ⟨.overlap, .none⟩
          else if (s.region i).inFlight = 0 then ((s.takeEffect i new).restartClaim).finishControl st ⟨.ok, .none⟩
          else s.beginDrain st i new

/-- A REGION_GET's result (R100). -/
def State.regionResult (s : State) (i : Nat) : Result :=
  if h : i < 8 then ⟨.ok, .item (.region (s.region ⟨i, h⟩))⟩ else ⟨.malformed, .none⟩

/-! ## The other control kinds -/

/-- An UNWATCH of port `p` (R73). -/
def State.doUnwatch (s : State) (p : Port) (i : Nat) : State × Result :=
  if h : i < 32 then
    match s.watches.get ⟨i, h⟩ with
    | some w => if w.owner = p then (s.setWatch ⟨i, h⟩ none, ⟨.ok, .none⟩) else (s, ⟨.noWatch, .none⟩)
    | none => (s, ⟨.noWatch, .none⟩)
  else (s, ⟨.noWatch, .none⟩)

/-- A NOTICE_MASK of port `p` (R80). -/
def State.doNoticeMask (s : State) (p : Port) (e : Enables) : State := s.setNoticeQ p { s.noticeQ p with enables := e }

/-- A QUIET of port `p` (R149), its vote change taken by the quiet controller (R150, R153, R155). -/
def State.doQuiet (s : State) (p : Port) (v : Nat) : State × Result :=
  match v with
  | 0 => (((s.setVote p (some .awake)).quietBreak).wakeCause .vote p, ⟨.ok, .none⟩)
  | 1 => ((s.setVote p (some .quiet)).quietBreak, ⟨.ok, .none⟩)
  | _ => (s, ⟨.malformed, .none⟩)

/-- A REPAIR carried out: claim, merge or queue, or TABLE_FULL (R134). -/
def State.doRepair (s : State) (p : Port) (st : Stamp) (tag : Tag) (b : BankId) (row : RowId) (mode : RepairMode) :
    State :=
  match s.claimRefusal p with
  | some res => s.finishControl st res
  | none =>
      let new : Job := { bank := b, row := row, mode := mode, requesters := [{ port := p, stamp := st, tag := tag }] }
      if s.jobFits new then
        ((s.modRecord st (fun r => { r with state := .active, blocked := none })).restartClaim).submitJob new
      else s.finishControl st ⟨.tableFull, .none⟩

/-- A READY record that needs no line access is carried out (R38, R42). Records of the memory kinds and WATCH are left to
the command arbiter. -/
def State.carryOut (s : State) (r : Record) : State :=
  match r.op with
  | .fence => s.finishControl r.stamp ⟨.ok, .none⟩
  | .unwatch i => let (s', res) := s.doUnwatch r.port i; s'.finishControl r.stamp res
  | .noticeMask e => (s.doNoticeMask r.port e).finishControl r.stamp ⟨.ok, .none⟩
  | .regionSet ps => s.doRegionSet r.port r.stamp ps
  | .regionGet i => s.finishControl r.stamp (s.regionResult i)
  | .repair b row mode => s.doRepair r.port r.stamp r.tag b row mode
  | .quiet v => let (s', res) := s.doQuiet r.port v; s'.finishControl r.stamp res
  | .claim => let (s', res) := s.doClaim r.port; s'.finishControl r.stamp res
  | .release => let (s', res) := s.doRelease r.port; s'.finishControl r.stamp res
  | .set code v => let (s', res) := s.doSet r.port code v; s'.finishControl r.stamp res
  | .get code x => s.finishControl r.stamp (s.getResult code x)
  | .read _ _ | .write _ _ _ | .writePart _ _ _ | .fetchAdd _ _ | .swap _ _ | .compareSwap _ _ _ | .watch _ => s

/-! ## After an event: records, scrubber, idle timers, quiet controller evaluated anew -/

/-- Every WAITING and READY record evaluated anew (R27). -/
def State.reviewRecords (s : State) : State :=
  { s with queues := s.queues.map (fun q => q.map s.review) }

/-- The first READY record of a port that needs no line access, in stamp order: so R92 for REGION_SETs, R134 for REPAIRs and Chapter 11 for
the configuration unit's own; between records of different owners, and between a REGION_GET and a REGION_SET, the order is the model's
choice (notes/assumptions/8.md). -/
def State.nextOfPort (s : State) (p : Port) : Option Record :=
  (s.queue p).find? (fun r => r.isReady && r.op.isControl)

/-- The READY record to carry out next; between ports the order is a free value (notes/assumptions/8.md). -/
def State.nextControl (s : State) : Option Record :=
  match (Port.all.filterMap s.nextOfPort) with
  | [] => none
  | [r] => some r
  | r :: q :: t => some ((r :: q :: t).getD (Config.portOrder s.freeCount % (t.length + 2)) r)

/-- Evaluate the records, and carry out READY control records and FENCEs one at a time until none is left; `fuel` is the
most there can be. -/
def State.drive : Nat → State → State
  | 0, s => s.reviewRecords
  | fuel + 1, s =>
      let s' := s.reviewRecords
      match s'.nextControl with
      | none => s'
      | some r => State.drive fuel (({ s' with freeCount := s'.freeCount + 1 }).carryOut r)

/-- The number of records in the queues. -/
def State.recordCount (s : State) : Nat := (s.queue .a).length + (s.queue .b).length + (s.queue .c).length

/-- A scrub step whose line has become held is skipped (R57, R65, R125). -/
def State.reviewScrub (s : State) : State :=
  if (s.scrub.step = .started ∨ s.scrub.step = .pending) ∧ s.held s.scrub.pointer = true then s.scrubStepEnd else s

/-- Every bank's idle timer evaluated anew (R19). -/
def State.reviewIdle (s : State) : State := s.mapBanks s.idleNext

/-- Everything an event may have changed the conditions of, evaluated anew at its instant (R18, R27, R38, R42, R57, R150). The records that
became READY are carried out before the idle timers are evaluated, so that a timer which the same event starts (R19) takes the value of a SET
of CLOSE_IDLE that the event made READY: R19 and R180 do not order the two, and the order is the model's choice, as is that of the event's
own effect before those records (notes/assumptions/22.md). -/
def State.settle (s : State) : State := (s.drive s.recordCount).reviewScrub.reviewIdle.reviewQuiet

end Sys2Proof.Machine
end

