-- ==== Sys2Proof/Machine/Packets.lean ====
section
/-! DEFINITION. The packets the part sends, as bytes: header, bodies and check (R162, R163, Tables 51 to 55). -/

namespace Sys2Proof.Machine

/-! ## Codes -/

/-- Table 55. -/
def Status.code : Status → Nat
  | .ok => 0 | .casMiss => 1 | .poisoned => 2 | .full => 3 | .notReady => 4 | .malformed => 5 | .split => 6
  | .tagBusy => 7 | .noRegion => 8 | .changing => 9 | .denied => 10 | .tableFull => 11 | .noWatch => 12
  | .claimed => 13 | .notClaimed => 14 | .busy => 15 | .overlap => 16 | .noSpare => 17

/-- Ports: 0 for A, 1 for B, 2 for C (R163). -/
def portCode : Port → Nat
  | .a => 0 | .b => 1 | .c => 2

def PartState.code : PartState → Nat
  | .active => 0 | .settling => 1 | .entering => 2 | .retained => 3 | .waking => 4

def Vote.code : Vote → Nat
  | .awake => 0 | .quiet => 1

def WakeCause.code : WakeCause → Nat
  | .request => 0 | .vote => 1 | .portOnline => 2

def SpareState.code : SpareState → Nat
  | .free => 0 | .soft => 1 | .fused => 2 | .retiredSoft => 3 | .retiredFused => 4

def RepairMode.code : RepairMode → Nat
  | .soft => 0 | .fused => 1

def RepairPhase.code : RepairPhase → Nat
  | .wait => 0 | .copyOut => 1 | .program => 2 | .copyIn => 3

def Rights.code : Rights → Nat
  | .none => 0 | .read => 1 | .readWrite => 2

def RegionState.code : RegionState → Nat
  | .active => 0 | .draining => 1 | .disabled => 2

/-- FFh stands for an absent port, vote, cause or spare (R163). -/
def orFF (x : Option Nat) : Nat := x.getD 255

/-- One byte. -/
def byte1 (n : Nat) : List Byte := [BitVec.ofNat 8 n]

/-! ## Response bodies (Table 53, R163) -/

/-- Bit w is set when word w is poisoned. -/
def poisonByte (ws : List CheckedWord) : Nat :=
  match ws with
  | [] => 0
  | .poisoned :: t => 1 + 2 * poisonByte t
  | .data _ :: t => 2 * poisonByte t

/-- A word's bytes in a response; poisoned words as zero. -/
def CheckedWord.bytes : CheckedWord → List Byte
  | .data w => wordBytes w
  | .poisoned => wordBytes 0

def RegionBody.bytes (b : RegionBody) : List Byte :=
  leBytes 4 b.base ++ leBytes 4 b.limit ++ byte1 b.rights.a.code ++ byte1 b.rights.b.code ++ byte1 b.rights.c.code ++
    byte1 b.atomics.toNat ++ byte1 b.posting.toNat ++ byte1 b.watches.toNat

/-- A region record as REGION_GET returns it (R163). -/
def Region.bytes (r : Region) : List Byte :=
  byte1 r.state.code ++ r.body.bytes ++ leBytes 4 r.inFlight ++
    match r.replacement with
    | none => byte1 0
    | some x => byte1 1 ++ byte1 x.enable.toNat ++ x.body.bytes

def Spare.bytes (x : Spare) : List Byte := byte1 x.state.code ++ leBytes 2 ((x.mapped.map Fin.val).getD 0)

def QueuedView.bytes (j : QueuedView) : List Byte :=
  byte1 j.bank.val ++ leBytes 2 j.row.val ++ byte1 j.mode.code ++ byte1 j.requesters

def JobView.bytes (j : JobView) : List Byte :=
  byte1 j.bank.val ++ leBytes 2 j.row.val ++ byte1 j.mode.code ++ byte1 j.phase.code ++ byte1 j.chosen.val ++
    byte1 (orFF (j.previous.map Fin.val)) ++ byte1 j.linesRead ++ byte1 j.linesWritten ++ leBytes 2 j.poisonedWords

def ErrorCounts.bytes (c : ErrorCounts) : List Byte :=
  leBytes 2 c.checkFailures ++ leBytes 2 c.seqDiscards ++ leBytes 2 c.strayAcks ++ leBytes 2 c.linkDrops

/-- A signed number as one byte, two's complement. -/
def signedByte (d : Int) : List Byte := [BitVec.ofInt 8 d]

/-- The item read, as a GET's or REGION_GET's response carries it (R163). -/
def Item.bytes : Item → List Byte
  | .setting v => leBytes 2 v
  | .claimHolder p => byte1 (orFF (p.map portCode))
  | .quietState s v =>
      byte1 s.code ++ byte1 (orFF (v.a.map Vote.code)) ++ byte1 (orFF (v.b.map Vote.code)) ++
        byte1 (orFF (v.c.map Vote.code))
  | .wakeRecord w => byte1 (orFF (w.map (fun x => x.1.code))) ++ byte1 (orFF (w.map (fun x => portCode x.2)))
  | .refreshDebt d => signedByte d
  | .missedCount n => leBytes 2 n
  | .counts c u => leBytes 4 c ++ leBytes 4 u
  | .scrubPointer l n => leBytes 4 (l.val * 64) ++ leBytes 2 n
  | .linkErrors c => c.bytes
  | .lostCount n => byte1 n
  | .enables e => [e.byte]
  | .faultSlot none => byte1 0
  | .faultSlot (some f) => byte1 1 ++ byte1 f.bank.val ++ leBytes 2 f.row.val ++ byte1 f.count ++ leBytes 8 f.stamp.toNat
  | .spares t => t.items.flatMap Spare.bytes
  | .repairQueue js => byte1 js.length ++ js.flatMap QueuedView.bytes
  | .currentJob none => byte1 0
  | .currentJob (some j) => byte1 1 ++ j.bytes
  | .region r => r.bytes

/-- The body of a RESPONSE (Table 53). -/
def ResultData.bytes : ResultData → List Byte
  | .none => []
  | .lines ls => ls.flatMap (fun l => byte1 (poisonByte l)) ++ ls.flatMap (fun l => l.flatMap CheckedWord.bytes)
  | .oldWord w => wordBytes w
  | .watch id w => byte1 (orFF (id.map Fin.val)) ++ (w.map wordBytes).getD []
  | .holder p => byte1 (portCode p)
  | .repair sp n => byte1 (orFF (sp.map Fin.val)) ++ leBytes 2 n
  | .item i => i.bytes

/-! ## Notices (Tables 26 and 54) -/

/-- The kind of a notice, in the order of Table 26. -/
def Notice.kindCode : Notice → Nat
  | .watchEnded _ _ _ => 1
  | .error _ _ => 2
  | .uncorrectable _ | .refreshMissed _ | .repairAdvised _ _ => 3
  | .repairDone _ _ _ _ _ => 4
  | .quietRetained | .quietActive => 5
  | .claimLost => 6
  | .overflow _ => 7

/-- The fields of a notice in the order Table 26 lists them; absent fields are left out (Table 54). -/
def Notice.bytes : Notice → List Byte
  | .watchEnded i l (.written p) => byte1 i.val ++ leBytes 4 (l.val * 64) ++ byte1 0 ++ byte1 (portCode p)
  | .watchEnded i l .cancelled => byte1 i.val ++ leBytes 4 (l.val * 64) ++ byte1 1
  | .error t st => byte1 t.toNat ++ byte1 st.code
  | .uncorrectable a => byte1 0 ++ leBytes 4 a.toNat
  | .refreshMissed g => byte1 1 ++ byte1 g.val
  | .repairAdvised b row => byte1 2 ++ byte1 b.val ++ leBytes 2 row.val
  | .repairDone b row sp st n =>
      byte1 b.val ++ leBytes 2 row.val ++ (sp.map (fun i => byte1 i.val)).getD [] ++ byte1 st.code ++ leBytes 2 n
  | .quietRetained => byte1 0
  | .quietActive => byte1 1
  | .claimLost => []
  | .overflow n => byte1 n

/-! ## The packet check (R162) -/

/-- One bit of the cyclic check with generator x^16 + x^12 + x^5 + 1. -/
def crcBit (c : BitVec 16) : BitVec 16 := if c.msb then (c <<< 1) ^^^ 0x1021 else c <<< 1

/-- A byte enters the check, most significant bit first. -/
def crcByte (c : BitVec 16) (b : Byte) : BitVec 16 :=
  crcBit (crcBit (crcBit (crcBit (crcBit (crcBit (crcBit (crcBit (c ^^^ (b.setWidth 16 <<< 8)))))))))

/-- The check of a run of bytes, from the starting value FFFFh. -/
def packetCheck (bs : List Byte) : BitVec 16 := bs.foldl crcByte 0xFFFF

/-- The check, high byte first. -/
def checkBytes (c : BitVec 16) : List Byte := [BitVec.ofNat 8 (c.toNat / 256), BitVec.ofNat 8 c.toNat]

/-! ## Whole packets -/

/-- The packet kind (Table 51). -/
def Content.kindCode : Content → Nat
  | .response _ _ => 2
  | .notice _ => 3
  | .init => 4
  | .ack => 5
  | .nak => 6
  | .idle => 7

/-- What follows the four header bytes, before the check (Tables 53 and 54; notes/assumptions/14.md for INIT). -/
def Content.bytes : Content → List Byte
  | .response t r =>
      byte1 t.toNat ++ byte1 r.status.code ++ leBytes 2 r.data.bytes.length ++ r.data.bytes
  | .notice n => byte1 n.kindCode ++ leBytes 2 n.bytes.length ++ n.bytes
  | .init | .ack | .nak | .idle => []

/-- A packet's bytes before its check: packet kind, sequence, ack field, free count, and the rest (R162). -/
def Packet.bodyBytes (k : Packet) : List Byte :=
  byte1 k.content.kindCode ++ [k.seq, k.ackField] ++ byte1 k.free ++ k.content.bytes

/-- A packet as it goes over the wire (R162). -/
def Packet.bytes (k : Packet) : List Byte := k.bodyBytes ++ checkBytes (packetCheck k.bodyBytes)

end Sys2Proof.Machine
end

