-- ==== Sys2Proof/Machine/Sending.lean ====
section
/-! DEFINITION. The sending side of a link: what the transmitter sends next (R170), and how packets are built, kept and put on the
wire (R165, R166, R168, R171). -/

namespace Sys2Proof.Machine

/-- The packets of R170's list. -/
inductive SendKind where
  | nak | replay | init | response | notice | ack | idle
deriving DecidableEq, Repr

/-- The transmitter is free: nothing sent yet, or the last byte has gone (R170). -/
def State.transmitterFree (s : State) (p : Port) : Bool :=
  match (s.link p).transmitter with
  | none => true
  | some t => decide (t.ends ≤ s.now)

/-- The replay buffer has room (R168). -/
def Link.room (l : Link) : Bool := decide (l.replay.length < Config.replayDepth)

/-- A non-posted DONE record, whose response is unsent while it stands in its queue (R50, R51). -/
def Record.awaitsResponse (r : Record) : Bool := r.isDone && !r.posted

/-- The packet at the replay position (R169). -/
def Link.replayPacket (l : Link) : Option Packet :=
  match l.replayAt with
  | some i => l.replay[i]?
  | none => none

/-- The first packet of R170's list that is due and can be sent. -/
def State.firstDue (s : State) (p : Port) : Option SendKind :=
  let l := s.link p
  if l.nakDue then some .nak
  else if l.replayPacket.isSome then some .replay
  else if l.initPending && l.room then some .init
  else if l.room && ((s.queue p).any Record.awaitsResponse || !l.refusals.isEmpty) then some .response
  else if l.room && !(s.noticeQ p).queue.isEmpty then some .notice
  else if l.ackTimer = .expired then some .ack
  else if l.keepalive = .expired then some .idle
  else none

/-- What the link sends now (R170); a link that is not UP sends nothing (R161). -/
def State.nextToSend (s : State) (p : Port) : Option SendKind :=
  if s.online p && s.transmitterFree p then s.firstDue p else none

/-- A packet built now: it carries the current S, E − 1 and the free count (R162, R171); an INIT too, where R168 says 16
(notes/assumptions/29.md). -/
def State.buildPacket (s : State) (p : Port) (c : Content) : Packet :=
  { seq := (s.link p).sendSeq, ackField := (s.link p).expected - 1, free := s.freeSlots p, content := c }

/-- A packet goes on the wire: the transmitter is busy for 1 ns a byte, the keepalive timer restarts (R165, R170). -/
def Link.put (l : Link) (now : Instant) (k : Packet) : Link :=
  { l with transmitter := some { packet := k, ends := now + byteTime * k.bytes.length },
           keepalive := .running (now + keepaliveLength) }

/-- An unsequenced packet is built and sent; the ack timer stops (R165). -/
def State.sendPlain (s : State) (p : Port) (c : Content) : State :=
  s.setLink p { (s.link p).put s.now (s.buildPacket p c) with ackTimer := .stopped }

/-- A sequenced packet is built and sent: it takes S, joins the replay buffer and stops the ack timer (R165, R168). -/
def State.sendSequenced (s : State) (p : Port) (c : Content) : State :=
  let k := s.buildPacket p c
  let l := s.link p
  s.setLink p { l.put s.now k with ackTimer := .stopped, sendSeq := l.sendSeq + 1, replay := l.replay ++ [k] }

/-- NAK due becomes no (R166). -/
def State.clearNakDue (s : State) (p : Port) : State := s.setLink p { s.link p with nakDue := false }

/-- INIT pending becomes no (R168). -/
def State.clearInit (s : State) (p : Port) : State := s.setLink p { s.link p with initPending := false }

/-- The packet at the replay position is sent again, unchanged, and the position moves on (R169). -/
def State.sendReplayed (s : State) (p : Port) : State :=
  let l := s.link p
  match l.replayAt with
  | none => s
  | some i =>
      match l.replay[i]? with
      | none => s
      | some k =>
          s.setLink p { l.put s.now k with
            replayAt := if i + 1 < l.replay.length then some (i + 1) else none }

/-- Record `r` answers before record `q`: earlier done instant, then lower stamp (R50, R170). -/
def Record.answersBefore (r q : Record) : Bool :=
  let a := r.doneAt.getD 0
  let b := q.doneAt.getD 0
  decide (a < b ∨ (a = b ∧ r.stamp < q.stamp))

/-- The best of a list in an order; of equal ones the first. -/
def pick {α : Type} (before : α → α → Bool) : List α → Option α
  | [] => none
  | x :: t =>
      match pick before t with
      | none => some x
      | some y => if before y x then some y else some x

/-- The DONE record whose response goes first. -/
def State.firstAnswer (s : State) (p : Port) : Option Record :=
  pick Record.answersBefore ((s.queue p).filter Record.awaitsResponse)

/-- The response of a record: the record leaves its queue, then the packet is built (R168). -/
def State.answerRecord (s : State) (p : Port) (r : Record) : State :=
  (s.dropRecord p r.stamp).sendSequenced p (.response r.tag (r.result.getD ⟨.ok, .none⟩))

/-- The response of the oldest refusal, which leaves the refusal list (R168). -/
def State.answerRefusal (s : State) (p : Port) (x : RefusedResponse) : State :=
  (s.setLink p { s.link p with refusals := (s.link p).refusals.tail }).sendSequenced p
    (.response x.tag ⟨x.status, .none⟩)

/-- The RESPONSE that is next: the earlier of a record's done instant and a refusal instant; at one instant either may go
first, as `refusalFirst` says (R170). -/
def State.sendAnswer (s : State) (p : Port) (refusalFirst : Bool) : State :=
  match s.firstAnswer p, (s.link p).refusals.head? with
  | some r, none => s.answerRecord p r
  | none, some x => s.answerRefusal p x
  | some r, some x =>
      let a := r.doneAt.getD 0
      if a < x.since ∨ (a = x.since ∧ refusalFirst = false) then s.answerRecord p r else s.answerRefusal p x
  | none, none => s

/-- The head notice leaves its queue; with losses counted, an OVERFLOW joins in the freed slot (R82). -/
def NoticeQueue.afterHead (q : NoticeQueue) : NoticeQueue :=
  if 0 < q.lost then { q with queue := q.queue.tail ++ [.overflow q.lost], lost := 0 } else { q with queue := q.queue.tail }

/-- The head NOTICE is built and sent (R82, R168). -/
def State.sendHeadNotice (s : State) (p : Port) : State :=
  match (s.noticeQ p).queue.head? with
  | none => s
  | some n => (s.setNoticeQ p (s.noticeQ p).afterHead).sendSequenced p (.notice n)

end Sys2Proof.Machine
end

