-- ==== Sys2Proof/Machine/Admission.lean ====
section
/-! DEFINITION. The receiving side of a link (R164, R165, R169) and the admission of requests (R28 to R35). -/

namespace Sys2Proof.Machine

/-! ## The admission checks (Table 16) -/

/-- What admission decides: a refusal with its status, or an acceptance with the request's fields, whether it is posted
and its region (R28, R33). -/
inductive Verdict where
  | refuse (st : Status)
  | accept (op : ReqOp) (posted : Bool) (region : Option RegionIx)
deriving DecidableEq, Repr

/-- The tag is that of a non-posted record in the port's queue (R30). -/
def State.tagBusy (s : State) (p : Port) (t : Tag) : Bool := (s.queue p).any (fun q => !q.posted && decide (q.tag = t))

/-- The run of lines of a READ or WRITE crosses its row (R28). -/
def ReqOp.crossesRow : ReqOp → Bool
  | .read a n => decide (32 < (lineIx (addrLine a)).val + n)
  | .write a n _ => decide (32 < (lineIx (addrLine a)).val + n)
  | .writePart _ _ _ | .fence | .fetchAdd _ _ | .swap _ _ | .compareSwap _ _ _ | .watch _ | .unwatch _
  | .noticeMask _ | .regionSet _ | .regionGet _ | .repair _ _ _ | .quiet _ | .claim | .release | .set _ _
  | .get _ _ => false

/-- The port's rights and the region's permissions allow the kind (R31, Table 30). -/
def RegionBody.allows (g : RegionBody) (p : Port) (o : ReqOp) : Bool :=
  match o with
  | .read _ _ => decide (g.rights.get p ≠ .none)
  | .watch _ => decide (g.rights.get p ≠ .none) && g.watches
  | .write _ _ _ | .writePart _ _ _ => decide (g.rights.get p = .readWrite)
  | .fetchAdd _ _ | .swap _ _ | .compareSwap _ _ _ => decide (g.rights.get p = .readWrite) && g.atomics
  | .fence | .unwatch _ | .noticeMask _ | .regionSet _ | .regionGet _ | .repair _ _ _ | .quiet _ | .claim
  | .release | .set _ _ | .get _ _ => true

/-- The checks of the covering region, and what becomes of a posted request where posting is not allowed (R28, R31, R33). -/
def State.regionVerdict (s : State) (p : Port) (t : Tag) (posted : Bool) (o : ReqOp) (page : Nat) : Verdict :=
  match s.coveringRegion page with
  | none => .refuse .noRegion
  | some i =>
      if (s.region i).state = .draining then .refuse .changing
      else if (s.region i).body.allows p o = false then .refuse .denied
      else if posted && !(s.region i).body.posting then
        if s.tagBusy p t then .refuse .tagBusy else .accept o false (some i)
      else .accept o posted (some i)

/-- The checks of Table 16 in their order (R28). `code` is the request kind's byte. -/
def State.verdict (s : State) (p : Port) (code : Byte) (r : Request) : Verdict :=
  if Config.queueDepth ≤ (s.queue p).length then .refuse .full
  else if codeIsArray code && !s.scrub.sweepDone then .refuse .notReady
  else
    match requestOp code r with
    | none => .refuse .malformed
    | some o =>
        if o.crossesRow then .refuse .split
        else if !r.posted && s.tagBusy p r.tag then .refuse .tagBusy
        else
          match o.span with
          | some (l, _) => s.regionVerdict p r.tag r.posted o (linePage l)
          | none => .accept o r.posted none

/-! ## Acceptance (R34) -/

/-- The record admission makes, before its state is set (R25, R34). -/
def State.newRecord (s : State) (p : Port) (t : Tag) (o : ReqOp) (posted : Bool) (region : Option RegionIx) : Record :=
  { port := p, tag := t, op := o, posted := posted, region := region, stamp := s.stampCounter, state := .waiting,
    blocked := none, aged := false, linesDone := 0, readLines := [], result := none, doneAt := none, since := s.now }

/-- A region counts one more record (R90). -/
def State.countIn (s : State) (region : Option RegionIx) : State :=
  match region with
  | some i => s.setRegion i { s.region i with inFlight := (s.region i).inFlight + 1 }
  | none => s

/-- The record joins its queue with the state R27 decides, takes the stamp and counts in its region (R34, R35); the acceptance
ends SETTLING or ENTERING (R150, R153), and one of an array kind wakes a RETAINED part (R155). -/
def State.enqueue (s : State) (p : Port) (t : Tag) (o : ReqOp) (posted : Bool) (region : Option RegionIx) : State :=
  let s1 := s.quietBreak
  let s2 := ({ s1 with stampCounter := s.stampCounter + 1 }).setQueue p
    (s.queue p ++ [s1.review (s.newRecord p t o posted region)])
  let s3 := s2.countIn region
  if o.isArray then s3.wakeCause .request p else s3

/-- What the new record does at once (R34): a READY FENCE or control record is carried out (R38, R42), a REPAIR with what its job's
start changes elsewhere; a READY memory record or WATCH counts for its bank's idle timer (R19). -/
def State.letIn (s : State) (p : Port) (t : Tag) (o : ReqOp) (posted : Bool) (region : Option RegionIx) : State :=
  let s' := s.enqueue p t o posted region
  let r := s.quietBreak.review (s.newRecord p t o posted region)
  if r.state = .ready then
    match o.span with
    | some (l, _) => s'.setBank (lineBank l) (s'.idleNext (lineBank l) (s'.bank (lineBank l)))
    | none => if o.isRepair then (s'.carryOut r).settle else s'.carryOut r
  else s'

/-! ## Receiving (R164) -/

/-- A packet with a good check restarts the silence timer (R164). -/
def State.heard (s : State) (p : Port) : State := s.setLink p { s.link p with silence := some (s.now + silenceLength) }

/-- NAK due and NAK outstanding become yes, if no NAK is outstanding (R164). -/
def Link.decideNak (l : Link) : Link :=
  if l.nakOutstanding then l else { l with nakDue := true, nakOutstanding := true }

/-- A good packet is discarded for its sequence or kind: it is counted and a NAK is decided once a gap (R164, R167). -/
def State.discardPacket (s : State) (p : Port) : State :=
  let l := s.link p
  s.setLink p { l with errors := { l.errors with seqDiscards := countUp top16 l.errors.seqDiscards } }.decideNak

/-- A packet with a bad check is discarded (R164, R167). -/
def State.badPacket (s : State) (p : Port) : State :=
  let l := s.link p
  s.setLink p { l with errors := { l.errors with checkFailures := countUp top16 l.errors.checkFailures } }.decideNak

/-- A REQUEST with sequence E is accepted: E advances, NAK outstanding becomes no, the ack timer starts if it is STOPPED (R164, R165). -/
def State.acceptPacket (s : State) (p : Port) : State :=
  let l := s.link p
  s.setLink p { l with
    expected := l.expected + 1, nakOutstanding := false,
    ackTimer := if l.ackTimer = .stopped then .running (s.now + ackLength) else l.ackTimer }

/-- The response of a refused request joins the refusal list (R32). -/
def State.addRefusal (s : State) (p : Port) (t : Tag) (st : Status) : State :=
  let l := s.link p
  s.setLink p { l with refusals := l.refusals ++ [{ tag := t, status := st, since := s.now }] }

/-- Whether the controller discards the REQUEST: it is out of sequence, or its refusal finds the refusal list full (R164). -/
def State.discards (s : State) (p : Port) (code : Byte) (r : Request) : Bool :=
  decide (r.seq ≠ (s.link p).expected) ||
    match s.verdict p code r with
    | .refuse _ => answeredByResponse code r && decide (Config.refusalDepth ≤ (s.link p).refusals.length)
    | .accept _ _ _ => false

/-- What admission does with a request the link accepted (R28, R32, R34). -/
def State.decideRequest (s : State) (p : Port) (code : Byte) (r : Request) : State :=
  match s.verdict p code r with
  | .refuse st => if answeredByResponse code r then s.addRefusal p r.tag st else s.placeNotice p (.error r.tag st)
  | .accept o posted region => s.letIn p r.tag o posted region

/-- A REQUEST packet with a good check arrives at an UP link (R164). -/
def State.receive (s : State) (p : Port) (code : Byte) (r : Request) : State :=
  if s.online p then
    if s.discards p code r then (s.heard p).discardPacket p
    else ((s.heard p).acceptPacket p).decideRequest p code r
  else s

/-- The place of a sequence in the replay buffer. -/
def Link.placeOf (l : Link) (n : Byte) : Option Nat := l.replay.findIdx? (fun k => decide (k.seq = n))

/-- An ACK or NAK that names a sequence not in the buffer (R167, R169). -/
def Link.stray (l : Link) : Link :=
  { l with errors := { l.errors with strayAcks := countUp top16 l.errors.strayAcks } }

/-- The packets up to place `i` leave; a replay position among them moves to the oldest packet left (R169). -/
def Link.acked (l : Link) (i : Nat) : Link :=
  { l with
    replay := l.replay.drop (i + 1)
    replayAt := match l.replayAt with
      | none => none
      | some k => if i < k then some (k - (i + 1)) else if i + 1 < l.replay.length then some 0 else none }

/-- An ACK(n) taken by the send side (R169). -/
def Link.takeAck (l : Link) (n : Byte) : Link :=
  match l.placeOf n with
  | some i => l.acked i
  | none => l.stray

/-- A NAK(n) taken by the send side: the older packets leave and the replay starts from n (R169). -/
def Link.takeNak (l : Link) (n : Byte) : Link :=
  match l.placeOf n with
  | some i => { l with replay := l.replay.drop i, replayAt := some 0 }
  | none => l.stray

end Sys2Proof.Machine
end

