-- ==== Sys2Proof/Machine/Arbiter.lean ====
section
/-! DEFINITION. The array commands' legality (R5 to R17) and the command arbiter's choice (R43 to R49, Table 18). -/

namespace Sys2Proof.Machine

/-- An array command (Terms). OPEN_SPARE names the row it opens as well as the spare (R2). -/
inductive ArrayCmd where
  | openRow (bank : BankId) (row : RowId)
  | openSpare (bank : BankId) (spare : SpareId) (row : RowId)
  | close (bank : BankId)
  | readLine (bank : BankId) (line : LineIx)
  | writeLine (bank : BankId) (line : LineIx)
  | refreshGroup (group : GroupId)
  | retain
  | resume
  | programSoft (bank : BankId) (spare : SpareId)
  | programFuse (bank : BankId) (spare : SpareId)
deriving DecidableEq, Repr

/-- Who a line access is for (R10, R43). -/
inductive Source where
  | request (r : Record)
  | scrubber
  | sweep
  | repair
  | upkeep
deriving DecidableEq, Repr

/-- The command the arbiter issues, and for whom. -/
structure Grant where
  cmd : ArrayCmd
  source : Source
deriving DecidableEq, Repr

/-- The banks and the groups, in order. -/
def allBanks : List BankId := List.finRange 16
def allGroups : List GroupId := [0, 1, 2, 3]

/-! ## Legality -/

/-- Every bank of the group satisfies `f`. -/
def State.groupAll (s : State) (g : GroupId) (f : Bank → Bool) : Bool :=
  allBanks.all (fun k => decide (groupOf k ≠ g) || f (s.bank k))

/-- Sibling and group spacing, from the last OPENs of the other banks (R5, Table 10). -/
def State.openSpacing (s : State) (b : BankId) : Bool :=
  allBanks.all (fun k =>
    decide (k = b) || s.since (s.bank k).lastOpen (if sameGroup b k then siblingSpacing else groupSpacing))

/-- The activation window does not bind: fewer than four entries, or 30 ns from the oldest (R6). -/
def State.windowFree (s : State) : Bool :=
  decide (s.window.length < 4) || s.since s.window.head? windowLength

/-- What every OPEN needs besides its bank's state: no bank of the group REFRESHING, the spacings and the window (R7). -/
def State.openTiming (s : State) (b : BankId) : Bool :=
  s.groupAll (groupOf b) (fun x => decide (x.state ≠ .refreshing)) && s.openSpacing b && s.windowFree

/-- Urgent refresh of a group (R107). -/
def State.urgent (s : State) (g : GroupId) : Bool := decide (s.refresh.debt.get g = 8)

/-- An OPEN for a request record or the scrubber is legal (R7). -/
def State.openLegal (s : State) (b : BankId) : Bool :=
  decide ((s.bank b).state = .closed) && (s.repairPhase b).isNone && !s.urgent (groupOf b) &&
    decide (s.quiet.part ≠ .entering) && s.openTiming b

/-- An OPEN of the repair job is legal (R7). -/
def State.repairOpenLegal (s : State) (b : BankId) : Bool :=
  decide ((s.bank b).state = .repairing) && !s.urgent (groupOf b) && s.openTiming b

/-- Access spacing, and turnaround for a READ_LINE, from every earlier line access (R5, R9). -/
def State.accessSpacing (s : State) (b : BankId) (isRead : Bool) : Bool :=
  allBanks.all (fun k =>
    let x := s.bank k
    let gap := if sameGroup b k then accessSpacingSame else accessSpacingOther
    s.since x.lastRead gap && s.since x.lastWrite gap &&
      (!isRead || s.since x.lastWrite (if sameGroup b k then turnaroundSame else turnaroundOther)))

/-- A line access is legal: the bank is OPEN at the line's row, with the spacings (R9); a bank that a warm reset is closing takes
none (R24, R145). -/
def State.accessLegal (s : State) (l : LineId) (isRead : Bool) : Bool :=
  let x := s.bank (lineBank l)
  decide (x.state = .opened) && decide (x.openRow = some (lineRow l)) && !x.resetClose &&
    s.accessSpacing (lineBank l) isRead

/-- No merge of another record stands between its READ_LINE and its WRITE_LINE on the line (R40). -/
def State.noMergeBut (s : State) (h : Holder) (l : LineId) : Bool :=
  !s.records.any (fun q => decide (q.holder ≠ h) && q.mergesOn l)

/-- The line is free for a holder: not held by another (R57) and in no other record's merge (R40). -/
def State.lineFree (s : State) (h : Holder) (l : LineId) : Bool := !s.heldByOther h l && s.noMergeBut h l

/-- The line is free for the repair job or the sweep, which take no hold: nobody holds it and no merge is on it (R40, R57). -/
def State.lineUnclaimed (s : State) (l : LineId) : Bool := !s.held l && !s.records.any (fun q => q.mergesOn l)

/-- A CLOSE of the bank is legal (R12). -/
def State.closeLegal (s : State) (b : BankId) : Bool :=
  let x := s.bank b
  decide (x.state = .opened) && s.since x.lastOpen openMinimum && s.since x.lastRead readToClose &&
    s.since x.lastWrite writeRecovery

/-- A REFRESH_GROUP is legal: every bank of the group CLOSED or REPAIRING (R13). -/
def State.refreshLegal (s : State) (g : GroupId) : Bool :=
  s.groupAll g (fun x => decide (x.state = .closed ∨ x.state = .repairing))

/-- Every bank is in that state. -/
def State.allBanksIn (s : State) (st : BankState) : Bool := allBanks.all (fun b => decide ((s.bank b).state = st))

/-! ## Offers -/

/-- The OPEN of a row, as the bank table issues it (R2). -/
def State.openCmd (s : State) (b : BankId) (row : RowId) : ArrayCmd :=
  match s.servingSpare b row with
  | some sp => .openSpare b sp row
  | none => .openRow b row

/-- A command of the part's upkeep. -/
def upkeep (c : ArrayCmd) : Grant := ⟨c, .upkeep⟩

/-- The CLOSE of the lowest-numbered bank that satisfies `f` and whose CLOSE is legal. -/
def State.closeOf (s : State) (f : BankId → Bool) : Option Grant :=
  (allBanks.find? (fun b => f b && s.closeLegal b)).map (fun b => upkeep (.close b))

/-- The group that satisfies `f` with the highest debt, the lower-numbered of equal ones. -/
def State.highestDebt (s : State) (f : GroupId → Bool) : Option GroupId :=
  pick (fun g h => decide (s.refresh.debt.get h < s.refresh.debt.get g)) (allGroups.filter f)

def refreshGrant (g : Option GroupId) : Option Grant := g.map (fun g => upkeep (.refreshGroup g))

/-- A mark that forces a close in class 1 (R44). -/
def CloseMarks.forced (m : CloseMarks) : Bool := m.openLimit || m.urgentRefresh || m.retention

def CloseMarks.isEmpty (m : CloseMarks) : Bool := !m.openLimit && !m.urgentRefresh && !m.retention && !m.repair

/-- The quiet controller's command (R152, R157): in ENTERING the refresh of a group whose debt is above 0, or RETAIN when no
debt is and every bank is CLOSED; in WAKING the RESUME. -/
def State.quietOffer (s : State) : Option Grant :=
  match s.quiet.part with
  | .entering =>
      if allGroups.any (fun g => decide (0 < s.refresh.debt.get g)) then
        refreshGrant (s.highestDebt (fun g => decide (0 < s.refresh.debt.get g) && s.refreshLegal g))
      else if s.allBanksIn .closed then some (upkeep .retain)
      else none
  | .waking => if s.quiet.wakeTimer.isNone && s.allBanksIn .retained then some (upkeep .resume) else none
  | .active | .settling | .retained => none

/-- Class 1: forced closes and warm-reset closes, then the quiet controller's commands (R24, R44). -/
def State.class1 (s : State) : Option Grant :=
  (s.closeOf (fun b => (s.bank b).resetClose || ((s.bank b).marks.forced && !s.activeOn b))).or s.quietOffer

/-- Class 2: the refresh of a group whose debt is 8, the one that reached 8 first (R44). -/
def State.class2 (s : State) : Option Grant :=
  refreshGrant (pick (fun g h => decide ((s.refresh.urgentAt.get g).getD 0 < (s.refresh.urgentAt.get h).getD 0))
    (allGroups.filter (fun g => s.urgent g && s.refreshLegal g)))

/-- A line in the row of a repair job's copy: `lineIx` of the count done so far. -/
def copyLine (n : Nat) : LineIx := ⟨n % 32, Nat.mod_lt _ (by decide)⟩

/-- The copy access or the CLOSE of the job's open bank: the next of its 32 lines, or the CLOSE after them. A mark other than
REPAIR, or a warm reset, stops the copy (R21, R139, R141, R145). -/
def State.copyOffer (s : State) (b : BankId) (done : Nat) (row : RowId) (isRead : Bool) : Option Grant :=
  if (s.bank b).marks.forced || (s.bank b).resetClose then none
  else if done < 32 then
    if s.accessLegal (mkLine row b (copyLine done)) isRead && s.lineUnclaimed (mkLine row b (copyLine done)) then
      some ⟨if isRead then .readLine b (copyLine done) else .writeLine b (copyLine done), .repair⟩
    else none
  else if s.closeLegal b then some ⟨.close b, .repair⟩
  else none

/-- The next command of the running job (R138 to R141). -/
def State.jobOffer (s : State) (c : CurrentJob) : Option Grant :=
  let b := c.job.bank
  match c.phase, (s.bank b).state with
  | .wait, .opened =>
      if (s.bank b).marks.repair && !s.activeOn b && s.closeLegal b then some ⟨.close b, .repair⟩ else none
  | .copyOut, .repairing =>
      if c.linesRead < 32 then
        if s.repairOpenLegal b then some ⟨s.openCmd b c.job.row, .repair⟩ else none
      else
        some ⟨match c.job.mode with
          | .soft => .programSoft b c.chosen
          | .fused => .programFuse b c.chosen, .repair⟩
  | .copyOut, .opened => s.copyOffer b c.linesRead c.job.row true
  | .copyIn, .repairing =>
      if s.repairOpenLegal b then some ⟨.openSpare b c.chosen c.job.row, .repair⟩ else none
  | .copyIn, .opened => s.copyOffer b c.linesWritten c.job.row false
  | _, _ => none

/-- Class 3: the running repair job (R44). -/
def State.class3 (s : State) : Option Grant :=
  match s.currentJob with
  | some c => s.jobOffer c
  | none => none

/-- The line access a record offers, if it is legal (R9, R40, R57). -/
def State.accessOffer (s : State) (r : Record) : Option Grant :=
  match r.nextAccess with
  | none => none
  | some (isRead, l) =>
      if s.accessLegal l isRead && s.lineFree r.holder l then
        some ⟨if isRead then .readLine (lineBank l) (lineIx l) else .writeLine (lineBank l) (lineIx l), .request r⟩
      else none

/-- Record `r` goes before record `q`: aged first, then oldest (R46, R47). -/
def Record.ranksBefore (r q : Record) : Bool :=
  (r.aged && !q.aged) || (decide (r.aged = q.aged) && decide (r.stamp < q.stamp))

/-- The offer of the first record, in an order, that has one. -/
def firstOffer (before : Record → Record → Bool) (offer : Record → Option Grant) (rs : List Record) : Option Grant :=
  match pick before (rs.filter (fun r => (offer r).isSome)) with
  | some r => offer r
  | none => none

/-- Class 4: the next access of an ACTIVE record, the oldest (R45). -/
def State.class4 (s : State) : Option Grant :=
  firstOffer (fun r q => decide (r.stamp < q.stamp)) s.accessOffer (s.records.filter Record.isActive)

/-- A hit of record `r` on its bank is barred: an older READY record waits for another row of the bank, and is aged or finds
the hit streak at 8 (R46). -/
def State.barred (s : State) (r : Record) (b : BankId) (row : RowId) : Bool :=
  s.records.any (fun q =>
    q.isReady && decide (q.stamp < r.stamp) && q.onBank b && !q.onRow b row &&
      (q.aged || decide ((s.bank b).streak = 8)))

/-- The first access of a READY record whose bank is OPEN at its row with no close marks, if it is not barred; an atomic's needs its hold
(R46, R55, R56). -/
def State.hitOffer (s : State) (r : Record) : Option Grant :=
  match r.op.span with
  | none => none
  | some (l, _) =>
      let b := lineBank l
      if (s.bank b).marks.isEmpty && !s.barred r b (lineRow l) &&
          (!r.op.isAtomic || s.holdMayBeGiven r.holder l) then
        s.accessOffer r
      else none

/-- The READY records of the memory kinds and WATCH. -/
def State.readyRecords (s : State) : List Record := s.records.filter (fun r => r.isReady && r.op.usesLines)

/-- Class 5: hits, aged first, then oldest first (R46). -/
def State.class5 (s : State) : Option Grant := firstOffer Record.ranksBefore s.hitOffer s.readyRecords

/-- The OPEN of a READY record's row, or the CLOSE of its bank open at another row (R47). -/
def State.rowOffer (s : State) (r : Record) : Option Grant :=
  match r.op.span with
  | none => none
  | some (l, _) =>
      let b := lineBank l
      if s.openLegal b then some (upkeep (s.openCmd b (lineRow l)))
      else
        match (s.bank b).openRow with
        | none => none
        | some row =>
            if decide (row ≠ lineRow l) && (s.repairPhase b).isNone && !s.activeOn b &&
                (!s.rowReady b row || decide ((s.bank b).streak = 8) || r.aged) && s.closeLegal b then
              some (upkeep (.close b))
            else none

/-- Class 6: rows opened and closed for READY records (R47). -/
def State.class6 (s : State) : Option Grant := firstOffer Record.ranksBefore s.rowOffer s.readyRecords

/-- The due offer of a group: the CLOSE of a bank that stands in the way, or its REFRESH_GROUP (R48). -/
def State.dueOffer (s : State) (g : GroupId) : Option Grant :=
  (s.closeOf (fun b =>
    decide (groupOf b = g) && (s.repairPhase b).isNone && !s.activeOn b &&
      match (s.bank b).openRow with
      | some row => !s.rowReady b row
      | none => false)).or
    (if s.refreshLegal g then some (upkeep (.refreshGroup g)) else none)

/-- Class 7: due refresh and its closes, the highest debt first (R48). -/
def State.class7 (s : State) : Option Grant :=
  match s.highestDebt (fun g =>
      decide (4 ≤ s.refresh.debt.get g ∧ s.refresh.debt.get g ≤ 7) && (s.dueOffer g).isSome) with
  | some g => s.dueOffer g
  | none => none

/-- A READY or ACTIVE record is for a bank of the group (R48). -/
def State.groupWanted (s : State) (g : GroupId) : Bool :=
  s.records.any (fun r => (r.isReady || r.isActive) && allBanks.any (fun b => decide (groupOf b = g) && r.onBank b))

/-- Class 8: idle refreshes, then pull-in refreshes (R48). -/
def State.class8 (s : State) : Option Grant :=
  (refreshGrant (s.highestDebt (fun g =>
    decide (1 ≤ s.refresh.debt.get g ∧ s.refresh.debt.get g ≤ 3) && !s.groupWanted g && s.refreshLegal g))).or
    (if s.noRecords then
      refreshGrant (s.highestDebt (fun g =>
        decide (-8 < s.refresh.debt.get g ∧ s.refresh.debt.get g ≤ 0) && s.refreshLegal g))
     else none)

/-- The OPEN of a scrub step's row, or its line access when the bank is OPEN at that row with no close marks (R65, R125). -/
def State.scrubAccess (s : State) (l : LineId) (isRead : Bool) : Option Grant :=
  let b := lineBank l
  if s.openLegal b then some ⟨s.openCmd b (lineRow l), .scrubber⟩
  else if (s.bank b).marks.isEmpty && (s.repairPhase b).isNone && s.accessLegal l isRead && s.lineFree .scrubber l then
    some ⟨if isRead then .readLine b (lineIx l) else .writeLine b (lineIx l), .scrubber⟩
  else none

/-- The scrubber's command for its current step (R125). -/
def State.scrubOffer (s : State) : Option Grant :=
  let l := s.scrub.pointer
  match s.scrub.step with
  | .none => none
  | .started => s.scrubAccess l true
  | .pending => if s.holdMayBeGiven .scrubber l then s.scrubAccess l true else none
  | .holding => s.scrubAccess l false

/-- The line at the sweep position; none after the last line. -/
def State.sweepLine (s : State) : Option LineId :=
  if h : s.scrub.sweepAt < 33554432 then some ⟨s.scrub.sweepAt, h⟩ else none

/-- The bank is open at a row of which the sweep has written every line (R128). -/
def State.sweptOpen (s : State) (b : BankId) : Bool :=
  match (s.bank b).openRow with
  | some row => decide ((mkLine row b 31).val < s.scrub.sweepAt)
  | none => false

/-- Banks that hold a row open: OPENING or OPEN. -/
def State.openCount (s : State) : Nat := (allBanks.filter (fun b => (s.bank b).openRow.isSome)).length

/-- A bank awaits its warm-reset close (R24). -/
def State.resetClosePending (s : State) : Bool := allBanks.any (fun b => (s.bank b).resetClose)

/-- The sweep's command: its CLOSE before its write, its write before its OPEN (R128). The sweep goes on after the warm-reset closes of
class 1 (R129): while one is still to be issued it offers nothing. -/
def State.sweepOffer (s : State) : Option Grant :=
  if s.resetClosePending then none
  else ((s.closeOf s.sweptOpen).map (fun g => { g with source := .sweep })).or
    (match s.sweepLine with
     | none => none
     | some l =>
         let b := lineBank l
         if s.accessLegal l false && s.lineUnclaimed l then
           some ⟨.writeLine b (lineIx l), .sweep⟩
         else if s.openLegal b && decide (s.openCount < 2) then some ⟨s.openCmd b (lineRow l), .sweep⟩
         else none)

/-- Class 9: scrub commands and the initial sweep (R49); none while the part is RETAINED or WAKING (R127). -/
def State.class9 (s : State) : Option Grant :=
  if s.scrub.sweepDone then (if s.asleep then none else s.scrubOffer) else s.sweepOffer

/-- Class 10: idle closes (R49). -/
def State.class10 (s : State) : Option Grant :=
  s.closeOf (fun b => decide ((s.bank b).idle = .expired) && (s.repairPhase b).isNone && !s.activeOn b)

/-- The command arbiter's choice at this instant: the first class with a legal command; none while the path is busy (R43). -/
def State.arbiterChoice (s : State) : Option Grant :=
  if s.pathBusy.isSome then none
  else s.class1.or (s.class2.or (s.class3.or (s.class4.or (s.class5.or (s.class6.or (s.class7.or
    (s.class8.or (s.class9.or s.class10))))))))

end Sys2Proof.Machine
end

