-- ==== Sys2Proof/Machine/Time.lean ====
section
/-! DEFINITION. The passing of time before a command: never past an expiry not yet taken, nor past an instant at which the arbiter or
a transmitter must act (R4, R5, R43, R170; notes/assumptions/2.md). -/

namespace Sys2Proof.Machine

/-- The end of a RUNNING timer of three values. -/
def Timer.deadline : Timer → List Instant
  | .running e => [e]
  | .stopped => []
  | .expired => []

/-- An interval that ends `len` after an instant. -/
def endOf (t : Option Instant) (len : Nat) : List Instant :=
  match t with
  | some i => [i + len]
  | none => []

/-- The expiries a bank waits for (R8, R12, R14, R19, R20). -/
def Bank.deadlines (x : Bank) : List Instant :=
  (match x.state with
    | .opening => endOf x.lastOpen openDelay
    | .closing => endOf x.lastClose closeDelay
    | .refreshing => endOf x.lastRefresh groupRefresh
    | .closed | .opened | .repairing | .retained => []) ++ x.idle.deadline ++ x.openAge.deadline

/-- The expiries a link waits for (Table 50). -/
def Link.deadlines (l : Link) : List Instant :=
  l.ackTimer.deadline ++ l.keepalive.deadline ++ l.silence.toList ++ l.training.toList

/-- The instant at which a record becomes aged (R36). -/
def Record.deadline (limit : Nat) (r : Record) : List Instant := if r.aged then [] else [r.since + us limit]

/-- The end of the running job's programming. -/
def State.programEnds (s : State) : Option Instant :=
  match s.currentJob with
  | some c => c.programEnds
  | none => none

/-- Every expiry not yet taken. -/
def State.deadlines (s : State) : List Instant :=
  s.pathBusy.toList ++ s.programEnds.toList ++ s.quiet.wakeTimer.toList ++ s.quiet.holdTimer.toList ++
    s.refresh.quarter.toList ++ s.scrub.timer.toList ++ s.claim.timer.toList ++
    s.banks.items.flatMap Bank.deadlines ++ (Port.all.map s.link).flatMap Link.deadlines ++
    s.records.flatMap (Record.deadline s.settings.ageLimit)

/-- The ends of the spacing, turnaround and recovery intervals that a bank's last commands started (R5, Table 10). -/
def Bank.intervalEnds (x : Bank) : List Instant :=
  endOf x.lastOpen openMinimum ++ endOf x.lastOpen siblingSpacing ++ endOf x.lastOpen groupSpacing ++
    endOf x.lastRead readToClose ++ endOf x.lastRead accessSpacingSame ++ endOf x.lastRead accessSpacingOther ++
    endOf x.lastWrite writeRecovery ++ endOf x.lastWrite accessSpacingSame ++ endOf x.lastWrite accessSpacingOther ++
    endOf x.lastWrite turnaroundSame ++ endOf x.lastWrite turnaroundOther

/-- The ends of the intervals of Table 10 that have no expiry of their own (R5, R6). -/
def State.intervalEnds (s : State) : List Instant :=
  (if s.window.length < 4 then [] else endOf s.window.head? windowLength) ++ s.banks.items.flatMap Bank.intervalEnds

/-- The ends of the packets on the wires (R170). -/
def State.sendEnds (s : State) : List Instant :=
  (Port.all.map s.link).flatMap (fun l => (l.transmitter.map Transmission.ends).toList)

/-- The arbiter or a transmitter has something to do at this instant (R43, R170). -/
def State.busyNow (s : State) : Bool := s.arbiterChoice.isSome || Port.all.any (fun p => (s.nextToSend p).isSome)

/-- The same state at another instant. -/
def State.atInstant (s : State) (t : Instant) : State := { s with now := t }

/-- The least of a list and a bound. -/
def leastOf (bound : Nat) (l : List Nat) : Nat := l.foldl min bound

/-- How far `dt` may take the present instant. -/
def State.horizon (s : State) (dt : Nat) : Instant := max s.now (leastOf (s.now + dt) s.deadlines)

/-- The instants up to a bound at which an interval or a packet ends and the arbiter or a transmitter then has something to do. -/
def State.stops (s : State) (bound : Instant) : List Instant :=
  (s.intervalEnds ++ s.sendEnds).filter (fun t => decide (s.now < t ∧ t < bound) && (s.atInstant t).busyNow)

/-- Time passes by `dt`, as far as it may. -/
def State.passTime (s : State) (dt : Nat) : State :=
  if dt = 0 then s
  else if s.busyNow then s
  else s.atInstant (leastOf (s.horizon dt) (s.stops (s.horizon dt)))

/-- Time passes by `dt`, but not past the first end of an interval of Table 10 (TIMING_INTERVAL_EXPIRY). -/
def State.passToInterval (s : State) (dt : Nat) : State :=
  s.passTime (leastOf dt ((s.intervalEnds.filter (fun t => decide (s.now < t))).map (fun t => t - s.now)))

end Sys2Proof.Machine
end

