-- ==== Sys2Proof/Machine/ArrayCommands.lean ====
section
/-! DEFINITION. The ten array commands: OPEN, OPEN_SPARE, CLOSE, READ_LINE, WRITE_LINE, REFRESH_GROUP, RETAIN, RESUME, PROGRAM_SOFT and
PROGRAM_FUSE. A command that the arbiter does not choose at this instant is not issued (R4, R43). -/

namespace Sys2Proof.Machine

/-- The outcome of a command: the next state. -/
abbrev Out := Host.Outcome State Fault Refusal

/-- The path is occupied from this issue on (R4). -/
def State.occupyPath (s : State) : State := { s with pathBusy := some (s.now + pathOccupancy) }

/-! ## OPEN, OPEN_SPARE, CLOSE -/

/-- The activation window with one more instant, its oldest of five dropped (R6). -/
def pushWindow (w : List Instant) (t : Instant) : List Instant := if w.length < 4 then w ++ [t] else w.tail ++ [t]

/-- A bank record at the issue of an OPEN or OPEN_SPARE (R8). -/
def Bank.issueOpen (x : Bank) (now : Instant) (row : RowId) (sp : Option SpareId) : Bank :=
  { x with state := .opening, openRow := some row, servedBy := sp, streak := 0, firstStart := false,
           lastOpen := some now, openAge := .running (now + rowOpenLength), idle := .stopped, idleReset := false }

/-- An OPEN or OPEN_SPARE takes its effect (R2, R6, R8). -/
def State.issueOpen (s : State) (b : BankId) (row : RowId) (sp : Option SpareId) : State :=
  ({ s with window := pushWindow s.window s.now }).occupyPath.setBank b ((s.bank b).issueOpen s.now row sp)

/-- A bank record at the issue of a CLOSE (R12). -/
def Bank.issueClose (x : Bank) (now : Instant) : Bank :=
  { x with state := .closing, lastClose := some now, openRow := none, servedBy := none, idle := .stopped,
           openAge := .stopped, marks := .empty, resetClose := false, idleReset := false }

/-- The scrubber at the end of the initial sweep (R129). -/
def State.endSweep (s : State) : State :=
  s.setScrub { s.scrub with sweepDone := true, pointer := 0, passes := 0, timer := s.scrubTimerStart }

/-- A CLOSE takes its effect (R12); that of bank 15 after the last line's write ends the initial sweep (R129). -/
def State.issueClose (s : State) (b : BankId) : State :=
  let s' := s.occupyPath.setBank b ((s.bank b).issueClose s.now)
  if b = 15 ∧ s.scrub.sweepDone = false ∧ s.scrub.sweepAt = Config.lines then s'.endSweep.reviewQuiet else s'

/-! ## READ_LINE -/

/-- A bank record at the issue of a line access: the last read or write instant, and an EXPIRED idle timer STOPPED by a request (R10). -/
def Bank.issueAccess (x : Bank) (now : Instant) (isRead forRequest : Bool) : Bank :=
  { x with
    lastRead := if isRead then some now else x.lastRead
    lastWrite := if isRead then x.lastWrite else some now
    idle := if forRequest ∧ x.idle = .expired then .stopped else x.idle }

/-- A request record starts on the bank (R11). -/
def Bank.startRecord (x : Bank) : Bank :=
  if x.firstStart then { x with streak := countUp 8 x.streak } else { x with firstStart := true }

/-- The bank side of a request's line access: a first access starts the record (R10, R11). -/
def Bank.requestAccess (x : Bank) (now : Instant) (isRead : Bool) (r : Record) : Bank :=
  if r.isReady then (x.issueAccess now isRead true).startRecord else x.issueAccess now isRead true

/-- The cell address of a line of what the bank has open (R2, R10). -/
def State.openLine (s : State) (l : LineId) : Nat :=
  lineCell (lineBank l) (lineRow l) (s.bank (lineBank l)).servedBy (lineIx l)

/-- The checked words of a read. -/
def checkedWords (os : List WordOutcome) : List CheckedWord := os.map WordOutcome.checked

/-- The word of an address in a checked line. -/
def wordAt (ws : List CheckedWord) (a : Addr) : CheckedWord := ws.getD (addrWord a).val .poisoned

/-- What an atomic will write after reading its old word; none where it writes nothing (R60 to R63). -/
def ReqOp.newWord (o : ReqOp) (old : CheckedWord) : Option Word :=
  match o, old with
  | .fetchAdd _ x, .data w => some (w + x)
  | .swap _ x, .data _ => some x
  | .compareSwap _ c x, .data w => if w = c then some x else none
  | _, _ => none

/-- The result of an atomic that read its old word (R60 to R63). -/
def ReqOp.atomicResult (o : ReqOp) (old : CheckedWord) : Result :=
  match old with
  | .poisoned => ⟨.poisoned, .none⟩
  | .data w =>
      match o with
      | .compareSwap _ c _ => ⟨if w = c then .ok else .casMiss, .oldWord w⟩
      | _ => ⟨.ok, .oldWord w⟩

/-- The record at the issue of a line access: ACTIVE, one more line done, the words read kept (R26, R39, R59). -/
def Record.issued (r : Record) (ws : List (List CheckedWord)) (lines : Nat) : Record :=
  { r with state := .active, blocked := none, linesDone := r.linesDone + lines, readLines := r.readLines ++ ws }

/-- The record takes its hold, if it is an atomic that will write (R56, R58). One that writes nothing would take its hold and release it
at this same instant: it enters no hold, so a scrub step on the line is not skipped by it (notes/assumptions/27.md). -/
def State.takeHold (s : State) (r : Record) (l : LineId) (ws : List CheckedWord) : State :=
  match r.op with
  | .fetchAdd a _ | .swap a _ | .compareSwap a _ _ =>
      if (r.op.newWord (wordAt ws a)).isSome then s.setHolds (s.holds ++ [{ line := l, holder := r.holder }]) else s
  | _ => s

/-- The result of a READ, whose lines are all read (R39). -/
def readResult (ls : List (List CheckedWord)) : Result :=
  ⟨if ls.any (fun l => l.any (fun w => decide (w = CheckedWord.poisoned))) then .poisoned else .ok, .lines ls⟩

/-- Port `p` owns an entry on the line. -/
def State.watchOf (s : State) (p : Port) (l : LineId) : Option WatchId :=
  allWatchIds.find? (fun i => decide (s.watches.get i = some { owner := p, line := l }))

/-- The entry is one of the port's. -/
def ownedBy (p : Port) (w : Option Watch) : Bool :=
  match w with
  | some x => decide (x.owner = p)
  | none => false

/-- The entries of a port in a watch table. -/
def ownedWatches (t : Table 32 (Option Watch)) (p : Port) : Nat := (t.items.filter (ownedBy p)).length

/-- The entries of a port. -/
def State.watchCount (s : State) (p : Port) : Nat := ownedWatches s.watches p

/-- The lowest free watch id (R69). -/
def State.freeWatch (s : State) : Option WatchId := allWatchIds.find? (fun i => (s.watches.get i).isNone)

/-- The id under which a WATCH of port `p` finds or arms its entry; none where the table is full (R70). -/
def State.watchPlace (s : State) (p : Port) (l : LineId) : Option WatchId :=
  match s.watchOf p l with
  | some i => some i
  | none => if s.watchCount p < Config.watchesPerPort then s.freeWatch else none

/-- A checked word as a result carries it: none when poisoned. -/
def CheckedWord.word? : CheckedWord → Option Word
  | .data w => some w
  | .poisoned => none

/-- A WATCH's result (R70). -/
def watchResult (place : Option WatchId) (w : CheckedWord) : Result :=
  match place with
  | some i => ⟨if w = .poisoned then .poisoned else .ok, .watch (some i) w.word?⟩
  | none => ⟨.tableFull, .watch none w.word?⟩

/-- The WATCH of port `p` arms its entry (R70); an entry it finds is left as it is. -/
def State.armWatch (s : State) (p : Port) (l : LineId) : State :=
  match s.watchPlace p l with
  | some i => s.setWatch i (some { owner := p, line := l })
  | none => s

/-- What a record does once its READ_LINE has been issued: `r` is the record after the issue, `ws` the line (R39, R59, R70). -/
def State.afterRead (s : State) (r : Record) (l : LineId) (ws : List CheckedWord) : State :=
  match r.op with
  | .read _ n => if r.linesDone < n then s else s.finishMemory r (readResult r.readLines)
  | .watch a => (s.armWatch r.port l).finishMemory r (watchResult (s.watchPlace r.port l) (wordAt ws a))
  | .fetchAdd a _ | .swap a _ | .compareSwap a _ _ =>
      if (r.op.newWord (wordAt ws a)).isSome then s else s.finishMemory r (r.op.atomicResult (wordAt ws a))
  | _ => s

/-- Bits of the cells that have gone wrong before the read (notes/assumptions/9.md). -/
def State.decay (s : State) (l : LineId) (flips : List Flip) : State := s.setMem (s.mem.flipBits (s.openLine l) flips)

/-- The counter that feeds the free values moves on. -/
def State.useFree (s : State) : State := { s with freeCount := s.freeCount + 1 }

/-- The outcomes of reading the line (R114). -/
def State.outcomes (s : State) (l : LineId) : List WordOutcome := s.mem.readLine s.freeCount (s.openLine l)

/-- The stored line after a request's read: its corrections and poison marks written back (R115). -/
def State.writeBackLine (s : State) (l : LineId) (os : List WordOutcome) : State :=
  s.setMem (s.mem.writeBack (s.openLine l) (numbered os))

/-- The bank side of a line access. -/
def State.touchBank (s : State) (l : LineId) (f : Bank → Bank) : State :=
  s.setBank (lineBank l) (f (s.bank (lineBank l)))

/-- The path, the bank and the stored line at a READ_LINE for a request record (R10, R115). -/
def State.readStored (s : State) (r : Record) (l : LineId) : State :=
  (s.useFree.occupyPath.touchBank l (fun x => x.requestAccess s.now true r)).writeBackLine l (s.outcomes l)

/-- The record's side of the read: the words it keeps, and its hold (R39, R56, R59). -/
def State.readTaken (s : State) (r : Record) (l : LineId) : State :=
  ((s.readStored r l).modRecord r.stamp (fun q => q.issued [checkedWords (s.outcomes l)] 1)).takeHold r l
    (checkedWords (s.outcomes l))

/-- A READ_LINE for a request record (R10, R39, R56, R59, R70, R115). -/
def State.requestRead (s : State) (r : Record) (l : LineId) : State :=
  (((s.readTaken r l).countLine .rowReader l (s.outcomes l)).afterRead (r.issued [checkedWords (s.outcomes l)] 1) l
    (checkedWords (s.outcomes l))).settle

/-- The scrubber after its read found something to correct: HOLDING with the kept words if R55 gives the hold, else PENDING
(R65, R125). -/
def State.askScrubHold (s : State) (l : LineId) (os : List WordOutcome) : State :=
  if s.holdMayBeGiven .scrubber l then
    (s.setHolds (s.holds ++ [{ line := l, holder := .scrubber }])).setScrub
      { s.scrub with step := .holding, kept := keptWords os }
  else s.setScrub { s.scrub with step := .pending, kept := [] }

/-- A READ_LINE for the scrubber (R65, R116, R125). The hold is asked before the read's automatic repair jobs are handed on: the spec leaves
the order of the two open, and where such a job ends at once with NO_SPARE (R137) it decides whether the correction is dropped. The order is
the model's choice (notes/assumptions/32.md). -/
def State.scrubRead (s : State) (l : LineId) : State :=
  let os := s.outcomes l
  let s1 := s.useFree.occupyPath.touchBank l (fun x => x.issueAccess s.now true false)
  let s2 := if os.any WordOutcome.bad then s1.askScrubHold l os else s1.scrubStepEnd
  (s2.countLine .rowReader l os).settle

/-- One more line of the row is in the repair buffer (R139). -/
def State.bufferLine (s : State) (ws : List CheckedWord) : State :=
  match s.currentJob with
  | some c => ({ s with repairBuffer := s.repairBuffer ++ [ws] }).setJob (some { c with linesRead := c.linesRead + 1 })
  | none => s

/-- A copy-out READ_LINE of the repair job (R116, R139). -/
def State.repairRead (s : State) (l : LineId) : State :=
  let os := s.outcomes l
  let s1 := s.useFree.occupyPath.touchBank l (fun x => x.issueAccess s.now true false)
  (s1.bufferLine (checkedWords os)).countLine .copyOut l os

/-- A READ_LINE takes its effect for its source (R10). -/
def State.issueRead (s : State) (src : Source) (l : LineId) : State :=
  match src with
  | .request r => s.requestRead r l
  | .scrubber => s.scrubRead l
  | .repair => s.repairRead l
  | .sweep => s
  | .upkeep => s

/-! ## WRITE_LINE -/

/-- New bytes where the mask's bits are set, old bytes where they are not (R118). -/
def mergeBytes (mask : Byte) (new old : Word) : Word :=
  wordOfBytes ((List.range 8).map (fun k =>
    if mask.getLsbD k then (wordBytes new).getD k 0 else (wordBytes old).getD k 0))

/-- A word of a WRITE_PART: not enabled where its mask is 0, the new word where it is FFh, else the merge with the old word, which
stays poisoned if that was (R40, R118). -/
def partWord (mask : Byte) (new : Word) (old : CheckedWord) : Option CheckedWord :=
  if mask = 0 then none
  else if mask = 0xFF then some (.data new)
  else
    match old with
    | .data w => some (.data (mergeBytes mask new w))
    | .poisoned => some .poisoned

/-- A partly covered word was poisoned at the merge read (R118). -/
def partPoisoned (mask : Byte) (old : CheckedWord) : Bool := decide (mask ≠ 0 ∧ mask ≠ 0xFF ∧ old = .poisoned)

/-- The line a record read first, word by word; a record that read none has none. -/
def Record.oldWord (r : Record) (w : WordIx) : CheckedWord := (r.readLines.headD []).getD w.val .poisoned

/-- The words a record's WRITE_LINE enables, and what it stores (R40, R59, R118). -/
def Record.writeWords (r : Record) : List (WordIx × CheckedWord) :=
  match r.op with
  | .write _ _ data => allWords.map (fun w => (w, .data (data.getD (8 * r.linesDone + w.val) 0)))
  | .writePart _ mask data =>
      allWords.filterMap (fun w =>
        (partWord (mask.getD w.val 0) (data.getD w.val 0) (r.oldWord w)).map (fun x => (w, x)))
  | .fetchAdd a _ | .swap a _ | .compareSwap a _ _ =>
      match r.op.newWord (r.oldWord (addrWord a)) with
      | some x => [(addrWord a, .data x)]
      | none => []
  | _ => []

/-- The result of a record whose last WRITE_LINE is issued (R40, R59, R118). -/
def Record.writeResult (r : Record) : Result :=
  match r.op with
  | .writePart _ mask _ =>
      ⟨if allWords.any (fun w => partPoisoned (mask.getD w.val 0) (r.oldWord w)) then .poisoned else .ok, .none⟩
  | .fetchAdd a _ | .swap a _ | .compareSwap a _ _ => r.op.atomicResult (r.oldWord (addrWord a))
  | _ => ⟨.ok, .none⟩

/-- Whether the WRITE_LINE now issued is the record's last line access. -/
def Record.lastWrite (r : Record) : Bool :=
  match r.op with
  | .write _ n _ => decide (n ≤ r.linesDone + 1)
  | _ => true

/-- The lines a WRITE_LINE adds to lines done: a merge or an atomic has counted its line at its read (notes/assumptions/15.md). -/
def Record.writeCount (r : Record) : Nat := if r.isActive && r.op.readsFirst then 0 else 1

/-- The words a WRITE_LINE enables are stored (R10, R117). -/
def State.storeWords (s : State) (l : LineId) (ws : List (WordIx × CheckedWord)) : State :=
  s.setMem (s.mem.storeLine (s.openLine l) ws)

/-- The hold of a holder is released (R58). -/
def State.releaseHold (s : State) (h : Holder) : State := s.setHolds (s.holds.filter (fun e => decide (e.holder ≠ h)))

/-- The path, the bank, the stored line and the record at a WRITE_LINE for a request record (R10, R40). -/
def State.writeStored (s : State) (r : Record) (l : LineId) : State :=
  ((s.occupyPath.touchBank l (fun x => x.requestAccess s.now false r)).storeWords l r.writeWords).modRecord r.stamp
    (fun q => q.issued [] r.writeCount)

/-- The write reported to the watch table, and the record's hold released (R58, R64, R71). -/
def State.writeReported (s : State) (r : Record) (l : LineId) : State :=
  ((s.writeStored r l).fireWatches r.port l).releaseHold r.holder

/-- A WRITE_LINE for a request record (R10, R40, R59, R64, R71). -/
def State.requestWrite (s : State) (r : Record) (l : LineId) : State :=
  (if r.lastWrite then (s.writeReported r l).finishMemory r r.writeResult else s.writeReported r l).settle

/-- The scrubber's write-back: the hold is released and the step ends (R65, R125). -/
def State.scrubWrite (s : State) (l : LineId) : State :=
  (((s.occupyPath.touchBank l (fun x => x.issueAccess s.now false false)).storeWords l s.scrub.kept).releaseHold
    .scrubber).scrubStepEnd.settle

/-- Eight words of zero, as data (R128). -/
def zeroLine : List (WordIx × CheckedWord) := allWords.map (fun w => (w, .data 0))

/-- The sweep writes a line and moves on (R128). -/
def State.sweepWrite (s : State) (l : LineId) : State :=
  let s1 := (s.occupyPath.touchBank l (fun x => x.issueAccess s.now false false)).storeWords l zeroLine
  s1.setScrub { s1.scrub with sweepAt := s1.scrub.sweepAt + 1 }

/-- The words of a line of the repair buffer; a line it does not hold is written poisoned (R141, R145). -/
def State.bufferWords (s : State) (n : Nat) : List (WordIx × CheckedWord) :=
  allWords.map (fun w => (w, (s.repairBuffer.getD n []).getD w.val .poisoned))

/-- The number of words marked poisoned. -/
def poisonCount (ws : List (WordIx × CheckedWord)) : Nat := (ws.filter (fun x => decide (x.2 = .poisoned))).length

/-- A copy-in WRITE_LINE of the repair job (R141). -/
def State.repairWrite (s : State) (l : LineId) : State :=
  match s.currentJob with
  | some c =>
      let ws := s.bufferWords c.linesWritten
      ((s.occupyPath.touchBank l (fun x => x.issueAccess s.now false false)).storeWords l ws).setJob
        (some { c with linesWritten := c.linesWritten + 1, poisonedWords := c.poisonedWords + poisonCount ws })
  | none => s

/-- A WRITE_LINE takes its effect for its source (R10). -/
def State.issueWrite (s : State) (src : Source) (l : LineId) : State :=
  match src with
  | .request r => s.requestWrite r l
  | .scrubber => s.scrubWrite l
  | .sweep => s.sweepWrite l
  | .repair => s.repairWrite l
  | .upkeep => s

/-! ## REFRESH_GROUP, RETAIN, RESUME, PROGRAM -/

/-- The refresh controller at the issue of a REFRESH_GROUP (R108). -/
def Refresh.paid (f : Refresh) (g : GroupId) : Refresh :=
  { f with debt := f.debt.set g (f.debt.get g - 1), urgentAt := f.urgentAt.set g none }

/-- A bank of the group at the issue of its REFRESH_GROUP (R14). -/
def Bank.issueRefresh (x : Bank) (now : Instant) : Bank :=
  { x with state := if x.state = .closed then .refreshing else x.state, lastRefresh := some now }

/-- A REFRESH_GROUP takes its effect (R14, R102, R108). -/
def State.issueRefresh (s : State) (g : GroupId) : State :=
  (s.occupyPath.setRefresh (s.refresh.paid g)).mapBanks (fun b x => if groupOf b = g then x.issueRefresh s.now else x)

/-- RETAIN takes its effect: the commit point (R15, R110, R127, R154). -/
def State.issueRetain (s : State) : State :=
  ((((s.occupyPath.mapBanks (fun _ x => { x with state := .retained })).setRefresh
      { s.refresh with quarter := none }).setScrub { s.scrub with timer := none }).setQuiet
      { s.quiet with part := .retained }).broadcast Enables.quietState .quietRetained

/-- RESUME takes its effect (R16, R157). -/
def State.issueResume (s : State) : State :=
  s.occupyPath.setQuiet { s.quiet with wakeTimer := some (s.now + wakeDelay) }

/-- The phase becomes PROGRAM, for `len` (R17, R140). -/
def State.issueProgram (s : State) (len : Nat) : State :=
  match s.currentJob with
  | some c => s.occupyPath.setJob (some { c with phase := .program, programEnds := some (s.now + len) })
  | none => s

/-! ## The commands of the table -/

/-- OPEN(bank, row): R2, R6, R7, R8. -/
def execOpenRow (dt : Nat) (b : BankId) (row : RowId) (s : State) : Out :=
  let s' := s.passTime dt
  match s'.arbiterChoice with
  | some g => if g.cmd = .openRow b row then .next (s'.issueOpen b row none) else .next s'
  | none => .next s'

/-- OPEN_SPARE(bank, spare): R2, R6, R7, R8; the row is the one the arbiter chose it for. -/
def execOpenSpare (dt : Nat) (b : BankId) (sp : SpareId) (s : State) : Out :=
  let s' := s.passTime dt
  match s'.arbiterChoice with
  | some g =>
      match g.cmd with
      | .openSpare k i row => if k = b ∧ i = sp then .next (s'.issueOpen b row (some sp)) else .next s'
      | _ => .next s'
  | none => .next s'

/-- CLOSE(bank): R12, R129. -/
def execClose (dt : Nat) (b : BankId) (s : State) : Out :=
  let s' := s.passTime dt
  match s'.arbiterChoice with
  | some g => if g.cmd = .close b then .next (s'.issueClose b) else .next s'
  | none => .next s'

/-- The line of a line access to a bank: in its open row (R9). -/
def State.lineOf (s : State) (b : BankId) (line : LineIx) : Option LineId :=
  ((s.bank b).openRow).map (fun row => mkLine row b line)

/-- READ_LINE(bank, line): R9, R10. -/
def execReadLine (dt : Nat) (b : BankId) (line : LineIx) (flips : List Flip) (s : State) : Out :=
  let s' := s.passTime dt
  match s'.arbiterChoice, s'.lineOf b line with
  | some g, some l => if g.cmd = .readLine b line then .next ((s'.decay l flips).issueRead g.source l) else .next s'
  | _, _ => .next s'

/-- WRITE_LINE(bank, line): R9, R10. -/
def execWriteLine (dt : Nat) (b : BankId) (line : LineIx) (s : State) : Out :=
  let s' := s.passTime dt
  match s'.arbiterChoice, s'.lineOf b line with
  | some g, some l => if g.cmd = .writeLine b line then .next (s'.issueWrite g.source l) else .next s'
  | _, _ => .next s'

/-- REFRESH_GROUP(group): R13, R14, R108. -/
def execRefreshGroup (dt : Nat) (g : GroupId) (s : State) : Out :=
  let s' := s.passTime dt
  match s'.arbiterChoice with
  | some x => if x.cmd = .refreshGroup g then .next (s'.issueRefresh g) else .next s'
  | none => .next s'

/-- RETAIN: R15, R154. -/
def execRetain (dt : Nat) (s : State) : Out :=
  let s' := s.passTime dt
  match s'.arbiterChoice with
  | some x => if x.cmd = .retain then .next s'.issueRetain else .next s'
  | none => .next s'

/-- RESUME: R16, R157. -/
def execResume (dt : Nat) (s : State) : Out :=
  let s' := s.passTime dt
  match s'.arbiterChoice with
  | some x => if x.cmd = .resume then .next s'.issueResume else .next s'
  | none => .next s'

/-- PROGRAM_SOFT(bank, spare): R17, R140. -/
def execProgramSoft (dt : Nat) (b : BankId) (sp : SpareId) (s : State) : Out :=
  let s' := s.passTime dt
  match s'.arbiterChoice with
  | some x => if x.cmd = .programSoft b sp then .next (s'.issueProgram softProgramming) else .next s'
  | none => .next s'

/-- PROGRAM_FUSE(bank, spare): R17, R140; the chosen spare becomes RETIRED_FUSED. -/
def execProgramFuse (dt : Nat) (b : BankId) (sp : SpareId) (s : State) : Out :=
  let s' := s.passTime dt
  match s'.arbiterChoice with
  | some x =>
      if x.cmd = .programFuse b sp then
        .next ((s'.issueProgram fuseProgramming).setSpare b sp { state := .retiredFused, mapped := none })
      else .next s'
  | none => .next s'

end Sys2Proof.Machine
end

