-- ==== Sys2Proof/Machine/Expiries.lean ====
section
/-! DEFINITION. The expiries of the part's intervals and timers. One that has not come at this instant has no effect (R5, Times). -/

namespace Sys2Proof.Machine

/-- A bank without its interval: CLOSED, or REPAIRING if it holds a repair phase (R12, R14). -/
def State.restState (s : State) (b : BankId) : BankState := if (s.repairPhase b).isSome then .repairing else .closed

/-- The bank has entered REPAIRING in phase WAIT: the phase becomes COPY_OUT (R138). -/
def State.leaveWait (s : State) (b : BankId) : State :=
  match s.currentJob with
  | some c =>
      if c.job.bank = b ∧ c.phase = .wait ∧ (s.bank b).state = .repairing then s.setJob (some { c with phase := .copyOut })
      else s
  | none => s

/-- PATH_OCCUPANCY_EXPIRY: the path is free again (R4). -/
def execPathOccupancyExpiry (dt : Nat) (s : State) : Out :=
  let s' := s.passTime dt
  if s'.reached s'.pathBusy then .next { s' with pathBusy := none } else .next s'

/-- TIMING_INTERVAL_EXPIRY: an interval of Table 10 ends; what it bound may be legal from this instant on (R5, R6). -/
def execTimingIntervalExpiry (dt : Nat) (s : State) : Out := .next (s.passToInterval dt)

/-- OPEN_DELAY_END: the bank moves from OPENING to OPEN and may start its idle timer (R8). -/
def execOpenDelayEnd (dt : Nat) (b : BankId) (s : State) : Out :=
  let s' := s.passTime dt
  let x := s'.bank b
  if x.state = .opening ∧ s'.since x.lastOpen openDelay = true then
    .next (s'.setBank b (s'.idleNext b { x with state := .opened, idleReset := false }))
  else .next s'

/-- The bank leaves CLOSING (R12); a job in COPY_IN with all its lines written completes (R141, R142). The next queued job starts before a
REPAIR that the completion makes READY, through a requester's DONE and a FENCE, is examined: R142 and R134 do not order the two, and the
order is the model's choice (notes/assumptions/22.md). -/
def State.endClose (s : State) (b : BankId) : State :=
  let s1 := (s.setBank b { s.bank b with state := s.restState b }).leaveWait b
  match s1.currentJob with
  | some c => if c.job.bank = b ∧ c.phase = .copyIn ∧ c.linesWritten = 32 then (s1.completeJob c).settle else s1
  | none => s1

/-- CLOSE_DELAY_END: R12, R138, R142. -/
def execCloseDelayEnd (dt : Nat) (b : BankId) (s : State) : Out :=
  let s' := s.passTime dt
  if (s'.bank b).state = .closing ∧ s'.since (s'.bank b).lastClose closeDelay = true then .next (s'.endClose b)
  else .next s'

/-- The repairing bank of the running job, after a group refresh, leaves WAIT. -/
def State.leaveWaitAny (s : State) : State :=
  match s.currentJob with
  | some c => s.leaveWait c.job.bank
  | none => s

/-- A bank at the end of its group's refresh (R14). -/
def State.endRefreshBank (s : State) (g : GroupId) (b : BankId) (x : Bank) : Bank :=
  if groupOf b = g ∧ x.state = .refreshing then { x with state := s.restState b } else x

/-- A REFRESHING bank of the group has run its 300 ns. -/
def State.refreshOver (s : State) (g : GroupId) : Bool :=
  allBanks.any (fun b =>
    decide (groupOf b = g ∧ (s.bank b).state = .refreshing) && s.since (s.bank b).lastRefresh groupRefresh)

/-- GROUP_REFRESH_END: R14, R138. -/
def execGroupRefreshEnd (dt : Nat) (g : GroupId) (s : State) : Out :=
  let s' := s.passTime dt
  if s'.refreshOver g then .next (s'.mapBanks (s'.endRefreshBank g)).leaveWaitAny else .next s'

/-- A spare retired when another takes over its row (R132, R141). -/
def Spare.retired (x : Spare) : Spare :=
  { state := if x.state = .fused then .retiredFused else .retiredSoft, mapped := none }

/-- The row's previous spare is retired. -/
def State.retire (s : State) (b : BankId) (sp : Option SpareId) : State :=
  match sp with
  | some i => s.setSpare b i ((s.spares b).get i).retired
  | none => s

/-- The state of a spare newly bound (R141). -/
def RepairMode.bound : RepairMode → SpareState
  | .soft => .soft
  | .fused => .fused

/-- The chosen spare is bound, the previous one retired, and the phase becomes COPY_IN (R141). -/
def State.bindSpare (s : State) (c : CurrentJob) : State :=
  ((s.retire c.job.bank c.previous).setSpare c.job.bank c.chosen
    { state := c.job.mode.bound, mapped := some c.job.row }).setJob (some { c with phase := .copyIn, programEnds := none })

/-- PROGRAMMING_END: R141. -/
def execProgrammingEnd (dt : Nat) (s : State) : Out :=
  let s' := s.passTime dt
  match s'.currentJob with
  | some c => if c.phase = .program ∧ s'.reached c.programEnds = true then .next (s'.bindSpare c) else .next s'
  | none => .next s'

/-- A bank at the end of the wake (R16). -/
def Bank.woken (x : Bank) : Bank := { x with state := .closed, streak := 0, firstStart := false }

/-- The refresh controller at the end of the wake (R110). -/
def Refresh.restart (f : Refresh) (ends : Instant) : Refresh :=
  { f with debt := .replicate 4 0, urgentAt := .replicate 4 none, rotation := 0, quarter := some ends }

/-- The scrubber at the end of the wake: with no step in progress its timer starts (R127). -/
def State.scrubWake (s : State) : Scrubber :=
  if s.scrub.step = .none ∧ s.scrub.sweepDone = true then { s.scrub with timer := s.scrubTimerStart } else s.scrub

/-- The end of the wake (R16, R110, R127, R157). Its QUIET_STATE stands before the notices of the records that go on
(notes/assumptions/10.md). -/
def State.endWake (s : State) : State :=
  ((((((s.mapBanks (fun _ x => x.woken)).setRefresh (s.refresh.restart (s.now + s.quarterLength))).setScrub
    s.scrubWake).setQuiet { s.quiet with part := .active, wakeTimer := none }).broadcast Enables.quietState
      .quietActive)).settle

/-- WAKE_TIMER_EXPIRY: R157. -/
def execWakeTimerExpiry (dt : Nat) (s : State) : Out :=
  let s' := s.passTime dt
  if s'.quiet.part = .waking ∧ s'.reached s'.quiet.wakeTimer = true then .next s'.endWake else .next s'

/-- IDLE_TIMER_EXPIRY: R19. -/
def execIdleTimerExpiry (dt : Nat) (b : BankId) (s : State) : Out :=
  let s' := s.passTime dt
  if s'.over (s'.bank b).idle then .next (s'.setBank b { s'.bank b with idle := .expired }) else .next s'

/-- A bank at the row-open limit (R20). -/
def Bank.limitReached (x : Bank) : Bank := { x with openAge := .expired, marks := { x.marks with openLimit := true } }

/-- ROW_OPEN_LIMIT: R20, R21. -/
def execRowOpenLimit (dt : Nat) (b : BankId) (s : State) : Out :=
  let s' := s.passTime dt
  let x := s'.bank b
  if (x.state = .opening ∨ x.state = .opened) ∧ s'.over x.openAge = true then .next (s'.setBank b x.limitReached)
  else .next s'

/-- The group after `g` in the rotation (R103). -/
def nextGroup (g : GroupId) : GroupId := ⟨(g.val + 1) % 4, Nat.mod_lt _ (by decide)⟩

/-- The mark URGENT_REFRESH on the group's open banks (R107). -/
def State.markUrgent (s : State) (g : GroupId) : State :=
  s.mapBanks (fun b x =>
    if groupOf b = g ∧ (x.state = .opening ∨ x.state = .opened) then
      { x with marks := { x.marks with urgentRefresh := true } }
    else x)

/-- The expiry of a group: it earns a refresh, which may begin an urgent refresh, or one is missed (R105, R107). -/
def State.groupExpires (s : State) (g : GroupId) : State :=
  let d := s.refresh.debt.get g
  if d < 8 then
    let s' := s.setRefresh { s.refresh with debt := s.refresh.debt.set g (d + 1) }
    if d + 1 = 8 then
      (s'.setRefresh { s'.refresh with urgentAt := s'.refresh.urgentAt.set g (some s.now) }).markUrgent g
    else s'
  else
    (s.setRefresh { s.refresh with missed := s.refresh.missed.set g (countUp top16 (s.refresh.missed.get g)) }).broadcast
      Enables.integrity (.refreshMissed g)

/-- The rotation moves on and the next quarter starts (R103). -/
def State.nextQuarter (s : State) : State :=
  s.setRefresh { s.refresh with rotation := nextGroup s.refresh.rotation, quarter := some (s.now + s.quarterLength) }

/-- GROUP_EXPIRY: R103, R105. -/
def execGroupExpiry (dt : Nat) (s : State) : Out :=
  let s' := s.passTime dt
  if s'.reached s'.refresh.quarter then .next (s'.groupExpires s'.refresh.rotation).nextQuarter else .next s'

/-- A record of the port with that stamp has an age that has reached AGE_LIMIT (R36). -/
def State.ageReached (s : State) (p : Port) (st : Stamp) : Bool :=
  s.records.any (fun r => decide (r.port = p ∧ r.stamp = st ∧ r.since + us s.settings.ageLimit ≤ s.now))

/-- The records of that stamp and every older one whose age has reached AGE_LIMIT become aged (R36). -/
def State.ageThrough (s : State) (st : Stamp) : State :=
  s.mapRecords (fun r => if r.stamp ≤ st then r.ageAt s.now s.settings.ageLimit else r)

/-- RECORD_AGED: the record named becomes aged at that instant and every older one with it: a record older than an aged record is
itself aged (R36). -/
def execRecordAged (dt : Nat) (p : Port) (st : Stamp) (s : State) : Out :=
  let s' := s.passTime dt
  if s'.ageReached p st then .next (s'.ageThrough st) else .next s'

/-- A scrub step starts; if its line is held it is skipped at once (R124, R125). -/
def State.startStep (s : State) : State := (s.setScrub { s.scrub with timer := none, step := .started }).reviewScrub

/-- SCRUB_STEP_TIMER_EXPIRY: R124, R125. -/
def execScrubStepTimerExpiry (dt : Nat) (s : State) : Out :=
  let s' := s.passTime dt
  if s'.reached s'.scrub.timer then .next s'.startStep else .next s'

/-- IDLE_HOLD_EXPIRY: R151. -/
def execIdleHoldExpiry (dt : Nat) (s : State) : Out :=
  let s' := s.passTime dt
  if s'.quiet.part = .settling ∧ s'.reached s'.quiet.holdTimer = true then .next s'.enterEntering else .next s'

/-- The claim lapses, and the former holder is told (R179). -/
def State.claimLapses (s : State) (h : Port) : State :=
  (s.setClaim { holder := none, timer := none }).placeIf Enables.claimLost .claimLost h

/-- CLAIM_TIMER_EXPIRY: R179. -/
def execClaimTimerExpiry (dt : Nat) (s : State) : Out :=
  let s' := s.passTime dt
  match s'.claim.holder with
  | some h => if s'.reached s'.claim.timer then .next (s'.claimLapses h) else .next s'
  | none => .next s'

end Sys2Proof.Machine
end

