-- ==== Sys2Proof/Machine/Links.lean ====
section
/-! DEFINITION. The links: training, loss and teardown (R161, R173), the packets received that carry no request (R164, R169), the
link timers (R165) and the packets sent (R168 to R171). -/

namespace Sys2Proof.Machine

/-! ## Teardown (R52, R75, R84, R144, R149, R173, R179) -/

/-- A link gone DOWN: its side of the teardown; E and S keep their values (R173). -/
def Link.downed (l : Link) : Link :=
  { l with state := .down, nakOutstanding := false, nakDue := false, replay := [], replayAt := none, initPending := false,
           refusals := [], ackTimer := .stopped, keepalive := .stopped, silence := none, training := none,
           transmitter := none }

/-- A link drop is counted (R161, R167). -/
def Link.dropped (l : Link) : Link :=
  { l with errors := { l.errors with linkDrops := countUp top16 l.errors.linkDrops } }

/-- A watch entry, if it is not the port's (R75). -/
def Watch.unless (p : Port) (w : Watch) : Option Watch := if w.owner = p then none else some w

/-- A job without the requesters of a port (R144). -/
def Job.without (j : Job) (p : Port) : Job := { j with requesters := j.requesters.filter (fun q => decide (q.port ≠ p)) }

/-- The current job without the requesters of a port (R144). -/
def CurrentJob.without (c : CurrentJob) (p : Port) : CurrentJob := { c with job := c.job.without p }

/-- The claim, released if the port held it (R179). -/
def Claim.without (c : Claim) (p : Port) : Claim := if c.holder = some p then { holder := none, timer := none } else c

/-- The records that leave WAITING or READY, and lower their region's count (R52, R90). -/
def State.discarded (s : State) (p : Port) : List Record :=
  (s.queue p).filter (fun r => !r.isActive && !r.isDone)

/-- The link's own side, and what leaves the other blocks' tables with the port: its ACTIVE memory-kind records become detached and
the others leave (R52), its watches, notices, vote, claim and requesters go (R75, R84, R144, R149, R173, R179). -/
def State.leavePort (s : State) (p : Port) : State :=
  { s with
    links := s.links.set p (s.link p).downed.dropped
    watches := s.watches.map (fun w => w.bind (Watch.unless p))
    notices := s.notices.set p NoticeQueue.reset
    quiet := { s.quiet with votes := s.quiet.votes.set p none }
    claim := s.claim.without p
    repairQueue := s.repairQueue.map (fun j => j.without p)
    currentJob := s.currentJob.map (fun c => c.without p)
    detached := s.detached ++ (s.queue p).filter (fun r : Record => r.isActive && r.op.usesLines)
    queues := s.queues.set p [] }

/-- An UP link goes DOWN: the teardown of its port, at one instant (R173). The discarded records leave their regions in queue order (R52),
so drains of several regions that end here send their notices in that order (R78 lets either join first: notes/assumptions/10.md). -/
def State.teardown (s : State) (p : Port) : State :=
  (((s.discarded p).foldl State.leaveRegionOf (s.leavePort p)).quietBreak).settle

/-! ## Link states (R161) -/

/-- TRAINING_START: a DOWN link detects the training pattern while RESET_N is high (R161). -/
def execTrainingStart (dt : Nat) (p : Port) (s : State) : Out :=
  let s' := s.passTime dt
  if (s'.link p).state = .down ∧ s'.resetN = true then
    .next (s'.setLink p { s'.link p with state := .training, training := some (s'.now + trainingLength) })
  else .next s'

/-- A link at the instant it goes UP (R161). -/
def Link.upped (l : Link) (now : Instant) : Link :=
  { l with state := .up, expected := 0, sendSeq := 0, nakOutstanding := false, nakDue := false, initPending := true,
           replay := [], replayAt := none, refusals := [], ackTimer := .stopped, training := none,
           keepalive := .running (now + keepaliveLength), silence := some (now + silenceLength) }

/-- The link goes UP: the port votes AWAKE (R149), which is an event at the quiet controller (R150, R153) and wakes a RETAINED
part (R155). -/
def State.goUp (s : State) (p : Port) : State :=
  (((s.setLink p ((s.link p).upped s.now)).setVote p (some .awake)).quietBreak).wakeCause .portOnline p

/-- TRAINING_COMPLETE: R161. -/
def execTrainingComplete (dt : Nat) (p : Port) (s : State) : Out :=
  let s' := s.passTime dt
  if (s'.link p).state = .training then .next (s'.goUp p) else .next s'

/-- TRAINING_TIMEOUT: R161. -/
def execTrainingTimeout (dt : Nat) (p : Port) (s : State) : Out :=
  let s' := s.passTime dt
  if (s'.link p).state = .training ∧ s'.reached (s'.link p).training = true then
    .next (s'.setLink p (s'.link p).downed)
  else .next s'

/-- SIGNAL_LOSS: a TRAINING link goes DOWN; an UP link goes DOWN with its port's teardown (R161, R173). -/
def execSignalLoss (dt : Nat) (p : Port) (s : State) : Out :=
  let s' := s.passTime dt
  match (s'.link p).state with
  | .up => .next (s'.teardown p)
  | .training => .next (s'.setLink p (s'.link p).downed)
  | .down => .next s'

/-- SILENCE_TIMEOUT: R161, R173. -/
def execSilenceTimeout (dt : Nat) (p : Port) (s : State) : Out :=
  let s' := s.passTime dt
  if s'.online p = true ∧ s'.reached (s'.link p).silence = true then .next (s'.teardown p) else .next s'

/-! ## Received packets (R164, R169) -/

/-- RESET_PACKET: the link goes DOWN (R161, R164). -/
def execResetPacket (dt : Nat) (p : Port) (s : State) : Out :=
  let s' := s.passTime dt
  if s'.online p then .next (s'.teardown p) else .next s'

/-- BAD_CHECK_PACKET: R164. -/
def execBadCheckPacket (dt : Nat) (p : Port) (s : State) : Out :=
  let s' := s.passTime dt
  if s'.online p then .next (s'.badPacket p) else .next s'

/-- REQUEST_DISCARD: a REQUEST that R164 discards. -/
def execRequestDiscard (dt : Nat) (p : Port) (kind : Byte) (r : Request) (s : State) : Out :=
  let s' := s.passTime dt
  if s'.online p = true ∧ s'.discards p kind r = true then .next ((s'.heard p).discardPacket p) else .next s'

/-- OTHER_KIND_DISCARD: a packet of a kind the master does not send (R164). -/
def execOtherKindDiscard (dt : Nat) (p : Port) (kind : Byte) (s : State) : Out :=
  let s' := s.passTime dt
  if s'.online p = true ∧ isMasterPacketKind kind = false then .next ((s'.heard p).discardPacket p) else .next s'

/-- ACK_RECEIVED(n): R169. -/
def execAckReceived (dt : Nat) (p : Port) (n : Byte) (s : State) : Out :=
  let s' := s.passTime dt
  if s'.online p then .next ((s'.heard p).setLink p (((s'.heard p).link p).takeAck n)) else .next s'

/-- NAK_RECEIVED(n): R169. -/
def execNakReceived (dt : Nat) (p : Port) (n : Byte) (s : State) : Out :=
  let s' := s.passTime dt
  if s'.online p then .next ((s'.heard p).setLink p (((s'.heard p).link p).takeNak n)) else .next s'

/-- IDLE_RECEIVED: R164. -/
def execIdleReceived (dt : Nat) (p : Port) (s : State) : Out :=
  let s' := s.passTime dt
  if s'.online p then .next (s'.heard p) else .next s'

/-! ## Link timers (R165) -/

/-- ACK_TIMER_EXPIRY: R165. -/
def execAckTimerExpiry (dt : Nat) (p : Port) (s : State) : Out :=
  let s' := s.passTime dt
  if s'.over (s'.link p).ackTimer then .next (s'.setLink p { s'.link p with ackTimer := .expired }) else .next s'

/-- KEEPALIVE_EXPIRY: R165. -/
def execKeepaliveExpiry (dt : Nat) (p : Port) (s : State) : Out :=
  let s' := s.passTime dt
  if s'.over (s'.link p).keepalive then .next (s'.setLink p { s'.link p with keepalive := .expired }) else .next s'

/-! ## Sent packets (R170): one that is not the first of the list is not sent -/

/-- SEND_NAK: R166. -/
def execSendNak (dt : Nat) (p : Port) (s : State) : Out :=
  let s' := s.passTime dt
  if s'.nextToSend p = some .nak then .next ((s'.sendPlain p .nak).clearNakDue p) else .next s'

/-- SEND_REPLAY: R169. -/
def execSendReplay (dt : Nat) (p : Port) (s : State) : Out :=
  let s' := s.passTime dt
  if s'.nextToSend p = some .replay then .next (s'.sendReplayed p) else .next s'

/-- SEND_INIT: R168. -/
def execSendInit (dt : Nat) (p : Port) (s : State) : Out :=
  let s' := s.passTime dt
  if s'.nextToSend p = some .init then .next ((s'.sendSequenced p .init).clearInit p) else .next s'

/-- SEND_RESPONSE: R168, R170; a record's leaving may let SETTLING begin (R150). -/
def execSendResponse (dt : Nat) (p : Port) (refusalFirst : Bool) (s : State) : Out :=
  let s' := s.passTime dt
  if s'.nextToSend p = some .response then .next (s'.sendAnswer p refusalFirst).reviewQuiet else .next s'

/-- SEND_NOTICE: R82, R168. -/
def execSendNotice (dt : Nat) (p : Port) (s : State) : Out :=
  let s' := s.passTime dt
  if s'.nextToSend p = some .notice then .next (s'.sendHeadNotice p) else .next s'

/-- SEND_ACK: R165, R170. -/
def execSendAck (dt : Nat) (p : Port) (s : State) : Out :=
  let s' := s.passTime dt
  if s'.nextToSend p = some .ack then .next (s'.sendPlain p .ack) else .next s'

/-- SEND_IDLE: R165, R170. -/
def execSendIdle (dt : Nat) (p : Port) (s : State) : Out :=
  let s' := s.passTime dt
  if s'.nextToSend p = some .idle then .next (s'.sendPlain p .idle) else .next s'

end Sys2Proof.Machine
end

