-- ==== Sys2Proof/Machine/Resets.lean ====
section
/-! DEFINITION. Resets and pins: COLD_RESET, WARM_RESET, RESET_N_RISE, HOT_PIN_CHANGE. -/

namespace Sys2Proof.Machine

/-! ## Cold reset -/

/-- A spare at cold reset: the soft states become FREE, the fused states are kept (R147). -/
def Spare.coldReset (x : Spare) : Spare :=
  match x.state with
  | .free | .soft | .retiredSoft => { state := .free, mapped := none }
  | .fused | .retiredFused => x

/-- The part after a cold reset (R23, R53, R68, R85, R91, R111, R130, R147, R159, R174, R183): what is kept is the fused
spares, the pins' levels and the commands that wait. -/
def State.coldReset (s : State) : State :=
  { State.reset with
    pending := s.pending, now := s.now, freeCount := s.freeCount, resetN := s.resetN, hotPin := s.hotPin
    remap := s.remap.map (fun t => t.map Spare.coldReset)
    refresh := .reset (s.now + if s.hotPin then quarterHot else quarterNormal) }

/-- COLD_RESET: the application of power. -/
def execColdReset (dt : Nat) (s : State) : Out := .next (s.passTime dt).coldReset

/-! ## Warm reset -/

/-- A bank record at warm reset (R24); `dropped`: the job that held the bank is abandoned. -/
def Bank.warmReset (x : Bank) (dropped : Bool) : Bank :=
  { x with
    streak := 0, firstStart := false, idle := .stopped, openAge := .stopped, marks := .empty
    resetClose := decide (x.state = .opening ∨ x.state = .opened), idleReset := decide (x.state = .opened)
    state := if dropped ∧ x.state = .repairing then .closed else x.state }

/-- The job goes on through a warm reset: fused PROGRAM, or COPY_IN (R145). -/
def CurrentJob.survives (c : CurrentJob) : Bool :=
  decide (c.phase = .copyIn ∨ (c.phase = .program ∧ c.job.mode = .fused))

/-- The current job at warm reset (R145). -/
def jobAtWarmReset (j : Option CurrentJob) : Option CurrentJob :=
  match j with
  | some c => if c.survives then some { c with job := { c.job with requesters := [] } } else none
  | none => none

/-- The bank whose job a warm reset abandons. -/
def State.abandons (s : State) (b : BankId) : Bool :=
  match s.currentJob with
  | some c => !c.survives && decide (c.job.bank = b)
  | none => false

/-- The quarter that starts at a warm reset, with HOT_MODE back at 0; none if the part is RETAINED or WAKING (R112). -/
def State.warmQuarter (s : State) : Option Instant :=
  if s.asleep then none else some (s.now + if s.hotPin then quarterHot else quarterNormal)

/-- The step timer at a warm reset: the default SCRUB_INTERVAL, if the sweep is FINISHED and the part neither RETAINED nor WAKING
(R130). -/
def State.warmScrubTimer (s : State) : Option Instant :=
  if s.scrub.sweepDone ∧ s.asleep = false then some (s.now + us Settings.default.scrubInterval) else none

/-- The part state after a warm reset (R159). -/
def PartState.warmReset : PartState → PartState
  | .active | .settling | .entering => .active
  | .retained | .waking => .waking

/-- A link at warm reset (R161, R174). -/
def Link.warmReset (l : Link) : Link := { l.downed with errors := .zero }

/-- RESET_N taken low (R24, R53, R68, R85, R91, R99, R112, R130, R145, R159, R174, R183). -/
def State.warmReset (s : State) : State :=
  { s.mapBanks (fun b x => x.warmReset (s.abandons b)) with
    resetN := false, stampCounter := 0, queues := .all [], detached := [], holds := [],
    watches := .replicate 32 none, notices := .all NoticeQueue.reset, regions := regionsReset
    refresh := { Refresh.reset 0 with quarter := s.warmQuarter }
    checks := .reset
    scrub := { s.scrub with pointer := 0, passes := 0, step := .none, kept := [], timer := s.warmScrubTimer }
    repairQueue := [], currentJob := jobAtWarmReset s.currentJob, repairBuffer := []
    quiet := { s.quiet with part := s.quiet.part.warmReset, votes := .all none, holdTimer := none, wakeRecord := none }
    links := s.links.map Link.warmReset
    claim := { holder := none, timer := none }, settings := .default }

/-- WARM_RESET: RESET_N taken low; while it is low it cannot be taken low again. -/
def execWarmReset (dt : Nat) (s : State) : Out :=
  let s' := s.passTime dt
  if s'.resetN then .next s'.warmReset else .next s'

/-- RESET_N_RISE: an event at the quiet controller (R150), also while a warm reset's closes run (notes/assumptions/28.md). -/
def execResetNRise (dt : Nat) (s : State) : Out :=
  let s' := s.passTime dt
  if s'.resetN then .next s' else .next ({ s' with resetN := true }).reviewQuiet

/-- HOT_PIN_CHANGE: the pin's new level; the effective hot mode follows it (R104). -/
def execHotPinChange (dt : Nat) (level : Bool) (s : State) : Out := .next { s.passTime dt with hotPin := level }

end Sys2Proof.Machine
end

