-- ==== Sys2Proof/Machine/Requests.lean ====
section
/-! DEFINITION. The REQUEST packets of the first 16 request kinds, and those of no known kind: each is accepted, refused or discarded by
the link and admission (R28, R32, R164), and carried out at once where it is a READY FENCE or control record (R38, R42). -/

namespace Sys2Proof.Machine

/-- READ, request kind 1: R28, R34, R39. -/
def execRead (dt : Nat) (p : Port) (r : Request) (s : State) : Out :=
  .next ((s.passTime dt).receive p (Kind.code .read) r)

/-- WRITE, request kind 2: R28, R34, R40. -/
def execWrite (dt : Nat) (p : Port) (r : Request) (s : State) : Out :=
  .next ((s.passTime dt).receive p (Kind.code .write) r)

/-- WRITE_PART, request kind 3: R28, R34, R40. -/
def execWritePart (dt : Nat) (p : Port) (r : Request) (s : State) : Out :=
  .next ((s.passTime dt).receive p (Kind.code .writePart) r)

/-- FENCE, request kind 4: R34, R38. -/
def execFence (dt : Nat) (p : Port) (r : Request) (s : State) : Out :=
  .next ((s.passTime dt).receive p (Kind.code .fence) r)

/-- FETCH_ADD, request kind 5: R34, R56, R60. -/
def execFetchAdd (dt : Nat) (p : Port) (r : Request) (s : State) : Out :=
  .next ((s.passTime dt).receive p (Kind.code .fetchAdd) r)

/-- SWAP, request kind 6: R34, R56, R61. -/
def execSwap (dt : Nat) (p : Port) (r : Request) (s : State) : Out :=
  .next ((s.passTime dt).receive p (Kind.code .swap) r)

/-- COMPARE_SWAP, request kind 7: R34, R56, R62. -/
def execCompareSwap (dt : Nat) (p : Port) (r : Request) (s : State) : Out :=
  .next ((s.passTime dt).receive p (Kind.code .compareSwap) r)

/-- WATCH, request kind 8: R34, R70. -/
def execWatch (dt : Nat) (p : Port) (r : Request) (s : State) : Out :=
  .next ((s.passTime dt).receive p (Kind.code .watch) r)

/-- UNWATCH, request kind 9: R73. -/
def execUnwatch (dt : Nat) (p : Port) (r : Request) (s : State) : Out :=
  .next ((s.passTime dt).receive p (Kind.code .unwatch) r)

/-- NOTICE_MASK, request kind 10: R80. -/
def execNoticeMask (dt : Nat) (p : Port) (r : Request) (s : State) : Out :=
  .next ((s.passTime dt).receive p (Kind.code .noticeMask) r)

/-- REGION_SET, request kind 11: R92 to R96. -/
def execRegionSet (dt : Nat) (p : Port) (r : Request) (s : State) : Out :=
  .next ((s.passTime dt).receive p (Kind.code .regionSet) r)

/-- REGION_GET, request kind 12: R100. -/
def execRegionGet (dt : Nat) (p : Port) (r : Request) (s : State) : Out :=
  .next ((s.passTime dt).receive p (Kind.code .regionGet) r)

/-- REPAIR, request kind 13: R134 to R137. -/
def execRepair (dt : Nat) (p : Port) (r : Request) (s : State) : Out :=
  .next ((s.passTime dt).receive p (Kind.code .repair) r)

/-- QUIET, request kind 14: R149. -/
def execQuiet (dt : Nat) (p : Port) (r : Request) (s : State) : Out :=
  .next ((s.passTime dt).receive p (Kind.code .quiet) r)

/-- CLAIM, request kind 15: R177. -/
def execClaim (dt : Nat) (p : Port) (r : Request) (s : State) : Out :=
  .next ((s.passTime dt).receive p (Kind.code .claim) r)

/-- RELEASE, request kind 16: R177. -/
def execRelease (dt : Nat) (p : Port) (r : Request) (s : State) : Out :=
  .next ((s.passTime dt).receive p (Kind.code .release) r)

/-- UNKNOWN_REQUEST_KIND: a REQUEST whose kind is none of the 18; it is MALFORMED (R29). -/
def execUnknownRequestKind (dt : Nat) (p : Port) (kind : Byte) (r : Request) (s : State) : Out :=
  .next ((s.passTime dt).receive p kind r)

end Sys2Proof.Machine
end

