-- ==== Sys2Proof/Machine/SetGet.lean ====
section
/-! DEFINITION. The SET and GET requests, one command for each item of Tables 58 and 59, and those whose code names none (R180 to R182).
Their operand's body is what follows the item code, which the row names. -/

namespace Sys2Proof.Machine

/-- The request with its item code in front of its body (R163). -/
def withCode (r : Request) (code : Byte) : Request := { r with body := code :: r.body }

/-- SET_CLOSE_IDLE, item 1: R180. -/
def execSetCloseIdle (dt : Nat) (p : Port) (r : Request) (s : State) : Out :=
  .next ((s.passTime dt).receive p (Kind.code .set) (withCode r 1))

/-- SET_AGE_LIMIT, item 2: R180. -/
def execSetAgeLimit (dt : Nat) (p : Port) (r : Request) (s : State) : Out :=
  .next ((s.passTime dt).receive p (Kind.code .set) (withCode r 2))

/-- SET_HOT_MODE, item 3: R180. -/
def execSetHotMode (dt : Nat) (p : Port) (r : Request) (s : State) : Out :=
  .next ((s.passTime dt).receive p (Kind.code .set) (withCode r 3))

/-- SET_SCRUB_INTERVAL, item 4: R180. -/
def execSetScrubInterval (dt : Nat) (p : Port) (r : Request) (s : State) : Out :=
  .next ((s.passTime dt).receive p (Kind.code .set) (withCode r 4))

/-- SET_FAULT_THRESHOLD, item 5: R180. -/
def execSetFaultThreshold (dt : Nat) (p : Port) (r : Request) (s : State) : Out :=
  .next ((s.passTime dt).receive p (Kind.code .set) (withCode r 5))

/-- SET_AUTO_REPAIR, item 6: R180. -/
def execSetAutoRepair (dt : Nat) (p : Port) (r : Request) (s : State) : Out :=
  .next ((s.passTime dt).receive p (Kind.code .set) (withCode r 6))

/-- SET_QUIET_HOLD, item 7: R180. -/
def execSetQuietHold (dt : Nat) (p : Port) (r : Request) (s : State) : Out :=
  .next ((s.passTime dt).receive p (Kind.code .set) (withCode r 7))

/-- WAKE_CLEAR, item 8: R181. -/
def execWakeClear (dt : Nat) (p : Port) (r : Request) (s : State) : Out :=
  .next ((s.passTime dt).receive p (Kind.code .set) (withCode r 8))

/-- COUNTERS_CLEAR, item 9: R181. -/
def execCountersClear (dt : Nat) (p : Port) (r : Request) (s : State) : Out :=
  .next ((s.passTime dt).receive p (Kind.code .set) (withCode r 9))

/-- GET_CLOSE_IDLE, item 1: R182. -/
def execGetCloseIdle (dt : Nat) (p : Port) (r : Request) (s : State) : Out :=
  .next ((s.passTime dt).receive p (Kind.code .get) (withCode r 1))

/-- GET_AGE_LIMIT, item 2: R182. -/
def execGetAgeLimit (dt : Nat) (p : Port) (r : Request) (s : State) : Out :=
  .next ((s.passTime dt).receive p (Kind.code .get) (withCode r 2))

/-- GET_HOT_MODE, item 3: R182. -/
def execGetHotMode (dt : Nat) (p : Port) (r : Request) (s : State) : Out :=
  .next ((s.passTime dt).receive p (Kind.code .get) (withCode r 3))

/-- GET_SCRUB_INTERVAL, item 4: R182. -/
def execGetScrubInterval (dt : Nat) (p : Port) (r : Request) (s : State) : Out :=
  .next ((s.passTime dt).receive p (Kind.code .get) (withCode r 4))

/-- GET_FAULT_THRESHOLD, item 5: R182. -/
def execGetFaultThreshold (dt : Nat) (p : Port) (r : Request) (s : State) : Out :=
  .next ((s.passTime dt).receive p (Kind.code .get) (withCode r 5))

/-- GET_AUTO_REPAIR, item 6: R182. -/
def execGetAutoRepair (dt : Nat) (p : Port) (r : Request) (s : State) : Out :=
  .next ((s.passTime dt).receive p (Kind.code .get) (withCode r 6))

/-- GET_QUIET_HOLD, item 7: R182. -/
def execGetQuietHold (dt : Nat) (p : Port) (r : Request) (s : State) : Out :=
  .next ((s.passTime dt).receive p (Kind.code .get) (withCode r 7))

/-- GET_CLAIM_HOLDER, item 10: R182. -/
def execGetClaimHolder (dt : Nat) (p : Port) (r : Request) (s : State) : Out :=
  .next ((s.passTime dt).receive p (Kind.code .get) (withCode r 10))

/-- GET_QUIET_STATE, item 11: R182. -/
def execGetQuietState (dt : Nat) (p : Port) (r : Request) (s : State) : Out :=
  .next ((s.passTime dt).receive p (Kind.code .get) (withCode r 11))

/-- GET_WAKE_RECORD, item 12: R182. -/
def execGetWakeRecord (dt : Nat) (p : Port) (r : Request) (s : State) : Out :=
  .next ((s.passTime dt).receive p (Kind.code .get) (withCode r 12))

/-- GET_REFRESH_DEBT, item 13: R182. -/
def execGetRefreshDebt (dt : Nat) (p : Port) (r : Request) (s : State) : Out :=
  .next ((s.passTime dt).receive p (Kind.code .get) (withCode r 13))

/-- GET_MISSED_REFRESH_COUNT, item 14: R182. -/
def execGetMissedRefreshCount (dt : Nat) (p : Port) (r : Request) (s : State) : Out :=
  .next ((s.passTime dt).receive p (Kind.code .get) (withCode r 14))

/-- GET_CORRECTED_COUNTS, item 15: R182. -/
def execGetCorrectedCounts (dt : Nat) (p : Port) (r : Request) (s : State) : Out :=
  .next ((s.passTime dt).receive p (Kind.code .get) (withCode r 15))

/-- GET_SCRUB_POINTER, item 16: R182. -/
def execGetScrubPointer (dt : Nat) (p : Port) (r : Request) (s : State) : Out :=
  .next ((s.passTime dt).receive p (Kind.code .get) (withCode r 16))

/-- GET_LINK_ERROR_COUNTS, item 17: R182. -/
def execGetLinkErrorCounts (dt : Nat) (p : Port) (r : Request) (s : State) : Out :=
  .next ((s.passTime dt).receive p (Kind.code .get) (withCode r 17))

/-- GET_LOST_COUNT, item 18: R182. -/
def execGetLostCount (dt : Nat) (p : Port) (r : Request) (s : State) : Out :=
  .next ((s.passTime dt).receive p (Kind.code .get) (withCode r 18))

/-- GET_NOTICE_ENABLES, item 19: R182. -/
def execGetNoticeEnables (dt : Nat) (p : Port) (r : Request) (s : State) : Out :=
  .next ((s.passTime dt).receive p (Kind.code .get) (withCode r 19))

/-- GET_FAULT_LIST_SLOT, item 20: R182. -/
def execGetFaultListSlot (dt : Nat) (p : Port) (r : Request) (s : State) : Out :=
  .next ((s.passTime dt).receive p (Kind.code .get) (withCode r 20))

/-- GET_SPARES, item 21: R182. -/
def execGetSpares (dt : Nat) (p : Port) (r : Request) (s : State) : Out :=
  .next ((s.passTime dt).receive p (Kind.code .get) (withCode r 21))

/-- GET_REPAIR_QUEUE, item 22: R182. -/
def execGetRepairQueue (dt : Nat) (p : Port) (r : Request) (s : State) : Out :=
  .next ((s.passTime dt).receive p (Kind.code .get) (withCode r 22))

/-- GET_CURRENT_JOB, item 23: R182. -/
def execGetCurrentJob (dt : Nat) (p : Port) (r : Request) (s : State) : Out :=
  .next ((s.passTime dt).receive p (Kind.code .get) (withCode r 23))

/-- SET_UNKNOWN_ITEM: the body as it stands, its code included (R180). -/
def execSetUnknownItem (dt : Nat) (p : Port) (r : Request) (s : State) : Out :=
  .next ((s.passTime dt).receive p (Kind.code .set) r)

/-- GET_UNKNOWN_ITEM: the body as it stands, its code included (R182). -/
def execGetUnknownItem (dt : Nat) (p : Port) (r : Request) (s : State) : Out :=
  .next ((s.passTime dt).receive p (Kind.code .get) r)

end Sys2Proof.Machine
end

