-- ==== Sys2Proof/Machine/Dispatch.lean ====
section
/-! DEFINITION. One arm for each command: a direct call of its meaning. -/

namespace Sys2Proof.Machine

def exec (i : Instr) (s : State) : Host.Outcome State Fault Refusal :=
  match i with
  | .coldReset dt => Sys2Proof.Machine.execColdReset dt s
  | .warmReset dt => Sys2Proof.Machine.execWarmReset dt s
  | .resetNRise dt => Sys2Proof.Machine.execResetNRise dt s
  | .hotPinChange dt level => Sys2Proof.Machine.execHotPinChange dt level s
  | .trainingStart dt p => Sys2Proof.Machine.execTrainingStart dt p s
  | .trainingComplete dt p => Sys2Proof.Machine.execTrainingComplete dt p s
  | .trainingTimeout dt p => Sys2Proof.Machine.execTrainingTimeout dt p s
  | .signalLoss dt p => Sys2Proof.Machine.execSignalLoss dt p s
  | .silenceTimeout dt p => Sys2Proof.Machine.execSilenceTimeout dt p s
  | .resetPacket dt p => Sys2Proof.Machine.execResetPacket dt p s
  | .badCheckPacket dt p => Sys2Proof.Machine.execBadCheckPacket dt p s
  | .requestDiscard dt p kind r => Sys2Proof.Machine.execRequestDiscard dt p kind r s
  | .otherKindDiscard dt p kind => Sys2Proof.Machine.execOtherKindDiscard dt p kind s
  | .ackReceived dt p n => Sys2Proof.Machine.execAckReceived dt p n s
  | .nakReceived dt p n => Sys2Proof.Machine.execNakReceived dt p n s
  | .idleReceived dt p => Sys2Proof.Machine.execIdleReceived dt p s
  | .ackTimerExpiry dt p => Sys2Proof.Machine.execAckTimerExpiry dt p s
  | .keepaliveExpiry dt p => Sys2Proof.Machine.execKeepaliveExpiry dt p s
  | .sendNak dt p => Sys2Proof.Machine.execSendNak dt p s
  | .sendReplay dt p => Sys2Proof.Machine.execSendReplay dt p s
  | .sendInit dt p => Sys2Proof.Machine.execSendInit dt p s
  | .sendResponse dt p refusalFirst => Sys2Proof.Machine.execSendResponse dt p refusalFirst s
  | .sendNotice dt p => Sys2Proof.Machine.execSendNotice dt p s
  | .sendAck dt p => Sys2Proof.Machine.execSendAck dt p s
  | .sendIdle dt p => Sys2Proof.Machine.execSendIdle dt p s
  | .read dt p r => Sys2Proof.Machine.execRead dt p r s
  | .write dt p r => Sys2Proof.Machine.execWrite dt p r s
  | .writePart dt p r => Sys2Proof.Machine.execWritePart dt p r s
  | .fence dt p r => Sys2Proof.Machine.execFence dt p r s
  | .fetchAdd dt p r => Sys2Proof.Machine.execFetchAdd dt p r s
  | .swap dt p r => Sys2Proof.Machine.execSwap dt p r s
  | .compareSwap dt p r => Sys2Proof.Machine.execCompareSwap dt p r s
  | .watch dt p r => Sys2Proof.Machine.execWatch dt p r s
  | .unwatch dt p r => Sys2Proof.Machine.execUnwatch dt p r s
  | .noticeMask dt p r => Sys2Proof.Machine.execNoticeMask dt p r s
  | .regionSet dt p r => Sys2Proof.Machine.execRegionSet dt p r s
  | .regionGet dt p r => Sys2Proof.Machine.execRegionGet dt p r s
  | .repair dt p r => Sys2Proof.Machine.execRepair dt p r s
  | .quiet dt p r => Sys2Proof.Machine.execQuiet dt p r s
  | .claim dt p r => Sys2Proof.Machine.execClaim dt p r s
  | .release dt p r => Sys2Proof.Machine.execRelease dt p r s
  | .setCloseIdle dt p r => Sys2Proof.Machine.execSetCloseIdle dt p r s
  | .setAgeLimit dt p r => Sys2Proof.Machine.execSetAgeLimit dt p r s
  | .setHotMode dt p r => Sys2Proof.Machine.execSetHotMode dt p r s
  | .setScrubInterval dt p r => Sys2Proof.Machine.execSetScrubInterval dt p r s
  | .setFaultThreshold dt p r => Sys2Proof.Machine.execSetFaultThreshold dt p r s
  | .setAutoRepair dt p r => Sys2Proof.Machine.execSetAutoRepair dt p r s
  | .setQuietHold dt p r => Sys2Proof.Machine.execSetQuietHold dt p r s
  | .wakeClear dt p r => Sys2Proof.Machine.execWakeClear dt p r s
  | .countersClear dt p r => Sys2Proof.Machine.execCountersClear dt p r s
  | .getCloseIdle dt p r => Sys2Proof.Machine.execGetCloseIdle dt p r s
  | .getAgeLimit dt p r => Sys2Proof.Machine.execGetAgeLimit dt p r s
  | .getHotMode dt p r => Sys2Proof.Machine.execGetHotMode dt p r s
  | .getScrubInterval dt p r => Sys2Proof.Machine.execGetScrubInterval dt p r s
  | .getFaultThreshold dt p r => Sys2Proof.Machine.execGetFaultThreshold dt p r s
  | .getAutoRepair dt p r => Sys2Proof.Machine.execGetAutoRepair dt p r s
  | .getQuietHold dt p r => Sys2Proof.Machine.execGetQuietHold dt p r s
  | .getClaimHolder dt p r => Sys2Proof.Machine.execGetClaimHolder dt p r s
  | .getQuietState dt p r => Sys2Proof.Machine.execGetQuietState dt p r s
  | .getWakeRecord dt p r => Sys2Proof.Machine.execGetWakeRecord dt p r s
  | .getRefreshDebt dt p r => Sys2Proof.Machine.execGetRefreshDebt dt p r s
  | .getMissedRefreshCount dt p r => Sys2Proof.Machine.execGetMissedRefreshCount dt p r s
  | .getCorrectedCounts dt p r => Sys2Proof.Machine.execGetCorrectedCounts dt p r s
  | .getScrubPointer dt p r => Sys2Proof.Machine.execGetScrubPointer dt p r s
  | .getLinkErrorCounts dt p r => Sys2Proof.Machine.execGetLinkErrorCounts dt p r s
  | .getLostCount dt p r => Sys2Proof.Machine.execGetLostCount dt p r s
  | .getNoticeEnables dt p r => Sys2Proof.Machine.execGetNoticeEnables dt p r s
  | .getFaultListSlot dt p r => Sys2Proof.Machine.execGetFaultListSlot dt p r s
  | .getSpares dt p r => Sys2Proof.Machine.execGetSpares dt p r s
  | .getRepairQueue dt p r => Sys2Proof.Machine.execGetRepairQueue dt p r s
  | .getCurrentJob dt p r => Sys2Proof.Machine.execGetCurrentJob dt p r s
  | .openRow dt bank row => Sys2Proof.Machine.execOpenRow dt bank row s
  | .openSpare dt bank spare => Sys2Proof.Machine.execOpenSpare dt bank spare s
  | .close dt bank => Sys2Proof.Machine.execClose dt bank s
  | .readLine dt bank line flips => Sys2Proof.Machine.execReadLine dt bank line flips s
  | .writeLine dt bank line => Sys2Proof.Machine.execWriteLine dt bank line s
  | .refreshGroup dt group => Sys2Proof.Machine.execRefreshGroup dt group s
  | .retain dt => Sys2Proof.Machine.execRetain dt s
  | .resume dt => Sys2Proof.Machine.execResume dt s
  | .programSoft dt bank spare => Sys2Proof.Machine.execProgramSoft dt bank spare s
  | .programFuse dt bank spare => Sys2Proof.Machine.execProgramFuse dt bank spare s
  | .pathOccupancyExpiry dt => Sys2Proof.Machine.execPathOccupancyExpiry dt s
  | .timingIntervalExpiry dt => Sys2Proof.Machine.execTimingIntervalExpiry dt s
  | .openDelayEnd dt bank => Sys2Proof.Machine.execOpenDelayEnd dt bank s
  | .closeDelayEnd dt bank => Sys2Proof.Machine.execCloseDelayEnd dt bank s
  | .groupRefreshEnd dt group => Sys2Proof.Machine.execGroupRefreshEnd dt group s
  | .programmingEnd dt => Sys2Proof.Machine.execProgrammingEnd dt s
  | .wakeTimerExpiry dt => Sys2Proof.Machine.execWakeTimerExpiry dt s
  | .idleTimerExpiry dt bank => Sys2Proof.Machine.execIdleTimerExpiry dt bank s
  | .rowOpenLimit dt bank => Sys2Proof.Machine.execRowOpenLimit dt bank s
  | .groupExpiry dt => Sys2Proof.Machine.execGroupExpiry dt s
  | .recordAged dt p stamp => Sys2Proof.Machine.execRecordAged dt p stamp s
  | .scrubStepTimerExpiry dt => Sys2Proof.Machine.execScrubStepTimerExpiry dt s
  | .idleHoldExpiry dt => Sys2Proof.Machine.execIdleHoldExpiry dt s
  | .claimTimerExpiry dt => Sys2Proof.Machine.execClaimTimerExpiry dt s
  | .unknownRequestKind dt p kind r => Sys2Proof.Machine.execUnknownRequestKind dt p kind r s
  | .setUnknownItem dt p r => Sys2Proof.Machine.execSetUnknownItem dt p r s
  | .getUnknownItem dt p r => Sys2Proof.Machine.execGetUnknownItem dt p r s

end Sys2Proof.Machine
end

