-- ==== Sys2Proof/Machine/Receiving.lean ====
section
/-! DEFINITION. The bytes of the packets a master sends (R162, Tables 51 and 52): their check, their fields, and the command of the
table that the end of such a packet is (R164). -/

namespace Sys2Proof.Machine

/-! ## The check -/

/-- A run of bytes with the check that the controller computes over it, high byte first (R162). -/
def withCheck (bs : List Byte) : List Byte := bs ++ checkBytes (packetCheck bs)

/-- The bytes before the check, if the check is good; a run with no room for two header bytes and a check has none
(R162; notes/assumptions/30.md). -/
def checkedPart (bs : List Byte) : Option (List Byte) :=
  if 4 ≤ bs.length ∧ bs = withCheck (bs.take (bs.length - 2)) then some (bs.take (bs.length - 2)) else none

/-! ## REQUEST packets (Table 52) -/

/-- Byte `i` of a packet; 00h where the packet ends before it (notes/assumptions/30.md). -/
def packetByte (bs : List Byte) (i : Nat) : Byte := bs.getD i 0

/-- The fields of a REQUEST from its bytes before the check. -/
def requestOf (bs : List Byte) : Request :=
  { seq := packetByte bs 1
    tag := (packetByte bs 3).setWidth 6
    posted := (packetByte bs 3).getLsbD 7
    addr := BitVec.ofNat 32 (leNat [packetByte bs 4, packetByte bs 5, packetByte bs 6, packetByte bs 7])
    count := packetByte bs 8
    body := bs.drop 11 }

/-- The bytes of a REQUEST before its check, its length field that of its body and bit 6 of byte 3 zero. -/
def requestBytes (kind : Byte) (r : Request) : List Byte :=
  [1, r.seq, kind, BitVec.ofNat 8 (r.tag.toNat + 128 * r.posted.toNat)] ++ leBytes 4 r.addr.toNat ++ [r.count] ++
    leBytes 2 r.body.length ++ r.body

/-- A REQUEST packet with a good check, as the master sends it. -/
def requestPacket (kind : Byte) (r : Request) : List Byte := withCheck (requestBytes kind r)

/-! ## Which command a packet is -/

/-- The row of a SET: that of the item its first body byte names, with what follows it (Table 58, R163). -/
def setCommand (dt : Nat) (p : Port) (r : Request) : Instr :=
  match r.body with
  | [] => .setUnknownItem dt p r
  | c :: rest =>
      let q := { r with body := rest }
      match c.toNat with
      | 1 => .setCloseIdle dt p q
      | 2 => .setAgeLimit dt p q
      | 3 => .setHotMode dt p q
      | 4 => .setScrubInterval dt p q
      | 5 => .setFaultThreshold dt p q
      | 6 => .setAutoRepair dt p q
      | 7 => .setQuietHold dt p q
      | 8 => .wakeClear dt p q
      | 9 => .countersClear dt p q
      | _ => .setUnknownItem dt p r

/-- The row of a GET: that of the item its first body byte names, with what follows it (Tables 58 and 59, R163). -/
def getCommand (dt : Nat) (p : Port) (r : Request) : Instr :=
  match r.body with
  | [] => .getUnknownItem dt p r
  | c :: rest =>
      let q := { r with body := rest }
      match c.toNat with
      | 1 => .getCloseIdle dt p q
      | 2 => .getAgeLimit dt p q
      | 3 => .getHotMode dt p q
      | 4 => .getScrubInterval dt p q
      | 5 => .getFaultThreshold dt p q
      | 6 => .getAutoRepair dt p q
      | 7 => .getQuietHold dt p q
      | 10 => .getClaimHolder dt p q
      | 11 => .getQuietState dt p q
      | 12 => .getWakeRecord dt p q
      | 13 => .getRefreshDebt dt p q
      | 14 => .getMissedRefreshCount dt p q
      | 15 => .getCorrectedCounts dt p q
      | 16 => .getScrubPointer dt p q
      | 17 => .getLinkErrorCounts dt p q
      | 18 => .getLostCount dt p q
      | 19 => .getNoticeEnables dt p q
      | 20 => .getFaultListSlot dt p q
      | 21 => .getSpares dt p q
      | 22 => .getRepairQueue dt p q
      | 23 => .getCurrentJob dt p q
      | _ => .getUnknownItem dt p r

/-- The row of a REQUEST by its request kind's byte (Table 52). The row decides whether R164 accepts or discards the packet
(notes/assumptions/20.md). -/
def requestCommand (dt : Nat) (p : Port) (kind : Byte) (r : Request) : Instr :=
  match Kind.ofCode kind with
  | some .read => .read dt p r
  | some .write => .write dt p r
  | some .writePart => .writePart dt p r
  | some .fence => .fence dt p r
  | some .fetchAdd => .fetchAdd dt p r
  | some .swap => .swap dt p r
  | some .compareSwap => .compareSwap dt p r
  | some .watch => .watch dt p r
  | some .unwatch => .unwatch dt p r
  | some .noticeMask => .noticeMask dt p r
  | some .regionSet => .regionSet dt p r
  | some .regionGet => .regionGet dt p r
  | some .repair => .repair dt p r
  | some .quiet => .quiet dt p r
  | some .claim => .claim dt p r
  | some .release => .release dt p r
  | some .set => setCommand dt p r
  | some .get => getCommand dt p r
  | none => .unknownRequestKind dt p kind r

/-- The command that the end of a packet is, by its bytes: its check, then its packet kind (Table 51, R164). Bytes of an ACK, NAK, IDLE or
RESET beyond its two header bytes are not looked at (notes/assumptions/30.md). -/
def packetCommand (dt : Nat) (p : Port) (bs : List Byte) : Instr :=
  match checkedPart bs with
  | none => .badCheckPacket dt p
  | some front =>
      match (packetByte front 0).toNat with
      | 1 => requestCommand dt p (packetByte front 2) (requestOf front)
      | 5 => .ackReceived dt p (packetByte front 1)
      | 6 => .nakReceived dt p (packetByte front 1)
      | 7 => .idleReceived dt p
      | 8 => .resetPacket dt p
      | _ => .otherKindDiscard dt p (packetByte front 0)

/-- The end of a packet of port `p` joins the commands that wait. -/
def State.withPacket (s : State) (dt : Nat) (p : Port) (bs : List Byte) : State :=
  { s with pending := s.pending ++ [packetCommand dt p bs] }

end Sys2Proof.Machine
end

