-- ==== Sys2Proof/Safety.lean ====
section
/-! DEFINITION. What every step keeps: the predicates of the invariants, the parts of the state that most commands leave alone, and the
manual's tables in the form in which the statements name them. -/

namespace Sys2Proof.Machine

/-- The array's cells are in their canonical form. -/
def MemoryCanonical (s : State) : Prop := s.mem.wf = true

/-- Every group's debt lies between −8 and +8 (R102). -/
def DebtsInRange (s : State) : Prop := ∀ g, -8 ≤ s.refresh.debt.get g ∧ s.refresh.debt.get g ≤ 8

/-- A notice queue within its bounds, and full while losses are counted (R76, R81). -/
def NoticeQueue.Bounded (q : NoticeQueue) : Prop :=
  q.queue.length ≤ Config.noticeDepth ∧ q.lost ≤ 255 ∧ (0 < q.lost → q.queue.length = Config.noticeDepth)

/-- A link within its bounds (Table 50). -/
def Link.Bounded (l : Link) : Prop := l.replay.length ≤ Config.replayDepth ∧ l.refusals.length ≤ Config.refusalDepth

/-- No port owns more than 16 watch entries, and no two entries of a port name the same line (R69). -/
structure WatchTableBounded (t : Table 32 (Option Watch)) : Prop where
  owned : ∀ p, ownedWatches t p ≤ Config.watchesPerPort
  apart : ∀ i j w, t.get i = some w → t.get j = some w → i = j

/-- The part's watch table is within its bounds. -/
def WatchesBounded (s : State) : Prop := WatchTableBounded s.watches

/-- A repair job waits only behind a running one: the head of the queue starts at once (R136, R137). -/
def JobFirst (s : State) : Prop := s.currentJob = none → s.repairQueue = []

/-- The queues, tables and buffers hold no more than Table 2 and Table 50 allow. -/
structure WithinCapacities (s : State) : Prop where
  queues : ∀ p, (s.queue p).length ≤ Config.queueDepth
  notices : ∀ p, (s.noticeQ p).Bounded
  links : ∀ p, (s.link p).Bounded
  holds : s.holds.length ≤ Config.holdEntries
  window : s.window.length ≤ 4
  repairs : s.repairQueue.length ≤ Config.repairDepth
  /-- No two entries of the hold table name the same line (R54). -/
  apart : (s.holds.map Hold.line).Nodup
  watches : WatchesBounded s
  first : JobFirst s

/-- A range of pages a region has or waits for: its current range unless it is DISABLED, and an enabled replacement's (R93). -/
def Region.Range (r : Region) (base limit : Nat) : Prop :=
  (r.state ≠ .disabled ∧ base = r.body.base ∧ limit = r.body.limit) ∨
    ∃ x, r.replacement = some x ∧ x.enable = true ∧ base = x.body.base ∧ limit = x.body.limit

/-- No range of one region has a page in common with a range of another (R88, R93), and a DISABLED region counts no record (R90). -/
structure RegionTableApart (t : Table 8 Region) : Prop where
  apart : ∀ i j, i ≠ j → ∀ b l b' l', (t.get i).Range b l → (t.get j).Range b' l' → rangesOverlap b l b' l' = false
  unused : ∀ i, (t.get i).state = .disabled → (t.get i).inFlight = 0

/-- The part's regions are apart. -/
def RegionsApart (s : State) : Prop := RegionTableApart s.regions

/-- A bank has an open row exactly when it is OPENING or OPEN, and a served-by spare only with an open row (R3). -/
def Bank.Consistent (x : Bank) : Prop :=
  (x.openRow.isSome = true ↔ x.state = .opening ∨ x.state = .opened) ∧ (x.servedBy.isSome = true → x.openRow.isSome = true)

/-- Every bank record is consistent, and while the part is RETAINED or WAKING every bank is RETAINED (R3, R15, R16). -/
structure BanksConsistent (s : State) : Prop where
  each : ∀ b, (s.bank b).Consistent
  asleep : s.asleep = true → ∀ b, (s.bank b).state = .retained

/-- A port whose link is not UP has no record, no notice, no packet to replay, no refusal and no vote (R78, R84, R149, R161, R173). -/
structure PortIdle (s : State) (p : Port) : Prop where
  queue : s.queue p = []
  notices : s.noticeQ p = NoticeQueue.reset
  replay : (s.link p).replay = []
  refusals : (s.link p).refusals = []
  vote : s.vote p = none

/-- Ports, votes and the claim agree (R149, R173, R176). -/
structure PortsConsistent (s : State) : Prop where
  own : ∀ p, ∀ r ∈ s.queue p, r.port = p
  offline : ∀ p, s.online p = false → PortIdle s p
  votes : ∀ p, s.online p = true → (s.vote p).isSome = true
  holder : ∀ p, s.claim.holder = some p → s.online p = true
  timer : s.claim.timer.isSome = s.claim.holder.isSome

/-- No record of the part carries the arrival stamp counter's value or a later one (R35). -/
def StampsBelowCounter (s : State) : Prop := ∀ r ∈ s.records, r.stamp < s.stampCounter

/-- An arrival stamp names one record of the part, and the counter has not reached it (R35). -/
structure StampsNameRecords (s : State) : Prop where
  below : StampsBelowCounter s
  distinct : (s.records.map Record.stamp).Nodup

/-- The record stands in its port's queue, and its stamp names no other record. -/
structure State.Sole (s : State) (r : Record) : Prop where
  here : r ∈ s.queue r.port
  only : ∀ q ∈ s.records, q.stamp = r.stamp → q = r

/-! ## The rows of the table that carry a request -/

/-- The seven rows of the memory kinds and WATCH: time, port, kind and request. -/
def memoryRow : Instr → Option (Nat × Port × Kind × Request)
  | .read dt p r => some (dt, p, .read, r)
  | .write dt p r => some (dt, p, .write, r)
  | .writePart dt p r => some (dt, p, .writePart, r)
  | .fetchAdd dt p r => some (dt, p, .fetchAdd, r)
  | .swap dt p r => some (dt, p, .swap, r)
  | .compareSwap dt p r => some (dt, p, .compareSwap, r)
  | .watch dt p r => some (dt, p, .watch, r)
  | _ => none

/-- The seven SET rows of a setting: time, port, item code and the request, its body what follows the code. -/
def settingRow : Instr → Option (Nat × Port × Byte × Request)
  | .setCloseIdle dt p r => some (dt, p, 1, r)
  | .setAgeLimit dt p r => some (dt, p, 2, r)
  | .setHotMode dt p r => some (dt, p, 3, r)
  | .setScrubInterval dt p r => some (dt, p, 4, r)
  | .setFaultThreshold dt p r => some (dt, p, 5, r)
  | .setAutoRepair dt p r => some (dt, p, 6, r)
  | .setQuietHold dt p r => some (dt, p, 7, r)
  | _ => none

/-- The 21 GET rows: time, port, item code and the request, its body what follows the code. -/
def getRow : Instr → Option (Nat × Port × Byte × Request)
  | .getCloseIdle dt p r => some (dt, p, 1, r)
  | .getAgeLimit dt p r => some (dt, p, 2, r)
  | .getHotMode dt p r => some (dt, p, 3, r)
  | .getScrubInterval dt p r => some (dt, p, 4, r)
  | .getFaultThreshold dt p r => some (dt, p, 5, r)
  | .getAutoRepair dt p r => some (dt, p, 6, r)
  | .getQuietHold dt p r => some (dt, p, 7, r)
  | .getClaimHolder dt p r => some (dt, p, 10, r)
  | .getQuietState dt p r => some (dt, p, 11, r)
  | .getWakeRecord dt p r => some (dt, p, 12, r)
  | .getRefreshDebt dt p r => some (dt, p, 13, r)
  | .getMissedRefreshCount dt p r => some (dt, p, 14, r)
  | .getCorrectedCounts dt p r => some (dt, p, 15, r)
  | .getScrubPointer dt p r => some (dt, p, 16, r)
  | .getLinkErrorCounts dt p r => some (dt, p, 17, r)
  | .getLostCount dt p r => some (dt, p, 18, r)
  | .getNoticeEnables dt p r => some (dt, p, 19, r)
  | .getFaultListSlot dt p r => some (dt, p, 20, r)
  | .getSpares dt p r => some (dt, p, 21, r)
  | .getRepairQueue dt p r => some (dt, p, 22, r)
  | .getCurrentJob dt p r => some (dt, p, 23, r)
  | _ => none

/-- Every row of the table that carries a REQUEST to the link: time, port, request kind's byte and the request with its whole body. -/
def requestRow : Instr → Option (Nat × Port × Byte × Request)
  | .fence dt p r => some (dt, p, 4, r)
  | .unwatch dt p r => some (dt, p, 9, r)
  | .noticeMask dt p r => some (dt, p, 10, r)
  | .regionSet dt p r => some (dt, p, 11, r)
  | .regionGet dt p r => some (dt, p, 12, r)
  | .repair dt p r => some (dt, p, 13, r)
  | .quiet dt p r => some (dt, p, 14, r)
  | .claim dt p r => some (dt, p, 15, r)
  | .release dt p r => some (dt, p, 16, r)
  | .wakeClear dt p r => some (dt, p, 17, withCode r 8)
  | .countersClear dt p r => some (dt, p, 17, withCode r 9)
  | .setUnknownItem dt p r => some (dt, p, 17, r)
  | .getUnknownItem dt p r => some (dt, p, 18, r)
  | .unknownRequestKind dt p k r => some (dt, p, k, r)
  | i =>
      match memoryRow i, settingRow i, getRow i with
      | some (dt, p, k, r), _, _ => some (dt, p, k.code, r)
      | none, some (dt, p, c, r), _ => some (dt, p, 17, withCode r c)
      | none, none, some (dt, p, c, r) => some (dt, p, 18, withCode r c)
      | none, none, none => none

/-- The array commands and expiries that change one block's state and let no waiting record go on: none of them ends with the blocks
evaluated anew. -/
def quietRow : Instr → Bool
  | .openRow _ _ _ | .openSpare _ _ _ | .close _ _ | .refreshGroup _ _ | .retain _ | .resume _ | .programSoft _ _ _
  | .programFuse _ _ _ | .pathOccupancyExpiry _ | .timingIntervalExpiry _ | .openDelayEnd _ _ | .groupRefreshEnd _ _
  | .programmingEnd _ | .idleTimerExpiry _ _ | .rowOpenLimit _ _ | .groupExpiry _ | .scrubStepTimerExpiry _
  | .idleHoldExpiry _ | .claimTimerExpiry _ | .recordAged _ _ _ => true
  | _ => false

/-- What no REQUEST changes: the array with the bank table's window and path, the remap table, the debts and the quarters, the
sweep, the pins and the waiting commands. -/
structure ArraySideKept (s t : State) : Prop where
  pending : t.pending = s.pending
  resetN : t.resetN = s.resetN
  hotPin : t.hotPin = s.hotPin
  mem : t.mem = s.mem
  window : t.window = s.window
  pathBusy : t.pathBusy = s.pathBusy
  remap : t.remap = s.remap
  debt : t.refresh.debt = s.refresh.debt
  urgentAt : t.refresh.urgentAt = s.refresh.urgentAt
  rotation : t.refresh.rotation = s.refresh.rotation
  quarter : t.refresh.quarter = s.refresh.quarter
  sweepDone : t.scrub.sweepDone = s.scrub.sweepDone
  sweepAt : t.scrub.sweepAt = s.scrub.sweepAt

/-- The state and the request let a control kind be admitted and carried out at once (R28, R38, R42): the link is UP and the packet
in sequence, the queue has room, the request is not posted and its tag is free, no FENCE of the port is undone (behind
one the record waits, `JoinsWaiting`), and no record carries the counter's stamp (an invariant, `StampsBelowCounter`). -/
structure ControlReady (s : State) (p : Port) (r : Request) : Prop where
  online : s.online p = true
  sequence : r.seq = (s.link p).expected
  room : (s.queue p).length < Config.queueDepth
  plain : r.posted = false
  tag : s.tagBusy p r.tag = false
  noFence : ∀ q, q ∈ s.queue p ∨ q ∈ s.detached ∧ q.port = p → q.op.isFence = true → q.isDone = true
  stamps : StampsBelowCounter s

/-- What the acceptance of a request does to the part state: SETTLING ends with its timer STOPPED (R150), ENTERING is abandoned with its
RETENTION marks withdrawn (R153), and ACTIVE stays, since the record stands in its queue. -/
structure AdmissionEnds (s t : State) : Prop where
  settling : s.quiet.part = .settling → t.quiet.part = .active ∧ t.quiet.holdTimer = none
  entering : s.quiet.part = .entering → t.quiet.part = .active ∧ ∀ b, (t.bank b).marks.retention = false
  active : s.quiet.part = .active → t.quiet.part = .active

/-- The request passes the checks of Table 16 that every control kind meets: the link is UP and the packet in sequence, the queue has room,
the request is not posted and its tag is free (R28, R30). -/
structure ControlAdmitted (s : State) (p : Port) (r : Request) : Prop where
  online : s.online p = true
  sequence : r.seq = (s.link p).expected
  room : (s.queue p).length < 16
  plain : r.posted = false
  tag : s.tagBusy p r.tag = false

/-- Between `s` and `t` a FENCE or control request was admitted whose record waits for a condition of Table 15: it stands WAITING at the tail
of its port's queue with the condition as its reason, nothing of it is carried out (R27, R38, R42), and it wakes a RETAINED part exactly where
that condition is RETENTION, which only a REPAIR meets (R155, R156). -/
structure JoinsWaiting (s t : State) (p : Port) (tag : Tag) (o : ReqOp) (c : BlockReason) : Prop where
  record : ∃ x : Record, t.queue p = s.queue p ++ [x] ∧ x.port = p ∧ x.tag = tag ∧ x.op = o ∧ x.posted = false ∧ x.region = none ∧
    x.stamp = s.stampCounter ∧ x.state = .waiting ∧ x.blocked = some c ∧ x.aged = false ∧ x.result = none ∧ x.since = s.now
  counter : s.stampCounter.toNat + 1 < 2 ^ 64 → t.stampCounter = s.stampCounter + 1
  others : ∀ q, q ≠ p → t.queue q = s.queue q ∧ t.link q = s.link q
  errors : (t.link p).errors = (s.link p).errors
  votes : t.quiet.votes = s.quiet.votes
  frame : t = { s with
    queues := t.queues, stampCounter := t.stampCounter, links := t.links, quiet := t.quiet, banks := t.banks }
  banks : s.quiet.part ≠ .entering → t.banks = s.banks
  quiet : AdmissionEnds s t
  retained : s.quiet.part = .retained → t.quiet =
    if c = .retention then { s.quiet with part := .waking, wakeRecord := s.quiet.wakeRecord.or (some (.request, p)) } else s.quiet
  waking : s.quiet.part = .waking → t.quiet = s.quiet

/-- Between `s` and `t` the port's queue gained one record, of that tag and fields, DONE at once with that result, the part is no longer
SETTLING or ENTERING, and the other queues and the array stand as they were. -/
structure Answered (s t : State) (p : Port) (tag : Tag) (o : ReqOp) (res : Result) : Prop where
  record : ∃ x, t.queue p = s.queue p ++ [x] ∧ x.port = p ∧ x.tag = tag ∧ x.op = o ∧ x.posted = false ∧
    x.stamp = s.stampCounter ∧ x.state = .done ∧ x.result = some res ∧ x.doneAt = some s.now
  counter : s.stampCounter.toNat + 1 < 2 ^ 64 → t.stampCounter = s.stampCounter + 1
  others : ∀ q, q ≠ p → t.queue q = s.queue q
  memory : t.mem = s.mem
  quiet : AdmissionEnds s t

/-- What a SET writes and a GET reads stands between `s` and `t`, but for the part state, which an admission may end (Tables 58 and 59). -/
structure ItemsKept (s t : State) : Prop where
  settings : t.settings = s.settings
  claim : t.claim = s.claim
  votes : t.quiet.votes = s.quiet.votes
  wakeRecord : t.quiet.wakeRecord = s.quiet.wakeRecord
  refresh : t.refresh = s.refresh
  checks : t.checks = s.checks
  scrub : t.scrub = s.scrub
  errors : ∀ q, (t.link q).errors = (s.link q).errors
  notices : t.notices = s.notices
  remap : t.remap = s.remap
  repairQueue : t.repairQueue = s.repairQueue
  currentJob : t.currentJob = s.currentJob
  regions : t.regions = s.regions
  watches : t.watches = s.watches

/-- The claim check's answer to a port that does not hold the claim (R178). -/
def claimAnswer (h : Option Port) : Result :=
  match h with
  | some q => ⟨.claimed, .holder q⟩
  | none => ⟨.notClaimed, .none⟩

/-! ## REGION_SET's form and overlap (R92, R93) -/

/-- The rights a value of a REGION_SET names (R163). -/
def RightsNamed (n : Nat) (x : Rights) : Prop := (n = 0 ∧ x = .none) ∨ (n = 1 ∧ x = .read) ∨ (n = 2 ∧ x = .readWrite)

/-- The parameters name region `g` and the new record: a region of the eight, a base page not above the limit page, which is at most
524,287, and three rights values (R92, case 2). -/
structure NamesRegion (ps : RegionSetParams) (g : RegionIx) (new : Replacement) : Prop where
  index : ps.index = g.val
  range : ps.base ≤ ps.limit ∧ ps.limit ≤ 524287
  rightsA : RightsNamed ps.rightsA (new.body.rights.get .a)
  rightsB : RightsNamed ps.rightsB (new.body.rights.get .b)
  rightsC : RightsNamed ps.rightsC (new.body.rights.get .c)
  pages : new.body.base = ps.base ∧ new.body.limit = ps.limit
  flags : new.enable = ps.enable ∧ new.body.atomics = ps.atomics ∧ new.body.posting = ps.posting ∧ new.body.watches = ps.watches

/-- A parameter of a REGION_SET is out of range (R92, case 2). -/
def OutsideRegions (ps : RegionSetParams) : Prop :=
  8 ≤ ps.index ∨ ps.limit < ps.base ∨ 524288 ≤ ps.limit ∨ 3 ≤ ps.rightsA ∨ 3 ≤ ps.rightsB ∨ 3 ≤ ps.rightsC

/-- The new range has a page in common with one that another region has or waits for (R93). -/
def TakenByAnother (s : State) (g : RegionIx) (new : Replacement) : Prop :=
  ∃ j base limit, j ≠ g ∧ (s.region j).Range base limit ∧ new.body.base ≤ limit ∧ base ≤ new.body.limit

/-! ## The settling conditions (R150) -/

/-- The seven settling conditions. -/
structure Settles (s : State) : Prop where
  votes : ∀ p, s.online p = true → s.vote p = some .quiet
  records : (∀ p, s.queue p = []) ∧ s.detached = []
  holds : s.holds = []
  jobs : s.repairQueue = [] ∧ s.currentJob = none
  drains : ∀ g, (s.region g).state ≠ .draining
  sweep : s.scrub.sweepDone = true
  pin : s.resetN = true

/-- The quiet controller has evaluated the settling conditions of `t` after an event, from the part state of `s` (R150, R151, R153): an
ACTIVE part on which all hold begins SETTLING, or with QUIET_HOLD 0 is ENTERING at once; one on which one fails leaves SETTLING or
ENTERING for ACTIVE; any other part stands. A warm reset's close that is still to come is none of the seven (notes/assumptions/28.md). -/
structure QuietReviewed (s t : State) : Prop where
  begins : Settles t → s.quiet.part = .active → t.settings.quietHold ≠ 0 →
    t.quiet = { s.quiet with part := .settling, holdTimer := some (t.now + us t.settings.quietHold) }
  enters : Settles t → s.quiet.part = .active → t.settings.quietHold = 0 →
    t.quiet = { s.quiet with part := .entering, holdTimer := none } ∧
      ∀ b, (s.bank b).state = .opening ∨ (s.bank b).state = .opened → (t.bank b).marks.retention = true
  stands : Settles t → s.quiet.part ≠ .active → t.quiet = s.quiet
  idle : ¬ Settles t → s.quiet.part ≠ .settling → s.quiet.part ≠ .entering → t.quiet = s.quiet
  ends : ¬ Settles t → s.quiet.part = .settling → t.quiet = { s.quiet with part := .active, holdTimer := none }
  abandons : ¬ Settles t → s.quiet.part = .entering →
    t.quiet = { s.quiet with part := .active } ∧ ∀ b, (t.bank b).marks.retention = false

/-! ## Notices -/

/-- A notice queue that one more notice reaches: it joins the tail, or is dropped and counted (R81). -/
def NoticeQueue.joined (q : NoticeQueue) (n : Notice) : NoticeQueue :=
  if q.queue.length < 8 then { q with queue := q.queue ++ [n] }
  else { q with lost := if q.lost < 255 then q.lost + 1 else q.lost }

/-- A port's notice queue after these notices have been handed on to every enabling port (R78, R80, R81). -/
def State.told (s : State) (want : Enables → Bool) (ns : List Notice) (p : Port) : NoticeQueue :=
  if s.online p = true ∧ want (s.noticeQ p).enables = true then ns.foldl NoticeQueue.joined (s.noticeQ p) else s.noticeQ p

/-! ## Waiting conditions (Table 15) -/

/-- Record `q` is an earlier one of `x`'s port, and not DONE (R37, R38, R52). -/
def EarlierUndone (s : State) (x q : Record) : Prop :=
  (q ∈ s.queue x.port ∨ q ∈ s.detached ∧ q.port = x.port) ∧ q.stamp < x.stamp ∧ q.state ≠ .done

/-- The runs of lines of two records meet (R37). -/
def LinesMeet (x q : Record) : Prop :=
  ∃ a n b m, x.op.span = some (a, n) ∧ q.op.span = some (b, m) ∧ a.val < b.val + m ∧ b.val < a.val + n

/-- FETCH_ADD, SWAP, COMPARE_SWAP. -/
def Atomic (o : ReqOp) : Prop :=
  (∃ a x, o = .fetchAdd a x) ∨ (∃ a x, o = .swap a x) ∨ ∃ a c x, o = .compareSwap a c x

/-- A condition of Table 15 holds against a record. -/
def HeldBack (s : State) (x : Record) : BlockReason → Prop
  | .retention =>
      (x.op.span.isSome = true ∨ ∃ b row m, x.op = .repair b row m) ∧ (s.quiet.part = .retained ∨ s.quiet.part = .waking)
  | .fence => ∃ q, EarlierUndone s x q ∧ q.op = .fence
  | .order => ∃ q, EarlierUndone s x q ∧ (LinesMeet x q ∨ x.op = .fence)
  | .hold => ∃ a n, x.op.span = some (a, n) ∧
      ((∃ e ∈ s.holds, e.holder ≠ .request x.port x.stamp ∧ a.val ≤ e.line.val ∧ e.line.val < a.val + n) ∨
        Atomic x.op ∧ (8 ≤ s.holds.length ∨ (∃ e ∈ s.holds, e.line = a) ∨
          ∃ q ∈ s.records, (q.port ≠ x.port ∨ q.stamp ≠ x.stamp) ∧ q.accessesLater a = true))
  | .bank => ∃ a n c, x.op.span = some (a, n) ∧ s.currentJob = some c ∧ c.job.bank = lineBank a

/-- The place of a reason in Table 15. -/
def BlockReason.place : BlockReason → Nat
  | .retention => 0 | .fence => 1 | .order => 2 | .hold => 3 | .bank => 4

/-- The reason is the first condition of Table 15 that holds against the record (R27). -/
def FirstReason (s : State) (x : Record) (c : BlockReason) : Prop :=
  HeldBack s x c ∧ ∀ d, d.place < c.place → ¬ HeldBack s x d

/-- A record evaluated anew (R27): one that WAITS or is READY waits for the first condition that holds against it, or is READY where none
does; an ACTIVE or DONE one stands. -/
structure Reviewed (s : State) (r x : Record) : Prop where
  same : x = { r with state := x.state, blocked := x.blocked }
  fixed : r.state = .active ∨ r.state = .done → x = r
  free : r.state = .waiting ∨ r.state = .ready → (∀ c, ¬ HeldBack s r c) → x.state = .ready ∧ x.blocked = none
  held : r.state = .waiting ∨ r.state = .ready → ∀ c, FirstReason s r c → x.state = .waiting ∧ x.blocked = some c

/-- No control record or FENCE is to be carried out: each of the queues' is ACTIVE or DONE, or a condition of Table 15 holds against it
(R38, R42). -/
def NoneToCarryOut (s : State) : Prop :=
  ∀ p, ∀ q ∈ s.queue p, q.op.span = none → q.state = .active ∨ q.state = .done ∨ ∃ c, HeldBack s q c

/-- A READY or ACTIVE record is for that row of that bank (R19). -/
def RowWantedBy (s : State) (b : BankId) (row : RowId) : Prop :=
  ∃ x ∈ s.records, (x.state = .ready ∨ x.state = .active) ∧ ∃ a n, x.op.span = some (a, n) ∧ lineBank a = b ∧ lineRow a = row

/-! ## Admission checks (Table 16) -/

/-- The form R29 asks of a kind, and the fields the request then has (Table 52, R163): its alignment, line count, body, mask, operands and
parameters. What a body longer than its kind needs means is notes/assumptions/11.md. -/
inductive WellFormedAs (r : Request) : Kind → ReqOp → Prop where
  | read (ha : (reqAddr r).toNat % 64 = 0) (hn : 1 ≤ r.count.toNat ∧ r.count.toNat ≤ 8) :
      WellFormedAs r .read (.read (reqAddr r) r.count.toNat)
  | write (ha : (reqAddr r).toNat % 64 = 0) (hn : 1 ≤ r.count.toNat ∧ r.count.toNat ≤ 8)
      (hb : r.body.length = 64 * r.count.toNat) : WellFormedAs r .write (.write (reqAddr r) r.count.toNat (wordsOfBytes r.body))
  | writePart (ha : (reqAddr r).toNat % 64 = 0) (hb : 72 ≤ r.body.length) (hm : ∃ b ∈ r.body.take 8, b ≠ 0) :
      WellFormedAs r .writePart (.writePart (reqAddr r) (r.body.take 8) (wordsOfBytes ((r.body.drop 8).take 64)))
  | fetchAdd (x : Word) (ha : (reqAddr r).toNat % 8 = 0) (hb : 8 ≤ r.body.length ∧ r.body.length < 16)
      (hx : x = wordOfBytes (r.body.take 8)) : WellFormedAs r .fetchAdd (.fetchAdd (reqAddr r) x)
  | swap (x : Word) (ha : (reqAddr r).toNat % 8 = 0) (hb : 8 ≤ r.body.length ∧ r.body.length < 16)
      (hx : x = wordOfBytes (r.body.take 8)) : WellFormedAs r .swap (.swap (reqAddr r) x)
  | compareSwap (x y : Word) (ha : (reqAddr r).toNat % 8 = 0) (hb : 16 ≤ r.body.length ∧ r.body.length < 24)
      (hx : x = wordOfBytes (r.body.take 8)) (hy : y = wordOfBytes ((r.body.drop 8).take 8)) :
      WellFormedAs r .compareSwap (.compareSwap (reqAddr r) x y)
  | watch (ha : (reqAddr r).toNat % 8 = 0) : WellFormedAs r .watch (.watch (reqAddr r))
  | fence : WellFormedAs r .fence .fence
  | claim : WellFormedAs r .claim .claim
  | release : WellFormedAs r .release .release
  | unwatch (i : Byte) (rest : List Byte) (hb : r.body = i :: rest) : WellFormedAs r .unwatch (.unwatch i.toNat)
  | noticeMask (f : Byte) (rest : List Byte) (hb : r.body = f :: rest) :
      WellFormedAs r .noticeMask
        (.noticeMask ⟨f.getLsbD 0, f.getLsbD 1, f.getLsbD 2, f.getLsbD 3⟩)
  | regionSet (ps : RegionSetParams) (hb : regionSetParams r.body = some ps) : WellFormedAs r .regionSet (.regionSet ps)
  | regionGet (i : Byte) (rest : List Byte) (hb : r.body = i :: rest) : WellFormedAs r .regionGet (.regionGet i.toNat)
  | repair (b r0 r1 m : Byte) (rest : List Byte) (bank : BankId) (row : RowId) (mode : RepairMode)
      (hb : r.body = b :: r0 :: r1 :: m :: rest) (hk : bank.val = b.toNat) (hr : row.val = r0.toNat + 256 * r1.toNat)
      (hm : m = 0 ∧ mode = .soft ∨ m = 1 ∧ mode = .fused) : WellFormedAs r .repair (.repair bank row mode)
  | quiet (v : Byte) (rest : List Byte) (hb : r.body = v :: rest) : WellFormedAs r .quiet (.quiet v.toNat)
  | set (c v0 v1 : Byte) (rest : List Byte) (hb : r.body = c :: v0 :: v1 :: rest) :
      WellFormedAs r .set (.set c.toNat (v0.toNat + 256 * v1.toNat))
  | get (c : Byte) (rest : List Byte) (hb : r.body = c :: rest)
      (hc : ¬ (c.toNat = 13 ∨ c.toNat = 14 ∨ 17 ≤ c.toNat ∧ c.toNat ≤ 21)) : WellFormedAs r .get (.get c.toNat none)
  | getOf (c x : Byte) (rest : List Byte) (hb : r.body = c :: x :: rest)
      (hc : c.toNat = 13 ∨ c.toNat = 14 ∨ 17 ≤ c.toNat ∧ c.toNat ≤ 21) : WellFormedAs r .get (.get c.toNat (some x.toNat))

/-- The form is right for the kind, with these fields, and the posted flag stands on a kind that may be posted (R25, R29). -/
def Formed (k : Kind) (r : Request) (o : ReqOp) : Prop :=
  WellFormedAs r k o ∧ (r.posted = true → k = .write ∨ k = .writePart)

/-- A non-posted record in the port's queue has the tag (R30). -/
def TagTaken (s : State) (p : Port) (t : Tag) : Prop := ∃ q ∈ s.queue p, q.posted = false ∧ q.tag = t

/-- The region covers the page (R88). -/
def Covering (s : State) (page : Nat) (g : RegionIx) : Prop :=
  (s.region g).state ≠ .disabled ∧ (s.region g).body.base ≤ page ∧ page ≤ (s.region g).body.limit

/-- The port's rights and the region's permissions allow the kind (R31, Table 30). -/
def Allowed (b : RegionBody) (p : Port) : Kind → Prop
  | .read => b.rights.get p ≠ .none
  | .watch => b.rights.get p ≠ .none ∧ b.watches = true
  | .write | .writePart => b.rights.get p = .readWrite
  | .fetchAdd | .swap | .compareSwap => b.rights.get p = .readWrite ∧ b.atomics = true
  | .fence | .unwatch | .noticeMask | .regionSet | .regionGet | .repair | .quiet | .claim | .release | .set | .get => True

/-- The checks of Table 16 down to the form are passed: queue space, sweep, form. -/
structure WellShaped (s : State) (p : Port) (k : Kind) (r : Request) (o : ReqOp) : Prop where
  room : (s.queue p).length < 16
  swept : k.isArray = true → s.scrub.sweepDone = true
  form : Formed k r o

/-- The row check passes: line in row + line count ≤ 32, for READ and WRITE. -/
def InRow (k : Kind) (o : ReqOp) : Prop :=
  ∀ l n, k = .read ∨ k = .write → o.span = some (l, n) → l.val % 32 + n ≤ 32

/-- The checks of Table 16 down to the tag are passed, for a request whose first line is `l`. -/
structure ReachesRegion (s : State) (p : Port) (k : Kind) (r : Request) (l : LineId) : Prop where
  shaped : ∃ o n, WellShaped s p k r o ∧ o.span = some (l, n) ∧ InRow k o
  tag : r.posted = false → ¬ TagTaken s p r.tag

/-- The request reaches region `g`, which alone covers its page. -/
def Meets (s : State) (p : Port) (k : Kind) (r : Request) (g : RegionIx) : Prop :=
  ∃ l, ReachesRegion s p k r l ∧ Covering s (l.val / 64) g ∧ ∀ j, Covering s (l.val / 64) j → j = g

/-- The first check of Table 16 that fails, with its status; and R33's, of a post made non-posted. -/
inductive Refused (s : State) (p : Port) (k : Kind) (r : Request) : Status → Prop where
  | full (h : 16 ≤ (s.queue p).length) : Refused s p k r .full
  | notReady (h : (s.queue p).length < 16) (ha : k.isArray = true) (hs : s.scrub.sweepDone = false) :
      Refused s p k r .notReady
  | malformed (h : (s.queue p).length < 16) (ha : k.isArray = true → s.scrub.sweepDone = true)
      (hf : ∀ o, ¬ Formed k r o) : Refused s p k r .malformed
  | split (o : ReqOp) (h : WellShaped s p k r o) (hx : ¬ InRow k o) : Refused s p k r .split
  | tagBusy (o : ReqOp) (h : WellShaped s p k r o) (hx : InRow k o) (hp : r.posted = false) (ht : TagTaken s p r.tag) :
      Refused s p k r .tagBusy
  | noRegion (l : LineId) (h : ReachesRegion s p k r l) (hg : ∀ g, ¬ Covering s (l.val / 64) g) :
      Refused s p k r .noRegion
  | changing (g : RegionIx) (h : Meets s p k r g) (hd : (s.region g).state = .draining) : Refused s p k r .changing
  | denied (g : RegionIx) (h : Meets s p k r g) (hd : (s.region g).state ≠ .draining)
      (ha : ¬ Allowed (s.region g).body p k) : Refused s p k r .denied
  | postTagBusy (g : RegionIx) (h : Meets s p k r g) (hd : (s.region g).state ≠ .draining)
      (ha : Allowed (s.region g).body p k) (hp : r.posted = true) (hn : (s.region g).body.posting = false)
      (ht : TagTaken s p r.tag) : Refused s p k r .tagBusy

/-! ## Settings and items (Tables 58 and 59) -/

/-- The range of a setting (Table 58). -/
def InRange (code : Byte) (v : Nat) : Prop :=
  (code = 1 ∧ v ≤ 2000 ∧ v % 10 = 0) ∨ (code = 2 ∧ 1 ≤ v ∧ v ≤ 16) ∨ (code = 3 ∧ v ≤ 1) ∨ (code = 4 ∧ v ≤ 255) ∨
    (code = 5 ∧ 1 ≤ v ∧ v ≤ 15) ∨ (code = 6 ∧ v ≤ 1) ∨ (code = 7 ∧ v ≤ 1000)

/-- What a GET of a code, with its parameter if it names one, returns (Tables 58 and 59, R146, R182). -/
inductive ItemOf (s : State) : Nat → Option Nat → Item → Prop where
  | closeIdle : ItemOf s 1 none (.setting s.settings.closeIdle)
  | ageLimit : ItemOf s 2 none (.setting s.settings.ageLimit)
  | hotMode : ItemOf s 3 none (.setting s.settings.hotMode)
  | scrubInterval : ItemOf s 4 none (.setting s.settings.scrubInterval)
  | faultThreshold : ItemOf s 5 none (.setting s.settings.faultThreshold)
  | autoRepair : ItemOf s 6 none (.setting s.settings.autoRepair)
  | quietHold : ItemOf s 7 none (.setting s.settings.quietHold)
  | claimHolder : ItemOf s 10 none (.claimHolder s.claim.holder)
  | quietState : ItemOf s 11 none (.quietState s.quiet.part s.quiet.votes)
  | wakeRecord : ItemOf s 12 none (.wakeRecord s.quiet.wakeRecord)
  | refreshDebt (g : GroupId) : ItemOf s 13 (some g.val) (.refreshDebt (s.refresh.debt.get g))
  | missedCount (g : GroupId) : ItemOf s 14 (some g.val) (.missedCount (s.refresh.missed.get g))
  | counts : ItemOf s 15 none (.counts s.checks.corrected s.checks.uncorrectable)
  | scrubPointer : ItemOf s 16 none (.scrubPointer s.scrub.pointer s.scrub.passes)
  | linkErrors (q : Port) : ItemOf s 17 (some (portCode q)) (.linkErrors (s.link q).errors)
  | lostCount (q : Port) : ItemOf s 18 (some (portCode q)) (.lostCount (s.noticeQ q).lost)
  | enables (q : Port) : ItemOf s 19 (some (portCode q)) (.enables (s.noticeQ q).enables)
  | faultSlot (i : FaultSlot) : ItemOf s 20 (some i.val) (.faultSlot (s.checks.faults.get i))
  | spares (b : BankId) : ItemOf s 21 (some b.val) (.spares (s.spares b))
  | repairQueue : ItemOf s 22 none
      (.repairQueue (s.repairQueue.map (fun j => ⟨j.bank, j.row, j.mode, j.requesters.length⟩)))
  | currentJob : ItemOf s 23 none
      (.currentJob (s.currentJob.map (fun c =>
        ⟨c.job.bank, c.job.row, c.job.mode, c.phase, c.chosen, c.previous, c.linesRead, c.linesWritten, c.poisonedWords⟩)))

/-- The parameter of a code of Table 59 is out of range: a group from 4, a port from 3, a slot or a bank from 16 upward. -/
def ParamOutOfRange (code y : Nat) : Prop :=
  ((code = 13 ∨ code = 14) ∧ 4 ≤ y) ∨ ((code = 17 ∨ code = 18 ∨ code = 19) ∧ 3 ≤ y) ∨
    ((code = 20 ∨ code = 21) ∧ 16 ≤ y)

/-! ## What a link sends next (R50, R170) -/

/-- The transmitter has sent nothing yet, or its packet's last byte has gone. -/
def TransmitterFree (s : State) (p : Port) : Prop := ∀ x, (s.link p).transmitter = some x → x.ends ≤ s.now

/-- A non-posted DONE record of the port: its response is unsent while it stands in its queue (R51). -/
def Unsent (s : State) (p : Port) (r : Record) : Prop := r ∈ s.queue p ∧ r.state = .done ∧ r.posted = false

/-- A packet of R170's list is due and can be sent: a sequenced one that is new needs room in the replay buffer of 32 (R168). -/
inductive Due (s : State) (p : Port) : SendKind → Prop where
  | nak (h : (s.link p).nakDue = true) : Due s p .nak
  | replay (i : Nat) (h : (s.link p).replayAt = some i) (hi : i < (s.link p).replay.length) : Due s p .replay
  | init (h : (s.link p).initPending = true) (hr : (s.link p).replay.length < 32) : Due s p .init
  | response (h : (∃ r, Unsent s p r) ∨ (s.link p).refusals ≠ []) (hr : (s.link p).replay.length < 32) : Due s p .response
  | notice (h : (s.noticeQ p).queue ≠ []) (hr : (s.link p).replay.length < 32) : Due s p .notice
  | ack (h : (s.link p).ackTimer = .expired) : Due s p .ack
  | idle (h : (s.link p).keepalive = .expired) : Due s p .idle

/-- The place of a packet in R170's list. -/
def SendKind.place : SendKind → Nat
  | .nak => 1 | .replay => 2 | .init => 3 | .response => 4 | .notice => 5 | .ack => 6 | .idle => 7

/-- The link is UP, its transmitter is free, and this packet is the first of R170's list that is due. -/
structure SendsFirst (s : State) (p : Port) (k : SendKind) : Prop where
  up : s.online p = true
  free : TransmitterFree s p
  due : Due s p k
  first : ∀ j : SendKind, j.place < k.place → ¬ Due s p j

/-- Of the records whose responses are unsent, the one with the earliest done instant, and of one instant the lowest stamp (R50, R170). -/
structure AnswersFirst (s : State) (p : Port) (r : Record) (d : Instant) : Prop where
  unsent : Unsent s p r
  instant : r.doneAt = some d
  first : ∀ q, Unsent s p q → q ≠ r → ∃ e, q.doneAt = some e ∧ (d < e ∨ d = e ∧ r.stamp < q.stamp)

/-! ## Lengths of packets (Tables 53 and 54, R163) -/

/-- The bytes of an item in a GET's or REGION_GET's response. -/
def itemLength : Item → Nat
  | .setting _ | .wakeRecord _ | .missedCount _ => 2
  | .claimHolder _ | .refreshDebt _ | .lostCount _ | .enables _ => 1
  | .quietState _ _ => 4
  | .counts _ _ | .linkErrors _ => 8
  | .scrubPointer _ _ => 6
  | .faultSlot e => if e.isSome then 13 else 1
  | .spares _ => 12
  | .repairQueue js => 1 + 5 * js.length
  | .currentJob j => if j.isSome then 12 else 1
  | .region r => if r.replacement.isSome then 35 else 20

/-- The bytes of a RESPONSE's body; a READ's line has 8 words. -/
def responseLength : ResultData → Nat
  | .none => 0
  | .lines ls => 65 * ls.length
  | .oldWord _ => 8
  | .watch _ w => if w.isSome then 9 else 1
  | .holder _ => 1
  | .repair _ _ => 3
  | .item i => itemLength i

/-- The bytes of a NOTICE's body. -/
def noticeLength : Notice → Nat
  | .watchEnded _ _ (.written _) => 7
  | .watchEnded _ _ .cancelled => 6
  | .error _ _ => 2
  | .uncorrectable _ => 5
  | .refreshMissed _ => 2
  | .repairAdvised _ _ => 4
  | .repairDone _ _ sp _ _ => if sp.isSome then 7 else 6
  | .quietRetained | .quietActive => 1
  | .claimLost => 0
  | .overflow _ => 1

/-! ## Reads and their faults (R114, R119, R121) -/

/-- The outcome of each word of a line, by what stands stored (R114, Table 37); more than two wrong bits are left open. -/
def OutcomesOf (m : Memory) (base : Nat) (os : List WordOutcome) : Prop :=
  ∀ w : WordIx,
    (m.mark (wordCell base w) = .good → os[w.val]? = some (.clean (m.word (wordCell base w)))) ∧
    (m.mark (wordCell base w) = .oneBad → os[w.val]? = some (.corrected (m.word (wordCell base w)))) ∧
    (m.mark (wordCell base w) = .twoBad → os[w.val]? = some .uncorrectable) ∧
    (m.mark (wordCell base w) = .poison ∨ m.mark (wordCell base w) = .poisonOne → os[w.val]? = some .poisoned)

/-- The outcome CORRECTED. -/
def WordOutcome.isCorrected : WordOutcome → Bool
  | .corrected _ => true
  | .clean _ | .uncorrectable | .poisoned => false

/-- The words read CORRECTED. -/
def correctedIn (os : List WordOutcome) : Nat := (os.filter WordOutcome.isCorrected).length

/-- The words read UNCORRECTABLE, in ascending order. -/
def uncorrectableIn (os : List WordOutcome) : List WordIx :=
  allWords.filter (fun w => decide (os[w.val]? = some .uncorrectable))

/-- The notices of a line's UNCORRECTABLE words (R119). -/
def uncorrectableNotices (l : LineId) (os : List WordOutcome) : List Notice :=
  (uncorrectableIn os).map (fun w => .uncorrectable (wordAddr l w))

/-- A 32-bit count that rises by `n`, and stays at its top value once there (R119). -/
def Rises (n before after : Nat) : Prop := after = max before (min (before + n) 4294967295)

/-- The two counts after a read (R119). -/
structure Counted (s t : State) (os : List WordOutcome) : Prop where
  corrected : Rises (correctedIn os) s.checks.corrected t.checks.corrected
  uncorrectable : Rises (uncorrectableIn os).length s.checks.uncorrectable t.checks.uncorrectable

/-- Of two orders of a clear and a rise, one leaves the count at 0 and the other at 1 (R181). -/
def OneOfTwo (a b : Nat) : Prop := (a = 0 ∧ b = 1) ∨ (a = 1 ∧ b = 0)

/-- The fault list after one corrected word of a row, and the count that rose or was inserted (R121). -/
inductive FaultNoted (t : Table 16 (Option FaultEntry)) (b : BankId) (row : RowId) (st : Stamp) :
    Table 16 (Option FaultEntry) → Option Nat → Prop where
  | listed (i : FaultSlot) (f : FaultEntry) (h : t.get i = some f) (hb : f.bank = b ∧ f.row = row)
      (only : ∀ j g, t.get j = some g → g.bank = b ∧ g.row = row → j = i) :
      FaultNoted t b row st (t.set i (some { f with count := if f.count < 15 then f.count + 1 else f.count, stamp := st }))
        (if f.count < 15 then some (f.count + 1) else none)
  | inserted (i : FaultSlot) (h : t.get i = none) (low : ∀ j, j < i → t.get j ≠ none)
      (new : ∀ j g, t.get j = some g → ¬ (g.bank = b ∧ g.row = row)) :
      FaultNoted t b row st (t.set i (some ⟨b, row, 1, st⟩)) (some 1)
  | replaced (i : FaultSlot) (f : FaultEntry) (h : t.get i = some f)
      (least : ∀ j, j ≠ i → ∃ g, t.get j = some g ∧
        (f.count < g.count ∨ f.count = g.count ∧ (f.stamp < g.stamp ∨ f.stamp = g.stamp ∧ i < j)))
      (new : ∀ j g, t.get j = some g → ¬ (g.bank = b ∧ g.row = row)) :
      FaultNoted t b row st (t.set i (some ⟨b, row, 1, st⟩)) (some 1)

/-- The words of a row reader's line, taken in ascending order: the fault list they leave, and the INTEGRITY notices they raise where no
job starts of them; a count that reaches the threshold `thr` is advised (R119, R121, R122). -/
inductive ReadNoted (l : LineId) (thr : Nat) (st : Stamp) : List (WordIx × WordOutcome) → Table 16 (Option FaultEntry) →
    Table 16 (Option FaultEntry) → List Notice → Prop where
  | done (t : Table 16 (Option FaultEntry)) : ReadNoted l thr st [] t t []
  | fine (w : WordIx) (o : WordOutcome) (xs : List (WordIx × WordOutcome)) (t u : Table 16 (Option FaultEntry))
      (ns : List Notice) (ho : (∃ d, o = .clean d) ∨ o = .poisoned) (h : ReadNoted l thr st xs t u ns) :
      ReadNoted l thr st ((w, o) :: xs) t u ns
  | lost (w : WordIx) (xs : List (WordIx × WordOutcome)) (t u : Table 16 (Option FaultEntry)) (ns : List Notice)
      (h : ReadNoted l thr st xs t u ns) :
      ReadNoted l thr st ((w, .uncorrectable) :: xs) t u (.uncorrectable (wordAddr l w) :: ns)
  | mended (w : WordIx) (d : Word) (xs : List (WordIx × WordOutcome)) (t m u : Table 16 (Option FaultEntry))
      (rose : Option Nat) (ns : List Notice) (hm : FaultNoted t (lineBank l) (lineRow l) st m rose)
      (h : ReadNoted l thr st xs m u ns) :
      ReadNoted l thr st ((w, .corrected d) :: xs) t u
        (if rose = some thr then .repairAdvised (lineBank l) (lineRow l) :: ns else ns)

/-- No repair job that waits starts of a read's corrected words: AUTO_REPAIR is 0, no word is CORRECTED, or none waits but behind the
current one (R122, R134). -/
def NoJobBehind (s : State) (os : List WordOutcome) : Prop :=
  s.settings.autoRepair ≠ 1 ∨ correctedIn os = 0 ∨ JobFirst s

/-- The value handed on of a stored word, by what stands in its check bits; more than two wrong bits are left open (R114, Table 37). -/
def ReadsAs (m : Memory) (cell : Nat) (x : CheckedWord) : Prop :=
  (m.mark cell = .good ∨ m.mark cell = .oneBad → x = .data (m.word cell)) ∧
    (m.mark cell = .twoBad ∨ m.mark cell = .poison ∨ m.mark cell = .poisonOne → x = .poisoned)

/-- What a line access for a request record does to its bank's streak and idle timer: a first access starts the record, and raises the
streak, up to 8, if another had started before it since the OPEN (R11); an EXPIRED idle timer becomes STOPPED (R10). -/
structure RequestReaches (s u : State) (b : BankId) (r : Record) : Prop where
  streak : (u.bank b).streak =
    if r.state = .ready ∧ (s.bank b).firstStart = true ∧ (s.bank b).streak < 8 then (s.bank b).streak + 1
    else (s.bank b).streak
  first : (u.bank b).firstStart = ((s.bank b).firstStart || decide (r.state = .ready))
  idle : (s.bank b).idle = .expired → (u.bank b).idle = .stopped

/-- The word of a WRITE_PART's line that its WRITE_LINE stores: the new word under a mask byte of FFh; under any other but 00h the
word whose bytes are new where the mask's bits are set and old where they are not, or a poisoned word where the old one was (R40, R118). -/
def PartStored (mask : Byte) (new : Word) (old x : CheckedWord) : Prop :=
  (mask = 0xFF ∧ x = .data new) ∨
    (mask ≠ 0 ∧ mask ≠ 0xFF ∧
      ((old = .poisoned ∧ x = .poisoned) ∨
        ∃ o d, old = .data o ∧ x = .data d ∧
          ∀ k < 8, d.extractLsb' (8 * k) 8 = if mask.getLsbD k = true then new.extractLsb' (8 * k) 8 else o.extractLsb' (8 * k) 8))

/-- A record's line access is finished: the record waits DONE with that result (R50). -/
def DoneWith (s : State) (r : Record) (now : Instant) (res : Result) : Prop :=
  ∃ x ∈ s.queue r.port, x.stamp = r.stamp ∧ x.op = r.op ∧ x.state = .done ∧ x.doneAt = some now ∧ x.result = some res

/-! ## The end of a drain (R52, R90, R94, R96, R97) -/

/-- The WATCH_ENDED notices of a recheck that takes the watch table from `w0` to `w1`, for one port: CANCELLED, in ascending order of
watch id (R74). -/
def cancelledOf (w0 w1 : Table 32 (Option Watch)) (p : Port) : List Notice :=
  (List.finRange 32).filterMap (fun i =>
    match w0.get i, w1.get i with
    | some w, none => if w.owner = p then some (.watchEnded i w.line .cancelled) else none
    | _, _ => none)

/-- The watch table was `w0` and the notice queues `nq`, and the regions of `t` have been handed on for a recheck: an entry whose line a
region covers in which its owner has rights stays, one whose line none so covers is cancelled, and online owners are told (R74). -/
structure Rechecked (w0 : Table 32 (Option Watch)) (nq : Port → NoticeQueue) (t : State) : Prop where
  kept : ∀ i w j, w0.get i = some w → Covering t (w.line.val / 64) j → (∀ k, Covering t (w.line.val / 64) k → k = j) →
    (t.region j).body.rights.get w.owner ≠ .none → t.watches.get i = some w
  cancelled : ∀ i w, w0.get i = some w →
    (∀ j, Covering t (w.line.val / 64) j → (t.region j).body.rights.get w.owner = .none) → t.watches.get i = none
  empty : ∀ i, w0.get i = none → t.watches.get i = none
  told : ∀ p, t.noticeQ p =
    if t.online p = true then (cancelledOf w0 t.watches p).foldl NoticeQueue.joined (nq p) else nq p

/-- The replacement is in force on region `g` (R94): ACTIVE or DISABLED as it says, with count 0 and no replacement pending. -/
def InForce (t : State) (g : RegionIx) (x : Replacement) : Prop :=
  t.region g = { state := if x.enable then .active else .disabled, body := x.body, inFlight := 0, replacement := none }

/-- The record is an ACTIVE REGION_SET of region `g`: it waits for the drain's end (R95). -/
def DrainsFor (g : RegionIx) (q : Record) : Prop := q.state = .active ∧ ∃ ps, q.op = .regionSet ps ∧ ps.index = g.val

/-- The record is the last that its region counts, and the region is DRAINING with `x` pending: the record's end ends the drain (R96). -/
structure EndsDrain (s : State) (r : Record) (g : RegionIx) (x : Replacement) : Prop where
  counted : r.region = some g
  draining : (s.region g).state = .draining
  last : (s.region g).inFlight ≤ 1
  pending : (s.region g).replacement = some x

/-- What the end of record `r` does between `s` and `t` besides the record itself, the watch table and the notice queues standing at `w0`
and `nq` until then: its region counts one less (R50, R90); at a drain's end the replacement is in force, the watches are rechecked and
the waiting REGION_SET is DONE with OK (R94, R96). That the answer is stated where the stamps of the two records name no other is an
invariant's part (`StampsNameRecords`). -/
structure LeftRegion (s t : State) (r : Record) (now : Instant) (w0 : Table 32 (Option Watch)) (nq : Port → NoticeQueue) :
    Prop where
  others : ∀ g, r.region ≠ some g → t.region g = s.region g
  count : ∀ g, r.region = some g → (∀ x, ¬ EndsDrain s r g x) →
    t.region g = { s.region g with inFlight := (s.region g).inFlight - 1 }
  calm : (∀ g x, ¬ EndsDrain s r g x) → t.watches = w0 ∧ ∀ p, t.noticeQ p = nq p
  force : ∀ g x, EndsDrain s r g x → InForce t g x ∧ Rechecked w0 nq t
  answered : ∀ g x q, EndsDrain s r g x → (∀ y ∈ s.records, y.stamp = r.stamp → y = r) → s.Sole q → DrainsFor g q →
    (∀ y ∈ s.records, DrainsFor g y → y = q) → DoneWith t q now ⟨.ok, .none⟩

/-- A READ_LINE of line `l` with these outcomes was its record's last access: the record leaves its region after the INTEGRITY notices of
the read (stated where AUTO_REPAIR is not 1). -/
def EndsAtRead (s t : State) (r : Record) (l : LineId) (os : List WordOutcome) (now : Instant)
    (w0 : Table 32 (Option Watch)) : Prop :=
  ∃ nq, LeftRegion s t r now w0 nq ∧ (s.settings.autoRepair ≠ 1 → ∀ f ns,
    ReadNoted l s.settings.faultThreshold s.stampCounter (allWords.zip os) s.checks.faults f ns →
      ∀ q, nq q = s.told Enables.integrity ns q)

/-- The records of a port that a teardown discards and region `g` counts: those that are WAITING or READY (R52, R90). -/
def discardedUnder (s : State) (p : Port) (g : RegionIx) : Nat :=
  ((s.queue p).filter (fun r => decide ((r.state = .waiting ∨ r.state = .ready) ∧ r.region = some g))).length

/-- The teardown of the port discards the last records that a DRAINING region counts (R97). -/
structure TeardownEnds (s : State) (p : Port) (g : RegionIx) (x : Replacement) : Prop where
  some : 0 < discardedUnder s p g
  last : (s.region g).inFlight ≤ discardedUnder s p g
  draining : (s.region g).state = .draining
  pending : (s.region g).replacement = .some x

/-! ## The watch table (R69, R70) -/

/-- The port owns watch `i`, on that line, and none of a lower id. -/
def OwnsWatch (s : State) (p : Port) (l : LineId) (i : WatchId) : Prop :=
  s.watches.get i = some ⟨p, l⟩ ∧ ∀ j, j < i → s.watches.get j ≠ some ⟨p, l⟩

/-- The watch entries of a port. -/
def watchesOf (s : State) (p : Port) : Nat :=
  ((List.finRange 32).filter (fun i => (s.watches.get i).any (fun w => decide (w.owner = p)))).length

/-- Watch `i` is the lowest id that is free. -/
def LowestFree (s : State) (i : WatchId) : Prop := s.watches.get i = none ∧ ∀ j, j < i → s.watches.get j ≠ none

/-! ## Scrub steps (R124, R126) -/

/-- A scrub step has ended between `s` and `t`: the pointer has moved on, a wrap counts a pass, and the step timer starts with the
SCRUB_INTERVAL in force, but for 0. -/
structure StepEnded (s t : State) (now : Instant) : Prop where
  step : t.scrub.step = .none
  kept : t.scrub.kept = []
  pointer : t.scrub.pointer.val = (s.scrub.pointer.val + 1) % 33554432
  passes : t.scrub.passes =
    if s.scrub.pointer.val = 33554431 ∧ s.scrub.passes < 65535 then s.scrub.passes + 1 else s.scrub.passes
  timer : t.scrub.timer = if s.settings.scrubInterval = 0 then none else some (now + us s.settings.scrubInterval)

/-! ## The arbiter's candidates (R43 to R49, Table 18) -/

/-- At least `n` has passed since an instant, if there was one (R5). -/
def State.Past (s : State) (t : Option Instant) (n : Nat) : Prop := ∀ i, t = some i → i + n ≤ s.now

/-- No ACTIVE request record is on the bank (R45). -/
def NoActiveOn (s : State) (b : BankId) : Prop :=
  ∀ r ∈ s.records, r.state = .active → ∀ a n, r.op.span = some (a, n) → lineBank a ≠ b

/-- A READY record is for that row of that bank. -/
def ReadyFor (s : State) (b : BankId) (row : RowId) : Prop :=
  ∃ r ∈ s.records, r.state = .ready ∧ ∃ a n, r.op.span = some (a, n) ∧ lineBank a = b ∧ lineRow a = row

/-- A CLOSE of the bank is legal (R12). -/
structure Closable (s : State) (b : BankId) : Prop where
  opened : (s.bank b).state = .opened
  sinceOpen : s.Past (s.bank b).lastOpen (ns 32)
  sinceRead : s.Past (s.bank b).lastRead (ns 8)
  sinceWrite : s.Past (s.bank b).lastWrite (ns 15)

/-- What every OPEN of the bank needs besides the bank's state (R5, R6, R7). -/
structure OpenTimed (s : State) (b : BankId) : Prop where
  refreshing : ∀ k, groupOf k = groupOf b → (s.bank k).state ≠ .refreshing
  urgent : s.refresh.debt.get (groupOf b) ≠ 8
  spacing : ∀ k, k ≠ b → s.Past (s.bank k).lastOpen (if groupOf k = groupOf b then ns 7 else ns 5)
  window : ∀ i, 4 ≤ s.window.length → s.window.head? = some i → i + ns 30 ≤ s.now

/-- An OPEN for a record, the scrubber or the sweep is legal (R7). -/
structure Openable (s : State) (b : BankId) : Prop where
  closed : (s.bank b).state = .closed
  phase : s.repairPhase b = none
  entering : s.quiet.part ≠ .entering
  timed : OpenTimed s b

/-- The spare serves the row (R2). -/
def ServesRow (s : State) (b : BankId) (i : SpareId) (row : RowId) : Prop :=
  (((s.spares b).get i).state = .soft ∨ ((s.spares b).get i).state = .fused) ∧ ((s.spares b).get i).mapped = some row

/-- The OPEN of a row: of the spare that serves it, or of the row itself (R2). -/
inductive OpensAs (s : State) (b : BankId) (row : RowId) : ArrayCmd → Prop where
  | spare (i : SpareId) (h : ServesRow s b i row) (low : ∀ j, j < i → ¬ ServesRow s b j row) :
      OpensAs s b row (.openSpare b i row)
  | plain (h : ∀ i, ¬ ServesRow s b i row) : OpensAs s b row (.openRow b row)

/-- A line access is legal: its bank OPEN at its row, the spacings over (R5, R9); not in a bank that awaits its warm-reset close
(notes/assumptions/13.md). -/
structure Accessible (s : State) (l : LineId) (isRead : Bool) : Prop where
  opened : (s.bank (lineBank l)).state = .opened
  row : (s.bank (lineBank l)).openRow = some (lineRow l)
  reset : (s.bank (lineBank l)).resetClose = false
  spacing : ∀ k t, t = (s.bank k).lastRead ∨ t = (s.bank k).lastWrite →
    s.Past t (if groupOf k = groupOf (lineBank l) then 20 else 10)
  turnaround : isRead = true → ∀ k, s.Past (s.bank k).lastWrite (if groupOf k = groupOf (lineBank l) then 30 else 10)

/-- The command of a line access. -/
def lineCmd (isRead : Bool) (l : LineId) : ArrayCmd :=
  if isRead then .readLine (lineBank l) (lineIx l) else .writeLine (lineBank l) (lineIx l)

/-- No other holder holds the line, and no other record's merge is on it (R40, R57). -/
def FreeFor (s : State) (h : Holder) (l : LineId) : Prop :=
  (∀ e ∈ s.holds, e.line = l → e.holder = h) ∧ ∀ q ∈ s.records, q.mergesOn l = true → q.holder = h

/-- Nobody holds the line, and no merge is on it (R40, R57). -/
def Unclaimed (s : State) (l : LineId) : Prop := (∀ e ∈ s.holds, e.line ≠ l) ∧ ∀ q ∈ s.records, q.mergesOn l = false

/-- A hold on the line may be given (R55). -/
structure HoldGiven (s : State) (h : Holder) (l : LineId) : Prop where
  room : s.holds.length < 8
  unheld : ∀ e ∈ s.holds, e.line ≠ l
  untouched : ∀ q ∈ s.records, q.holder ≠ h → q.accessesLater l = false
  phase : s.repairPhase (lineBank l) = none

/-- A REFRESH_GROUP is legal (R13). -/
def Refreshable (s : State) (g : GroupId) : Prop :=
  ∀ b, groupOf b = g → (s.bank b).state = .closed ∨ (s.bank b).state = .repairing

/-- The group has the highest debt of those with the property, and the lowest number of equals. -/
structure TopGroup (s : State) (P : GroupId → Prop) (g : GroupId) : Prop where
  holds : P g
  top : ∀ k, P k → s.refresh.debt.get k < s.refresh.debt.get g ∨ s.refresh.debt.get k = s.refresh.debt.get g ∧ g ≤ k

/-- The bank has the lowest number of those with the property. -/
structure LowestBank (P : BankId → Prop) (b : BankId) : Prop where
  holds : P b
  low : ∀ k, k < b → ¬ P k

/-- A mark that forces a close in class 1 (R44). -/
def Forced (m : CloseMarks) : Prop := m.openLimit = true ∨ m.urgentRefresh = true ∨ m.retention = true

/-- The bank is to be closed in class 1: for a warm reset, or under a forced mark with no ACTIVE record on it (R21, R24, R44). -/
def ForcedClose (s : State) (b : BankId) : Prop :=
  Closable s b ∧ ((s.bank b).resetClose = true ∨ Forced (s.bank b).marks ∧ NoActiveOn s b)

/-- The quiet controller's command (R152, R157). -/
inductive QuietCommand (s : State) : ArrayCmd → Prop where
  | refresh (g : GroupId) (he : s.quiet.part = .entering)
      (h : TopGroup s (fun k => 0 < s.refresh.debt.get k ∧ Refreshable s k) g) : QuietCommand s (.refreshGroup g)
  | retain (he : s.quiet.part = .entering) (hd : ∀ g, s.refresh.debt.get g ≤ 0) (hb : ∀ b, (s.bank b).state = .closed) :
      QuietCommand s .retain
  | resume (hw : s.quiet.part = .waking) (ht : s.quiet.wakeTimer = none) (hb : ∀ b, (s.bank b).state = .retained) :
      QuietCommand s .resume

/-- The next command of the running job (R138 to R141, R145). -/
inductive JobCommand (s : State) (c : CurrentJob) : ArrayCmd → Prop where
  | leave (hp : c.phase = .wait) (hm : (s.bank c.job.bank).marks.repair = true) (ha : NoActiveOn s c.job.bank)
      (hc : Closable s c.job.bank) : JobCommand s c (.close c.job.bank)
  | openOut (cmd : ArrayCmd) (hp : c.phase = .copyOut) (hb : (s.bank c.job.bank).state = .repairing) (hl : c.linesRead < 32)
      (ht : OpenTimed s c.job.bank) (ho : OpensAs s c.job.bank c.job.row cmd) : JobCommand s c cmd
  | read (i : LineIx) (hp : c.phase = .copyOut) (hm : ¬ Forced (s.bank c.job.bank).marks) (hi : i.val = c.linesRead)
      (ha : Accessible s (mkLine c.job.row c.job.bank i) true) (hf : Unclaimed s (mkLine c.job.row c.job.bank i)) :
      JobCommand s c (.readLine c.job.bank i)
  | closeOut (hp : c.phase = .copyOut) (hm : ¬ Forced (s.bank c.job.bank).marks) (hr : (s.bank c.job.bank).resetClose = false)
      (hl : 32 ≤ c.linesRead) (hc : Closable s c.job.bank) : JobCommand s c (.close c.job.bank)
  | program (hp : c.phase = .copyOut) (hb : (s.bank c.job.bank).state = .repairing) (hl : 32 ≤ c.linesRead) :
      JobCommand s c (match c.job.mode with
        | .soft => .programSoft c.job.bank c.chosen
        | .fused => .programFuse c.job.bank c.chosen)
  | openIn (hp : c.phase = .copyIn) (hb : (s.bank c.job.bank).state = .repairing) (ht : OpenTimed s c.job.bank) :
      JobCommand s c (.openSpare c.job.bank c.chosen c.job.row)
  | write (i : LineIx) (hp : c.phase = .copyIn) (hm : ¬ Forced (s.bank c.job.bank).marks) (hi : i.val = c.linesWritten)
      (ha : Accessible s (mkLine c.job.row c.job.bank i) false) (hf : Unclaimed s (mkLine c.job.row c.job.bank i)) :
      JobCommand s c (.writeLine c.job.bank i)
  | closeIn (hp : c.phase = .copyIn) (hm : ¬ Forced (s.bank c.job.bank).marks) (hr : (s.bank c.job.bank).resetClose = false)
      (hl : 32 ≤ c.linesWritten) (hc : Closable s c.job.bank) : JobCommand s c (.close c.job.bank)

/-- The kinds that read first: READ, WATCH, the atomics, and a WRITE_PART whose mask covers a word in part (R39, R40, R59). -/
def ReadsFirst (o : ReqOp) : Prop :=
  (∃ a n, o = .read a n) ∨ (∃ a, o = .watch a) ∨ Atomic o ∨
    ∃ a mask data, o = .writePart a mask data ∧ ∃ b ∈ mask, b ≠ 0 ∧ b ≠ 0xFF

/-- The record's next line access, and whether it reads (R39, R40, R59). -/
inductive NextLine (r : Record) : Bool → LineId → Prop where
  | first (a : LineId) (n : Nat) (isRead : Bool) (hs : r.state = .ready) (hp : r.op.span = some (a, n))
      (hr : isRead = true ↔ ReadsFirst r.op) : NextLine r isRead a
  | read (a : Addr) (n : Nat) (l : LineId) (hs : r.state = .active) (ho : r.op = .read a n) (hn : r.linesDone < n)
      (hl : l.val = ((addrLine a).val + r.linesDone) % 33554432) : NextLine r true l
  | write (a : Addr) (n : Nat) (data : List Word) (l : LineId) (hs : r.state = .active) (ho : r.op = .write a n data)
      (hn : r.linesDone < n) (hl : l.val = ((addrLine a).val + r.linesDone) % 33554432) : NextLine r false l
  | second (a : LineId) (n : Nat) (hs : r.state = .active) (hp : r.op.span = some (a, n))
      (ho : Atomic r.op ∨ ∃ x mask data, r.op = .writePart x mask data) : NextLine r false a

/-- The record's next line access is legal, and this is its command (R9, R40, R57). -/
def RecordOffer (s : State) (r : Record) (cmd : ArrayCmd) : Prop :=
  ∃ isRead l, NextLine r isRead l ∧ Accessible s l isRead ∧ FreeFor s r.holder l ∧ cmd = lineCmd isRead l

/-- A hit of the record on the bank's row is barred (R46). -/
def Barred (s : State) (r : Record) (b : BankId) (row : RowId) : Prop :=
  ∃ q ∈ s.records, q.state = .ready ∧ q.stamp < r.stamp ∧ (q.aged = true ∨ (s.bank b).streak = 8) ∧
    ∃ a n, q.op.span = some (a, n) ∧ lineBank a = b ∧ lineRow a ≠ row

/-- The first access of a READY record is a hit that is not barred; a marked bank withholds it, and an atomic needs its hold
(R21, R46, R55, R56). -/
structure HitOffer (s : State) (r : Record) (cmd : ArrayCmd) : Prop where
  ready : r.state = .ready
  offer : RecordOffer s r cmd
  place : ∃ l n, r.op.span = some (l, n) ∧ (s.bank (lineBank l)).marks = ⟨false, false, false, false⟩ ∧
    ¬ Barred s r (lineBank l) (lineRow l) ∧ (Atomic r.op → HoldGiven s r.holder l)

/-- The OPEN or the CLOSE that a READY record asks for (R47). -/
inductive RowOffer (s : State) (r : Record) : ArrayCmd → Prop where
  | opens (l : LineId) (n : Nat) (cmd : ArrayCmd) (hr : r.state = .ready) (hp : r.op.span = some (l, n))
      (ho : Openable s (lineBank l)) (hc : OpensAs s (lineBank l) (lineRow l) cmd) : RowOffer s r cmd
  | closes (l : LineId) (n : Nat) (row : RowId) (hr : r.state = .ready) (hp : r.op.span = some (l, n))
      (hc : Closable s (lineBank l)) (hrow : (s.bank (lineBank l)).openRow = some row) (hne : row ≠ lineRow l)
      (hph : s.repairPhase (lineBank l) = none) (ha : NoActiveOn s (lineBank l))
      (hw : ¬ ReadyFor s (lineBank l) row ∨ (s.bank (lineBank l)).streak = 8 ∨ r.aged = true) :
      RowOffer s r (.close (lineBank l))

/-- Record `r` ranks before record `q`: aged records first, then the oldest (R46, R47). -/
def RanksBefore (r q : Record) : Prop := (r.aged = true ∧ q.aged = false) ∨ (r.aged = q.aged ∧ r.stamp < q.stamp)

/-- A bank that a due refresh of its group closes (R48). -/
structure DueClose (s : State) (g : GroupId) (b : BankId) : Prop where
  group : groupOf b = g
  phase : s.repairPhase b = none
  active : NoActiveOn s b
  row : ∃ row, (s.bank b).openRow = some row ∧ ¬ ReadyFor s b row
  legal : Closable s b

/-- The command of a due refresh (R48). -/
inductive DueCommand (s : State) (g : GroupId) : ArrayCmd → Prop where
  | close (b : BankId) (h : LowestBank (DueClose s g) b) : DueCommand s g (.close b)
  | refresh (h : Refreshable s g) : DueCommand s g (.refreshGroup g)

/-- A group for an idle refresh (R48). -/
structure IdleGroup (s : State) (g : GroupId) : Prop where
  debt : 1 ≤ s.refresh.debt.get g ∧ s.refresh.debt.get g ≤ 3
  unwanted : ∀ r ∈ s.records, r.state = .ready ∨ r.state = .active → ∀ a n, r.op.span = some (a, n) → groupOf (lineBank a) ≠ g
  legal : Refreshable s g

/-- The OPEN of the scrub line's row, or its line access in an OPEN bank with no close marks (R65, R125). -/
inductive ScrubAccess (s : State) (isRead : Bool) : ArrayCmd → Prop where
  | opens (cmd : ArrayCmd) (ho : Openable s (lineBank s.scrub.pointer))
      (hc : OpensAs s (lineBank s.scrub.pointer) (lineRow s.scrub.pointer) cmd) : ScrubAccess s isRead cmd
  | access (hm : (s.bank (lineBank s.scrub.pointer)).marks = ⟨false, false, false, false⟩)
      (hp : s.repairPhase (lineBank s.scrub.pointer) = none) (ha : Accessible s s.scrub.pointer isRead)
      (hf : FreeFor s .scrubber s.scrub.pointer) : ScrubAccess s isRead (lineCmd isRead s.scrub.pointer)

/-- The scrubber's command for its current step (R125). -/
inductive ScrubCommand (s : State) : ArrayCmd → Prop where
  | started (cmd : ArrayCmd) (h : s.scrub.step = .started) (ha : ScrubAccess s true cmd) : ScrubCommand s cmd
  | pending (cmd : ArrayCmd) (h : s.scrub.step = .pending) (hg : HoldGiven s .scrubber s.scrub.pointer)
      (ha : ScrubAccess s true cmd) : ScrubCommand s cmd
  | holding (cmd : ArrayCmd) (h : s.scrub.step = .holding) (ha : ScrubAccess s false cmd) : ScrubCommand s cmd

/-- The bank is open at a row of which the sweep has written every line (R128). -/
def SweptClose (s : State) (b : BankId) : Prop :=
  Closable s b ∧ ∃ row, (s.bank b).openRow = some row ∧ (mkLine row b 31).val < s.scrub.sweepAt

/-- The sweep's command (R128): its CLOSE before its write, its write before its OPEN. -/
inductive SweepCommand (s : State) : ArrayCmd → Prop where
  | close (b : BankId) (h : LowestBank (SweptClose s) b) : SweepCommand s (.close b)
  | write (l : LineId) (hn : ∀ b, ¬ SweptClose s b) (hl : l.val = s.scrub.sweepAt) (ha : Accessible s l false)
      (hf : Unclaimed s l) : SweepCommand s (.writeLine (lineBank l) (lineIx l))
  | opens (l : LineId) (cmd : ArrayCmd) (hn : ∀ b, ¬ SweptClose s b) (hl : l.val = s.scrub.sweepAt)
      (ho : Openable s (lineBank l))
      (h2 : ∀ b k, (s.bank b).openRow.isSome = true → (s.bank k).openRow.isSome = true → b = k)
      (hc : OpensAs s (lineBank l) (lineRow l) cmd) : SweepCommand s cmd

/-- A bank for an idle close (R49). -/
structure IdleClose (s : State) (b : BankId) : Prop where
  expired : (s.bank b).idle = .expired
  phase : s.repairPhase b = none
  active : NoActiveOn s b
  legal : Closable s b

/-- The first of the legal commands of each class of Table 18, by the class's own rule. -/
inductive Candidate (s : State) : Nat → Grant → Prop where
  | forced (b : BankId) (h : LowestBank (ForcedClose s) b) : Candidate s 1 ⟨.close b, .upkeep⟩
  | quiet (cmd : ArrayCmd) (hn : ∀ b, ¬ ForcedClose s b) (h : QuietCommand s cmd) : Candidate s 1 ⟨cmd, .upkeep⟩
  | urgent (g : GroupId) (hd : s.refresh.debt.get g = 8) (h : Refreshable s g)
      (first : ∀ k, s.refresh.debt.get k = 8 → Refreshable s k →
        (s.refresh.urgentAt.get g).getD 0 < (s.refresh.urgentAt.get k).getD 0 ∨
          (s.refresh.urgentAt.get g).getD 0 = (s.refresh.urgentAt.get k).getD 0 ∧ g ≤ k) :
      Candidate s 2 ⟨.refreshGroup g, .upkeep⟩
  | job (c : CurrentJob) (cmd : ArrayCmd) (hc : s.currentJob = some c) (h : JobCommand s c cmd) : Candidate s 3 ⟨cmd, .repair⟩
  | active (r : Record) (cmd : ArrayCmd) (hr : r ∈ s.records) (ha : r.state = .active) (h : RecordOffer s r cmd)
      (oldest : ∀ q ∈ s.records, q.state = .active → ∀ d, RecordOffer s q d → ¬ q.stamp < r.stamp) :
      Candidate s 4 ⟨cmd, .request r⟩
  | hit (r : Record) (cmd : ArrayCmd) (hr : r ∈ s.records) (h : HitOffer s r cmd)
      (best : ∀ q ∈ s.records, ∀ d, HitOffer s q d → ¬ RanksBefore q r) : Candidate s 5 ⟨cmd, .request r⟩
  | row (r : Record) (cmd : ArrayCmd) (hr : r ∈ s.records) (h : RowOffer s r cmd)
      (best : ∀ q ∈ s.records, ∀ d, RowOffer s q d → ¬ RanksBefore q r) : Candidate s 6 ⟨cmd, .upkeep⟩
  | due (g : GroupId) (cmd : ArrayCmd)
      (h : TopGroup s (fun k => 4 ≤ s.refresh.debt.get k ∧ s.refresh.debt.get k ≤ 7 ∧ ∃ d, DueCommand s k d) g)
      (hc : DueCommand s g cmd) : Candidate s 7 ⟨cmd, .upkeep⟩
  | idle (g : GroupId) (h : TopGroup s (IdleGroup s) g) : Candidate s 8 ⟨.refreshGroup g, .upkeep⟩
  | pullIn (g : GroupId) (hn : ∀ k, ¬ IdleGroup s k) (hr : s.records = [])
      (h : TopGroup s (fun k => -8 < s.refresh.debt.get k ∧ s.refresh.debt.get k ≤ 0 ∧ Refreshable s k) g) :
      Candidate s 8 ⟨.refreshGroup g, .upkeep⟩
  | scrub (cmd : ArrayCmd) (hd : s.scrub.sweepDone = true) (hq : s.quiet.part ≠ .retained ∧ s.quiet.part ≠ .waking)
      (h : ScrubCommand s cmd) : Candidate s 9 ⟨cmd, .scrubber⟩
  | sweep (cmd : ArrayCmd) (hd : s.scrub.sweepDone = false) (hr : ∀ b, (s.bank b).resetClose = false)
      (h : SweepCommand s cmd) : Candidate s 9 ⟨cmd, .sweep⟩
  | idleClose (b : BankId) (h : LowestBank (IdleClose s) b) : Candidate s 10 ⟨.close b, .upkeep⟩

end Sys2Proof.Machine
end

