-- ==== Sys2Proof/Certificates/Slice0/Obligations.lean ====
section
/-! DEFINITION. The statements for the provers. -/

open Sys2Proof Sys2Proof.Machine

/-! ## Steps and time -/

/-- A step takes the command at the front of the queue and runs it on the state with the queue's rest; on an empty queue the part idles
(the model's choice, notes/assumptions/1.md). -/
def Obligations.StepRunsFrontCommand : Prop :=
  (∀ (c : Instr) (rest : List Instr) (s : State), s.pending = c :: rest → step s = exec c { s with pending := rest }) ∧
  (∀ s : State, s.pending = [] → step s = .next s)

/-- Time passes before a command by at most `dt`, never backwards, and never past an expiry that has not been taken; not at all while the
arbiter or a transmitter has something to do; and else by all of `dt`, or up to the first expiry or the first end of an interval or of
a packet that gives the arbiter or a transmitter something to do (notes/assumptions/2.md); nothing else changes. -/
def Obligations.TimePassesToAnInstant : Prop :=
  ∀ (s : State) (dt : Nat),
    (∃ n, s.passTime dt = s.atInstant n ∧ s.now ≤ n ∧ n ≤ s.now + dt ∧ ∀ d ∈ s.deadlines, s.now ≤ d → n ≤ d) ∧
    (s.busyNow = true → s.passTime dt = s) ∧
    (s.busyNow = false → ∀ n, s.now ≤ n → n ≤ s.now + dt → (∀ d ∈ s.deadlines, n ≤ d) →
      (∀ t ∈ s.intervalEnds ++ s.sendEnds, s.now < t → t < n → (s.atInstant t).busyNow = false) →
      (n = s.now + dt ∨ n ∈ s.deadlines ∨
        (s.now < n ∧ n ∈ s.intervalEnds ++ s.sendEnds ∧ (s.atInstant n).busyNow = true)) →
      s.passTime dt = s.atInstant n)

/-- PATH_OCCUPANCY_EXPIRY frees the path when its occupancy has ended. TIMING_INTERVAL_EXPIRY lets time pass to the first later end of an
interval of Table 10, if `dt` reaches it and nothing earlier stops the time (notes/assumptions/2.md); it passes by `dt` as before any
command if `dt` does not reach one; and it changes nothing else. -/
def Obligations.PathAndIntervalExpiries : Prop :=
  (∀ dt s, (s.passTime dt).reached (s.passTime dt).pathBusy = true →
    exec (.pathOccupancyExpiry dt) s = .next { s.passTime dt with pathBusy := none }) ∧
  (∀ dt s, ∃ n, exec (.timingIntervalExpiry dt) s = .next (s.atInstant n) ∧ s.now ≤ n ∧ n ≤ s.now + dt ∧
    ∀ e ∈ s.intervalEnds, s.now < e → n ≤ e) ∧
  (∀ dt n s, s.busyNow = false → n ∈ s.intervalEnds → s.now < n → n ≤ s.now + dt →
    (∀ e ∈ s.intervalEnds, s.now < e → n ≤ e) → (∀ d ∈ s.deadlines, n ≤ d) →
    (∀ t ∈ s.sendEnds, s.now < t → t < n → (s.atInstant t).busyNow = false) →
    exec (.timingIntervalExpiry dt) s = .next (s.atInstant n)) ∧
  (∀ dt s, (∀ e ∈ s.intervalEnds, s.now < e → s.now + dt ≤ e) →
    exec (.timingIntervalExpiry dt) s = .next (s.passTime dt))

/-! ## Resets and pins -/

/-- COLD_RESET sets every block to its reset values and keeps the fused spares and the waiting commands. That the pins keep their levels is
the model's own choice (notes/assumptions/4.md). The memory's cells reading 00h (notes/assumptions/5.md) and the idle transmitters
(notes/assumptions/7.md) are the model's choices too and are not stated. -/
def Obligations.ColdResetSetsEveryBlock : Prop :=
  ∀ dt s, ∃ t, exec (.coldReset dt) s = .next t ∧ t.now = (s.passTime dt).now ∧ t.pending = s.pending ∧
    t.resetN = s.resetN ∧ t.hotPin = s.hotPin ∧
    (∀ b, t.bank b =
      { state := .closed, openRow := none, servedBy := none, streak := 0, firstStart := false, lastOpen := none,
        lastRead := none, lastWrite := none, lastClose := none, lastRefresh := none, idle := .stopped,
        openAge := .stopped, marks := ⟨false, false, false, false⟩, resetClose := false, idleReset := false }) ∧
    t.window = [] ∧ t.pathBusy = none ∧ t.stampCounter = 0 ∧ (∀ p, t.queue p = []) ∧ t.detached = [] ∧ t.holds = [] ∧
    (∀ i, t.watches.get i = none) ∧ (∀ p, t.noticeQ p = ⟨[], 0, ⟨true, true, true, true⟩⟩) ∧
    t.region 0 = ⟨.active, ⟨0, 524287, ⟨.readWrite, .readWrite, .readWrite⟩, true, true, true⟩, 0, none⟩ ∧
    (∀ i, i ≠ 0 → t.region i = ⟨.disabled, ⟨0, 0, ⟨.none, .none, .none⟩, false, false, false⟩, 0, none⟩) ∧
    (∀ g, t.refresh.debt.get g = 0 ∧ t.refresh.urgentAt.get g = none ∧ t.refresh.missed.get g = 0) ∧
    t.refresh.rotation = 0 ∧ t.refresh.quarter = some (t.now + if s.hotPin then ns 500 else ns 1000) ∧
    t.checks.corrected = 0 ∧ t.checks.uncorrectable = 0 ∧ (∀ i, t.checks.faults.get i = none) ∧
    t.scrub = ⟨0, 0, none, .none, [], false, 0⟩ ∧ t.repairQueue = [] ∧ t.currentJob = none ∧ t.repairBuffer = [] ∧
    (∀ b i, (t.spares b).get i =
      if ((s.spares b).get i).state = .fused ∨ ((s.spares b).get i).state = .retiredFused then (s.spares b).get i
      else ⟨.free, none⟩) ∧
    t.quiet = ⟨.active, ⟨none, none, none⟩, none, none, none⟩ ∧
    (∀ p, t.link p =
      { state := .down, expected := 0, nakOutstanding := false, nakDue := false, sendSeq := 0, replay := [],
        replayAt := none, initPending := false, refusals := [], ackTimer := .stopped, keepalive := .stopped,
        silence := none, training := none, errors := ⟨0, 0, 0, 0⟩, transmitter := (t.link p).transmitter }) ∧
    t.claim = ⟨none, none⟩ ∧ t.settings = ⟨500, 4, 0, 8, 4, 0, 100⟩

/-- WARM_RESET: records, holds, watches, notices, regions, counts, claim and settings return to their reset values, every link goes
DOWN, and an open bank is marked for the part's own close, its idle timer STOPPED; the array, the remap table, the activation window
and the last-command instants are kept. A job in fused PROGRAM or COPY_IN goes on without requesters, any other is abandoned and its
REPAIRING bank CLOSED; the rotation starts anew at G0, its quarter timer unless the part is RETAINED or WAKING, and the step timer
too if the sweep is FINISHED; a RETAINED or WAKING part is WAKING, any other ACTIVE. That the idle timer of a bank OPEN at the reset stays
STOPPED, though its records are discarded, until a later start (`idleReset`; R24 against R19) is the model's choice
(notes/assumptions/13.md). -/
def Obligations.WarmResetActsOnEveryBlock : Prop :=
  ∀ dt s, (s.passTime dt).resetN = true → ∃ t, exec (.warmReset dt) s = .next t ∧ t.resetN = false ∧
    t.now = (s.passTime dt).now ∧ t.pending = s.pending ∧ t.hotPin = s.hotPin ∧
    t.mem = s.mem ∧ t.remap = s.remap ∧ t.window = s.window ∧ t.pathBusy = s.pathBusy ∧ t.stampCounter = 0 ∧
    (∀ p, t.queue p = []) ∧ t.detached = [] ∧ t.holds = [] ∧ (∀ i, t.watches.get i = none) ∧
    (∀ p, t.noticeQ p = ⟨[], 0, ⟨true, true, true, true⟩⟩) ∧
    t.region 0 = ⟨.active, ⟨0, 524287, ⟨.readWrite, .readWrite, .readWrite⟩, true, true, true⟩, 0, none⟩ ∧
    (∀ i, i ≠ 0 → t.region i = ⟨.disabled, ⟨0, 0, ⟨.none, .none, .none⟩, false, false, false⟩, 0, none⟩) ∧
    (∀ b, t.bank b = { s.bank b with
      state := (t.bank b).state, streak := 0, firstStart := false, idle := .stopped, openAge := .stopped
      marks := ⟨false, false, false, false⟩
      resetClose := decide ((s.bank b).state = .opening ∨ (s.bank b).state = .opened)
      idleReset := decide ((s.bank b).state = .opened) }) ∧
    (s.currentJob = none → t.currentJob = none ∧ ∀ b, (t.bank b).state = (s.bank b).state) ∧
    (∀ c, s.currentJob = some c → c.phase = .copyIn ∨ (c.phase = .program ∧ c.job.mode = .fused) →
      t.currentJob = some { c with job := { c.job with requesters := [] } } ∧ ∀ b, (t.bank b).state = (s.bank b).state) ∧
    (∀ c, s.currentJob = some c → ¬ (c.phase = .copyIn ∨ (c.phase = .program ∧ c.job.mode = .fused)) →
      t.currentJob = none ∧ ∀ b, (t.bank b).state =
        if c.job.bank = b ∧ (s.bank b).state = .repairing then .closed else (s.bank b).state) ∧
    (∀ g, t.refresh.debt.get g = 0 ∧ t.refresh.urgentAt.get g = none ∧ t.refresh.missed.get g = 0) ∧
    t.refresh.rotation = 0 ∧
    (t.refresh.quarter = if s.quiet.part = .retained ∨ s.quiet.part = .waking then none
      else some (t.now + if s.hotPin then ns 500 else ns 1000)) ∧
    t.checks.corrected = 0 ∧ t.checks.uncorrectable = 0 ∧ (∀ i, t.checks.faults.get i = none) ∧
    (t.scrub = { pointer := 0, passes := 0, step := .none, kept := [], sweepAt := s.scrub.sweepAt
                 sweepDone := s.scrub.sweepDone
                 timer := if s.scrub.sweepDone = true ∧ ¬ (s.quiet.part = .retained ∨ s.quiet.part = .waking)
                   then some (t.now + us 8) else none }) ∧
    t.repairQueue = [] ∧ t.repairBuffer = [] ∧
    t.quiet = ⟨if s.quiet.part = .retained ∨ s.quiet.part = .waking then .waking else .active, ⟨none, none, none⟩, none,
      s.quiet.wakeTimer, none⟩ ∧
    (∀ p, t.link p =
      { state := .down, expected := (s.link p).expected, nakOutstanding := false, nakDue := false
        sendSeq := (s.link p).sendSeq, replay := [], replayAt := none, initPending := false, refusals := []
        ackTimer := .stopped, keepalive := .stopped, silence := none, training := none, errors := ⟨0, 0, 0, 0⟩
        transmitter := (t.link p).transmitter }) ∧
    t.claim = ⟨none, none⟩ ∧ t.settings = ⟨500, 4, 0, 8, 4, 0, 100⟩

/-- RESET_N_RISE is an event at the quiet controller: the pin is high, and an ACTIVE part whose seven settling conditions hold (`Settles`)
begins SETTLING with QUIET_HOLD as its length, or, QUIET_HOLD being 0, enters ENTERING at once with the mark RETENTION on its open banks;
a SETTLING or ENTERING part whose conditions hold stays so, and one whose conditions do not is ACTIVE; a RETAINED or WAKING one stays. A
warm reset's close that is still to come does not hold SETTLING back (notes/assumptions/28.md). HOT_PIN_CHANGE sets the pin; the
effective hot mode is HOT when HOT_MODE is 1 or the pin is high, and the running quarter keeps its length. -/
def Obligations.PinsActOnTheirBlocks : Prop :=
  (∀ dt s, (s.passTime dt).resetN = false → ∃ t : State, exec (.resetNRise dt) s = .next t ∧ t.resetN = true ∧
    (∃ q bs, t = { s.passTime dt with resetN := true, quiet := q, banks := bs }) ∧
    (s.quiet.part = .retained ∨ s.quiet.part = .waking → t = { s.passTime dt with resetN := true }) ∧
    (Settles { s.passTime dt with resetN := true } →
      (s.quiet.part = .settling ∨ s.quiet.part = .entering → t = { s.passTime dt with resetN := true }) ∧
      (s.quiet.part = .active → s.settings.quietHold ≠ 0 → t = { s.passTime dt with
        resetN := true
        quiet := { s.quiet with part := .settling, holdTimer := some ((s.passTime dt).now + us s.settings.quietHold) } }) ∧
      (s.quiet.part = .active → s.settings.quietHold = 0 →
        t.quiet = { s.quiet with part := .entering, holdTimer := none } ∧
        ∀ b, t.bank b = if (s.bank b).state = .opening ∨ (s.bank b).state = .opened then
          { s.bank b with marks := { (s.bank b).marks with retention := true } } else s.bank b)) ∧
    (¬ Settles { s.passTime dt with resetN := true } →
      (s.quiet.part = .active → t = { s.passTime dt with resetN := true }) ∧
      (s.quiet.part = .settling → t = { s.passTime dt with
        resetN := true, quiet := { s.quiet with part := .active, holdTimer := none } }) ∧
      (s.quiet.part = .entering → t.quiet = { s.quiet with part := .active } ∧
        ∀ b, t.bank b = { s.bank b with marks := { (s.bank b).marks with retention := false } }))) ∧
  (∀ dt level s, exec (.hotPinChange dt level) s = .next { s.passTime dt with hotPin := level } ∧
    (({ s.passTime dt with hotPin := level } : State).hot = true ↔ s.settings.hotMode = 1 ∨ level = true))

/-! ## The links -/

/-- A DOWN link begins training while RESET_N is high; a TRAINING link goes UP with its sequences at 0, INIT pending, the keepalive and
silence timers started and the vote AWAKE; it goes DOWN, its flags no, its buffers empty, its timers STOPPED and its sequences and counts
kept, at the end of the training timer or at a loss of signal. -/
def Obligations.LinkTrainingMoves : Prop :=
  (∀ dt p s, ((s.passTime dt).link p).state = .down → (s.passTime dt).resetN = true →
    exec (.trainingStart dt p) s = .next ((s.passTime dt).setLink p
      { (s.passTime dt).link p with state := .training, training := some ((s.passTime dt).now + ms 1) })) ∧
  (∀ dt p s, ((s.passTime dt).link p).state = .training → ∃ t, exec (.trainingComplete dt p) s = .next t ∧
    (t.link p).state = .up ∧ (t.link p).expected = 0 ∧ (t.link p).sendSeq = 0 ∧ (t.link p).nakOutstanding = false ∧
    (t.link p).nakDue = false ∧ (t.link p).initPending = true ∧ (t.link p).replay = [] ∧ (t.link p).refusals = [] ∧
    (t.link p).replayAt = none ∧ (t.link p).ackTimer = .stopped ∧ (t.link p).training = none ∧
    (t.link p).keepalive = .running (t.now + us 100) ∧ (t.link p).silence = some (t.now + ms 1) ∧
    t.vote p = some .awake ∧ (∀ q, q ≠ p → t.link q = s.link q ∧ t.vote q = s.vote q) ∧ t.mem = s.mem ∧
    (s.quiet.part = .retained → t.quiet.part = .waking ∧
      t.quiet.wakeRecord = s.quiet.wakeRecord.or (some (.portOnline, p))) ∧
    (s.quiet.part = .settling ∨ s.quiet.part = .entering → t.quiet.part = .active)) ∧
  (∀ (c : Instr) dt p s, (s.link p).state = .training →
    (c = .trainingTimeout dt p ∧ (s.passTime dt).reached (s.link p).training = true ∨ c = .signalLoss dt p) →
    ∃ l : Link, exec c s = .next ((s.passTime dt).setLink p l) ∧
      l = { s.link p with
        state := .down, nakOutstanding := false, nakDue := false, replay := [], replayAt := none, initPending := false
        refusals := [], ackTimer := .stopped, keepalive := .stopped, silence := none, training := none
        transmitter := l.transmitter })

/-- An UP link that loses its signal, falls silent for 1 ms or receives a RESET packet goes DOWN and its port is torn down: no record,
no notice, no packet to replay, no refusal, no vote, no watch, no claim and no place in a repair job is left to it; its link drop is
counted, and its ACTIVE records with lines become detached. Its WAITING and READY records are discarded, and each region counts so many
fewer as it counted of them; where they were the last that a DRAINING region counts, the drain ends: the replacement is in force, a
REGION_SET of another port that waited for it is DONE with OK, and the watches are rechecked. Where several drains end at one teardown,
the order of their notices is the model's choice (notes/assumptions/10.md) and is not stated. At the quiet controller the loss of the port
and its vote ends SETTLING, and abandons ENTERING with the RETENTION marks withdrawn; where no control record of another port waits, the
settling conditions are then evaluated with the votes that are left (`QuietReviewed`, that a pending warm-reset close does not count being
notes/assumptions/28.md), so that SETTLING begins anew where they hold. The premise is the invariant `PortsConsistent`; `u` is the state
before the blocks are evaluated anew. -/
def Obligations.LinkLossTearsDown : Prop :=
  ∀ (c : Instr) (dt : Nat) (p : Port) (s : State), PortsConsistent s → s.online p = true →
    (c = .signalLoss dt p ∨ c = .resetPacket dt p ∨
      (c = .silenceTimeout dt p ∧ (s.passTime dt).reached (s.link p).silence = true)) →
    ∃ t u : State, exec c s = .next t ∧ t = u.settle ∧ (t.link p).state = .down ∧ PortIdle t p ∧
      (t.link p).expected = (s.link p).expected ∧ (t.link p).sendSeq = (s.link p).sendSeq ∧
      (∀ i w, t.watches.get i = some w → w.owner ≠ p) ∧ t.claim.holder ≠ some p ∧
      (∀ j ∈ t.repairQueue, ∀ q ∈ j.requesters, q.port ≠ p) ∧
      (∀ j, t.currentJob = some j → ∀ q ∈ j.job.requesters, q.port ≠ p) ∧
      (∀ q, q ≠ p → (t.link q).state = (s.link q).state ∧ (t.link q).replay = (s.link q).replay) ∧
      t.mem = s.mem ∧ t.remap = s.remap ∧
      (u.link p = { s.link p with
        state := .down, nakOutstanding := false, nakDue := false, replay := [], replayAt := none, initPending := false
        refusals := [], ackTimer := .stopped, keepalive := .stopped, silence := none, training := none
        transmitter := (u.link p).transmitter
        errors := { (s.link p).errors with
          linkDrops := if (s.link p).errors.linkDrops < 65535 then (s.link p).errors.linkDrops + 1
                       else (s.link p).errors.linkDrops } }) ∧
      (∀ q, q ≠ p → u.link q = s.link q) ∧
      u.quiet = { s.quiet with
        part := if s.quiet.part = .settling ∨ s.quiet.part = .entering then .active else s.quiet.part
        votes := s.quiet.votes.set p none
        holdTimer := if s.quiet.part = .settling then none else s.quiet.holdTimer } ∧
      (s.quiet.part = .entering → ∀ b, (u.bank b).marks.retention = false) ∧
      ((∀ q, q ≠ p → ∀ x ∈ s.queue q, x.op.span = none → x.state = .active ∨ x.state = .done) → QuietReviewed u t) ∧
      (u.detached.map (fun r => (r.port, r.stamp, r.op)) =
        (s.detached ++ (s.queue p).filter (fun r => decide (r.state = .active) && r.op.span.isSome)).map
          (fun r => (r.port, r.stamp, r.op))) ∧
      (∀ g, (∀ x, ¬ TeardownEnds s p g x) →
        u.region g = { s.region g with inFlight := (s.region g).inFlight - discardedUnder s p g }) ∧
      (∀ g x, TeardownEnds s p g x → InForce u g x ∧
        ∀ q, q.port ≠ p → s.Sole q → DrainsFor g q → (∀ y ∈ s.records, DrainsFor g y → y = q) →
          DoneWith u q (s.passTime dt).now ⟨.ok, .none⟩) ∧
      (∀ w0 : Table 32 (Option Watch),
        (∀ i w, w0.get i = some w ↔ s.watches.get i = some w ∧ w.owner ≠ p) →
        ((∀ g x, ¬ TeardownEnds s p g x) → u.watches = w0 ∧ ∀ q, q ≠ p → u.noticeQ q = s.noticeQ q) ∧
        (∀ g x, TeardownEnds s p g x → (∀ k y, TeardownEnds s p k y → k = g) →
          Rechecked w0 (fun q => if q = p then NoticeQueue.reset else s.noticeQ q) u) ∧
        (∀ g x, TeardownEnds s p g x → ∀ i w, w0.get i = some w →
          (∀ j, Covering u (w.line.val / 64) j → (u.region j).body.rights.get w.owner = .none) → u.watches.get i = none) ∧
        (RegionsApart s → ∀ i w j k, w0.get i = some w → Covering s (w.line.val / 64) j →
          (s.region j).body.rights.get w.owner ≠ .none → Covering u (w.line.val / 64) k →
          (u.region k).body.rights.get w.owner ≠ .none → u.watches.get i = some w))

/-- Packets that carry no admitted request: a bad check is counted as a check failure; a REQUEST out of sequence, one whose refusal finds
the refusal list full, and a packet of a kind the master does not send as a sequence discard, each with one NAK a gap; an IDLE restarts
the silence timer and no more. -/
def Obligations.DiscardedPacketsAreCounted : Prop :=
  (∀ dt p s, s.online p = true →
    exec (.badCheckPacket dt p) s = .next ((s.passTime dt).setLink p { s.link p with
      errors := { (s.link p).errors with
        checkFailures := if (s.link p).errors.checkFailures < 65535 then (s.link p).errors.checkFailures + 1
                         else (s.link p).errors.checkFailures }
      nakDue := (s.link p).nakDue || !(s.link p).nakOutstanding
      nakOutstanding := true })) ∧
  (∀ (c : Instr) dt p k (r : Request) s, s.online p = true →
    (c = .requestDiscard dt p k r ∧ (r.seq ≠ (s.link p).expected ∨ 16 ≤ (s.link p).refusals.length ∧
        (isRequestKind k = false ∨ ∃ kind st, k = Kind.code kind ∧ Refused s p kind r st ∧
          (r.posted = false ∨ (kind ≠ .write ∧ kind ≠ .writePart)))) ∨
      c = .otherKindDiscard dt p k ∧ k ≠ 1 ∧ k ≠ 5 ∧ k ≠ 6 ∧ k ≠ 7 ∧ k ≠ 8) →
    exec c s = .next ((s.passTime dt).setLink p { s.link p with
      silence := some ((s.passTime dt).now + ms 1)
      errors := { (s.link p).errors with
        seqDiscards := if (s.link p).errors.seqDiscards < 65535 then (s.link p).errors.seqDiscards + 1
                       else (s.link p).errors.seqDiscards }
      nakDue := (s.link p).nakDue || !(s.link p).nakOutstanding
      nakOutstanding := true })) ∧
  (∀ dt p s, s.online p = true →
    exec (.idleReceived dt p) s = .next ((s.passTime dt).setLink p
      { s.link p with silence := some ((s.passTime dt).now + ms 1) }))

/-- ACK(n) frees the buffered packet of sequence n and every older one; a replay position past them keeps its packet, one among them
moves to the oldest packet left or becomes absent. NAK(n) frees the older ones and starts a replay from n; a number not in the buffer is
a stray acknowledgement and changes nothing else but the silence timer. -/
def Obligations.AcksFreePacketsAndNaksReplay : Prop :=
  ∀ dt p (n : Byte) s, s.online p = true →
    (∀ older k newer, (s.link p).replay = older ++ k :: newer → k.seq = n → (∀ x ∈ older, x.seq ≠ n) →
      (∃ t, exec (.ackReceived dt p n) s = .next t ∧ (t.link p).replay = newer ∧
        ((s.link p).replayAt = none → (t.link p).replayAt = none) ∧
        (∀ i, (s.link p).replayAt = some i → older.length < i → (t.link p).replayAt = some (i - (older.length + 1))) ∧
        (∀ i, (s.link p).replayAt = some i → i ≤ older.length →
          (t.link p).replayAt = if newer = [] then none else some 0) ∧
        (t.link p).silence = some ((s.passTime dt).now + ms 1) ∧ (∀ q, q ≠ p → t.link q = s.link q)) ∧
      (∃ t, exec (.nakReceived dt p n) s = .next t ∧ (t.link p).replay = k :: newer ∧ (t.link p).replayAt = some 0 ∧
        (t.link p).silence = some ((s.passTime dt).now + ms 1) ∧ (∀ q, q ≠ p → t.link q = s.link q))) ∧
    ((∀ x ∈ (s.link p).replay, x.seq ≠ n) → ∀ c : Instr, c = .ackReceived dt p n ∨ c = .nakReceived dt p n →
      exec c s = .next ((s.passTime dt).setLink p { s.link p with
        silence := some ((s.passTime dt).now + ms 1)
        errors := { (s.link p).errors with
          strayAcks := if (s.link p).errors.strayAcks < 65535 then (s.link p).errors.strayAcks + 1
                       else (s.link p).errors.strayAcks } }))

/-- A NAK carries in its ack field the last sequence accepted, and the current S, which it does not consume; it needs no room and takes 6
bytes, 6 ns; NAK due becomes no at its sending, and NAK outstanding stays yes until the REQUEST with sequence E is accepted. An accepted
REQUEST of whatever row restarts the silence timer, starts the ack timer if it is STOPPED, and moves the arrival stamp counter if admission
accepts it. That a request row whose packet R164 discards is discarded is the model's reading (notes/assumptions/20.md), and that the counter
begins anew after 64 bits of ones its choice (notes/assumptions/25.md). -/
def Obligations.NakCarriesLastAccepted : Prop :=
  (∀ dt p s, s.online p = true → TransmitterFree (s.passTime dt) p → (s.link p).nakDue = true →
    exec (.sendNak dt p) s = .next ((s.passTime dt).setLink p { s.link p with
      nakDue := false, ackTimer := .stopped, keepalive := .running ((s.passTime dt).now + us 100)
      transmitter := some
        ⟨{ seq := (s.link p).sendSeq, ackField := (s.link p).expected - 1, free := s.freeSlots p, content := .nak },
          (s.passTime dt).now + ns 6⟩ })) ∧
  (∀ c dt p k (r : Request) s, requestRow c = some (dt, p, k, r) → s.online p = true →
    ∃ t, exec c s = .next t ∧
      ((t.link p).nakOutstanding = true ↔ r.seq ≠ (s.link p).expected ∨ (s.passTime dt).discards p k r = true) ∧
      (r.seq = (s.link p).expected → (s.passTime dt).discards p k r = false →
        (t.link p).expected = (s.link p).expected + 1 ∧ (t.link p).nakDue = (s.link p).nakDue ∧
        (t.link p).silence = some ((s.passTime dt).now + ms 1) ∧
        (t.link p).ackTimer =
          (if (s.link p).ackTimer = .stopped then .running ((s.passTime dt).now + us 2) else (s.link p).ackTimer) ∧
        (∀ o posted g, s.verdict p k r = .accept o posted g → t.stampCounter = s.stampCounter + 1) ∧
        (∀ st, s.verdict p k r = .refuse st → t.stampCounter = s.stampCounter)))

/-- The ack and keepalive timers become EXPIRED at their ends; an ACK or an IDLE is then built with the current S, E − 1 and the free
count, stops the ack timer, restarts the keepalive timer and joins no buffer. INIT takes the sequence S and joins the replay
buffer; the packet at the replay position is sent again unchanged, and the position moves to the next newer packet or becomes absent.
A packet is on the wire for 1 ns a byte: an ACK, an IDLE and an INIT for 6 ns (that INIT has no body is notes/assumptions/14.md, its free
count notes/assumptions/29.md). Which packet goes first is spelled in `SendsFirst`: a NAK that is due, the packet at the replay position,
a pending INIT, an unsent RESPONSE, the head NOTICE, an ACK, an IDLE, in that order, the new sequenced ones with room in the replay
buffer, on a link that is UP with its transmitter free. -/
def Obligations.LinkPacketsAreSent : Prop :=
  (∀ dt p s, (s.passTime dt).over (s.link p).ackTimer = true →
    exec (.ackTimerExpiry dt p) s = .next ((s.passTime dt).setLink p { s.link p with ackTimer := .expired })) ∧
  (∀ dt p s, (s.passTime dt).over (s.link p).keepalive = true →
    exec (.keepaliveExpiry dt p) s = .next ((s.passTime dt).setLink p { s.link p with keepalive := .expired })) ∧
  (∀ (c : Instr) (x : Content) dt p s,
    (c = .sendAck dt p ∧ x = .ack ∧ SendsFirst (s.passTime dt) p .ack ∨
      c = .sendIdle dt p ∧ x = .idle ∧ SendsFirst (s.passTime dt) p .idle) →
    exec c s = .next ((s.passTime dt).setLink p { s.link p with
      ackTimer := .stopped, keepalive := .running ((s.passTime dt).now + us 100)
      transmitter := some
        ⟨{ seq := (s.link p).sendSeq, ackField := (s.link p).expected - 1, free := s.freeSlots p, content := x },
          (s.passTime dt).now + ns 6⟩ })) ∧
  (∀ dt p s, SendsFirst (s.passTime dt) p .init →
    ∃ (t : State) (k : Packet), exec (.sendInit dt p) s = .next t ∧
      k = { seq := (s.link p).sendSeq, ackField := (s.link p).expected - 1, free := s.freeSlots p, content := .init } ∧
      t = (s.passTime dt).setLink p { s.link p with
        initPending := false, sendSeq := (s.link p).sendSeq + 1, replay := (s.link p).replay ++ [k]
        ackTimer := .stopped, keepalive := .running ((s.passTime dt).now + us 100)
        transmitter := some ⟨k, (s.passTime dt).now + ns 6⟩ }) ∧
  (∀ dt p s older k newer, SendsFirst (s.passTime dt) p .replay →
    (s.link p).replay = older ++ k :: newer → (s.link p).replayAt = some older.length →
    exec (.sendReplay dt p) s = .next ((s.passTime dt).setLink p { s.link p with
      replayAt := if newer = [] then none else some (older.length + 1)
      keepalive := .running ((s.passTime dt).now + us 100)
      transmitter := some ⟨k, (s.passTime dt).now + ns k.bytes.length⟩ }))

/-- A RESPONSE, where it is the first packet due (`SendsFirst`), is built for the unsent DONE record of the earliest done instant, and of
one instant the lowest stamp (`AnswersFirst`), or for the oldest refusal, whichever is earlier; at one instant the command's operand says
which (the model's choice, notes/assumptions/23.md). The record leaves its queue, or the refusal its list; the packet takes S, joins the
replay buffer, carries the free count that stands after the leaving, and is on the wire for 1 ns a byte: its header, body (Table 53) and
check. The record's leaving is an event at the quiet controller (`QuietReviewed`): where it lets the seven settling conditions hold,
SETTLING begins, or with QUIET_HOLD 0 ENTERING, also where a warm reset's close is still to come (the model's choice,
notes/assumptions/28.md). -/
def Obligations.ResponseLeavesWithItsRecord : Prop :=
  ∀ dt p first s, SendsFirst (s.passTime dt) p .response →
    (∀ r res d, AnswersFirst s p r d → r.result = some res →
      (∀ x, (s.link p).refusals.head? = some x → d < x.since ∨ d = x.since ∧ first = false) →
      ∃ (t : State) (k : Packet), exec (.sendResponse dt p first) s = .next t ∧
        t.queue p = (s.queue p).filter (fun q => decide (q.stamp ≠ r.stamp)) ∧
        k = { seq := (s.link p).sendSeq, ackField := (s.link p).expected - 1, free := 16 - (t.queue p).length,
              content := .response r.tag res } ∧
        (t.link p).transmitter.map Transmission.packet = some k ∧
        ((∀ ls, res.data = .lines ls → ∀ l ∈ ls, l.length = 8) →
          (t.link p).transmitter = some ⟨k, (s.passTime dt).now + ns (10 + responseLength res.data)⟩) ∧
        (t.link p).replay = (s.link p).replay ++ [k] ∧ (t.link p).sendSeq = (s.link p).sendSeq + 1 ∧
        (t.link p).ackTimer = .stopped ∧ (t.link p).keepalive = .running ((s.passTime dt).now + us 100) ∧
        (t.link p).refusals = (s.link p).refusals ∧ QuietReviewed s t ∧
        (∀ q, q ≠ p → t.link q = s.link q ∧ t.queue q = s.queue q) ∧ t.mem = s.mem) ∧
    (∀ x rest, (s.link p).refusals = x :: rest →
      ((∀ r, ¬ Unsent s p r) ∨ ∃ r d, AnswersFirst s p r d ∧ (x.since < d ∨ d = x.since ∧ first = true)) →
      ∃ (t : State) (k : Packet), exec (.sendResponse dt p first) s = .next t ∧ t.queue p = s.queue p ∧
        k = { seq := (s.link p).sendSeq, ackField := (s.link p).expected - 1, free := 16 - (s.queue p).length,
              content := .response x.tag ⟨x.status, .none⟩ } ∧
        (t.link p).transmitter = some ⟨k, (s.passTime dt).now + ns 10⟩ ∧
        (t.link p).replay = (s.link p).replay ++ [k] ∧ (t.link p).refusals = rest ∧
        (t.link p).sendSeq = (s.link p).sendSeq + 1 ∧ (t.link p).ackTimer = .stopped ∧
        (t.link p).keepalive = .running ((s.passTime dt).now + us 100) ∧ QuietReviewed s t ∧
        (∀ q, q ≠ p → t.link q = s.link q ∧ t.queue q = s.queue q) ∧ t.mem = s.mem)

/-- Where a NOTICE is the first packet due (`SendsFirst`), the head notice leaves its queue as its packet is built; with losses counted, an
OVERFLOW carrying the count joins at the tail and the count returns to 0. The packet is on the wire for 1 ns a byte: its header, body (Table
54) and check. -/
def Obligations.NoticeLeavesItsQueue : Prop :=
  ∀ dt p s n rest, SendsFirst (s.passTime dt) p .notice → (s.noticeQ p).queue = n :: rest →
    ∃ (t : State) (k : Packet), exec (.sendNotice dt p) s = .next t ∧
      t.noticeQ p = { queue := if 0 < (s.noticeQ p).lost then rest ++ [.overflow (s.noticeQ p).lost] else rest
                      lost := 0, enables := (s.noticeQ p).enables } ∧
      k = { seq := (s.link p).sendSeq, ackField := (s.link p).expected - 1, free := s.freeSlots p, content := .notice n } ∧
      (t.link p).transmitter = some ⟨k, (s.passTime dt).now + ns (9 + noticeLength n)⟩ ∧
      (t.link p).replay = (s.link p).replay ++ [k] ∧ (t.link p).sendSeq = (s.link p).sendSeq + 1 ∧
      (∀ q, q ≠ p → t.link q = s.link q ∧ t.noticeQ q = s.noticeQ q) ∧ t.mem = s.mem ∧ t.queues = s.queues

/-! ## Admission -/

/-- A request of a memory kind or a WATCH that passes every check of Table 16 joins the tail of its port's queue: it takes the stamp
counter's value, which rises by 1 and after 64 bits of ones begins anew (notes/assumptions/25.md), its region counts it, it is posted only
where the region allows posting, and it is READY exactly when no condition of Table 15 is against it, else WAITING for the first of them
(that a repair phase gives an atomic BANK and not HOLD is notes/assumptions/18.md); one that is READY for its bank's open row stops the
bank's idle timer; a RETAINED part begins to wake, SETTLING ends, and ENTERING is abandoned with its RETENTION marks withdrawn. The
silence timer restarts, and the ack timer starts if it is STOPPED. That a WRITE_PART of more than 72 bytes and an atomic with bytes left over
have the right form is notes/assumptions/11.md. -/
def Obligations.MemoryRequestJoinsItsQueue : Prop :=
  ∀ i dt p k r o l n g s, memoryRow i = some (dt, p, k, r) → s.online p = true → r.seq = (s.link p).expected →
    (s.queue p).length < 16 → s.scrub.sweepDone = true → (r.posted = true → k.mayPost = true) → kindOp k r = some o →
    o.crossesRow = false → o.span = some (l, n) → s.coveringRegion (linePage l) = some g →
    (s.region g).state = .active → (s.region g).body.allows p o = true →
    (s.tagBusy p r.tag = false ∨ (r.posted = true ∧ (s.region g).body.posting = true)) →
    ∃ (t : State) (x : Record), exec i s = .next t ∧ t.queue p = s.queue p ++ [x] ∧ x.port = p ∧ x.tag = r.tag ∧ x.op = o ∧
      x.posted = (r.posted && (s.region g).body.posting) ∧ x.region = some g ∧ x.stamp = s.stampCounter ∧
      x.aged = false ∧ x.linesDone = 0 ∧ x.result = none ∧ x.since = (s.passTime dt).now ∧
      x.blocked = s.blockReason x ∧ (x.state = if x.blocked = none then RecState.ready else RecState.waiting) ∧
      ((∀ c, ¬ HeldBack s x c) → x.blocked = none) ∧ (∀ c, FirstReason s x c → x.blocked = some c) ∧
      (s.asleep = true → x.blocked = some .retention) ∧
      (x.state = .ready → (s.bank (lineBank l)).state = .opened → (s.bank (lineBank l)).openRow = some (lineRow l) →
        (t.bank (lineBank l)).idle = .stopped) ∧ t.stampCounter = s.stampCounter + 1 ∧
      (t.region g).inFlight = (s.region g).inFlight + 1 ∧ (t.link p).expected = (s.link p).expected + 1 ∧
      (∀ q, q ≠ p → t.queue q = s.queue q ∧ t.link q = s.link q) ∧ (∀ j, j ≠ g → t.region j = s.region j) ∧
      t.mem = s.mem ∧ t.holds = s.holds ∧ t.watches = s.watches ∧ AdmissionEnds s t ∧
      (t.link p).silence = some ((s.passTime dt).now + ms 1) ∧
      (t.link p).ackTimer =
        (if (s.link p).ackTimer = .stopped then .running ((s.passTime dt).now + us 2) else (s.link p).ackTimer) ∧
      (s.quiet.part = .retained → t.quiet.part = .waking ∧
        t.quiet.wakeRecord = s.quiet.wakeRecord.or (some (.request, p)))

/-- A FENCE is DONE at admission when no earlier record of its port is undone, and otherwise WAITING with reason FENCE or ORDER. A FENCE or
control request admitted behind an undone FENCE of its port joins its queue WAITING with reason FENCE, and nothing of it is carried out
(`JoinsWaiting`). When the
blocks are evaluated anew after an event (`settle`), a FENCE whose earlier records are DONE is DONE with OK, and a CLAIM that waited
behind it is carried out at the same instant: the two are the only control records that are not carried out yet. Where no control record
is to be carried out, that evaluation gives every WAITING and READY record its state and blocked reason anew (`Reviewed`, Table 15), with
the holds and the banks as they then stand, and every bank's idle timer: STOPPED while a READY or ACTIVE record is for the open row or a
repair phase holds the bank, started anew from STOPPED where none is (but for one that a warm reset left STOPPED, notes/assumptions/13.md),
and left to run where it runs; a STARTED or PENDING scrub step whose line is held is skipped (`StepEnded`); and it is an event at the quiet
controller (`QuietReviewed`): an ACTIVE part whose seven settling conditions hold begins SETTLING, or with QUIET_HOLD 0 is ENTERING at once,
also where a warm reset's close is still to come (notes/assumptions/28.md), and a SETTLING or ENTERING one of which one fails is ACTIVE again.
That a repair phase gives an atomic BANK and not HOLD is notes/assumptions/18.md; a FENCE admitted at the stamp counter's last value, after
which the counter begins anew, is the case of notes/assumptions/25.md. -/
def Obligations.FenceWaitsForEarlierRecords : Prop :=
  (∀ dt p r s, s.online p = true → r.seq = (s.link p).expected → (s.queue p).length < 16 → r.posted = false →
    s.tagBusy p r.tag = false → StampsBelowCounter s →
    ((∀ q ∈ s.records, q.port = p → q.isDone = true) → (∀ q ∈ s.queue p, q.port = p) →
      ∃ t, exec (.fence dt p r) s = .next t ∧ Answered (s.passTime dt) t p r.tag .fence ⟨.ok, .none⟩) ∧
    ((∃ q ∈ s.queue p, q.isDone = false) →
      ∃ (t : State) (x : Record), exec (.fence dt p r) s = .next t ∧ t.queue p = s.queue p ++ [x] ∧ x.op = .fence ∧ x.state = .waiting ∧
        (x.blocked = some .order ∨ x.blocked = some .fence) ∧ t.mem = s.mem)) ∧
  (∀ i dt p (k : Kind) r o s, requestRow i = some (dt, p, k.code, r) → ControlAdmitted s p r → WellFormedAs r k o → o.span = none →
    (k = .repair → s.scrub.sweepDone = true ∧ s.asleep = false) → StampsBelowCounter s →
    (∃ q, (q ∈ s.queue p ∨ q ∈ s.detached ∧ q.port = p) ∧ q.op = .fence ∧ q.state ≠ .done) →
    ∃ t, exec i s = .next t ∧ JoinsWaiting (s.passTime dt) t p r.tag o .fence) ∧
  (∀ (s : State) (f : Record), s.Sole f → f.op = .fence → f.state = .waiting → (∀ q, ¬ EarlierUndone s f q) →
    (∀ p, ∀ q ∈ s.queue p, q.op.span = none → q = f ∨ q.state = .active ∨ q.state = .done) →
    ∃ x ∈ s.settle.queue f.port, x.stamp = f.stamp ∧ x.op = .fence ∧ x.state = .done ∧ x.doneAt = some s.now ∧
      x.result = some ⟨.ok, .none⟩) ∧
  (∀ (s : State) (f c : Record), s.Sole f → s.Sole c → f.op = .fence → f.state = .waiting → c.op = .claim →
    c.state = .waiting → c.port = f.port → (∀ q, ¬ EarlierUndone s f q) →
    (∀ q, EarlierUndone s c q → q = f ∨ q.op.span.isSome = true) →
    (∀ p, ∀ q ∈ s.queue p, q.op.span = none → q = f ∨ q = c ∨ q.state = .active ∨ q.state = .done) →
    s.claim.holder = none ∨ s.claim.holder = some c.port →
    s.settle.claim = ⟨some c.port, some (s.now + ms 10)⟩ ∧
      (∃ x ∈ s.settle.queue c.port, x.stamp = f.stamp ∧ x.state = .done ∧ x.result = some ⟨.ok, .none⟩) ∧
      ∃ x ∈ s.settle.queue c.port, x.stamp = c.stamp ∧ x.op = .claim ∧ x.state = .done ∧ x.doneAt = some s.now ∧
        x.result = some ⟨.ok, .none⟩) ∧
  (∀ s : State, NoneToCarryOut s →
    (∀ p, List.Forall₂ (Reviewed s) (s.queue p) (s.settle.queue p)) ∧ s.settle.detached = s.detached ∧
    s.settle.holds = s.holds ∧ s.settle.mem = s.mem ∧ s.settle.regions = s.regions ∧ s.settle.claim = s.claim ∧
    s.settle.currentJob = s.currentJob ∧
    ∀ b, ((s.bank b).state ≠ .opened → (s.settle.bank b).idle = .stopped) ∧
      ∀ row, (s.bank b).state = .opened → (s.bank b).openRow = some row →
        ((s.repairPhase b).isSome = true ∨ RowWantedBy s.settle b row → (s.settle.bank b).idle = .stopped) ∧
        (s.repairPhase b = none → ¬ RowWantedBy s.settle b row →
          (s.bank b).idle ≠ .stopped → (s.settle.bank b).idle = (s.bank b).idle) ∧
        (s.repairPhase b = none → ¬ RowWantedBy s.settle b row → (s.bank b).idle = .stopped → (s.bank b).idleReset = false →
          (s.settle.bank b).idle = if s.settings.closeIdle = 0 then .expired else .running (s.now + ns s.settings.closeIdle))) ∧
  (∀ s : State, NoneToCarryOut s → QuietReviewed s s.settle ∧
    ((s.scrub.step = .started ∨ s.scrub.step = .pending) → (∃ e ∈ s.holds, e.line = s.scrub.pointer) → StepEnded s s.settle s.now) ∧
    (¬ ((s.scrub.step = .started ∨ s.scrub.step = .pending) ∧ ∃ e ∈ s.holds, e.line = s.scrub.pointer) → s.settle.scrub = s.scrub))

/-- A refused request takes no slot and no stamp, and its status is that of the first check of Table 16 it fails, a memory kind's and a
control kind's alike. Refused by a response, it joins the refusal list with its status; refused by an ERROR notice (a posted WRITE or
WRITE_PART), the notice joins the port's queue. A request of unknown kind is MALFORMED. What a WRITE_PART of more than 72 bytes and an
atomic with bytes left over mean is the model's reading (`WellFormedAs`, notes/assumptions/11.md). -/
def Obligations.RefusedRequestIsAnswered : Prop :=
  (∀ dt p k r s, s.online p = true → r.seq = (s.link p).expected → (s.queue p).length < 16 →
    (s.link p).refusals.length < 16 → isRequestKind k = false →
    ∃ t, exec (.unknownRequestKind dt p k r) s = .next t ∧ t = (s.passTime dt).setLink p { s.link p with
      silence := some ((s.passTime dt).now + ms 1), expected := (s.link p).expected + 1, nakOutstanding := false
      ackTimer := if (s.link p).ackTimer = .stopped then .running ((s.passTime dt).now + us 2) else (s.link p).ackTimer
      refusals := (s.link p).refusals ++ [⟨r.tag, .malformed, (s.passTime dt).now⟩] }) ∧
  (∀ i dt p k r st s, memoryRow i = some (dt, p, k, r) → s.online p = true → r.seq = (s.link p).expected →
    s.verdict p k.code r = .refuse st →
    (answeredByResponse k.code r = true → (s.link p).refusals.length < 16 →
      ∃ t, exec i s = .next t ∧ (t.link p).refusals = (s.link p).refusals ++ [⟨r.tag, st, (s.passTime dt).now⟩] ∧
        t.queues = s.queues ∧ t.stampCounter = s.stampCounter ∧ t.regions = s.regions ∧ t.notices = s.notices ∧
        t.mem = s.mem ∧ t.quiet = s.quiet) ∧
    (answeredByResponse k.code r = false →
      ∃ t, exec i s = .next t ∧ t.queues = s.queues ∧ t.stampCounter = s.stampCounter ∧ t.regions = s.regions ∧
        t.mem = s.mem ∧ t.quiet = s.quiet ∧
        ((s.noticeQ p).queue.length < 8 → (t.noticeQ p).queue = (s.noticeQ p).queue ++ [.error r.tag st]) ∧
        (8 ≤ (s.noticeQ p).queue.length → (t.noticeQ p).queue = (s.noticeQ p).queue ∧
          (t.noticeQ p).lost = if (s.noticeQ p).lost < 255 then (s.noticeQ p).lost + 1 else (s.noticeQ p).lost))) ∧
  (∀ (i : Instr) dt p (k : Kind) r st s, requestRow i = some (dt, p, k.code, r) → s.online p = true →
    r.seq = (s.link p).expected → Refused s p k r st →
    (r.posted = false ∨ (k ≠ .write ∧ k ≠ .writePart) → (s.link p).refusals.length < 16 →
      ∃ t, exec i s = .next t ∧ (t.link p).refusals = (s.link p).refusals ++ [⟨r.tag, st, (s.passTime dt).now⟩] ∧
        t.queues = s.queues ∧ t.stampCounter = s.stampCounter ∧ t.regions = s.regions ∧ t.notices = s.notices ∧
        t.mem = s.mem ∧ t.quiet = s.quiet) ∧
    (r.posted = true → k = .write ∨ k = .writePart →
      ∃ t, exec i s = .next t ∧ t.queues = s.queues ∧ t.stampCounter = s.stampCounter ∧ t.regions = s.regions ∧
        t.mem = s.mem ∧ t.quiet = s.quiet ∧ t.noticeQ p = (s.noticeQ p).joined (.error r.tag st)))

/-! ## Control requests -/

/-- UNWATCH removes the requester's entry of that id with OK and answers NO_WATCH in any other case; NOTICE_MASK replaces the port's
enable set by its four flags with OK; REGION_GET returns the region record of its index with OK, and an index outside 0 to 7 is
MALFORMED. The admission of each ends SETTLING, and abandons ENTERING with the RETENTION marks withdrawn (`Answered`). -/
def Obligations.TableControlsAnswer : Prop :=
  (∀ dt p r i rest s, ControlReady s p r → r.body = i :: rest →
    (∀ (w : WatchId) (e : Watch), w.val = i.toNat → s.watches.get w = some e → e.owner = p →
      ∃ t, exec (.unwatch dt p r) s = .next t ∧
        Answered (s.passTime dt) t p r.tag (.unwatch i.toNat) ⟨.ok, .none⟩ ∧ t.watches = s.watches.set w none ∧
        t.notices = s.notices) ∧
    ((∀ (w : WatchId) (e : Watch), w.val = i.toNat → s.watches.get w = some e → e.owner ≠ p) →
      ∃ t, exec (.unwatch dt p r) s = .next t ∧
        Answered (s.passTime dt) t p r.tag (.unwatch i.toNat) ⟨.noWatch, .none⟩ ∧ t.watches = s.watches ∧
        t.notices = s.notices)) ∧
  (∀ dt p r f rest s, ControlReady s p r → r.body = f :: rest →
    ∃ t, exec (.noticeMask dt p r) s = .next t ∧
      Answered (s.passTime dt) t p r.tag (.noticeMask (enablesOf f)) ⟨.ok, .none⟩ ∧
      t.noticeQ p = { s.noticeQ p with
        enables := ⟨f.getLsbD 0, f.getLsbD 1, f.getLsbD 2, f.getLsbD 3⟩ } ∧
      (∀ q, q ≠ p → t.noticeQ q = s.noticeQ q)) ∧
  (∀ dt p r i rest s, ControlReady s p r → r.body = i :: rest →
    (∀ g : RegionIx, g.val = i.toNat → ∃ t, exec (.regionGet dt p r) s = .next t ∧
      Answered (s.passTime dt) t p r.tag (.regionGet i.toNat) ⟨.ok, .item (.region (s.region g))⟩ ∧
      t.regions = s.regions) ∧
    (8 ≤ i.toNat → ∃ t, exec (.regionGet dt p r) s = .next t ∧
      Answered (s.passTime dt) t p r.tag (.regionGet i.toNat) ⟨.malformed, .none⟩ ∧ t.regions = s.regions))

/-- REGION_SET under the claim: with an index, a page or a right out of range (`OutsideRegions`) MALFORMED, on a DRAINING region BUSY, over a
range that another region has or waits for (`TakenByAnother`) OVERLAP, each with no change of the table; with no record in flight it takes
effect at once, and a watch whose owner thereby loses the line is cancelled, with WATCH_ENDED to its owner (stated where no other watch
stands); else the region is DRAINING with the new record pending and the REGION_SET is ACTIVE (what ends the drain is stated with the
records' last accesses and with the teardown). Without the claim it is CLAIMED or NOT_CLAIMED. Its admission ends SETTLING and ENTERING. -/
def Obligations.RegionSetReplacesOrDrains : Prop :=
  ∀ dt p r ps s, ControlReady s p r → regionSetParams r.body = some ps →
    (s.claim.holder ≠ some p → ∃ t, exec (.regionSet dt p r) s = .next t ∧
      Answered (s.passTime dt) t p r.tag (.regionSet ps) (claimAnswer s.claim.holder) ∧ t.regions = s.regions) ∧
    (s.claim.holder = some p → OutsideRegions ps → ∃ t, exec (.regionSet dt p r) s = .next t ∧
      Answered (s.passTime dt) t p r.tag (.regionSet ps) ⟨.malformed, .none⟩ ∧ t.regions = s.regions ∧
      t.claim = s.claim) ∧
    (∀ g new, s.claim.holder = some p → NamesRegion ps g new →
      ((s.region g).state = .draining → ∃ t, exec (.regionSet dt p r) s = .next t ∧
        Answered (s.passTime dt) t p r.tag (.regionSet ps) ⟨.busy, .none⟩ ∧ t.regions = s.regions ∧
        t.claim = s.claim) ∧
      ((s.region g).state ≠ .draining → new.enable = true → TakenByAnother s g new →
        ∃ t, exec (.regionSet dt p r) s = .next t ∧
          Answered (s.passTime dt) t p r.tag (.regionSet ps) ⟨.overlap, .none⟩ ∧ t.regions = s.regions ∧
          t.claim = s.claim) ∧
      ((s.region g).state ≠ .draining → (new.enable = true → ¬ TakenByAnother s g new) →
        ((s.region g).inFlight = 0 → ∃ t, exec (.regionSet dt p r) s = .next t ∧
          Answered (s.passTime dt) t p r.tag (.regionSet ps) ⟨.ok, .none⟩ ∧
          t.regions = s.regions.set g ⟨if new.enable then .active else .disabled, new.body, 0, none⟩ ∧
          t.claim = ⟨some p, some ((s.passTime dt).now + ms 10)⟩ ∧
          (∀ i w, s.watches.get i = some w →
            ((∃ j, Covering t (w.line.val / 64) j ∧ (∀ k, Covering t (w.line.val / 64) k → k = j) ∧
                (t.region j).body.rights.get w.owner ≠ .none) → t.watches.get i = some w) ∧
            ((∀ j, Covering t (w.line.val / 64) j → (t.region j).body.rights.get w.owner = .none) →
              t.watches.get i = none ∧
              ((∀ k, k ≠ i → s.watches.get k = none) → s.online w.owner = true →
                t.noticeQ w.owner = (s.noticeQ w.owner).joined (.watchEnded i w.line .cancelled))))) ∧
        ((s.region g).inFlight ≠ 0 → ∃ (t : State) (x : Record), exec (.regionSet dt p r) s = .next t ∧
          t.queue p = s.queue p ++ [x] ∧ x.op = .regionSet ps ∧ x.state = .active ∧ AdmissionEnds s t ∧
          t.regions = s.regions.set g ⟨.draining, (s.region g).body, (s.region g).inFlight, some new⟩ ∧
          t.claim = ⟨some p, some ((s.passTime dt).now + ms 10)⟩ ∧ t.mem = s.mem)))

/-- REPAIR under the claim, with no job queued or current and a FREE spare: the record is ACTIVE and its job starts at once with the
lowest-numbered FREE spare, taking its bank. (The part is awake: one admitted while it is RETAINED or WAKING is WAITING with reason RETENTION,
no job starts, and a RETAINED part wakes with cause REQUEST, `JoinsWaiting`.) Without the claim it is CLAIMED or
NOT_CLAIMED; for the bank and row of a queued job, or of the current one in time, it merges; else it is queued behind the current job,
or TABLE_FULL where four jobs wait; with no FREE spare it is NO_SPARE, with its REPAIR_DONE notice. The premise `JobFirst` is part of
the invariant `WithinCapacities`; `u` is the state before the blocks are evaluated anew. Its admission ends SETTLING and ENTERING. -/
def Obligations.RepairStartsItsJob : Prop :=
  (∀ dt p r b row mode sp s, ControlReady s p r → kindOp .repair r = some (.repair b row mode) → s.asleep = false →
    s.scrub.sweepDone = true → s.claim.holder = some p → s.repairQueue = [] → s.currentJob = none →
    s.freeSpare b = some sp →
    ∃ t u : State, exec (.repair dt p r) s = .next t ∧ t = u.settle ∧
      u.currentJob = some
        { job := ⟨b, row, mode, [⟨p, s.stampCounter, r.tag⟩]⟩, chosen := sp, previous := s.servingSpare b row,
          phase := if (s.bank b).state = .closed then .copyOut else .wait, linesRead := 0, linesWritten := 0,
          poisonedWords := 0, programEnds := none } ∧
      ((s.spares b).get sp).state = .free ∧ (∀ i, i < sp → ((s.spares b).get i).state ≠ .free) ∧
      u.repairQueue = [] ∧ u.claim = ⟨some p, some ((s.passTime dt).now + ms 10)⟩ ∧
      (∃ x : Record, u.queue p = s.queue p ++ [x] ∧ x.op = .repair b row mode ∧ x.state = .active) ∧
      ((s.bank b).state = .closed → (u.bank b).state = .repairing) ∧
      ((s.bank b).state = .opening ∨ (s.bank b).state = .opened → (u.bank b).marks.repair = true) ∧
      t.mem = s.mem ∧ t.remap = s.remap ∧ AdmissionEnds s t) ∧
  (∀ dt p r b row mode s, ControlReady s p r → kindOp .repair r = some (.repair b row mode) → s.asleep = false →
    s.scrub.sweepDone = true → JobFirst s → ∃ (u : State) (x : Record), exec (.repair dt p r) s = .next u.settle ∧
      u.queue p = s.queue p ++ [x] ∧ x.op = .repair b row mode ∧ x.stamp = s.stampCounter ∧ u.mem = s.mem ∧
      u.remap = s.remap ∧ AdmissionEnds s u.settle ∧
      (s.claim.holder ≠ some p → x.state = .done ∧ x.result = some (claimAnswer s.claim.holder) ∧
        u.repairQueue = s.repairQueue ∧ u.currentJob = s.currentJob ∧ u.claim = s.claim) ∧
      (s.claim.holder = some p → (∃ j ∈ s.repairQueue, j.bank = b ∧ j.row = row) →
        x.state = .active ∧ u.currentJob = s.currentJob ∧ u.claim = ⟨some p, some ((s.passTime dt).now + ms 10)⟩ ∧
        u.repairQueue = s.repairQueue.map (fun j =>
          if j.bank = b ∧ j.row = row then
            { j with mode := if j.mode = .fused ∨ mode = .fused then .fused else .soft
                     requesters := j.requesters ++ [⟨p, s.stampCounter, r.tag⟩] }
          else j)) ∧
      (s.claim.holder = some p → (∀ j ∈ s.repairQueue, ¬ (j.bank = b ∧ j.row = row)) → ∀ c, s.currentJob = some c →
        (c.job.bank = b ∧ c.job.row = row ∧
            (mode = .soft ∨ c.job.mode = .fused ∨ c.phase = .wait ∨ c.phase = .copyOut) →
          x.state = .active ∧ u.repairQueue = s.repairQueue ∧
          u.claim = ⟨some p, some ((s.passTime dt).now + ms 10)⟩ ∧
          u.currentJob = some { c with job := { c.job with
            mode := if c.job.mode = .fused ∨ mode = .fused then .fused else .soft
            requesters := c.job.requesters ++ [⟨p, s.stampCounter, r.tag⟩] } }) ∧
        (¬ (c.job.bank = b ∧ c.job.row = row ∧
            (mode = .soft ∨ c.job.mode = .fused ∨ c.phase = .wait ∨ c.phase = .copyOut)) →
          u.currentJob = s.currentJob ∧
          (s.repairQueue.length < 4 → x.state = .active ∧ u.claim = ⟨some p, some ((s.passTime dt).now + ms 10)⟩ ∧
            u.repairQueue = s.repairQueue ++ [⟨b, row, mode, [⟨p, s.stampCounter, r.tag⟩]⟩]) ∧
          (4 ≤ s.repairQueue.length → x.state = .done ∧ x.result = some ⟨.tableFull, .none⟩ ∧
            u.repairQueue = s.repairQueue ∧ u.claim = s.claim))) ∧
      (s.claim.holder = some p → s.repairQueue = [] → s.currentJob = none →
        (∀ i, ((s.spares b).get i).state ≠ .free) →
        x.state = .done ∧ x.result = some ⟨.noSpare, .repair none 0⟩ ∧ u.repairQueue = [] ∧ u.currentJob = none ∧
        u.checks = s.checks ∧ (u.bank b).marks.repair = false ∧
        ((s.bank b).state ≠ .repairing → (u.bank b).state = (s.bank b).state) ∧
        ∀ q, u.noticeQ q = s.told Enables.repairDone [.repairDone b row none .noSpare 0] q)) ∧
  (∀ dt p r b row mode s, ControlAdmitted s p r → kindOp .repair r = some (.repair b row mode) → s.scrub.sweepDone = true →
    s.asleep = true → ∃ t, exec (.repair dt p r) s = .next t ∧
      JoinsWaiting (s.passTime dt) t p r.tag (.repair b row mode) .retention)

/-- A QUIET of value 0 or 1 sets the port's vote to AWAKE or QUIET with OK, an AWAKE one waking a RETAINED part; any other value is MALFORMED
and leaves the vote. Any of them ends SETTLING and ENTERING by its admission (`Answered`); a QUIET vote that makes the settling conditions
hold begins SETTLING when its own record leaves with its response, which the statement of SEND_RESPONSE says (`QuietReviewed`). -/
def Obligations.QuietSetsTheVote : Prop :=
  ∀ dt p r v rest s, ControlReady s p r → r.body = v :: rest →
    (v = 0 → ∃ t, exec (.quiet dt p r) s = .next t ∧
      Answered (s.passTime dt) t p r.tag (.quiet 0) ⟨.ok, .none⟩ ∧ t.vote p = some .awake ∧
      (∀ q, q ≠ p → t.vote q = s.vote q) ∧
      (s.quiet.part = .retained → t.quiet.part = .waking ∧ t.quiet.wakeRecord = s.quiet.wakeRecord.or (some (.vote, p)))) ∧
    (v = 1 → ∃ t, exec (.quiet dt p r) s = .next t ∧
      Answered (s.passTime dt) t p r.tag (.quiet 1) ⟨.ok, .none⟩ ∧ t.vote p = some .quiet ∧
      (∀ q, q ≠ p → t.vote q = s.vote q) ∧ (s.quiet.part = .retained → t.quiet.part = .retained)) ∧
    (2 ≤ v.toNat → ∃ t, exec (.quiet dt p r) s = .next t ∧
      Answered (s.passTime dt) t p r.tag (.quiet v.toNat) ⟨.malformed, .none⟩ ∧ ∀ q, t.vote q = s.vote q)

/-- CLAIM takes or renews the claim or is CLAIMED with the holder; RELEASE by the holder frees it and stops the timer with no notice, and is
NOT_CLAIMED in any other case; of a CLAIM and a RELEASE of one instant either order has the outcome the rule gives. -/
def Obligations.ClaimAndRelease : Prop :=
  (∀ dt p r s, ControlReady s p r →
    (s.claim.holder = none ∨ s.claim.holder = some p → ∃ t, exec (.claim dt p r) s = .next t ∧
      Answered (s.passTime dt) t p r.tag .claim ⟨.ok, .none⟩ ∧
      t.claim = ⟨some p, some ((s.passTime dt).now + ms 10)⟩) ∧
    (∀ h, s.claim.holder = some h → h ≠ p → ∃ t, exec (.claim dt p r) s = .next t ∧
      Answered (s.passTime dt) t p r.tag .claim ⟨.claimed, .holder h⟩ ∧ t.claim = s.claim)) ∧
  (∀ dt p r s, ControlReady s p r →
    (s.claim.holder = some p → ∃ t, exec (.release dt p r) s = .next t ∧
      Answered (s.passTime dt) t p r.tag .release ⟨.ok, .none⟩ ∧ t.claim = ⟨none, none⟩ ∧ t.notices = s.notices) ∧
    (s.claim.holder ≠ some p → ∃ t, exec (.release dt p r) s = .next t ∧
      Answered (s.passTime dt) t p r.tag .release ⟨.notClaimed, .none⟩ ∧ t.claim = s.claim)) ∧
  (∀ p h (s : State), s.claim.holder = some h → p ≠ h →
    ((s.doRelease h).1.doClaim p).2 = ⟨.ok, .none⟩ ∧ ((s.doRelease h).1.doClaim p).1.claim.holder = some p ∧
    (s.doClaim p).2 = ⟨.claimed, .holder h⟩ ∧ ((s.doClaim p).1.doRelease h).1.claim.holder = none)

/-- A SET of a setting: without the claim CLAIMED or NOT_CLAIMED; out of its range of Table 58 MALFORMED with the setting and the claim timer
unchanged; else the setting takes the value with OK, the other settings stand, and the claim timer starts anew. A lowered AGE_LIMIT ages
the records that have reached it; a SCRUB_INTERVAL of 0 stops the step timer, and one set from 0 starts it where no step is in
progress, the sweep is FINISHED and the part neither RETAINED nor WAKING. -/
def Obligations.SettingChangesUnderTheClaim : Prop :=
  ∀ i dt p c r v0 v1 rest s, settingRow i = some (dt, p, c, r) → ControlReady s p r → r.body = v0 :: v1 :: rest →
    (s.claim.holder ≠ some p → ∃ t, exec i s = .next t ∧
      Answered (s.passTime dt) t p r.tag (.set c.toNat (v0.toNat + 256 * v1.toNat)) (claimAnswer s.claim.holder) ∧
      t.settings = s.settings ∧ t.claim = s.claim ∧ t.scrub = s.scrub) ∧
    (s.claim.holder = some p → ¬ InRange c (v0.toNat + 256 * v1.toNat) →
      ∃ t, exec i s = .next t ∧
        Answered (s.passTime dt) t p r.tag (.set c.toNat (v0.toNat + 256 * v1.toNat)) ⟨.malformed, .none⟩ ∧
        t.settings = s.settings ∧ t.claim = s.claim ∧ t.scrub = s.scrub) ∧
    (s.claim.holder = some p → InRange c (v0.toNat + 256 * v1.toNat) →
      ∃ t u : State, exec i s = .next t ∧
        u = (if c = 2 ∧ v0.toNat + 256 * v1.toNat < s.settings.ageLimit then
          (s.passTime dt).mapRecords (Record.ageAt (s.passTime dt).now (v0.toNat + 256 * v1.toNat)) else s.passTime dt) ∧
        Answered u t p r.tag (.set c.toNat (v0.toNat + 256 * v1.toNat)) ⟨.ok, .none⟩ ∧
        t.settings.value c.toNat = v0.toNat + 256 * v1.toNat ∧
        (∀ k, k ≠ c.toNat → t.settings.value k = s.settings.value k) ∧
        t.claim = ⟨some p, some ((s.passTime dt).now + ms 10)⟩ ∧
        t.scrub = { s.scrub with
          timer := if c = 4 ∧ v0.toNat + 256 * v1.toNat = 0 then none
            else if c = 4 ∧ s.settings.scrubInterval = 0 ∧ s.scrub.step = .none ∧ s.scrub.sweepDone = true ∧
                s.quiet.part ≠ .retained ∧ s.quiet.part ≠ .waking then
              some ((s.passTime dt).now + us (v0.toNat + 256 * v1.toNat))
            else s.scrub.timer })

/-- WAKE_CLEAR empties the wake record from whichever port, and does not touch the claim; COUNTERS_CLEAR under the claim sets the correction,
missed-refresh and link error counts to 0, starts the claim timer anew and leaves the lost counts, the pass count, the fault list,
the debts and the remap table. Of a COUNTERS_CLEAR and a rise of one of its counts at one instant, one order leaves the count at 0 and the
other at 1; which does which is the model's reading (notes/assumptions/31.md), and is not stated. -/
def Obligations.WriteOnlyItemsAct : Prop :=
  (∀ dt p r v0 v1 rest s, ControlReady s p r → r.body = v0 :: v1 :: rest →
    ∃ t, exec (.wakeClear dt p r) s = .next t ∧
      Answered (s.passTime dt) t p r.tag (.set 8 (v0.toNat + 256 * v1.toNat)) ⟨.ok, .none⟩ ∧
      t.quiet.wakeRecord = none ∧ t.claim = s.claim) ∧
  (∀ dt p r v0 v1 rest s, ControlReady s p r → r.body = v0 :: v1 :: rest → s.claim.holder = some p →
    ∃ t, exec (.countersClear dt p r) s = .next t ∧
      Answered (s.passTime dt) t p r.tag (.set 9 (v0.toNat + 256 * v1.toNat)) ⟨.ok, .none⟩ ∧
      t.checks.corrected = 0 ∧ t.checks.uncorrectable = 0 ∧ (∀ g, t.refresh.missed.get g = 0) ∧
      (∀ q, (t.link q).errors = ⟨0, 0, 0, 0⟩) ∧ t.claim = ⟨some p, some ((s.passTime dt).now + ms 10)⟩ ∧
      (∀ q, (t.noticeQ q).lost = (s.noticeQ q).lost) ∧ t.scrub.passes = s.scrub.passes ∧
      t.checks.faults = s.checks.faults ∧ t.refresh.debt = s.refresh.debt ∧ t.remap = s.remap) ∧
  (∀ dt p r v0 v1 rest s, ControlReady s p r → r.body = v0 :: v1 :: rest → s.claim.holder ≠ some p →
    ∃ t, exec (.countersClear dt p r) s = .next t ∧
      Answered (s.passTime dt) t p r.tag (.set 9 (v0.toNat + 256 * v1.toNat)) (claimAnswer s.claim.holder) ∧
      t.checks = s.checks ∧ t.refresh.missed = s.refresh.missed ∧ (∀ q, (t.link q).errors = (s.link q).errors) ∧
      t.claim = s.claim) ∧
  (∀ p (s : State),
    OneOfTwo ((s.clearCounters.badPacket p).link p).errors.checkFailures
      ((s.badPacket p).clearCounters.link p).errors.checkFailures ∧
    OneOfTwo ((s.clearCounters.discardPacket p).link p).errors.seqDiscards
      ((s.discardPacket p).clearCounters.link p).errors.seqDiscards ∧
    OneOfTwo (s.clearCounters.link p).stray.errors.strayAcks
      ((s.setLink p (s.link p).stray).clearCounters.link p).errors.strayAcks ∧
    OneOfTwo (s.clearCounters.link p).dropped.errors.linkDrops
      ((s.setLink p (s.link p).dropped).clearCounters.link p).errors.linkDrops) ∧
  (∀ g (s : State), s.refresh.debt.get g = 8 →
    OneOfTwo ((s.clearCounters.groupExpires g).refresh.missed.get g) ((s.groupExpires g).clearCounters.refresh.missed.get g)) ∧
  (∀ f l w d (s : State),
    OneOfTwo (State.countWord f l s.clearCounters (w, .corrected d)).checks.corrected
      (State.countWord f l s (w, .corrected d)).clearCounters.checks.corrected ∧
    OneOfTwo (State.countWord f l s.clearCounters (w, .uncorrectable)).checks.uncorrectable
      (State.countWord f l s (w, .uncorrectable)).clearCounters.checks.uncorrectable)

/-- A GET returns the item its code and parameter name (Tables 58 and 59), as it stands, with OK, and changes no register of the part; a
parameter out of range, and a code that names no readable item, WAKE_CLEAR's 8 and COUNTERS_CLEAR's 9 included, is MALFORMED with no data. Its
admission ends SETTLING, and abandons ENTERING with the RETENTION marks withdrawn (`Answered`); a RETAINED or WAKING part stays so. -/
def Obligations.GetReturnsItsItem : Prop :=
  (∀ i dt p c r x s, getRow i = some (dt, p, c, r) → ControlReady s p r →
    (c.toNat = 13 ∨ c.toNat = 14 ∨ 17 ≤ c.toNat ∧ c.toNat ≤ 21 → ∃ y rest, r.body = y :: rest ∧ x = some y.toNat) →
    (¬ (c.toNat = 13 ∨ c.toNat = 14 ∨ 17 ≤ c.toNat ∧ c.toNat ≤ 21) → x = none) →
    ∃ t, exec i s = .next t ∧
      (∀ v, ItemOf t c.toNat x v → Answered (s.passTime dt) t p r.tag (.get c.toNat x) ⟨.ok, .item v⟩) ∧
      (∀ y, x = some y → ParamOutOfRange c.toNat y →
        Answered (s.passTime dt) t p r.tag (.get c.toNat x) ⟨.malformed, .none⟩) ∧
      ((∃ v, ItemOf t c.toNat x v) ∨ ∃ y, x = some y ∧ ParamOutOfRange c.toNat y) ∧
      t.claim = s.claim ∧ t.settings = s.settings ∧ t.refresh = s.refresh ∧ t.checks = s.checks ∧ t.scrub = s.scrub ∧
      t.remap = s.remap ∧ t.repairQueue = s.repairQueue ∧ t.currentJob = s.currentJob ∧ t.notices = s.notices ∧
      t.quiet.votes = s.quiet.votes ∧ t.quiet.wakeRecord = s.quiet.wakeRecord ∧ t.regions = s.regions ∧
      (∀ q, (t.link q).errors = (s.link q).errors) ∧ (s.asleep = true → t.quiet = s.quiet)) ∧
  (∀ dt p r c rest s, ControlReady s p r → r.body = c :: rest →
    ¬ (1 ≤ c.toNat ∧ c.toNat ≤ 7 ∨ 10 ≤ c.toNat ∧ c.toNat ≤ 23) →
    ∃ t, exec (.getUnknownItem dt p r) s = .next t ∧
      Answered (s.passTime dt) t p r.tag (.get c.toNat none) ⟨.malformed, .none⟩ ∧ ItemsKept s t ∧
      (s.asleep = true → t.quiet = s.quiet))

/-- A SET whose code names no item of Table 58, and a GET whose code names no readable item, are answered MALFORMED and change no register of
the part: the settings, the claim, the counts, the wake record and every other item a GET reads stand, but for the part state, whose SETTLING
or ENTERING the admission itself ends. -/
def Obligations.UnknownItemsAreMalformed : Prop :=
  (∀ dt p r c v0 v1 rest s, ControlReady s p r → r.body = c :: v0 :: v1 :: rest → isSetCode c = false →
    ∃ t, exec (.setUnknownItem dt p r) s = .next t ∧
      Answered (s.passTime dt) t p r.tag (.set c.toNat (v0.toNat + 256 * v1.toNat)) ⟨.malformed, .none⟩ ∧
      ItemsKept s t) ∧
  (∀ dt p r c rest s, ControlReady s p r → r.body = c :: rest → isGetCode c = false →
    ∃ t, exec (.getUnknownItem dt p r) s = .next t ∧
      Answered (s.passTime dt) t p r.tag (.get c.toNat none) ⟨.malformed, .none⟩ ∧ ItemsKept s t)

/-! ## Array commands -/

/-- OPEN and OPEN_SPARE, when the arbiter issues them: the bank moves to OPENING at the row, its streak is 0, its open-age timer starts, the
activation window takes the instant and keeps the last four, and the path is occupied for 1.25 ns; nothing else changes. -/
def Obligations.OpenStartsTheRow : Prop :=
  ∀ (c : Instr) (g : Grant) dt b row (sp : Option SpareId) s, (s.passTime dt).arbiterChoice = some g →
    (c = .openRow dt b row ∧ g.cmd = .openRow b row ∧ sp = none ∨
      ∃ i, c = .openSpare dt b i ∧ g.cmd = .openSpare b i row ∧ sp = some i) →
    exec c s = .next { s.passTime dt with
      window := if s.window.length < 4 then s.window ++ [(s.passTime dt).now] else s.window.tail ++ [(s.passTime dt).now]
      pathBusy := some ((s.passTime dt).now + 5)
      banks := s.banks.set b { s.bank b with
        state := .opening, openRow := some row, servedBy := sp, streak := 0, firstStart := false
        lastOpen := some (s.passTime dt).now, openAge := .running ((s.passTime dt).now + us 40), idle := .stopped
        idleReset := false } }

/-- CLOSE, when the arbiter issues it: the bank moves to CLOSING with no open row, its timers stop and its marks are emptied; the CLOSE of
bank 15 after the last line's write ends the initial sweep, and no other does. -/
def Obligations.CloseEndsTheRow : Prop :=
  ∀ g dt b s, (s.passTime dt).arbiterChoice = some g → g.cmd = .close b →
    (¬ (b = 15 ∧ s.scrub.sweepDone = false ∧ s.scrub.sweepAt = 33554432) →
      exec (.close dt b) s = .next { s.passTime dt with
        pathBusy := some ((s.passTime dt).now + 5)
        banks := s.banks.set b { s.bank b with
          state := .closing, lastClose := some (s.passTime dt).now, openRow := none, servedBy := none, idle := .stopped
          openAge := .stopped, marks := ⟨false, false, false, false⟩, resetClose := false, idleReset := false } }) ∧
    (b = 15 → s.scrub.sweepDone = false → s.scrub.sweepAt = 33554432 → ∃ t, exec (.close dt b) s = .next t ∧
      (t.bank 15).state = .closing ∧ t.scrub.sweepDone = true ∧ t.scrub.pointer = 0 ∧ t.scrub.passes = 0 ∧
      (s.settings.scrubInterval ≠ 0 → t.scrub.timer = some ((s.passTime dt).now + us s.settings.scrubInterval)) ∧
      t.mem = s.mem)

/-- A READ_LINE for a request record. The words' outcomes are those of Table 37; CORRECTED and UNCORRECTABLE words are written back in the
same command; the two counts rise, the fault list notes each corrected word, and the INTEGRITY notices go out; a count that reaches the
threshold is advised and, with AUTO_REPAIR 1, starts, queues or drops a SOFT job, or merges with one. A READ, and a WRITE_PART that merges,
keeps the eight checked words and counts the line (notes/assumptions/15.md); the last line of a READ makes it DONE, POISONED if a word was,
and a detached one ends; its region counts one record less, and where it was the last that a DRAINING region counts the drain ends
(`EndsAtRead`): the replacement is in force, the REGION_SET that waited is DONE with OK, and the watches are rechecked, the CANCELLED
notices after those of the read (the model's choice, notes/assumptions/10.md). A first access counts in the bank's streak, and an EXPIRED
idle timer becomes STOPPED. `flips` are the bits gone wrong before the read (the model's choice, notes/assumptions/9.md); `u` is the state
before the blocks are evaluated anew. -/
def Obligations.ReadLineServesARead : Prop :=
  ∀ dt b line flips r l s, (s.passTime dt).arbiterChoice = some ⟨.readLine b line, .request r⟩ → s.lineOf b line = some l →
    ∃ (u : State) (os : List WordOutcome) (base : Nat) (m : Memory),
      exec (.readLine dt b line flips) s = .next u.settle ∧ base = s.openLine l ∧
      m = s.mem.flipBits base flips ∧ os = m.readLine s.freeCount base ∧ OutcomesOf m base os ∧
      u.mem = m.writeBack base (allWords.zip os) ∧ u.settle.mem = u.mem ∧
      u.settle.pathBusy = some ((s.passTime dt).now + 5) ∧ (u.bank (lineBank l)).lastRead = some (s.passTime dt).now ∧
      RequestReaches s u (lineBank l) r ∧ Counted s u os ∧
      (∀ f ns, ReadNoted l s.settings.faultThreshold s.stampCounter (allWords.zip os) s.checks.faults f ns →
        u.checks.faults = f ∧
        (s.settings.autoRepair ≠ 1 → r.posted = false ∨ (∃ a mask data, r.op = .writePart a mask data) →
          (∀ g x, ¬ EndsDrain s r g x) ∨ (∃ a n, r.op = .read a n ∧ r.linesDone + 1 < n) ∨
            (∃ a mask data, r.op = .writePart a mask data) →
          ∀ q, u.noticeQ q = s.told Enables.integrity ns q)) ∧
      (∀ f, s.settings.autoRepair = 1 → correctedIn os = 1 →
        FaultNoted s.checks.faults (lineBank l) (lineRow l) s.stampCounter f (some s.settings.faultThreshold) →
        ((∃ j ∈ s.repairQueue, j.bank = lineBank l ∧ j.row = lineRow l) →
          u.repairQueue = s.repairQueue ∧ u.currentJob = s.currentJob) ∧
        ((∀ j ∈ s.repairQueue, ¬ (j.bank = lineBank l ∧ j.row = lineRow l)) →
          (∀ c, s.currentJob = some c → u.currentJob = s.currentJob ∧
            (c.job.bank = lineBank l ∧ c.job.row = lineRow l ∨ 4 ≤ s.repairQueue.length →
              u.repairQueue = s.repairQueue) ∧
            (¬ (c.job.bank = lineBank l ∧ c.job.row = lineRow l) → s.repairQueue.length < 4 →
              u.repairQueue = s.repairQueue ++ [⟨lineBank l, lineRow l, .soft, []⟩])) ∧
          (s.currentJob = none → s.repairQueue = [] → u.repairQueue = [] ∧
            (∀ sp, s.freeSpare (lineBank l) = some sp → (u.bank (lineBank l)).marks.repair = true ∧
              u.currentJob = some
                { job := ⟨lineBank l, lineRow l, .soft, []⟩, chosen := sp
                  previous := s.servingSpare (lineBank l) (lineRow l), phase := .wait, linesRead := 0
                  linesWritten := 0, poisonedWords := 0, programEnds := none }) ∧
            (s.freeSpare (lineBank l) = none → u.currentJob = none)))) ∧
      (∀ a n, r.op = .read a n ∧ r.linesDone + 1 < n ∨ (∃ mask data, r.op = .writePart a mask data) →
        NoJobBehind s os →
        (∀ p, u.queue p = (s.queue p).map (fun q => if q.stamp = r.stamp then
          { q with state := .active, blocked := none, linesDone := q.linesDone + 1
                   readLines := q.readLines ++ [os.map WordOutcome.checked] } else q)) ∧
        u.detached = s.detached.map (fun q => if q.stamp = r.stamp then
          { q with state := .active, blocked := none, linesDone := q.linesDone + 1
                   readLines := q.readLines ++ [os.map WordOutcome.checked] } else q) ∧
        u.watches = s.watches ∧ (s.settings.autoRepair ≠ 1 → u.holds = s.holds)) ∧
      (∀ a n, r.op = .read a n → n ≤ r.linesDone + 1 →
        (NoJobBehind s os → r.posted = false → s.Sole r → DoneWith u r (s.passTime dt).now
          ⟨if ∃ ws ∈ r.readLines ++ [os.map WordOutcome.checked], CheckedWord.poisoned ∈ ws then .poisoned else .ok,
            .lines (r.readLines ++ [os.map WordOutcome.checked])⟩) ∧
        (NoJobBehind s os → r.posted = false → EndsAtRead s u r l os (s.passTime dt).now s.watches) ∧
        ((∀ q ∈ s.queue r.port, q.stamp ≠ r.stamp) → ∀ x ∈ u.detached, x.stamp ≠ r.stamp) ∧
        (∀ g, r.region = some g → (u.region g).inFlight = (s.region g).inFlight - 1))

/-- A READ_LINE for an atomic: it takes its hold and stays ACTIVE if it will write; a COMPARE_SWAP that misses, and an atomic on a poisoned
word, write nothing, take no hold (notes/assumptions/27.md) and are DONE with CAS_MISS or POISONED, leaving their region and ending its
drain as a READ does (`EndsAtRead`, the order of its notices notes/assumptions/10.md). A line without CORRECTED and UNCORRECTABLE words is
not written back. Its first access counts in the bank's streak, and an EXPIRED idle timer becomes STOPPED. A STARTED or PENDING scrub step of
the line that the hold takes is skipped (stated where no control record is to be carried out: the pointer moves on and the step timer starts).
`flips` are the bits gone wrong before the read (the model's choice, notes/assumptions/9.md). -/
def Obligations.ReadLineServesAnAtomic : Prop :=
  ∀ dt b line flips r a l s, (s.passTime dt).arbiterChoice = some ⟨.readLine b line, .request r⟩ →
    ((∃ x, r.op = .fetchAdd a x) ∨ (∃ x, r.op = .swap a x) ∨ (∃ c x, r.op = .compareSwap a c x)) →
    s.lineOf b line = some l → r.posted = false → s.Sole r →
    ∃ (u : State) (old : CheckedWord) (m : Memory), exec (.readLine dt b line flips) s = .next u.settle ∧
      m = s.mem.flipBits (s.openLine l) flips ∧ ReadsAs m (wordCell (s.openLine l) (addrWord a)) old ∧
      RequestReaches s u (lineBank l) r ∧
      ((∀ w, m.mark (wordCell (s.openLine l) w) = .good ∨ m.mark (wordCell (s.openLine l) w) = .poison ∨
          m.mark (wordCell (s.openLine l) w) = .poisonOne) → u.mem = m) ∧
      (∀ x, r.op.newWord old = some x → ⟨l, .request r.port r.stamp⟩ ∈ u.holds ∧
        (s.settings.autoRepair ≠ 1 → u.holds = s.holds ++ [⟨l, .request r.port r.stamp⟩]) ∧
        (NoJobBehind s (m.readLine s.freeCount (s.openLine l)) →
          (∃ q ∈ u.queue r.port, q.stamp = r.stamp ∧ q.state = .active ∧ q.op = r.op) ∧
          (NoneToCarryOut s → (s.scrub.step = .started ∨ s.scrub.step = .pending) → s.scrub.pointer = l →
            StepEnded s u.settle (s.passTime dt).now))) ∧
      (r.op.newWord old = none → (s.settings.autoRepair ≠ 1 → u.holds = s.holds) ∧
        (NoJobBehind s (m.readLine s.freeCount (s.openLine l)) →
          (old = .poisoned → DoneWith u r (s.passTime dt).now ⟨.poisoned, .none⟩) ∧
          (∀ w, old = .data w → DoneWith u r (s.passTime dt).now ⟨.casMiss, .oldWord w⟩) ∧
          EndsAtRead s u r l (m.readLine s.freeCount (s.openLine l)) (s.passTime dt).now s.watches)) ∧
      (old = .poisoned → r.op.newWord old = none) ∧
      (∀ w x, old = .data w → r.op = .fetchAdd a x → r.op.newWord old = some (w + x)) ∧
      (∀ w x, old = .data w → r.op = .swap a x → r.op.newWord old = some x) ∧
      (∀ w c x, old = .data w → r.op = .compareSwap a c x → r.op.newWord old = if w = c then some x else none)

/-- A READ_LINE for a WATCH finds its port's entry, or arms one with the lowest free id, or answers TABLE_FULL where the port owns 16
entries or none of the 32 is free, in that order, and returns the addressed word; a poisoned word makes it POISONED where it has an entry,
and no word is returned. The table stands as that says (`w0`) unless the record's end also ends its region's drain, with its recheck
(`EndsAtRead`, the order of its notices notes/assumptions/10.md). Its access counts in the bank's streak, and an EXPIRED idle timer becomes
STOPPED. `flips` are the bits gone wrong before the read (the model's choice, notes/assumptions/9.md). -/
def Obligations.ReadLineArmsAWatch : Prop :=
  ∀ dt b line flips r a l s, (s.passTime dt).arbiterChoice = some ⟨.readLine b line, .request r⟩ → r.op = .watch a →
    s.lineOf b line = some l → r.posted = false → s.Sole r →
    ∃ (u : State) (x : CheckedWord) (w : Option Word) (m : Memory) (st : Status) (w0 : Table 32 (Option Watch)),
      exec (.readLine dt b line flips) s = .next u.settle ∧ m = s.mem.flipBits (s.openLine l) flips ∧
      ReadsAs m (wordCell (s.openLine l) (addrWord a)) x ∧ RequestReaches s u (lineBank l) r ∧
      (x = .poisoned → w = none ∧ st = .poisoned) ∧ (∀ d, x = .data d → w = some d ∧ st = .ok) ∧
      (NoJobBehind s (m.readLine s.freeCount (s.openLine l)) →
        (∀ i, OwnsWatch s r.port l i → DoneWith u r (s.passTime dt).now ⟨st, .watch (some i) w⟩) ∧
        ((∀ i, s.watches.get i ≠ some ⟨r.port, l⟩) → (16 ≤ watchesOf s r.port ∨ ∀ i, s.watches.get i ≠ none) →
          DoneWith u r (s.passTime dt).now ⟨.tableFull, .watch none w⟩) ∧
        (∀ i, (∀ j, s.watches.get j ≠ some ⟨r.port, l⟩) → watchesOf s r.port < 16 → LowestFree s i →
          DoneWith u r (s.passTime dt).now ⟨st, .watch (some i) w⟩) ∧
        EndsAtRead s u r l (m.readLine s.freeCount (s.openLine l)) (s.passTime dt).now w0) ∧
      ((∃ i, OwnsWatch s r.port l i) → ∀ j, w0.get j = s.watches.get j) ∧
      ((∀ i, s.watches.get i ≠ some ⟨r.port, l⟩) → (16 ≤ watchesOf s r.port ∨ ∀ i, s.watches.get i ≠ none) → w0 = s.watches) ∧
      (∀ i, (∀ j, s.watches.get j ≠ some ⟨r.port, l⟩) → watchesOf s r.port < 16 → LowestFree s i →
        w0 = s.watches.set i (some ⟨r.port, l⟩)) ∧
      ((∀ g x, ¬ EndsDrain s r g x) → u.watches = w0)

/-- A WRITE_LINE for a request record stores the words it enables, whole and with good check bits or the poison mark, and fires every other
port's watch on the line, with WATCH_ENDED to its owner; the write instant is the bank's, the path is occupied, the record's hold is
released, a first access counts in the bank's streak, and an EXPIRED idle timer becomes STOPPED. A WRITE that has more lines stays ACTIVE
with one more line done; the last WRITE_LINE makes the record DONE with its result, takes a posted one from its queue, an ERROR notice
telling its port where the result is POISONED, and ends a detached one. `w0` and `nq` are the watch table and the notice queues after that.
The record's region then counts one record less, and where it was the last that a DRAINING region counts the drain ends (`LeftRegion`): the
replacement is in force, the REGION_SET that waited is DONE with OK, and the watches are rechecked, the CANCELLED notices after those of the
write (the model's choice, notes/assumptions/10.md). -/
def Obligations.WriteLineStoresItsWords : Prop :=
  ∀ dt b line r l s, (s.passTime dt).arbiterChoice = some ⟨.writeLine b line, .request r⟩ → s.lineOf b line = some l →
    ∃ (u : State) (w0 : Table 32 (Option Watch)) (nq : Port → NoticeQueue), exec (.writeLine dt b line) s = .next u.settle ∧
      u.settle.mem = s.mem.storeLine (s.openLine l) r.writeWords ∧
      u.settle.pathBusy = some ((s.passTime dt).now + 5) ∧ (u.bank (lineBank l)).lastWrite = some (s.passTime dt).now ∧
      RequestReaches s u (lineBank l) r ∧
      (∀ (i : WatchId) (w : Watch), w0.get i = some w ↔ s.watches.get i = some w ∧ (w.line ≠ l ∨ w.owner = r.port)) ∧
      (∀ (i : WatchId) (w : Watch), u.watches.get i = some w → w0.get i = some w) ∧
      (∀ q, q ≠ r.port →
        (∀ i, WatchesBounded s → s.watches.get i = some ⟨q, l⟩ → s.online q = true →
          nq q = (s.noticeQ q).joined (.watchEnded i l (.written r.port))) ∧
        ((∀ i, s.watches.get i ≠ some ⟨q, l⟩) → nq q = s.noticeQ q)) ∧
      ((∀ g x, ¬ EndsDrain s r g x) → u.watches = w0 ∧ ∀ q, u.noticeQ q = nq q) ∧
      (∀ e ∈ u.holds, e.holder ≠ .request r.port r.stamp) ∧
      (∀ a n data, r.op = .write a n data →
        r.writeWords = allWords.map (fun w => (w, .data (data.getD (8 * r.linesDone + w.val) 0)))) ∧
      (∀ a mask data, r.op = .writePart a mask data → ∀ (w : WordIx) (x : CheckedWord),
        (w, x) ∈ r.writeWords ↔ PartStored (mask.getD w.val 0) (data.getD w.val 0) (r.oldWord w) x) ∧
      (∀ a x, ((∃ d, r.op = .fetchAdd a d) ∨ (∃ d, r.op = .swap a d) ∨ (∃ d e, r.op = .compareSwap a d e)) →
        r.op.newWord (r.oldWord (addrWord a)) = some x → r.writeWords = [(addrWord a, .data x)]) ∧
      (∀ a n data, r.op = .write a n data → r.linesDone + 1 < n →
        (∀ p, u.queue p = (s.queue p).map (fun q => if q.stamp = r.stamp then
          { q with state := .active, blocked := none, linesDone := q.linesDone + 1 } else q)) ∧
        u.detached = s.detached.map (fun q => if q.stamp = r.stamp then
          { q with state := .active, blocked := none, linesDone := q.linesDone + 1 } else q) ∧
        u.watches = w0 ∧ (∀ q, u.noticeQ q = nq q) ∧ nq r.port = s.noticeQ r.port ∧ u.regions = s.regions) ∧
      ((∀ a n data, r.op = .write a n data → n ≤ r.linesDone + 1) → ∃ res : Result,
        (∀ a n data, r.op = .write a n data → res = ⟨.ok, .none⟩) ∧
        (∀ a mask data, r.op = .writePart a mask data → res =
          ⟨if ∃ w : WordIx, mask.getD w.val 0 ≠ 0 ∧ mask.getD w.val 0 ≠ 0xFF ∧ r.oldWord w = .poisoned then .poisoned else .ok,
            .none⟩) ∧
        (∀ a w, ((∃ d, r.op = .fetchAdd a d) ∨ (∃ d, r.op = .swap a d)) → r.oldWord (addrWord a) = .data w →
          res = ⟨.ok, .oldWord w⟩) ∧
        (∀ a c x w, r.op = .compareSwap a c x → r.oldWord (addrWord a) = .data w →
          res = ⟨if w = c then .ok else .casMiss, .oldWord w⟩) ∧
        LeftRegion s u r (s.passTime dt).now w0 nq ∧
        (r.posted = false → s.Sole r → DoneWith u r (s.passTime dt).now res ∧ nq r.port = s.noticeQ r.port) ∧
        (r.posted = true → s.Sole r → (∀ q ∈ u.queue r.port, q.stamp ≠ r.stamp) ∧ nq r.port =
          if s.online r.port = true ∧ res.status ≠ .ok then (s.noticeQ r.port).joined (.error r.tag res.status)
          else s.noticeQ r.port) ∧
        ((∀ q ∈ s.queue r.port, q.stamp ≠ r.stamp) →
          nq r.port = s.noticeQ r.port ∧ ∀ x ∈ u.detached, x.stamp ≠ r.stamp))

/-- A WRITE_LINE of the initial sweep stores eight zero words and advances the sweep by one line; one of the scrubber stores its kept words
and ends its step; one of the repair job stores a line of its buffer (poisoned where the buffer has none, as after a warm reset, R145) and
counts it with its poisoned words. A step that ends moves the pointer on, counts a pass at the wrap and starts the step timer anew
(`StepEnded`). None fires a watch. A READ_LINE of the scrubber writes nothing back: with nothing to correct its step ends, else it keeps the
words to correct under a hold, or is PENDING for one; with AUTO_REPAIR 1 a row that reaches the threshold merges with a job, queues one or
drops it behind the current job, or starts one, which takes the bank and ends the step; that the step ends with its correction dropped also
where no spare is FREE rests on the model's choice that the hold is asked before the job starts (notes/assumptions/32.md). One of the repair
job puts the checked line into the buffer and notes no fault. Both count, and send their INTEGRITY notices. That bits go wrong before a read
as `flips` says is the model's choice (notes/assumptions/9.md). -/
def Obligations.BackgroundWritesFireNothing : Prop :=
  (∀ dt b line src l s, (s.passTime dt).arbiterChoice = some ⟨.writeLine b line, src⟩ → s.lineOf b line = some l →
    (src = .sweep → ∃ t : State, exec (.writeLine dt b line) s = .next t ∧ t.watches = s.watches ∧ t.holds = s.holds ∧
      t.mem = s.mem.storeLine (s.openLine l) (allWords.map (fun w => (w, .data 0))) ∧
      t.scrub.sweepAt = s.scrub.sweepAt + 1 ∧ t.checks = s.checks) ∧
    (src = .scrubber → ∃ u : State, exec (.writeLine dt b line) s = .next u.settle ∧ u.watches = s.watches ∧
      u.mem = s.mem.storeLine (s.openLine l) s.scrub.kept ∧ StepEnded s u (s.passTime dt).now ∧ (∀ e ∈ u.holds, e.holder ≠ .scrubber)) ∧
    (∀ c, src = .repair → s.currentJob = some c → ∃ (t : State) (ws : List (WordIx × CheckedWord)),
      exec (.writeLine dt b line) s = .next t ∧ t.watches = s.watches ∧ t.mem = s.mem.storeLine (s.openLine l) ws ∧
      (∀ line8, s.repairBuffer[c.linesWritten]? = some line8 → ws = allWords.map (fun w => (w, line8.getD w.val .poisoned))) ∧
      (s.repairBuffer[c.linesWritten]? = none → ws = allWords.map (fun w => (w, .poisoned))) ∧
      t.currentJob = some { c with
        linesWritten := c.linesWritten + 1
        poisonedWords := c.poisonedWords + (ws.filter (fun x => decide (x.2 = .poisoned))).length } ∧
      (t.bank (lineBank l)).lastWrite = some (s.passTime dt).now ∧ t.pathBusy = some ((s.passTime dt).now + 5) ∧
      t.repairBuffer = s.repairBuffer ∧ t.repairQueue = s.repairQueue ∧ t.scrub = s.scrub ∧ t.holds = s.holds ∧
      t.queues = s.queues ∧ t.notices = s.notices)) ∧
  (∀ dt b line flips l s, (s.passTime dt).arbiterChoice = some ⟨.readLine b line, .scrubber⟩ →
    s.lineOf b line = some l → ∃ (u : State) (os : List WordOutcome),
      exec (.readLine dt b line flips) s = .next u.settle ∧ u.mem = s.mem.flipBits (s.openLine l) flips ∧
      os = u.mem.readLine s.freeCount (s.openLine l) ∧ OutcomesOf u.mem (s.openLine l) os ∧ Counted s u os ∧
      (∀ f ns, ReadNoted l s.settings.faultThreshold s.stampCounter (allWords.zip os) s.checks.faults f ns →
        u.checks.faults = f ∧
        (s.settings.autoRepair ≠ 1 ∨ s.currentJob ≠ none → ∀ q, u.noticeQ q = s.told Enables.integrity ns q)) ∧
      u.watches = s.watches ∧ (u.bank (lineBank l)).lastRead = some (s.passTime dt).now ∧
      (NoJobBehind s os → u.queues = s.queues) ∧
      (s.settings.autoRepair ≠ 1 ∨ correctedIn os = 0 ∨ s.currentJob ≠ none →
        (correctedIn os = 0 ∧ uncorrectableIn os = [] → StepEnded s u (s.passTime dt).now ∧ u.holds = s.holds) ∧
        (¬ (correctedIn os = 0 ∧ uncorrectableIn os = []) → u.scrub.pointer = s.scrub.pointer ∧
          ((s.holds.length < 8 ∧ (∀ e ∈ s.holds, e.line ≠ l) ∧ (∀ q ∈ s.records, q.accessesLater l = false) ∧
              s.repairPhase (lineBank l) = none) →
            u.scrub.step = .holding ∧ u.holds = s.holds ++ [⟨l, .scrubber⟩] ∧
            ∀ w x, (w, x) ∈ u.scrub.kept ↔
              (os[w.val]? = some .uncorrectable ∧ x = .poisoned) ∨ ∃ d, os[w.val]? = some (.corrected d) ∧ x = .data d) ∧
          (¬ (s.holds.length < 8 ∧ (∀ e ∈ s.holds, e.line ≠ l) ∧ (∀ q ∈ s.records, q.accessesLater l = false) ∧
              s.repairPhase (lineBank l) = none) →
            u.scrub.step = .pending ∧ u.scrub.kept = [] ∧ u.holds = s.holds))) ∧
      (∀ f ns, ReadNoted l s.settings.faultThreshold s.stampCounter (allWords.zip os) s.checks.faults f ns →
        (s.settings.autoRepair ≠ 1 ∨ .repairAdvised (lineBank l) (lineRow l) ∉ ns →
          u.repairQueue = s.repairQueue ∧ u.currentJob = s.currentJob) ∧
        (s.settings.autoRepair = 1 → .repairAdvised (lineBank l) (lineRow l) ∈ ns →
          ((∃ j ∈ s.repairQueue, j.bank = lineBank l ∧ j.row = lineRow l) →
            u.repairQueue = s.repairQueue ∧ u.currentJob = s.currentJob) ∧
          ((∀ j ∈ s.repairQueue, ¬ (j.bank = lineBank l ∧ j.row = lineRow l)) →
            (∀ c, s.currentJob = some c → u.currentJob = s.currentJob ∧
              (c.job.bank = lineBank l ∧ c.job.row = lineRow l ∨ 4 ≤ s.repairQueue.length →
                u.repairQueue = s.repairQueue) ∧
              (¬ (c.job.bank = lineBank l ∧ c.job.row = lineRow l) → s.repairQueue.length < 4 →
                u.repairQueue = s.repairQueue ++ [⟨lineBank l, lineRow l, .soft, []⟩])) ∧
            (s.currentJob = none → s.repairQueue = [] → u.repairQueue = [] ∧ StepEnded s u (s.passTime dt).now ∧
              (∀ e ∈ u.holds, e.holder ≠ .scrubber) ∧
              (∀ sp, s.freeSpare (lineBank l) = some sp → (u.bank (lineBank l)).marks.repair = true ∧
                u.currentJob = some
                  { job := ⟨lineBank l, lineRow l, .soft, []⟩, chosen := sp
                    previous := s.servingSpare (lineBank l) (lineRow l), phase := .wait, linesRead := 0
                    linesWritten := 0, poisonedWords := 0, programEnds := none }) ∧
              (s.freeSpare (lineBank l) = none → u.currentJob = none)))))) ∧
  (∀ dt b line flips l c s, (s.passTime dt).arbiterChoice = some ⟨.readLine b line, .repair⟩ →
    s.lineOf b line = some l → s.currentJob = some c → ∃ (t : State) (os : List WordOutcome),
      exec (.readLine dt b line flips) s = .next t ∧ t.mem = s.mem.flipBits (s.openLine l) flips ∧
      os = t.mem.readLine s.freeCount (s.openLine l) ∧ OutcomesOf t.mem (s.openLine l) os ∧ Counted s t os ∧
      t.checks.faults = s.checks.faults ∧
      (∀ q, t.noticeQ q = s.told Enables.integrity (uncorrectableNotices l os) q) ∧
      t.repairBuffer = s.repairBuffer ++ [os.map WordOutcome.checked] ∧
      t.currentJob = some { c with linesRead := c.linesRead + 1 } ∧
      (t.bank (lineBank l)).lastRead = some (s.passTime dt).now ∧ t.pathBusy = some ((s.passTime dt).now + 5) ∧
      t.queues = s.queues ∧ t.holds = s.holds ∧ t.watches = s.watches ∧ t.repairQueue = s.repairQueue ∧
      t.scrub = s.scrub)

/-- REFRESH_GROUP, when the arbiter issues it: the group's CLOSED banks move to REFRESHING, all four take the instant, the debt falls by 1 and
the urgent instant becomes absent; no data changes. -/
def Obligations.RefreshGroupPaysItsDebt : Prop :=
  ∀ x dt g s, (s.passTime dt).arbiterChoice = some x → x.cmd = .refreshGroup g →
    ∃ t, exec (.refreshGroup dt g) s = .next t ∧ t.refresh.debt.get g = s.refresh.debt.get g - 1 ∧
      t.refresh.urgentAt.get g = none ∧ (∀ k, k ≠ g → t.refresh.debt.get k = s.refresh.debt.get k) ∧
      (∀ b, groupOf b = g → (t.bank b).lastRefresh = some (s.passTime dt).now ∧
        (t.bank b).state = if (s.bank b).state = .closed then .refreshing else (s.bank b).state) ∧
      (∀ b, groupOf b ≠ g → t.bank b = s.bank b) ∧ t.pathBusy = some ((s.passTime dt).now + 5) ∧
      t.window = s.window ∧ t.mem = s.mem ∧ t.queues = s.queues ∧ t.watches = s.watches ∧ t.scrub = s.scrub

/-- RETAIN commits the entry: every bank is RETAINED, the quarter timer and the step timer stop, debts and urgent instants keep their values,
and QUIET_STATE RETAINED goes to the ports that enable it; RESUME starts the 10 µs wake timer and moves no bank. -/
def Obligations.RetainAndResume : Prop :=
  (∀ x dt s, (s.passTime dt).arbiterChoice = some x → x.cmd = .retain →
    ∃ t, exec (.retain dt) s = .next t ∧ t.quiet.part = .retained ∧ (∀ b, (t.bank b).state = .retained) ∧
      (∀ b, (s.bank b).state = .closed) ∧ (∀ g, s.refresh.debt.get g ≤ 0) ∧
      t.refresh.debt = s.refresh.debt ∧ t.refresh.urgentAt = s.refresh.urgentAt ∧ t.refresh.missed = s.refresh.missed ∧
      t.refresh.quarter = none ∧ t.scrub.timer = none ∧ t.scrub.step = s.scrub.step ∧ t.window = s.window ∧
      t.mem = s.mem ∧ t.queues = s.queues ∧ (∀ p, t.noticeQ p = s.told Enables.quietState [.quietRetained] p)) ∧
  (∀ x dt s, (s.passTime dt).arbiterChoice = some x → x.cmd = .resume →
    s.quiet.part = .waking ∧ (∀ b, (s.bank b).state = .retained) ∧
    exec (.resume dt) s = .next { s.passTime dt with
      pathBusy := some ((s.passTime dt).now + 5)
      quiet := { s.quiet with wakeTimer := some ((s.passTime dt).now + us 10) } })

/-- PROGRAM_SOFT and PROGRAM_FUSE start the running job's programming, 1 µs and 200 µs long; a fused one makes its chosen spare RETIRED_FUSED
at once, a soft one leaves the remap table. -/
def Obligations.ProgrammingStarts : Prop :=
  ∀ x dt b sp c s, (s.passTime dt).arbiterChoice = some x → s.currentJob = some c →
    (x.cmd = .programSoft b sp → exec (.programSoft dt b sp) s = .next { s.passTime dt with
      pathBusy := some ((s.passTime dt).now + 5)
      currentJob := some { c with phase := .program, programEnds := some ((s.passTime dt).now + us 1) } }) ∧
    (x.cmd = .programFuse b sp → exec (.programFuse dt b sp) s = .next { s.passTime dt with
      pathBusy := some ((s.passTime dt).now + 5)
      currentJob := some { c with phase := .program, programEnds := some ((s.passTime dt).now + us 200) }
      remap := s.remap.set b ((s.spares b).set sp ⟨.retiredFused, none⟩) })

/-- An array command that the arbiter does not choose changes nothing but the time. -/
def Obligations.UntakenCommandsOnlyPassTime : Prop :=
  (∀ (c : Instr) (k : ArrayCmd) dt b row line flips g sp s,
    (c = .openRow dt b row ∧ k = .openRow b row ∨ c = .close dt b ∧ k = .close b ∨
      c = .readLine dt b line flips ∧ k = .readLine b line ∨ c = .writeLine dt b line ∧ k = .writeLine b line ∨
      c = .refreshGroup dt g ∧ k = .refreshGroup g ∨ c = .retain dt ∧ k = .retain ∨ c = .resume dt ∧ k = .resume ∨
      c = .programSoft dt b sp ∧ k = .programSoft b sp ∨ c = .programFuse dt b sp ∧ k = .programFuse b sp) →
    (∀ x, (s.passTime dt).arbiterChoice = some x → x.cmd ≠ k) → exec c s = .next (s.passTime dt)) ∧
  (∀ dt b sp s, (∀ x row, (s.passTime dt).arbiterChoice = some x → x.cmd ≠ .openSpare b sp row) →
    exec (.openSpare dt b sp) s = .next (s.passTime dt))

/-! ## Expiries -/

/-- At the end of the open delay the bank is OPEN, and its idle timer starts where no record wants the row; at the end of the close delay
and of a group refresh it is CLOSED, or REPAIRING if it holds a repair phase, WAIT becoming COPY_OUT; a copy-in cut short keeps its place.
At the end of the CLOSE after the 32nd line is written the job completes: its requesters' records are DONE with OK, the bank is released,
REPAIR_DONE goes out, the fault list loses the row, and the next job with a FREE spare starts, every one before it ending NO_SPARE; `u` is
the state before the blocks are evaluated anew. -/
def Obligations.BankIntervalsEnd : Prop :=
  (∀ dt b s, (s.bank b).state = .opening → (s.passTime dt).since (s.bank b).lastOpen (ns 14) = true →
    ∃ t, exec (.openDelayEnd dt b) s = .next t ∧ (t.bank b).state = .opened ∧ (t.bank b).openRow = (s.bank b).openRow ∧
      (t.bank b).marks = (s.bank b).marks ∧ (∀ k, k ≠ b → t.bank k = s.bank k) ∧ t.mem = s.mem ∧
      (∀ row, (s.bank b).openRow = some row → (s.bank b).idle = .stopped →
        ((s.repairPhase b).isSome = true ∨ s.rowWanted b row = true → (t.bank b).idle = .stopped) ∧
        (s.repairPhase b = none → s.rowWanted b row = false →
          (t.bank b).idle = if s.settings.closeIdle = 0 then .expired
            else .running ((s.passTime dt).now + ns s.settings.closeIdle)))) ∧
  (∀ dt b s, (s.bank b).state = .closing → (s.passTime dt).since (s.bank b).lastClose (ns 14) = true →
    (∀ c, s.currentJob = some c → c.job.bank = b → c.phase = .copyIn → c.linesWritten ≠ 32) →
    ∃ t, exec (.closeDelayEnd dt b) s = .next t ∧
      (s.repairPhase b = none → (t.bank b).state = .closed) ∧
      ((s.repairPhase b).isSome = true → (t.bank b).state = .repairing) ∧
      (∀ c, s.currentJob = some c → c.job.bank = b → c.phase = .wait →
        t.currentJob = some { c with phase := .copyOut }) ∧
      (s.repairPhase b ≠ some .wait → t.currentJob = s.currentJob) ∧ t.repairBuffer = s.repairBuffer ∧
      t.repairQueue = s.repairQueue ∧ (∀ k, k ≠ b → t.bank k = s.bank k) ∧ t.mem = s.mem) ∧
  (∀ dt b c s, (s.bank b).state = .closing → (s.passTime dt).since (s.bank b).lastClose (ns 14) = true →
    s.currentJob = some c → c.job.bank = b → c.phase = .copyIn → c.linesWritten = 32 →
    s.repairQueue = [] ∨ (∃ j rest sp, s.repairQueue = j :: rest ∧ s.freeSpare j.bank = some sp) →
    ∃ u : State, exec (.closeDelayEnd dt b) s = .next u.settle ∧
      (∀ p, u.queue p = (s.queue p).map (fun x =>
        if c.job.requesters.any (fun q => decide (q.stamp = x.stamp)) = true then
          { x with state := .done, blocked := none, doneAt := some (s.passTime dt).now
                   result := some ⟨.ok, .repair (some c.chosen) c.poisonedWords⟩ } else x)) ∧
      (∀ p, u.noticeQ p = s.told Enables.repairDone
        [.repairDone b c.job.row (some c.chosen) .ok c.poisonedWords] p) ∧
      (∀ i f, u.checks.faults.get i = some f ↔ s.checks.faults.get i = some f ∧ ¬ (f.bank = b ∧ f.row = c.job.row)) ∧
      u.checks.corrected = s.checks.corrected ∧ u.checks.uncorrectable = s.checks.uncorrectable ∧
      u.repairBuffer = [] ∧ (u.bank b).marks.repair = false ∧ u.mem = s.mem ∧ u.remap = s.remap ∧
      (s.repairQueue = [] → u.repairQueue = [] ∧ u.currentJob = none ∧ (u.bank b).state = .closed ∧
        ∀ k, k ≠ b → u.bank k = s.bank k) ∧
      (∀ j rest sp, s.repairQueue = j :: rest → s.freeSpare j.bank = some sp → u.repairQueue = rest ∧
        u.currentJob = some
          { job := j, chosen := sp, previous := s.servingSpare j.bank j.row, linesRead := 0, linesWritten := 0
            poisonedWords := 0, programEnds := none
            phase := if j.bank = b ∨ (s.bank j.bank).state = .closed then .copyOut else .wait } ∧
        (u.bank b).state = if j.bank = b then .repairing else .closed)) ∧
  (∀ dt b c bad rest s, (s.bank b).state = .closing → (s.passTime dt).since (s.bank b).lastClose (ns 14) = true →
    s.currentJob = some c → c.job.bank = b → c.phase = .copyIn → c.linesWritten = 32 →
    s.repairQueue = bad ++ rest → (∀ j ∈ bad, s.freeSpare j.bank = none) →
    (∀ j ∈ rest.head?, (s.freeSpare j.bank).isSome = true) →
    ∃ u : State, exec (.closeDelayEnd dt b) s = .next u.settle ∧ u.repairQueue = rest.tail ∧ u.mem = s.mem ∧ u.remap = s.remap ∧
      (rest = [] → u.currentJob = none ∧ (u.bank b).state = .closed) ∧
      (∀ j later sp, rest = j :: later → s.freeSpare j.bank = some sp → ∃ ph, u.currentJob = some
          { job := j, chosen := sp, previous := s.servingSpare j.bank j.row, linesRead := 0, linesWritten := 0
            poisonedWords := 0, programEnds := none, phase := ph } ∧
        (j.bank = b ∨ (s.bank j.bank).state = .closed → ph = .copyOut ∧ (u.bank j.bank).state = .repairing) ∧
        (j.bank ≠ b → (s.bank j.bank).state = .opening ∨ (s.bank j.bank).state = .opened →
          ph = .wait ∧ (u.bank j.bank).marks.repair = true) ∧
        (j.bank ≠ b → (s.bank j.bank).state = .closing ∨ (s.bank j.bank).state = .refreshing → ph = .wait)) ∧
      (∀ p, u.noticeQ p = s.told Enables.repairDone
        (.repairDone b c.job.row (some c.chosen) .ok c.poisonedWords ::
          bad.map (fun j => .repairDone j.bank j.row none .noSpare 0)) p) ∧
      (∀ p, u.queue p = (s.queue p).map (fun x =>
        if bad.any (fun j => j.requesters.any (fun q => decide (q.stamp = x.stamp))) = true then
          { x with state := .done, blocked := none, doneAt := some (s.passTime dt).now
                   result := some ⟨.noSpare, .repair none 0⟩ }
        else if c.job.requesters.any (fun q => decide (q.stamp = x.stamp)) = true then
          { x with state := .done, blocked := none, doneAt := some (s.passTime dt).now
                   result := some ⟨.ok, .repair (some c.chosen) c.poisonedWords⟩ }
        else x))) ∧
  (∀ dt g s, (s.passTime dt).refreshOver g = true →
    ∃ t, exec (.groupRefreshEnd dt g) s = .next t ∧ t.mem = s.mem ∧ t.refresh = s.refresh ∧
      (∀ b, groupOf b = g → (s.bank b).state = .refreshing →
        (t.bank b).state = if (s.repairPhase b).isSome then .repairing else .closed) ∧
      (∀ c, s.currentJob = some c → groupOf c.job.bank = g → (s.bank c.job.bank).state = .refreshing → c.phase = .wait →
        t.currentJob = some { c with phase := .copyOut }) ∧
      (∀ b, groupOf b ≠ g ∨ (s.bank b).state ≠ .refreshing → t.bank b = s.bank b))

/-- A bank's idle timer becomes EXPIRED at its end; at the row-open limit the open-age timer becomes EXPIRED and the bank gains OPEN_LIMIT. -/
def Obligations.BankTimersExpire : Prop :=
  (∀ dt b s, (s.passTime dt).over (s.bank b).idle = true →
    exec (.idleTimerExpiry dt b) s = .next ((s.passTime dt).setBank b { s.bank b with idle := .expired })) ∧
  (∀ dt b s, ((s.bank b).state = .opening ∨ (s.bank b).state = .opened) → (s.passTime dt).over (s.bank b).openAge = true →
    exec (.rowOpenLimit dt b) s = .next ((s.passTime dt).setBank b { s.bank b with
      openAge := .expired, marks := { (s.bank b).marks with openLimit := true } }))

/-- At the end of programming the chosen spare serves the job's row, SOFT or FUSED by the job's mode, its previous spare is retired, and the
phase is COPY_IN. -/
def Obligations.ProgrammingBindsTheSpare : Prop :=
  ∀ dt c s, s.currentJob = some c → c.phase = .program → (s.passTime dt).reached c.programEnds = true →
    ∃ t, exec (.programmingEnd dt) s = .next t ∧
      (t.spares c.job.bank).get c.chosen =
        ⟨match c.job.mode with | .soft => .soft | .fused => .fused, some c.job.row⟩ ∧
      (∀ i, c.previous = some i → i ≠ c.chosen → (t.spares c.job.bank).get i =
        ⟨if ((s.spares c.job.bank).get i).state = .fused then .retiredFused else .retiredSoft, none⟩) ∧
      (∀ i, c.previous ≠ some i → i ≠ c.chosen → (t.spares c.job.bank).get i = (s.spares c.job.bank).get i) ∧
      (∀ b, b ≠ c.job.bank → t.spares b = s.spares b) ∧
      t.currentJob = some { c with phase := .copyIn, programEnds := none } ∧ t.mem = s.mem ∧ t.banks = s.banks

/-- At the end of the wake every bank is CLOSED with streak 0, every debt is 0, the rotation starts anew at G0, the part becomes ACTIVE and
QUIET_STATE ACTIVE goes to the ports that enable it; where no scrub step is in progress and the sweep is FINISHED, the step timer starts
with SCRUB_INTERVAL, but for 0; `u` is the state before the blocks are evaluated anew. -/
def Obligations.WakeEndsRetention : Prop :=
  ∀ dt s, s.quiet.part = .waking → (s.passTime dt).reached s.quiet.wakeTimer = true →
    ∃ u : State, exec (.wakeTimerExpiry dt) s = .next u.settle ∧ u.quiet.part = .active ∧ u.quiet.wakeTimer = none ∧
      u.quiet.wakeRecord = s.quiet.wakeRecord ∧
      (∀ p, u.noticeQ p = s.told Enables.quietState [.quietActive] p) ∧
      (∀ b, (u.bank b).state = .closed ∧ (u.bank b).streak = 0 ∧ (u.bank b).firstStart = false ∧
        (u.bank b).lastOpen = (s.bank b).lastOpen) ∧
      (∀ g, u.settle.refresh.debt.get g = 0 ∧ u.settle.refresh.urgentAt.get g = none) ∧
      u.settle.refresh.rotation = 0 ∧
      u.scrub = { s.scrub with
        timer := if s.scrub.step = .none ∧ s.scrub.sweepDone = true then
            if s.settings.scrubInterval = 0 then none else some ((s.passTime dt).now + us s.settings.scrubInterval)
          else s.scrub.timer } ∧
      u.settle.refresh.quarter = some ((s.passTime dt).now + if s.hot then ns 500 else ns 1000) ∧ u.settle.mem = s.mem

/-- At an expiry the rotation's group earns one refresh, or at debt 8 counts a missed one, with the INTEGRITY notice REFRESH_MISSED; at debt
8 reached, urgent refresh begins with the mark on the group's open banks; the rotation moves on and the next quarter has the length of
the hot mode in force. -/
def Obligations.GroupExpiryCountsDebt : Prop :=
  ∀ dt s, (s.passTime dt).reached s.refresh.quarter = true →
    ∃ t, exec (.groupExpiry dt) s = .next t ∧
      t.refresh.rotation.val = (s.refresh.rotation.val + 1) % 4 ∧
      t.refresh.quarter = some ((s.passTime dt).now + if s.hot then ns 500 else ns 1000) ∧ t.mem = s.mem ∧
      t.queues = s.queues ∧ (∀ k, k ≠ s.refresh.rotation → t.refresh.debt.get k = s.refresh.debt.get k) ∧
      (s.refresh.debt.get s.refresh.rotation < 8 →
        t.refresh.debt.get s.refresh.rotation = s.refresh.debt.get s.refresh.rotation + 1 ∧
        t.refresh.missed = s.refresh.missed ∧ t.notices = s.notices) ∧
      (s.refresh.debt.get s.refresh.rotation = 7 →
        t.refresh.urgentAt.get s.refresh.rotation = some (s.passTime dt).now ∧
        ∀ b, groupOf b = s.refresh.rotation → (s.bank b).state = .opening ∨ (s.bank b).state = .opened →
          (t.bank b).marks.urgentRefresh = true) ∧
      (8 ≤ s.refresh.debt.get s.refresh.rotation →
        t.refresh.debt.get s.refresh.rotation = s.refresh.debt.get s.refresh.rotation ∧
        t.refresh.urgentAt = s.refresh.urgentAt ∧ t.banks = s.banks ∧
        (∀ p, t.noticeQ p = s.told Enables.integrity [.refreshMissed s.refresh.rotation] p) ∧
        t.refresh.missed.get s.refresh.rotation =
          if s.refresh.missed.get s.refresh.rotation < 65535 then s.refresh.missed.get s.refresh.rotation + 1
          else s.refresh.missed.get s.refresh.rotation)

/-- A record whose age has reached AGE_LIMIT becomes aged, with every older record (R36): a record older than an aged one is itself aged; and
no other does (that the row then only lets time pass is the model's reading, notes/assumptions/16.md). The scrub step timer's end starts a
step for the line at the pointer, which ends at once if the line is held: the pointer moves on, a wrap counts a pass and the step timer
starts anew (`StepEnded`). -/
def Obligations.RecordsAgeAndScrubStepsStart : Prop :=
  (∀ dt p st s, (∃ r ∈ s.records, r.port = p ∧ r.stamp = st ∧ r.since + us s.settings.ageLimit ≤ (s.passTime dt).now) →
    exec (.recordAged dt p st) s = .next ((s.passTime dt).mapRecords (fun r =>
      if r.stamp ≤ st ∧ r.since + us s.settings.ageLimit ≤ (s.passTime dt).now then { r with aged := true } else r))) ∧
  (∀ dt p st s, (¬ ∃ r ∈ s.records, r.port = p ∧ r.stamp = st ∧ r.since + us s.settings.ageLimit ≤ (s.passTime dt).now) →
    exec (.recordAged dt p st) s = .next (s.passTime dt)) ∧
  (∀ dt s, (s.passTime dt).reached s.scrub.timer = true →
    (s.held s.scrub.pointer = false →
      exec (.scrubStepTimerExpiry dt) s = .next ((s.passTime dt).setScrub { s.scrub with timer := none, step := .started })) ∧
    (s.held s.scrub.pointer = true → ∃ t, exec (.scrubStepTimerExpiry dt) s = .next t ∧
      StepEnded s t (s.passTime dt).now))

/-- The end of the idle hold timer takes a SETTLING part into ENTERING and marks every open bank RETENTION; the end of the claim timer frees
the claim and hands CLAIM_LOST to the former holder that enables it: it joins the queue, or finds it full and is counted lost. -/
def Obligations.IdleHoldAndClaimExpire : Prop :=
  (∀ dt s, s.quiet.part = .settling → (s.passTime dt).reached s.quiet.holdTimer = true →
    ∃ t, exec (.idleHoldExpiry dt) s = .next t ∧ t.quiet.part = .entering ∧ t.quiet.holdTimer = none ∧
      (∀ b, (t.bank b).state = (s.bank b).state ∧
        ((s.bank b).state = .opening ∨ (s.bank b).state = .opened → (t.bank b).marks.retention = true) ∧
        (¬ ((s.bank b).state = .opening ∨ (s.bank b).state = .opened) → t.bank b = s.bank b)) ∧ t.mem = s.mem) ∧
  (∀ dt h s, s.claim.holder = some h → (s.passTime dt).reached s.claim.timer = true →
    ∃ t, exec (.claimTimerExpiry dt) s = .next t ∧ t.claim = ⟨none, none⟩ ∧ t.settings = s.settings ∧
      t.regions = s.regions ∧
      (s.online h = true → (s.noticeQ h).enables.claimLost = true →
        ((s.noticeQ h).queue.length < 8 → t.noticeQ h = { s.noticeQ h with queue := (s.noticeQ h).queue ++ [.claimLost] }) ∧
        (8 ≤ (s.noticeQ h).queue.length → t.noticeQ h =
          { s.noticeQ h with lost := if (s.noticeQ h).lost < 255 then (s.noticeQ h).lost + 1 else (s.noticeQ h).lost })) ∧
      ((s.noticeQ h).enables.claimLost = false ∨ s.online h = false → t.notices = s.notices) ∧
      (∀ q, q ≠ h → t.noticeQ q = s.noticeQ q))

/-! ## The arbiter -/

/-- What the arbiter issues is legal: an OPEN for a record, the scrubber or the sweep only to a CLOSED bank with no repair phase, outside
ENTERING, one of the repair job only to its REPAIRING bank; of a group not refreshing nor under urgent refresh, with the spacings and the
window expired; OPEN_SPARE for a row a spare serves, OPEN for any other; a CLOSE only of an OPEN bank after its three intervals; a line
access only to an OPEN bank at the line's row with its spacings, of a line no other holds or merges, for a record its next line; a
REFRESH_GROUP only when every bank of the group is CLOSED or REPAIRING, and never at debt −8; a programming only for the running job's
REPAIRING bank in COPY_OUT with all 32 lines read. A request's first access is issued only to a bank without close marks, and not past an
older record that bars it; a bank with an ACTIVE record is closed only for its own warm reset, where none can be left; the sweep does
nothing while a warm-reset close is still to come (notes/assumptions/13.md). -/
def Obligations.IssuedCommandsAreLegal : Prop :=
  ∀ (s : State) (g : Grant), s.arbiterChoice = some g →
    s.pathBusy = none ∧
    (∀ b row sp, g.cmd = .openRow b row ∨ g.cmd = .openSpare b sp row →
      (g.source ≠ .repair → (s.bank b).state = .closed ∧ s.repairPhase b = none ∧ s.quiet.part ≠ .entering) ∧
      (g.source = .repair → (s.bank b).state = .repairing ∧
        (s.repairPhase b = some .copyOut ∨ s.repairPhase b = some .copyIn)) ∧
      s.refresh.debt.get (groupOf b) ≠ 8 ∧
      (∀ k, groupOf k = groupOf b → (s.bank k).state ≠ .refreshing) ∧
      (∀ k i, k ≠ b → (s.bank k).lastOpen = some i →
        i + (if groupOf k = groupOf b then ns 7 else ns 5) ≤ s.now) ∧
      (∀ i, 4 ≤ s.window.length → s.window.head? = some i → i + ns 30 ≤ s.now)) ∧
    (∀ b row i, g.cmd = .openRow b row →
      ¬ ((((s.spares b).get i).state = .soft ∨ ((s.spares b).get i).state = .fused) ∧
        ((s.spares b).get i).mapped = some row)) ∧
    (∀ b sp row, g.cmd = .openSpare b sp row →
      ((((s.spares b).get sp).state = .soft ∨ ((s.spares b).get sp).state = .fused) ∧
        ((s.spares b).get sp).mapped = some row) ∨
      ∃ c, s.currentJob = some c ∧ g.source = .repair ∧ c.phase = .copyIn ∧ c.job.bank = b ∧ c.job.row = row ∧
        c.chosen = sp) ∧
    (∀ b, g.cmd = .close b → (s.bank b).state = .opened ∧
      (∀ i, (s.bank b).lastOpen = some i → i + ns 32 ≤ s.now) ∧
      (∀ i, (s.bank b).lastRead = some i → i + ns 8 ≤ s.now) ∧
      (∀ i, (s.bank b).lastWrite = some i → i + ns 15 ≤ s.now)) ∧
    (∀ b line, g.cmd = .readLine b line ∨ g.cmd = .writeLine b line → (s.bank b).state = .opened ∧
      (s.bank b).openRow.isSome = true ∧
      (∀ k i, (s.bank k).lastRead = some i ∨ (s.bank k).lastWrite = some i →
        i + (if groupOf k = groupOf b then 20 else 10) ≤ s.now)) ∧
    (∀ b line l r, g = ⟨.readLine b line, .request r⟩ → s.lineOf b line = some l → r.nextAccess = some (true, l)) ∧
    (∀ b line l r, g = ⟨.writeLine b line, .request r⟩ → s.lineOf b line = some l → r.nextAccess = some (false, l)) ∧
    (∀ b line l, g.cmd = .readLine b line ∨ g.cmd = .writeLine b line → s.lineOf b line = some l →
      (∀ r, g.source = .request r → (∀ e ∈ s.holds, e.line = l → e.holder = .request r.port r.stamp) ∧
        ∀ q ∈ s.records, q.mergesOn l = true → q.port = r.port ∧ q.stamp = r.stamp) ∧
      (g.source = .scrubber → (∀ e ∈ s.holds, e.line = l → e.holder = .scrubber) ∧
        ∀ q ∈ s.records, q.mergesOn l = false) ∧
      (g.source = .repair ∨ g.source = .sweep → (∀ e ∈ s.holds, e.line ≠ l) ∧ ∀ q ∈ s.records, q.mergesOn l = false)) ∧
    (∀ b line r, g = ⟨.readLine b line, .request r⟩ ∨ g = ⟨.writeLine b line, .request r⟩ → r ∈ s.records ∧
      (r.state = .ready ∨ r.state = .active) ∧
      (r.state = .ready → (s.bank b).marks = ⟨false, false, false, false⟩ ∧ ∀ row, (s.bank b).openRow = some row →
        ¬ Barred s r b row)) ∧
    (∀ b, g.cmd = .close b → g.source = .upkeep ∨ (g.source = .repair ∧ s.repairPhase b = some .wait) → (s.bank b).resetClose = false →
      ∀ r ∈ s.records, r.state = .active → ∀ a n, r.op.span = some (a, n) → lineBank a ≠ b) ∧
    (g.source = .sweep → s.scrub.sweepDone = false ∧ ∀ b, (s.bank b).resetClose = false) ∧
    (∀ b line k i, g.cmd = .readLine b line → (s.bank k).lastWrite = some i →
      i + (if groupOf k = groupOf b then 30 else 10) ≤ s.now) ∧
    (∀ k, g.cmd = .refreshGroup k → -8 < s.refresh.debt.get k ∧
      ∀ b, groupOf b = k → (s.bank b).state = .closed ∨ (s.bank b).state = .repairing) ∧
    (∀ b sp, g.cmd = .programSoft b sp ∨ g.cmd = .programFuse b sp → (s.bank b).state = .repairing ∧
      ∃ c, s.currentJob = some c ∧ c.job.bank = b ∧ c.chosen = sp ∧ c.phase = .copyOut ∧ 32 ≤ c.linesRead ∧
        (c.job.mode = .soft ↔ g.cmd = .programSoft b sp))

/-- With the path free, the arbiter takes the first class of Table 18 that has a legal command; with the path busy it issues nothing. What the
classes offer is spelled in `Candidate`: a CLOSE waits until no ACTIVE record is on its bank, a marked bank withholds a first access, a hit
is barred by an older record for another row that is aged or finds the streak at 8, records rank oldest first, or aged first and then
oldest, groups by debt and number, banks by number. That the sweep's writes go on in a bank that stands under a close mark is the
model's choice (notes/assumptions/12.md), and so is that a bank that awaits its warm-reset close gives no line access and that the sweep
waits for such closes (notes/assumptions/13.md). The arbiter's choice is a candidate of the lowest class that has one, and it issues
nothing exactly when no class has one. -/
def Obligations.ArbiterTakesTheFirstClass : Prop :=
  ∀ s : State, (s.pathBusy ≠ none → s.arbiterChoice = none) ∧
    (s.pathBusy = none → s.arbiterChoice =
      ([s.class1, s.class2, s.class3, s.class4, s.class5, s.class6, s.class7, s.class8, s.class9,
        s.class10].filterMap id).head?) ∧
    (s.pathBusy = none →
      (∀ g, s.arbiterChoice = some g → ∃ n, Candidate s n g ∧ ∀ m x, Candidate s m x → n ≤ m) ∧
      (s.arbiterChoice = none → ∀ n x, ¬ Candidate s n x))

/-! ## Frames -/

/-- No command but READ_LINE, WRITE_LINE and COLD_RESET changes a byte of the array or its check bits; only OPEN, OPEN_SPARE and COLD_RESET
change the activation window; only PROGRAM_FUSE, PROGRAMMING_END and COLD_RESET the remap table. -/
def Obligations.MostCommandsLeaveTheArray : Prop :=
  ∀ (c : Instr) (s t : State), exec c s = .next t →
    ((∀ dt b line flips, c ≠ .readLine dt b line flips) → (∀ dt b line, c ≠ .writeLine dt b line) →
      (∀ dt, c ≠ .coldReset dt) → t.mem = s.mem) ∧
    ((∀ dt b row, c ≠ .openRow dt b row) → (∀ dt b sp, c ≠ .openSpare dt b sp) → (∀ dt, c ≠ .coldReset dt) →
      t.window = s.window) ∧
    ((∀ dt b sp, c ≠ .programFuse dt b sp) → (∀ dt, c ≠ .programmingEnd dt) → (∀ dt, c ≠ .coldReset dt) →
      t.remap = s.remap)

/-- READ_LINE and WRITE_LINE change no byte and no check bits outside the 64 cells of the line they access: the cells of what the bank has
open, at the line the command names. The premise is the invariant `MemoryCanonical`. -/
def Obligations.LineAccessesStayInTheirLine : Prop :=
  ∀ (c : Instr) dt b line flips l s t, c = .readLine dt b line flips ∨ c = .writeLine dt b line →
    MemoryCanonical s → s.lineOf b line = some l → exec c s = .next t → ∀ a, a < s.openLine l ∨ s.openLine l + 64 ≤ a →
      t.mem.byte a = s.mem.byte a ∧ t.mem.mark a = s.mem.mark a

/-- A command of one port's link leaves the other two links as they are, and the claim, the settings, the holds and the regions too: training,
received packets without a request, link timers and sent packets. -/
def Obligations.LinkEventsStayOnTheirLink : Prop :=
  ∀ (c : Instr) dt p k n (r : Request) first (s t : State),
    (c = .trainingStart dt p ∨ c = .trainingComplete dt p ∨ c = .trainingTimeout dt p ∨ c = .badCheckPacket dt p ∨
      c = .requestDiscard dt p k r ∨ c = .otherKindDiscard dt p k ∨ c = .ackReceived dt p n ∨ c = .nakReceived dt p n ∨
      c = .idleReceived dt p ∨ c = .ackTimerExpiry dt p ∨ c = .keepaliveExpiry dt p ∨ c = .sendNak dt p ∨
      c = .sendReplay dt p ∨ c = .sendInit dt p ∨ c = .sendResponse dt p first ∨ c = .sendNotice dt p ∨
      c = .sendAck dt p ∨ c = .sendIdle dt p) → exec c s = .next t →
    (∀ q, q ≠ p → t.link q = s.link q ∧ t.queue q = s.queue q ∧ t.noticeQ q = s.noticeQ q) ∧ t.claim = s.claim ∧
      t.settings = s.settings ∧ t.holds = s.holds ∧ t.regions = s.regions ∧ t.watches = s.watches ∧
      t.refresh = s.refresh ∧ t.checks = s.checks ∧ t.scrub = s.scrub ∧ t.stampCounter = s.stampCounter ∧
      t.repairQueue = s.repairQueue ∧ t.currentJob = s.currentJob ∧ t.detached = s.detached

/-- What a REQUEST of port p leaves as it is, whatever becomes of it: the array side of the part and, but for the error counts that
COUNTERS_CLEAR empties, the other ports' links. One that is not a REPAIR starts no job and changes no hold, no open row and no interval
of a bank; only the kinds named change watches, regions, the claim, settings and the counts. -/
def Obligations.RequestsLeaveTheRest : Prop :=
  ∀ (c : Instr) dt p k r (s t : State), requestRow c = some (dt, p, k, r) → exec c s = .next t →
    ArraySideKept s t ∧ (∀ q, q ≠ p → t.link q = { s.link q with errors := (t.link q).errors }) ∧
    (k ≠ 13 → t.holds = s.holds ∧ t.repairQueue = s.repairQueue ∧ t.currentJob = s.currentJob ∧
      t.repairBuffer = s.repairBuffer ∧ t.scrub = { s.scrub with timer := t.scrub.timer } ∧
      ∀ b, t.bank b = { s.bank b with
        idle := (t.bank b).idle, idleReset := (t.bank b).idleReset
        marks := { (s.bank b).marks with retention := (t.bank b).marks.retention } }) ∧
    (k ≠ 13 → k ≠ 17 → StampsBelowCounter s → t.settings = s.settings ∧ t.checks = s.checks ∧
      t.refresh = s.refresh ∧ t.scrub = s.scrub ∧ t.detached = s.detached ∧
      ∀ q, q ≠ p → t.link q = s.link q ∧ t.queue q = s.queue q) ∧
    (k ≠ 9 → k ≠ 11 → k ≠ 13 → t.watches = s.watches ∧ ∀ q, q ≠ p → t.noticeQ q = s.noticeQ q) ∧
    (k ≠ 11 → k ≠ 13 → k ≠ 15 → k ≠ 16 → k ≠ 17 → t.claim = s.claim) ∧
    (k = 4 ∨ k = 9 ∨ k = 10 ∨ k = 12 ∨ k = 14 ∨ k = 15 ∨ k = 16 ∨ k = 17 ∨ k = 18 → t.regions = s.regions)

/-- What the array commands and expiries that end without the blocks being evaluated anew leave as they are: the links, the settings, the
regions, the watches, the holds, the repair queue, the check-bit unit, the pins and the waiting commands; the records but for
RECORD_AGED, and the claim but for CLAIM_TIMER_EXPIRY. -/
def Obligations.BackgroundCommandsLeaveThePorts : Prop :=
  ∀ (c : Instr) (s t : State), quietRow c = true → exec c s = .next t →
    t.pending = s.pending ∧ t.resetN = s.resetN ∧ t.hotPin = s.hotPin ∧ t.links = s.links ∧ t.settings = s.settings ∧
      t.regions = s.regions ∧ t.watches = s.watches ∧ t.holds = s.holds ∧ t.stampCounter = s.stampCounter ∧
      t.repairQueue = s.repairQueue ∧ t.checks = s.checks ∧ t.quiet.votes = s.quiet.votes ∧
      t.quiet.wakeRecord = s.quiet.wakeRecord ∧
      ((∀ dt p st, c ≠ .recordAged dt p st) → t.queues = s.queues ∧ t.detached = s.detached) ∧
      ((∀ dt, c ≠ .claimTimerExpiry dt) → t.claim = s.claim)

/-! ## Addresses and checks: sanity -/

/-- The bytes of packets. Address 12345678h is row 9,320, bank 10, line 25, word 7 (Table 7), its line address 12345640h; and bank b lies in
group b div 4. The check of a run of bytes starts at FFFFh and takes each byte most significant bit first with x^16 + x^12 + x^5 + 1.
The bytes of a REQUEST that a master sends are read back as the row that carries it, with every field; a packet whose check is not that
of its bytes is a bad-check packet; an ACK, a NAK, an IDLE and a RESET are read by their kind, and a kind a master does not send is
discarded. That bytes of an ACK, a NAK, an IDLE or a RESET beyond its two header bytes (`rest`) are not looked at is the model's choice
(notes/assumptions/30.md); a packet too short for its fields, and the length field of a body, stand there too and are not stated. -/
def Obligations.AddressFieldsOfTheManual : Prop :=
  (lineRow (addrLine 0x12345678) = 9320 ∧ lineBank (addrLine 0x12345678) = 10 ∧ groupOf 10 = 2 ∧
    lineIx (addrLine 0x12345678) = 25 ∧ addrWord 0x12345678 = 7 ∧ lineAddr (addrLine 0x12345678) = 0x12345640 ∧
    (∀ l : LineId, mkLine (lineRow l) (lineBank l) (lineIx l) = l) ∧
    ReqOp.crossesRow (.read 0x12345640 4) = false ∧ ReqOp.crossesRow (.read 0x12345640 8) = true) ∧
  packetCheck [] = 0xFFFF ∧
  (∀ (bs : List Byte) (b : Byte), packetCheck (bs ++ [b]) =
    (List.range 8).foldl (fun (x : BitVec 16) _ => if x.getLsbD 15 = true then (x <<< 1) ^^^ 0x1021 else x <<< 1)
      (packetCheck bs ^^^ (b.setWidth 16 <<< 8))) ∧
  (∀ (c : Instr) dt p k r, c.wellFormed = true → requestRow c = some (dt, p, k, r) →
    packetCommand dt p (requestPacket k r) = c) ∧
  (∀ dt p (bs : List Byte) (hi lo : Byte),
    [hi, lo] ≠ [(packetCheck bs).extractLsb' 8 8, (packetCheck bs).extractLsb' 0 8] →
    packetCommand dt p (bs ++ [hi, lo]) = .badCheckPacket dt p) ∧
  (∀ dt p (k n : Byte) (rest : List Byte),
    (k = 5 → packetCommand dt p (withCheck (k :: n :: rest)) = .ackReceived dt p n) ∧
    (k = 6 → packetCommand dt p (withCheck (k :: n :: rest)) = .nakReceived dt p n) ∧
    (k = 7 → packetCommand dt p (withCheck (k :: n :: rest)) = .idleReceived dt p) ∧
    (k = 8 → packetCommand dt p (withCheck (k :: n :: rest)) = .resetPacket dt p) ∧
    (isMasterPacketKind k = false → packetCommand dt p (withCheck (k :: n :: rest)) = .otherKindDiscard dt p k))

/-! ## Invariants -/

/-- The state after reset meets every invariant below. -/
def Obligations.ResetMeetsTheInvariants : Prop :=
  MemoryCanonical State.reset ∧ DebtsInRange State.reset ∧ WithinCapacities State.reset ∧ RegionsApart State.reset ∧
    BanksConsistent State.reset ∧ PortsConsistent State.reset ∧ StampsNameRecords State.reset

/-- Every step keeps the array's cells in their canonical form. -/
def Obligations.StepKeepsMemoryCanonical : Prop :=
  ∀ s t : State, MemoryCanonical s → step s = .next t → MemoryCanonical t

/-- Every step keeps every group's debt between −8 and +8. -/
def Obligations.StepKeepsDebtsInRange : Prop :=
  ∀ s t : State, DebtsInRange s → step s = .next t → DebtsInRange t

/-- Every step keeps the request queues, notice queues, lost counts, replay buffers, refusal lists, hold table, watch table (16 entries a
port), activation window and repair queue within their capacities, a notice queue full while losses are counted, the lines of the hold table,
and of a port's watches, distinct, and no repair job waiting but behind a running one. -/
def Obligations.StepKeepsCapacities : Prop :=
  ∀ s t : State, WithinCapacities s → step s = .next t → WithinCapacities t

/-- Every step keeps the regions' current and pending ranges apart: no page is ever covered by two regions;
and a DISABLED region counts no record. -/
def Obligations.StepKeepsRegionsApart : Prop :=
  ∀ s t : State, RegionsApart s → step s = .next t → RegionsApart t

/-- Every step keeps a bank's open row present exactly in OPENING and OPEN, and every bank RETAINED while the part is RETAINED or WAKING. -/
def Obligations.StepKeepsBanksConsistent : Prop :=
  ∀ s t : State, BanksConsistent s → step s = .next t → BanksConsistent t

/-- Every step keeps the ports consistent: an offline port has nothing, an online port has a vote, and the claim's holder is online. -/
def Obligations.StepKeepsPortsConsistent : Prop :=
  ∀ s t : State, PortsConsistent s → step s = .next t → PortsConsistent t

/-- Every step keeps the records' stamps distinct and below the counter, until the counter has given its last value. -/
def Obligations.StepKeepsStampsNameRecords : Prop :=
  ∀ s t : State, StampsNameRecords s → s.stampCounter ≠ BitVec.allOnes 64 → step s = .next t → StampsNameRecords t
end

