-- ==== Sys2Proof/Laws/Containers.lean ====
section
/-! SUPPORT. Reading what was written: the two containers and the accessors of the state. -/

namespace Sys2Proof

namespace PerPort

variable {α β : Type} (x : PerPort α)

@[simp] theorem get_set_self (p : Port) (v : α) : (x.set p v).get p = v := by cases p <;> rfl

@[simp] theorem get_set_of_ne {p q : Port} (h : q ≠ p) (v : α) : (x.set p v).get q = x.get q := by
  cases p <;> cases q <;> first | rfl | exact absurd rfl h

theorem get_set (p q : Port) (v : α) : (x.set p v).get q = if q = p then v else x.get q := by
  cases p <;> cases q <;> rfl

@[simp] theorem get_all (v : α) (p : Port) : (all v).get p = v := by cases p <;> rfl

@[simp] theorem get_map (f : α → β) (p : Port) : (x.map f).get p = f (x.get p) := by cases p <;> rfl

theorem ext_get {x y : PerPort α} (h : ∀ p, x.get p = y.get p) : x = y := by
  have ha := h .a; have hb := h .b; have hc := h .c
  cases x; cases y; simp_all [get]

end PerPort

namespace Table

variable {n : Nat} {α β : Type} (t : Table n α)

@[simp] theorem get_set_self (i : Fin n) (x : α) : (t.set i x).get i = x := by simp [get, set]

@[simp] theorem get_set_of_ne {i j : Fin n} (h : j ≠ i) (x : α) : (t.set i x).get j = t.get j := by
  have : i.val ≠ j.val := fun e => h (Fin.ext e.symm)
  simp [get, set, this]

theorem get_set (i j : Fin n) (x : α) : (t.set i x).get j = if j = i then x else t.get j := by
  by_cases h : j = i
  · subst h; simp
  · simp [h]

@[simp] theorem set_get (i : Fin n) : t.set i (t.get i) = t := by
  cases t; simp [set, get]

@[simp] theorem get_replicate (x : α) (i : Fin n) : (replicate n x).get i = x := by simp [get, replicate]

@[simp] theorem get_map (f : α → β) (i : Fin n) : (t.map f).get i = f (t.get i) := by simp [get, map]

@[simp] theorem get_ofFn (f : Fin n → α) (i : Fin n) : (ofFn f).get i = f i := by simp [get, ofFn]

theorem get_mem (i : Fin n) : t.get i ∈ t.items := by simp [get]

theorem exists_of_mem {x : α} (h : x ∈ t.items) : ∃ i, t.get i = x := by
  obtain ⟨k, hk, e⟩ := List.mem_iff_getElem.mp h
  exact ⟨⟨k, t.size ▸ hk⟩, e⟩

end Table

namespace Machine.State

variable (s : State)

@[simp] theorem bank_setBank_self (b : BankId) (x : Bank) : (s.setBank b x).bank b = x := Table.get_set_self _ _ _

@[simp] theorem bank_setBank_of_ne {b k : BankId} (h : k ≠ b) (x : Bank) : (s.setBank b x).bank k = s.bank k :=
  Table.get_set_of_ne _ h _

@[simp] theorem bank_mapBanks (f : BankId → Bank → Bank) (b : BankId) : (s.mapBanks f).bank b = f b (s.bank b) :=
  Table.get_ofFn _ _

@[simp] theorem queue_setQueue_self (p : Port) (q : List Record) : (s.setQueue p q).queue p = q :=
  PerPort.get_set_self _ _ _

@[simp] theorem queue_setQueue_of_ne {p k : Port} (h : k ≠ p) (q : List Record) : (s.setQueue p q).queue k = s.queue k :=
  PerPort.get_set_of_ne _ h _

@[simp] theorem queue_mapRecords (f : Record → Record) (p : Port) : (s.mapRecords f).queue p = (s.queue p).map f :=
  PerPort.get_map _ _ _

@[simp] theorem noticeQ_setNoticeQ_self (p : Port) (q : NoticeQueue) : (s.setNoticeQ p q).noticeQ p = q :=
  PerPort.get_set_self _ _ _

@[simp] theorem noticeQ_setNoticeQ_of_ne {p k : Port} (h : k ≠ p) (q : NoticeQueue) :
    (s.setNoticeQ p q).noticeQ k = s.noticeQ k := PerPort.get_set_of_ne _ h _

@[simp] theorem link_setLink_self (p : Port) (l : Link) : (s.setLink p l).link p = l := PerPort.get_set_self _ _ _

@[simp] theorem link_setLink_of_ne {p k : Port} (h : k ≠ p) (l : Link) : (s.setLink p l).link k = s.link k :=
  PerPort.get_set_of_ne _ h _

@[simp] theorem region_setRegion_self (i : RegionIx) (r : Region) : (s.setRegion i r).region i = r :=
  Table.get_set_self _ _ _

@[simp] theorem region_setRegion_of_ne {i k : RegionIx} (h : k ≠ i) (r : Region) :
    (s.setRegion i r).region k = s.region k := Table.get_set_of_ne _ h _

@[simp] theorem vote_setVote_self (p : Port) (v : Option Vote) : (s.setVote p v).vote p = v := PerPort.get_set_self _ _ _

@[simp] theorem vote_setVote_of_ne {p k : Port} (h : k ≠ p) (v : Option Vote) : (s.setVote p v).vote k = s.vote k :=
  PerPort.get_set_of_ne _ h _

end Machine.State

end Sys2Proof
end

