-- ==== Sys2Proof/Laws/State.lean ====
section
/-! SUPPORT. One lemma for each field under each named update of the state. -/

namespace Sys2Proof.Machine.State

variable (s : State)

@[simp] theorem setBank_pending (b : BankId) (x : Bank) : (s.setBank b x).pending = s.pending := rfl
@[simp] theorem setBank_now (b : BankId) (x : Bank) : (s.setBank b x).now = s.now := rfl
@[simp] theorem setBank_freeCount (b : BankId) (x : Bank) : (s.setBank b x).freeCount = s.freeCount := rfl
@[simp] theorem setBank_resetN (b : BankId) (x : Bank) : (s.setBank b x).resetN = s.resetN := rfl
@[simp] theorem setBank_hotPin (b : BankId) (x : Bank) : (s.setBank b x).hotPin = s.hotPin := rfl
@[simp] theorem setBank_mem (b : BankId) (x : Bank) : (s.setBank b x).mem = s.mem := rfl
@[simp] theorem setBank_banks (b : BankId) (x : Bank) : (s.setBank b x).banks = s.banks.set b x := rfl
@[simp] theorem setBank_window (b : BankId) (x : Bank) : (s.setBank b x).window = s.window := rfl
@[simp] theorem setBank_pathBusy (b : BankId) (x : Bank) : (s.setBank b x).pathBusy = s.pathBusy := rfl
@[simp] theorem setBank_stampCounter (b : BankId) (x : Bank) : (s.setBank b x).stampCounter = s.stampCounter := rfl
@[simp] theorem setBank_queues (b : BankId) (x : Bank) : (s.setBank b x).queues = s.queues := rfl
@[simp] theorem setBank_detached (b : BankId) (x : Bank) : (s.setBank b x).detached = s.detached := rfl
@[simp] theorem setBank_holds (b : BankId) (x : Bank) : (s.setBank b x).holds = s.holds := rfl
@[simp] theorem setBank_watches (b : BankId) (x : Bank) : (s.setBank b x).watches = s.watches := rfl
@[simp] theorem setBank_notices (b : BankId) (x : Bank) : (s.setBank b x).notices = s.notices := rfl
@[simp] theorem setBank_regions (b : BankId) (x : Bank) : (s.setBank b x).regions = s.regions := rfl
@[simp] theorem setBank_refresh (b : BankId) (x : Bank) : (s.setBank b x).refresh = s.refresh := rfl
@[simp] theorem setBank_checks (b : BankId) (x : Bank) : (s.setBank b x).checks = s.checks := rfl
@[simp] theorem setBank_scrub (b : BankId) (x : Bank) : (s.setBank b x).scrub = s.scrub := rfl
@[simp] theorem setBank_remap (b : BankId) (x : Bank) : (s.setBank b x).remap = s.remap := rfl
@[simp] theorem setBank_repairQueue (b : BankId) (x : Bank) : (s.setBank b x).repairQueue = s.repairQueue := rfl
@[simp] theorem setBank_currentJob (b : BankId) (x : Bank) : (s.setBank b x).currentJob = s.currentJob := rfl
@[simp] theorem setBank_repairBuffer (b : BankId) (x : Bank) : (s.setBank b x).repairBuffer = s.repairBuffer := rfl
@[simp] theorem setBank_quiet (b : BankId) (x : Bank) : (s.setBank b x).quiet = s.quiet := rfl
@[simp] theorem setBank_links (b : BankId) (x : Bank) : (s.setBank b x).links = s.links := rfl
@[simp] theorem setBank_claim (b : BankId) (x : Bank) : (s.setBank b x).claim = s.claim := rfl
@[simp] theorem setBank_settings (b : BankId) (x : Bank) : (s.setBank b x).settings = s.settings := rfl

@[simp] theorem setQueue_pending (p : Port) (q : List Record) : (s.setQueue p q).pending = s.pending := rfl
@[simp] theorem setQueue_now (p : Port) (q : List Record) : (s.setQueue p q).now = s.now := rfl
@[simp] theorem setQueue_freeCount (p : Port) (q : List Record) : (s.setQueue p q).freeCount = s.freeCount := rfl
@[simp] theorem setQueue_resetN (p : Port) (q : List Record) : (s.setQueue p q).resetN = s.resetN := rfl
@[simp] theorem setQueue_hotPin (p : Port) (q : List Record) : (s.setQueue p q).hotPin = s.hotPin := rfl
@[simp] theorem setQueue_mem (p : Port) (q : List Record) : (s.setQueue p q).mem = s.mem := rfl
@[simp] theorem setQueue_banks (p : Port) (q : List Record) : (s.setQueue p q).banks = s.banks := rfl
@[simp] theorem setQueue_window (p : Port) (q : List Record) : (s.setQueue p q).window = s.window := rfl
@[simp] theorem setQueue_pathBusy (p : Port) (q : List Record) : (s.setQueue p q).pathBusy = s.pathBusy := rfl
@[simp] theorem setQueue_stampCounter (p : Port) (q : List Record) : (s.setQueue p q).stampCounter = s.stampCounter := rfl
@[simp] theorem setQueue_queues (p : Port) (q : List Record) : (s.setQueue p q).queues = s.queues.set p q := rfl
@[simp] theorem setQueue_detached (p : Port) (q : List Record) : (s.setQueue p q).detached = s.detached := rfl
@[simp] theorem setQueue_holds (p : Port) (q : List Record) : (s.setQueue p q).holds = s.holds := rfl
@[simp] theorem setQueue_watches (p : Port) (q : List Record) : (s.setQueue p q).watches = s.watches := rfl
@[simp] theorem setQueue_notices (p : Port) (q : List Record) : (s.setQueue p q).notices = s.notices := rfl
@[simp] theorem setQueue_regions (p : Port) (q : List Record) : (s.setQueue p q).regions = s.regions := rfl
@[simp] theorem setQueue_refresh (p : Port) (q : List Record) : (s.setQueue p q).refresh = s.refresh := rfl
@[simp] theorem setQueue_checks (p : Port) (q : List Record) : (s.setQueue p q).checks = s.checks := rfl
@[simp] theorem setQueue_scrub (p : Port) (q : List Record) : (s.setQueue p q).scrub = s.scrub := rfl
@[simp] theorem setQueue_remap (p : Port) (q : List Record) : (s.setQueue p q).remap = s.remap := rfl
@[simp] theorem setQueue_repairQueue (p : Port) (q : List Record) : (s.setQueue p q).repairQueue = s.repairQueue := rfl
@[simp] theorem setQueue_currentJob (p : Port) (q : List Record) : (s.setQueue p q).currentJob = s.currentJob := rfl
@[simp] theorem setQueue_repairBuffer (p : Port) (q : List Record) : (s.setQueue p q).repairBuffer = s.repairBuffer := rfl
@[simp] theorem setQueue_quiet (p : Port) (q : List Record) : (s.setQueue p q).quiet = s.quiet := rfl
@[simp] theorem setQueue_links (p : Port) (q : List Record) : (s.setQueue p q).links = s.links := rfl
@[simp] theorem setQueue_claim (p : Port) (q : List Record) : (s.setQueue p q).claim = s.claim := rfl
@[simp] theorem setQueue_settings (p : Port) (q : List Record) : (s.setQueue p q).settings = s.settings := rfl

@[simp] theorem setNoticeQ_pending (p : Port) (q : NoticeQueue) : (s.setNoticeQ p q).pending = s.pending := rfl
@[simp] theorem setNoticeQ_now (p : Port) (q : NoticeQueue) : (s.setNoticeQ p q).now = s.now := rfl
@[simp] theorem setNoticeQ_freeCount (p : Port) (q : NoticeQueue) : (s.setNoticeQ p q).freeCount = s.freeCount := rfl
@[simp] theorem setNoticeQ_resetN (p : Port) (q : NoticeQueue) : (s.setNoticeQ p q).resetN = s.resetN := rfl
@[simp] theorem setNoticeQ_hotPin (p : Port) (q : NoticeQueue) : (s.setNoticeQ p q).hotPin = s.hotPin := rfl
@[simp] theorem setNoticeQ_mem (p : Port) (q : NoticeQueue) : (s.setNoticeQ p q).mem = s.mem := rfl
@[simp] theorem setNoticeQ_banks (p : Port) (q : NoticeQueue) : (s.setNoticeQ p q).banks = s.banks := rfl
@[simp] theorem setNoticeQ_window (p : Port) (q : NoticeQueue) : (s.setNoticeQ p q).window = s.window := rfl
@[simp] theorem setNoticeQ_pathBusy (p : Port) (q : NoticeQueue) : (s.setNoticeQ p q).pathBusy = s.pathBusy := rfl
@[simp] theorem setNoticeQ_stampCounter (p : Port) (q : NoticeQueue) : (s.setNoticeQ p q).stampCounter = s.stampCounter := rfl
@[simp] theorem setNoticeQ_queues (p : Port) (q : NoticeQueue) : (s.setNoticeQ p q).queues = s.queues := rfl
@[simp] theorem setNoticeQ_detached (p : Port) (q : NoticeQueue) : (s.setNoticeQ p q).detached = s.detached := rfl
@[simp] theorem setNoticeQ_holds (p : Port) (q : NoticeQueue) : (s.setNoticeQ p q).holds = s.holds := rfl
@[simp] theorem setNoticeQ_watches (p : Port) (q : NoticeQueue) : (s.setNoticeQ p q).watches = s.watches := rfl
@[simp] theorem setNoticeQ_notices (p : Port) (q : NoticeQueue) : (s.setNoticeQ p q).notices = s.notices.set p q := rfl
@[simp] theorem setNoticeQ_regions (p : Port) (q : NoticeQueue) : (s.setNoticeQ p q).regions = s.regions := rfl
@[simp] theorem setNoticeQ_refresh (p : Port) (q : NoticeQueue) : (s.setNoticeQ p q).refresh = s.refresh := rfl
@[simp] theorem setNoticeQ_checks (p : Port) (q : NoticeQueue) : (s.setNoticeQ p q).checks = s.checks := rfl
@[simp] theorem setNoticeQ_scrub (p : Port) (q : NoticeQueue) : (s.setNoticeQ p q).scrub = s.scrub := rfl
@[simp] theorem setNoticeQ_remap (p : Port) (q : NoticeQueue) : (s.setNoticeQ p q).remap = s.remap := rfl
@[simp] theorem setNoticeQ_repairQueue (p : Port) (q : NoticeQueue) : (s.setNoticeQ p q).repairQueue = s.repairQueue := rfl
@[simp] theorem setNoticeQ_currentJob (p : Port) (q : NoticeQueue) : (s.setNoticeQ p q).currentJob = s.currentJob := rfl
@[simp] theorem setNoticeQ_repairBuffer (p : Port) (q : NoticeQueue) : (s.setNoticeQ p q).repairBuffer = s.repairBuffer := rfl
@[simp] theorem setNoticeQ_quiet (p : Port) (q : NoticeQueue) : (s.setNoticeQ p q).quiet = s.quiet := rfl
@[simp] theorem setNoticeQ_links (p : Port) (q : NoticeQueue) : (s.setNoticeQ p q).links = s.links := rfl
@[simp] theorem setNoticeQ_claim (p : Port) (q : NoticeQueue) : (s.setNoticeQ p q).claim = s.claim := rfl
@[simp] theorem setNoticeQ_settings (p : Port) (q : NoticeQueue) : (s.setNoticeQ p q).settings = s.settings := rfl

@[simp] theorem setRegion_pending (i : RegionIx) (r : Region) : (s.setRegion i r).pending = s.pending := rfl
@[simp] theorem setRegion_now (i : RegionIx) (r : Region) : (s.setRegion i r).now = s.now := rfl
@[simp] theorem setRegion_freeCount (i : RegionIx) (r : Region) : (s.setRegion i r).freeCount = s.freeCount := rfl
@[simp] theorem setRegion_resetN (i : RegionIx) (r : Region) : (s.setRegion i r).resetN = s.resetN := rfl
@[simp] theorem setRegion_hotPin (i : RegionIx) (r : Region) : (s.setRegion i r).hotPin = s.hotPin := rfl
@[simp] theorem setRegion_mem (i : RegionIx) (r : Region) : (s.setRegion i r).mem = s.mem := rfl
@[simp] theorem setRegion_banks (i : RegionIx) (r : Region) : (s.setRegion i r).banks = s.banks := rfl
@[simp] theorem setRegion_window (i : RegionIx) (r : Region) : (s.setRegion i r).window = s.window := rfl
@[simp] theorem setRegion_pathBusy (i : RegionIx) (r : Region) : (s.setRegion i r).pathBusy = s.pathBusy := rfl
@[simp] theorem setRegion_stampCounter (i : RegionIx) (r : Region) : (s.setRegion i r).stampCounter = s.stampCounter := rfl
@[simp] theorem setRegion_queues (i : RegionIx) (r : Region) : (s.setRegion i r).queues = s.queues := rfl
@[simp] theorem setRegion_detached (i : RegionIx) (r : Region) : (s.setRegion i r).detached = s.detached := rfl
@[simp] theorem setRegion_holds (i : RegionIx) (r : Region) : (s.setRegion i r).holds = s.holds := rfl
@[simp] theorem setRegion_watches (i : RegionIx) (r : Region) : (s.setRegion i r).watches = s.watches := rfl
@[simp] theorem setRegion_notices (i : RegionIx) (r : Region) : (s.setRegion i r).notices = s.notices := rfl
@[simp] theorem setRegion_regions (i : RegionIx) (r : Region) : (s.setRegion i r).regions = s.regions.set i r := rfl
@[simp] theorem setRegion_refresh (i : RegionIx) (r : Region) : (s.setRegion i r).refresh = s.refresh := rfl
@[simp] theorem setRegion_checks (i : RegionIx) (r : Region) : (s.setRegion i r).checks = s.checks := rfl
@[simp] theorem setRegion_scrub (i : RegionIx) (r : Region) : (s.setRegion i r).scrub = s.scrub := rfl
@[simp] theorem setRegion_remap (i : RegionIx) (r : Region) : (s.setRegion i r).remap = s.remap := rfl
@[simp] theorem setRegion_repairQueue (i : RegionIx) (r : Region) : (s.setRegion i r).repairQueue = s.repairQueue := rfl
@[simp] theorem setRegion_currentJob (i : RegionIx) (r : Region) : (s.setRegion i r).currentJob = s.currentJob := rfl
@[simp] theorem setRegion_repairBuffer (i : RegionIx) (r : Region) : (s.setRegion i r).repairBuffer = s.repairBuffer := rfl
@[simp] theorem setRegion_quiet (i : RegionIx) (r : Region) : (s.setRegion i r).quiet = s.quiet := rfl
@[simp] theorem setRegion_links (i : RegionIx) (r : Region) : (s.setRegion i r).links = s.links := rfl
@[simp] theorem setRegion_claim (i : RegionIx) (r : Region) : (s.setRegion i r).claim = s.claim := rfl
@[simp] theorem setRegion_settings (i : RegionIx) (r : Region) : (s.setRegion i r).settings = s.settings := rfl

@[simp] theorem setLink_pending (p : Port) (l : Link) : (s.setLink p l).pending = s.pending := rfl
@[simp] theorem setLink_now (p : Port) (l : Link) : (s.setLink p l).now = s.now := rfl
@[simp] theorem setLink_freeCount (p : Port) (l : Link) : (s.setLink p l).freeCount = s.freeCount := rfl
@[simp] theorem setLink_resetN (p : Port) (l : Link) : (s.setLink p l).resetN = s.resetN := rfl
@[simp] theorem setLink_hotPin (p : Port) (l : Link) : (s.setLink p l).hotPin = s.hotPin := rfl
@[simp] theorem setLink_mem (p : Port) (l : Link) : (s.setLink p l).mem = s.mem := rfl
@[simp] theorem setLink_banks (p : Port) (l : Link) : (s.setLink p l).banks = s.banks := rfl
@[simp] theorem setLink_window (p : Port) (l : Link) : (s.setLink p l).window = s.window := rfl
@[simp] theorem setLink_pathBusy (p : Port) (l : Link) : (s.setLink p l).pathBusy = s.pathBusy := rfl
@[simp] theorem setLink_stampCounter (p : Port) (l : Link) : (s.setLink p l).stampCounter = s.stampCounter := rfl
@[simp] theorem setLink_queues (p : Port) (l : Link) : (s.setLink p l).queues = s.queues := rfl
@[simp] theorem setLink_detached (p : Port) (l : Link) : (s.setLink p l).detached = s.detached := rfl
@[simp] theorem setLink_holds (p : Port) (l : Link) : (s.setLink p l).holds = s.holds := rfl
@[simp] theorem setLink_watches (p : Port) (l : Link) : (s.setLink p l).watches = s.watches := rfl
@[simp] theorem setLink_notices (p : Port) (l : Link) : (s.setLink p l).notices = s.notices := rfl
@[simp] theorem setLink_regions (p : Port) (l : Link) : (s.setLink p l).regions = s.regions := rfl
@[simp] theorem setLink_refresh (p : Port) (l : Link) : (s.setLink p l).refresh = s.refresh := rfl
@[simp] theorem setLink_checks (p : Port) (l : Link) : (s.setLink p l).checks = s.checks := rfl
@[simp] theorem setLink_scrub (p : Port) (l : Link) : (s.setLink p l).scrub = s.scrub := rfl
@[simp] theorem setLink_remap (p : Port) (l : Link) : (s.setLink p l).remap = s.remap := rfl
@[simp] theorem setLink_repairQueue (p : Port) (l : Link) : (s.setLink p l).repairQueue = s.repairQueue := rfl
@[simp] theorem setLink_currentJob (p : Port) (l : Link) : (s.setLink p l).currentJob = s.currentJob := rfl
@[simp] theorem setLink_repairBuffer (p : Port) (l : Link) : (s.setLink p l).repairBuffer = s.repairBuffer := rfl
@[simp] theorem setLink_quiet (p : Port) (l : Link) : (s.setLink p l).quiet = s.quiet := rfl
@[simp] theorem setLink_links (p : Port) (l : Link) : (s.setLink p l).links = s.links.set p l := rfl
@[simp] theorem setLink_claim (p : Port) (l : Link) : (s.setLink p l).claim = s.claim := rfl
@[simp] theorem setLink_settings (p : Port) (l : Link) : (s.setLink p l).settings = s.settings := rfl

@[simp] theorem setVote_pending (p : Port) (v : Option Vote) : (s.setVote p v).pending = s.pending := rfl
@[simp] theorem setVote_now (p : Port) (v : Option Vote) : (s.setVote p v).now = s.now := rfl
@[simp] theorem setVote_freeCount (p : Port) (v : Option Vote) : (s.setVote p v).freeCount = s.freeCount := rfl
@[simp] theorem setVote_resetN (p : Port) (v : Option Vote) : (s.setVote p v).resetN = s.resetN := rfl
@[simp] theorem setVote_hotPin (p : Port) (v : Option Vote) : (s.setVote p v).hotPin = s.hotPin := rfl
@[simp] theorem setVote_mem (p : Port) (v : Option Vote) : (s.setVote p v).mem = s.mem := rfl
@[simp] theorem setVote_banks (p : Port) (v : Option Vote) : (s.setVote p v).banks = s.banks := rfl
@[simp] theorem setVote_window (p : Port) (v : Option Vote) : (s.setVote p v).window = s.window := rfl
@[simp] theorem setVote_pathBusy (p : Port) (v : Option Vote) : (s.setVote p v).pathBusy = s.pathBusy := rfl
@[simp] theorem setVote_stampCounter (p : Port) (v : Option Vote) : (s.setVote p v).stampCounter = s.stampCounter := rfl
@[simp] theorem setVote_queues (p : Port) (v : Option Vote) : (s.setVote p v).queues = s.queues := rfl
@[simp] theorem setVote_detached (p : Port) (v : Option Vote) : (s.setVote p v).detached = s.detached := rfl
@[simp] theorem setVote_holds (p : Port) (v : Option Vote) : (s.setVote p v).holds = s.holds := rfl
@[simp] theorem setVote_watches (p : Port) (v : Option Vote) : (s.setVote p v).watches = s.watches := rfl
@[simp] theorem setVote_notices (p : Port) (v : Option Vote) : (s.setVote p v).notices = s.notices := rfl
@[simp] theorem setVote_regions (p : Port) (v : Option Vote) : (s.setVote p v).regions = s.regions := rfl
@[simp] theorem setVote_refresh (p : Port) (v : Option Vote) : (s.setVote p v).refresh = s.refresh := rfl
@[simp] theorem setVote_checks (p : Port) (v : Option Vote) : (s.setVote p v).checks = s.checks := rfl
@[simp] theorem setVote_scrub (p : Port) (v : Option Vote) : (s.setVote p v).scrub = s.scrub := rfl
@[simp] theorem setVote_remap (p : Port) (v : Option Vote) : (s.setVote p v).remap = s.remap := rfl
@[simp] theorem setVote_repairQueue (p : Port) (v : Option Vote) : (s.setVote p v).repairQueue = s.repairQueue := rfl
@[simp] theorem setVote_currentJob (p : Port) (v : Option Vote) : (s.setVote p v).currentJob = s.currentJob := rfl
@[simp] theorem setVote_repairBuffer (p : Port) (v : Option Vote) : (s.setVote p v).repairBuffer = s.repairBuffer := rfl
@[simp] theorem setVote_quiet (p : Port) (v : Option Vote) : (s.setVote p v).quiet = { s.quiet with votes := s.quiet.votes.set p v } := rfl
@[simp] theorem setVote_links (p : Port) (v : Option Vote) : (s.setVote p v).links = s.links := rfl
@[simp] theorem setVote_claim (p : Port) (v : Option Vote) : (s.setVote p v).claim = s.claim := rfl
@[simp] theorem setVote_settings (p : Port) (v : Option Vote) : (s.setVote p v).settings = s.settings := rfl

@[simp] theorem setSpare_pending (b : BankId) (i : SpareId) (x : Spare) : (s.setSpare b i x).pending = s.pending := rfl
@[simp] theorem setSpare_now (b : BankId) (i : SpareId) (x : Spare) : (s.setSpare b i x).now = s.now := rfl
@[simp] theorem setSpare_freeCount (b : BankId) (i : SpareId) (x : Spare) : (s.setSpare b i x).freeCount = s.freeCount := rfl
@[simp] theorem setSpare_resetN (b : BankId) (i : SpareId) (x : Spare) : (s.setSpare b i x).resetN = s.resetN := rfl
@[simp] theorem setSpare_hotPin (b : BankId) (i : SpareId) (x : Spare) : (s.setSpare b i x).hotPin = s.hotPin := rfl
@[simp] theorem setSpare_mem (b : BankId) (i : SpareId) (x : Spare) : (s.setSpare b i x).mem = s.mem := rfl
@[simp] theorem setSpare_banks (b : BankId) (i : SpareId) (x : Spare) : (s.setSpare b i x).banks = s.banks := rfl
@[simp] theorem setSpare_window (b : BankId) (i : SpareId) (x : Spare) : (s.setSpare b i x).window = s.window := rfl
@[simp] theorem setSpare_pathBusy (b : BankId) (i : SpareId) (x : Spare) : (s.setSpare b i x).pathBusy = s.pathBusy := rfl
@[simp] theorem setSpare_stampCounter (b : BankId) (i : SpareId) (x : Spare) : (s.setSpare b i x).stampCounter = s.stampCounter := rfl
@[simp] theorem setSpare_queues (b : BankId) (i : SpareId) (x : Spare) : (s.setSpare b i x).queues = s.queues := rfl
@[simp] theorem setSpare_detached (b : BankId) (i : SpareId) (x : Spare) : (s.setSpare b i x).detached = s.detached := rfl
@[simp] theorem setSpare_holds (b : BankId) (i : SpareId) (x : Spare) : (s.setSpare b i x).holds = s.holds := rfl
@[simp] theorem setSpare_watches (b : BankId) (i : SpareId) (x : Spare) : (s.setSpare b i x).watches = s.watches := rfl
@[simp] theorem setSpare_notices (b : BankId) (i : SpareId) (x : Spare) : (s.setSpare b i x).notices = s.notices := rfl
@[simp] theorem setSpare_regions (b : BankId) (i : SpareId) (x : Spare) : (s.setSpare b i x).regions = s.regions := rfl
@[simp] theorem setSpare_refresh (b : BankId) (i : SpareId) (x : Spare) : (s.setSpare b i x).refresh = s.refresh := rfl
@[simp] theorem setSpare_checks (b : BankId) (i : SpareId) (x : Spare) : (s.setSpare b i x).checks = s.checks := rfl
@[simp] theorem setSpare_scrub (b : BankId) (i : SpareId) (x : Spare) : (s.setSpare b i x).scrub = s.scrub := rfl
@[simp] theorem setSpare_remap (b : BankId) (i : SpareId) (x : Spare) : (s.setSpare b i x).remap = s.remap.set b ((s.remap.get b).set i x) := rfl
@[simp] theorem setSpare_repairQueue (b : BankId) (i : SpareId) (x : Spare) : (s.setSpare b i x).repairQueue = s.repairQueue := rfl
@[simp] theorem setSpare_currentJob (b : BankId) (i : SpareId) (x : Spare) : (s.setSpare b i x).currentJob = s.currentJob := rfl
@[simp] theorem setSpare_repairBuffer (b : BankId) (i : SpareId) (x : Spare) : (s.setSpare b i x).repairBuffer = s.repairBuffer := rfl
@[simp] theorem setSpare_quiet (b : BankId) (i : SpareId) (x : Spare) : (s.setSpare b i x).quiet = s.quiet := rfl
@[simp] theorem setSpare_links (b : BankId) (i : SpareId) (x : Spare) : (s.setSpare b i x).links = s.links := rfl
@[simp] theorem setSpare_claim (b : BankId) (i : SpareId) (x : Spare) : (s.setSpare b i x).claim = s.claim := rfl
@[simp] theorem setSpare_settings (b : BankId) (i : SpareId) (x : Spare) : (s.setSpare b i x).settings = s.settings := rfl

@[simp] theorem setWatch_pending (i : WatchId) (w : Option Watch) : (s.setWatch i w).pending = s.pending := rfl
@[simp] theorem setWatch_now (i : WatchId) (w : Option Watch) : (s.setWatch i w).now = s.now := rfl
@[simp] theorem setWatch_freeCount (i : WatchId) (w : Option Watch) : (s.setWatch i w).freeCount = s.freeCount := rfl
@[simp] theorem setWatch_resetN (i : WatchId) (w : Option Watch) : (s.setWatch i w).resetN = s.resetN := rfl
@[simp] theorem setWatch_hotPin (i : WatchId) (w : Option Watch) : (s.setWatch i w).hotPin = s.hotPin := rfl
@[simp] theorem setWatch_mem (i : WatchId) (w : Option Watch) : (s.setWatch i w).mem = s.mem := rfl
@[simp] theorem setWatch_banks (i : WatchId) (w : Option Watch) : (s.setWatch i w).banks = s.banks := rfl
@[simp] theorem setWatch_window (i : WatchId) (w : Option Watch) : (s.setWatch i w).window = s.window := rfl
@[simp] theorem setWatch_pathBusy (i : WatchId) (w : Option Watch) : (s.setWatch i w).pathBusy = s.pathBusy := rfl
@[simp] theorem setWatch_stampCounter (i : WatchId) (w : Option Watch) : (s.setWatch i w).stampCounter = s.stampCounter := rfl
@[simp] theorem setWatch_queues (i : WatchId) (w : Option Watch) : (s.setWatch i w).queues = s.queues := rfl
@[simp] theorem setWatch_detached (i : WatchId) (w : Option Watch) : (s.setWatch i w).detached = s.detached := rfl
@[simp] theorem setWatch_holds (i : WatchId) (w : Option Watch) : (s.setWatch i w).holds = s.holds := rfl
@[simp] theorem setWatch_watches (i : WatchId) (w : Option Watch) : (s.setWatch i w).watches = s.watches.set i w := rfl
@[simp] theorem setWatch_notices (i : WatchId) (w : Option Watch) : (s.setWatch i w).notices = s.notices := rfl
@[simp] theorem setWatch_regions (i : WatchId) (w : Option Watch) : (s.setWatch i w).regions = s.regions := rfl
@[simp] theorem setWatch_refresh (i : WatchId) (w : Option Watch) : (s.setWatch i w).refresh = s.refresh := rfl
@[simp] theorem setWatch_checks (i : WatchId) (w : Option Watch) : (s.setWatch i w).checks = s.checks := rfl
@[simp] theorem setWatch_scrub (i : WatchId) (w : Option Watch) : (s.setWatch i w).scrub = s.scrub := rfl
@[simp] theorem setWatch_remap (i : WatchId) (w : Option Watch) : (s.setWatch i w).remap = s.remap := rfl
@[simp] theorem setWatch_repairQueue (i : WatchId) (w : Option Watch) : (s.setWatch i w).repairQueue = s.repairQueue := rfl
@[simp] theorem setWatch_currentJob (i : WatchId) (w : Option Watch) : (s.setWatch i w).currentJob = s.currentJob := rfl
@[simp] theorem setWatch_repairBuffer (i : WatchId) (w : Option Watch) : (s.setWatch i w).repairBuffer = s.repairBuffer := rfl
@[simp] theorem setWatch_quiet (i : WatchId) (w : Option Watch) : (s.setWatch i w).quiet = s.quiet := rfl
@[simp] theorem setWatch_links (i : WatchId) (w : Option Watch) : (s.setWatch i w).links = s.links := rfl
@[simp] theorem setWatch_claim (i : WatchId) (w : Option Watch) : (s.setWatch i w).claim = s.claim := rfl
@[simp] theorem setWatch_settings (i : WatchId) (w : Option Watch) : (s.setWatch i w).settings = s.settings := rfl

@[simp] theorem setMem_pending (m : Memory) : (s.setMem m).pending = s.pending := rfl
@[simp] theorem setMem_now (m : Memory) : (s.setMem m).now = s.now := rfl
@[simp] theorem setMem_freeCount (m : Memory) : (s.setMem m).freeCount = s.freeCount := rfl
@[simp] theorem setMem_resetN (m : Memory) : (s.setMem m).resetN = s.resetN := rfl
@[simp] theorem setMem_hotPin (m : Memory) : (s.setMem m).hotPin = s.hotPin := rfl
@[simp] theorem setMem_mem (m : Memory) : (s.setMem m).mem = m := rfl
@[simp] theorem setMem_banks (m : Memory) : (s.setMem m).banks = s.banks := rfl
@[simp] theorem setMem_window (m : Memory) : (s.setMem m).window = s.window := rfl
@[simp] theorem setMem_pathBusy (m : Memory) : (s.setMem m).pathBusy = s.pathBusy := rfl
@[simp] theorem setMem_stampCounter (m : Memory) : (s.setMem m).stampCounter = s.stampCounter := rfl
@[simp] theorem setMem_queues (m : Memory) : (s.setMem m).queues = s.queues := rfl
@[simp] theorem setMem_detached (m : Memory) : (s.setMem m).detached = s.detached := rfl
@[simp] theorem setMem_holds (m : Memory) : (s.setMem m).holds = s.holds := rfl
@[simp] theorem setMem_watches (m : Memory) : (s.setMem m).watches = s.watches := rfl
@[simp] theorem setMem_notices (m : Memory) : (s.setMem m).notices = s.notices := rfl
@[simp] theorem setMem_regions (m : Memory) : (s.setMem m).regions = s.regions := rfl
@[simp] theorem setMem_refresh (m : Memory) : (s.setMem m).refresh = s.refresh := rfl
@[simp] theorem setMem_checks (m : Memory) : (s.setMem m).checks = s.checks := rfl
@[simp] theorem setMem_scrub (m : Memory) : (s.setMem m).scrub = s.scrub := rfl
@[simp] theorem setMem_remap (m : Memory) : (s.setMem m).remap = s.remap := rfl
@[simp] theorem setMem_repairQueue (m : Memory) : (s.setMem m).repairQueue = s.repairQueue := rfl
@[simp] theorem setMem_currentJob (m : Memory) : (s.setMem m).currentJob = s.currentJob := rfl
@[simp] theorem setMem_repairBuffer (m : Memory) : (s.setMem m).repairBuffer = s.repairBuffer := rfl
@[simp] theorem setMem_quiet (m : Memory) : (s.setMem m).quiet = s.quiet := rfl
@[simp] theorem setMem_links (m : Memory) : (s.setMem m).links = s.links := rfl
@[simp] theorem setMem_claim (m : Memory) : (s.setMem m).claim = s.claim := rfl
@[simp] theorem setMem_settings (m : Memory) : (s.setMem m).settings = s.settings := rfl

@[simp] theorem setHolds_pending (h : List Hold) : (s.setHolds h).pending = s.pending := rfl
@[simp] theorem setHolds_now (h : List Hold) : (s.setHolds h).now = s.now := rfl
@[simp] theorem setHolds_freeCount (h : List Hold) : (s.setHolds h).freeCount = s.freeCount := rfl
@[simp] theorem setHolds_resetN (h : List Hold) : (s.setHolds h).resetN = s.resetN := rfl
@[simp] theorem setHolds_hotPin (h : List Hold) : (s.setHolds h).hotPin = s.hotPin := rfl
@[simp] theorem setHolds_mem (h : List Hold) : (s.setHolds h).mem = s.mem := rfl
@[simp] theorem setHolds_banks (h : List Hold) : (s.setHolds h).banks = s.banks := rfl
@[simp] theorem setHolds_window (h : List Hold) : (s.setHolds h).window = s.window := rfl
@[simp] theorem setHolds_pathBusy (h : List Hold) : (s.setHolds h).pathBusy = s.pathBusy := rfl
@[simp] theorem setHolds_stampCounter (h : List Hold) : (s.setHolds h).stampCounter = s.stampCounter := rfl
@[simp] theorem setHolds_queues (h : List Hold) : (s.setHolds h).queues = s.queues := rfl
@[simp] theorem setHolds_detached (h : List Hold) : (s.setHolds h).detached = s.detached := rfl
@[simp] theorem setHolds_holds (h : List Hold) : (s.setHolds h).holds = h := rfl
@[simp] theorem setHolds_watches (h : List Hold) : (s.setHolds h).watches = s.watches := rfl
@[simp] theorem setHolds_notices (h : List Hold) : (s.setHolds h).notices = s.notices := rfl
@[simp] theorem setHolds_regions (h : List Hold) : (s.setHolds h).regions = s.regions := rfl
@[simp] theorem setHolds_refresh (h : List Hold) : (s.setHolds h).refresh = s.refresh := rfl
@[simp] theorem setHolds_checks (h : List Hold) : (s.setHolds h).checks = s.checks := rfl
@[simp] theorem setHolds_scrub (h : List Hold) : (s.setHolds h).scrub = s.scrub := rfl
@[simp] theorem setHolds_remap (h : List Hold) : (s.setHolds h).remap = s.remap := rfl
@[simp] theorem setHolds_repairQueue (h : List Hold) : (s.setHolds h).repairQueue = s.repairQueue := rfl
@[simp] theorem setHolds_currentJob (h : List Hold) : (s.setHolds h).currentJob = s.currentJob := rfl
@[simp] theorem setHolds_repairBuffer (h : List Hold) : (s.setHolds h).repairBuffer = s.repairBuffer := rfl
@[simp] theorem setHolds_quiet (h : List Hold) : (s.setHolds h).quiet = s.quiet := rfl
@[simp] theorem setHolds_links (h : List Hold) : (s.setHolds h).links = s.links := rfl
@[simp] theorem setHolds_claim (h : List Hold) : (s.setHolds h).claim = s.claim := rfl
@[simp] theorem setHolds_settings (h : List Hold) : (s.setHolds h).settings = s.settings := rfl

@[simp] theorem setScrub_pending (x : Scrubber) : (s.setScrub x).pending = s.pending := rfl
@[simp] theorem setScrub_now (x : Scrubber) : (s.setScrub x).now = s.now := rfl
@[simp] theorem setScrub_freeCount (x : Scrubber) : (s.setScrub x).freeCount = s.freeCount := rfl
@[simp] theorem setScrub_resetN (x : Scrubber) : (s.setScrub x).resetN = s.resetN := rfl
@[simp] theorem setScrub_hotPin (x : Scrubber) : (s.setScrub x).hotPin = s.hotPin := rfl
@[simp] theorem setScrub_mem (x : Scrubber) : (s.setScrub x).mem = s.mem := rfl
@[simp] theorem setScrub_banks (x : Scrubber) : (s.setScrub x).banks = s.banks := rfl
@[simp] theorem setScrub_window (x : Scrubber) : (s.setScrub x).window = s.window := rfl
@[simp] theorem setScrub_pathBusy (x : Scrubber) : (s.setScrub x).pathBusy = s.pathBusy := rfl
@[simp] theorem setScrub_stampCounter (x : Scrubber) : (s.setScrub x).stampCounter = s.stampCounter := rfl
@[simp] theorem setScrub_queues (x : Scrubber) : (s.setScrub x).queues = s.queues := rfl
@[simp] theorem setScrub_detached (x : Scrubber) : (s.setScrub x).detached = s.detached := rfl
@[simp] theorem setScrub_holds (x : Scrubber) : (s.setScrub x).holds = s.holds := rfl
@[simp] theorem setScrub_watches (x : Scrubber) : (s.setScrub x).watches = s.watches := rfl
@[simp] theorem setScrub_notices (x : Scrubber) : (s.setScrub x).notices = s.notices := rfl
@[simp] theorem setScrub_regions (x : Scrubber) : (s.setScrub x).regions = s.regions := rfl
@[simp] theorem setScrub_refresh (x : Scrubber) : (s.setScrub x).refresh = s.refresh := rfl
@[simp] theorem setScrub_checks (x : Scrubber) : (s.setScrub x).checks = s.checks := rfl
@[simp] theorem setScrub_scrub (x : Scrubber) : (s.setScrub x).scrub = x := rfl
@[simp] theorem setScrub_remap (x : Scrubber) : (s.setScrub x).remap = s.remap := rfl
@[simp] theorem setScrub_repairQueue (x : Scrubber) : (s.setScrub x).repairQueue = s.repairQueue := rfl
@[simp] theorem setScrub_currentJob (x : Scrubber) : (s.setScrub x).currentJob = s.currentJob := rfl
@[simp] theorem setScrub_repairBuffer (x : Scrubber) : (s.setScrub x).repairBuffer = s.repairBuffer := rfl
@[simp] theorem setScrub_quiet (x : Scrubber) : (s.setScrub x).quiet = s.quiet := rfl
@[simp] theorem setScrub_links (x : Scrubber) : (s.setScrub x).links = s.links := rfl
@[simp] theorem setScrub_claim (x : Scrubber) : (s.setScrub x).claim = s.claim := rfl
@[simp] theorem setScrub_settings (x : Scrubber) : (s.setScrub x).settings = s.settings := rfl

@[simp] theorem setQuiet_pending (q : Quiet) : (s.setQuiet q).pending = s.pending := rfl
@[simp] theorem setQuiet_now (q : Quiet) : (s.setQuiet q).now = s.now := rfl
@[simp] theorem setQuiet_freeCount (q : Quiet) : (s.setQuiet q).freeCount = s.freeCount := rfl
@[simp] theorem setQuiet_resetN (q : Quiet) : (s.setQuiet q).resetN = s.resetN := rfl
@[simp] theorem setQuiet_hotPin (q : Quiet) : (s.setQuiet q).hotPin = s.hotPin := rfl
@[simp] theorem setQuiet_mem (q : Quiet) : (s.setQuiet q).mem = s.mem := rfl
@[simp] theorem setQuiet_banks (q : Quiet) : (s.setQuiet q).banks = s.banks := rfl
@[simp] theorem setQuiet_window (q : Quiet) : (s.setQuiet q).window = s.window := rfl
@[simp] theorem setQuiet_pathBusy (q : Quiet) : (s.setQuiet q).pathBusy = s.pathBusy := rfl
@[simp] theorem setQuiet_stampCounter (q : Quiet) : (s.setQuiet q).stampCounter = s.stampCounter := rfl
@[simp] theorem setQuiet_queues (q : Quiet) : (s.setQuiet q).queues = s.queues := rfl
@[simp] theorem setQuiet_detached (q : Quiet) : (s.setQuiet q).detached = s.detached := rfl
@[simp] theorem setQuiet_holds (q : Quiet) : (s.setQuiet q).holds = s.holds := rfl
@[simp] theorem setQuiet_watches (q : Quiet) : (s.setQuiet q).watches = s.watches := rfl
@[simp] theorem setQuiet_notices (q : Quiet) : (s.setQuiet q).notices = s.notices := rfl
@[simp] theorem setQuiet_regions (q : Quiet) : (s.setQuiet q).regions = s.regions := rfl
@[simp] theorem setQuiet_refresh (q : Quiet) : (s.setQuiet q).refresh = s.refresh := rfl
@[simp] theorem setQuiet_checks (q : Quiet) : (s.setQuiet q).checks = s.checks := rfl
@[simp] theorem setQuiet_scrub (q : Quiet) : (s.setQuiet q).scrub = s.scrub := rfl
@[simp] theorem setQuiet_remap (q : Quiet) : (s.setQuiet q).remap = s.remap := rfl
@[simp] theorem setQuiet_repairQueue (q : Quiet) : (s.setQuiet q).repairQueue = s.repairQueue := rfl
@[simp] theorem setQuiet_currentJob (q : Quiet) : (s.setQuiet q).currentJob = s.currentJob := rfl
@[simp] theorem setQuiet_repairBuffer (q : Quiet) : (s.setQuiet q).repairBuffer = s.repairBuffer := rfl
@[simp] theorem setQuiet_quiet (q : Quiet) : (s.setQuiet q).quiet = q := rfl
@[simp] theorem setQuiet_links (q : Quiet) : (s.setQuiet q).links = s.links := rfl
@[simp] theorem setQuiet_claim (q : Quiet) : (s.setQuiet q).claim = s.claim := rfl
@[simp] theorem setQuiet_settings (q : Quiet) : (s.setQuiet q).settings = s.settings := rfl

@[simp] theorem setRefresh_pending (r : Refresh) : (s.setRefresh r).pending = s.pending := rfl
@[simp] theorem setRefresh_now (r : Refresh) : (s.setRefresh r).now = s.now := rfl
@[simp] theorem setRefresh_freeCount (r : Refresh) : (s.setRefresh r).freeCount = s.freeCount := rfl
@[simp] theorem setRefresh_resetN (r : Refresh) : (s.setRefresh r).resetN = s.resetN := rfl
@[simp] theorem setRefresh_hotPin (r : Refresh) : (s.setRefresh r).hotPin = s.hotPin := rfl
@[simp] theorem setRefresh_mem (r : Refresh) : (s.setRefresh r).mem = s.mem := rfl
@[simp] theorem setRefresh_banks (r : Refresh) : (s.setRefresh r).banks = s.banks := rfl
@[simp] theorem setRefresh_window (r : Refresh) : (s.setRefresh r).window = s.window := rfl
@[simp] theorem setRefresh_pathBusy (r : Refresh) : (s.setRefresh r).pathBusy = s.pathBusy := rfl
@[simp] theorem setRefresh_stampCounter (r : Refresh) : (s.setRefresh r).stampCounter = s.stampCounter := rfl
@[simp] theorem setRefresh_queues (r : Refresh) : (s.setRefresh r).queues = s.queues := rfl
@[simp] theorem setRefresh_detached (r : Refresh) : (s.setRefresh r).detached = s.detached := rfl
@[simp] theorem setRefresh_holds (r : Refresh) : (s.setRefresh r).holds = s.holds := rfl
@[simp] theorem setRefresh_watches (r : Refresh) : (s.setRefresh r).watches = s.watches := rfl
@[simp] theorem setRefresh_notices (r : Refresh) : (s.setRefresh r).notices = s.notices := rfl
@[simp] theorem setRefresh_regions (r : Refresh) : (s.setRefresh r).regions = s.regions := rfl
@[simp] theorem setRefresh_refresh (r : Refresh) : (s.setRefresh r).refresh = r := rfl
@[simp] theorem setRefresh_checks (r : Refresh) : (s.setRefresh r).checks = s.checks := rfl
@[simp] theorem setRefresh_scrub (r : Refresh) : (s.setRefresh r).scrub = s.scrub := rfl
@[simp] theorem setRefresh_remap (r : Refresh) : (s.setRefresh r).remap = s.remap := rfl
@[simp] theorem setRefresh_repairQueue (r : Refresh) : (s.setRefresh r).repairQueue = s.repairQueue := rfl
@[simp] theorem setRefresh_currentJob (r : Refresh) : (s.setRefresh r).currentJob = s.currentJob := rfl
@[simp] theorem setRefresh_repairBuffer (r : Refresh) : (s.setRefresh r).repairBuffer = s.repairBuffer := rfl
@[simp] theorem setRefresh_quiet (r : Refresh) : (s.setRefresh r).quiet = s.quiet := rfl
@[simp] theorem setRefresh_links (r : Refresh) : (s.setRefresh r).links = s.links := rfl
@[simp] theorem setRefresh_claim (r : Refresh) : (s.setRefresh r).claim = s.claim := rfl
@[simp] theorem setRefresh_settings (r : Refresh) : (s.setRefresh r).settings = s.settings := rfl

@[simp] theorem setChecks_pending (c : CheckUnit) : (s.setChecks c).pending = s.pending := rfl
@[simp] theorem setChecks_now (c : CheckUnit) : (s.setChecks c).now = s.now := rfl
@[simp] theorem setChecks_freeCount (c : CheckUnit) : (s.setChecks c).freeCount = s.freeCount := rfl
@[simp] theorem setChecks_resetN (c : CheckUnit) : (s.setChecks c).resetN = s.resetN := rfl
@[simp] theorem setChecks_hotPin (c : CheckUnit) : (s.setChecks c).hotPin = s.hotPin := rfl
@[simp] theorem setChecks_mem (c : CheckUnit) : (s.setChecks c).mem = s.mem := rfl
@[simp] theorem setChecks_banks (c : CheckUnit) : (s.setChecks c).banks = s.banks := rfl
@[simp] theorem setChecks_window (c : CheckUnit) : (s.setChecks c).window = s.window := rfl
@[simp] theorem setChecks_pathBusy (c : CheckUnit) : (s.setChecks c).pathBusy = s.pathBusy := rfl
@[simp] theorem setChecks_stampCounter (c : CheckUnit) : (s.setChecks c).stampCounter = s.stampCounter := rfl
@[simp] theorem setChecks_queues (c : CheckUnit) : (s.setChecks c).queues = s.queues := rfl
@[simp] theorem setChecks_detached (c : CheckUnit) : (s.setChecks c).detached = s.detached := rfl
@[simp] theorem setChecks_holds (c : CheckUnit) : (s.setChecks c).holds = s.holds := rfl
@[simp] theorem setChecks_watches (c : CheckUnit) : (s.setChecks c).watches = s.watches := rfl
@[simp] theorem setChecks_notices (c : CheckUnit) : (s.setChecks c).notices = s.notices := rfl
@[simp] theorem setChecks_regions (c : CheckUnit) : (s.setChecks c).regions = s.regions := rfl
@[simp] theorem setChecks_refresh (c : CheckUnit) : (s.setChecks c).refresh = s.refresh := rfl
@[simp] theorem setChecks_checks (c : CheckUnit) : (s.setChecks c).checks = c := rfl
@[simp] theorem setChecks_scrub (c : CheckUnit) : (s.setChecks c).scrub = s.scrub := rfl
@[simp] theorem setChecks_remap (c : CheckUnit) : (s.setChecks c).remap = s.remap := rfl
@[simp] theorem setChecks_repairQueue (c : CheckUnit) : (s.setChecks c).repairQueue = s.repairQueue := rfl
@[simp] theorem setChecks_currentJob (c : CheckUnit) : (s.setChecks c).currentJob = s.currentJob := rfl
@[simp] theorem setChecks_repairBuffer (c : CheckUnit) : (s.setChecks c).repairBuffer = s.repairBuffer := rfl
@[simp] theorem setChecks_quiet (c : CheckUnit) : (s.setChecks c).quiet = s.quiet := rfl
@[simp] theorem setChecks_links (c : CheckUnit) : (s.setChecks c).links = s.links := rfl
@[simp] theorem setChecks_claim (c : CheckUnit) : (s.setChecks c).claim = s.claim := rfl
@[simp] theorem setChecks_settings (c : CheckUnit) : (s.setChecks c).settings = s.settings := rfl

@[simp] theorem setClaim_pending (c : Claim) : (s.setClaim c).pending = s.pending := rfl
@[simp] theorem setClaim_now (c : Claim) : (s.setClaim c).now = s.now := rfl
@[simp] theorem setClaim_freeCount (c : Claim) : (s.setClaim c).freeCount = s.freeCount := rfl
@[simp] theorem setClaim_resetN (c : Claim) : (s.setClaim c).resetN = s.resetN := rfl
@[simp] theorem setClaim_hotPin (c : Claim) : (s.setClaim c).hotPin = s.hotPin := rfl
@[simp] theorem setClaim_mem (c : Claim) : (s.setClaim c).mem = s.mem := rfl
@[simp] theorem setClaim_banks (c : Claim) : (s.setClaim c).banks = s.banks := rfl
@[simp] theorem setClaim_window (c : Claim) : (s.setClaim c).window = s.window := rfl
@[simp] theorem setClaim_pathBusy (c : Claim) : (s.setClaim c).pathBusy = s.pathBusy := rfl
@[simp] theorem setClaim_stampCounter (c : Claim) : (s.setClaim c).stampCounter = s.stampCounter := rfl
@[simp] theorem setClaim_queues (c : Claim) : (s.setClaim c).queues = s.queues := rfl
@[simp] theorem setClaim_detached (c : Claim) : (s.setClaim c).detached = s.detached := rfl
@[simp] theorem setClaim_holds (c : Claim) : (s.setClaim c).holds = s.holds := rfl
@[simp] theorem setClaim_watches (c : Claim) : (s.setClaim c).watches = s.watches := rfl
@[simp] theorem setClaim_notices (c : Claim) : (s.setClaim c).notices = s.notices := rfl
@[simp] theorem setClaim_regions (c : Claim) : (s.setClaim c).regions = s.regions := rfl
@[simp] theorem setClaim_refresh (c : Claim) : (s.setClaim c).refresh = s.refresh := rfl
@[simp] theorem setClaim_checks (c : Claim) : (s.setClaim c).checks = s.checks := rfl
@[simp] theorem setClaim_scrub (c : Claim) : (s.setClaim c).scrub = s.scrub := rfl
@[simp] theorem setClaim_remap (c : Claim) : (s.setClaim c).remap = s.remap := rfl
@[simp] theorem setClaim_repairQueue (c : Claim) : (s.setClaim c).repairQueue = s.repairQueue := rfl
@[simp] theorem setClaim_currentJob (c : Claim) : (s.setClaim c).currentJob = s.currentJob := rfl
@[simp] theorem setClaim_repairBuffer (c : Claim) : (s.setClaim c).repairBuffer = s.repairBuffer := rfl
@[simp] theorem setClaim_quiet (c : Claim) : (s.setClaim c).quiet = s.quiet := rfl
@[simp] theorem setClaim_links (c : Claim) : (s.setClaim c).links = s.links := rfl
@[simp] theorem setClaim_claim (c : Claim) : (s.setClaim c).claim = c := rfl
@[simp] theorem setClaim_settings (c : Claim) : (s.setClaim c).settings = s.settings := rfl

@[simp] theorem setSettings_pending (c : Settings) : (s.setSettings c).pending = s.pending := rfl
@[simp] theorem setSettings_now (c : Settings) : (s.setSettings c).now = s.now := rfl
@[simp] theorem setSettings_freeCount (c : Settings) : (s.setSettings c).freeCount = s.freeCount := rfl
@[simp] theorem setSettings_resetN (c : Settings) : (s.setSettings c).resetN = s.resetN := rfl
@[simp] theorem setSettings_hotPin (c : Settings) : (s.setSettings c).hotPin = s.hotPin := rfl
@[simp] theorem setSettings_mem (c : Settings) : (s.setSettings c).mem = s.mem := rfl
@[simp] theorem setSettings_banks (c : Settings) : (s.setSettings c).banks = s.banks := rfl
@[simp] theorem setSettings_window (c : Settings) : (s.setSettings c).window = s.window := rfl
@[simp] theorem setSettings_pathBusy (c : Settings) : (s.setSettings c).pathBusy = s.pathBusy := rfl
@[simp] theorem setSettings_stampCounter (c : Settings) : (s.setSettings c).stampCounter = s.stampCounter := rfl
@[simp] theorem setSettings_queues (c : Settings) : (s.setSettings c).queues = s.queues := rfl
@[simp] theorem setSettings_detached (c : Settings) : (s.setSettings c).detached = s.detached := rfl
@[simp] theorem setSettings_holds (c : Settings) : (s.setSettings c).holds = s.holds := rfl
@[simp] theorem setSettings_watches (c : Settings) : (s.setSettings c).watches = s.watches := rfl
@[simp] theorem setSettings_notices (c : Settings) : (s.setSettings c).notices = s.notices := rfl
@[simp] theorem setSettings_regions (c : Settings) : (s.setSettings c).regions = s.regions := rfl
@[simp] theorem setSettings_refresh (c : Settings) : (s.setSettings c).refresh = s.refresh := rfl
@[simp] theorem setSettings_checks (c : Settings) : (s.setSettings c).checks = s.checks := rfl
@[simp] theorem setSettings_scrub (c : Settings) : (s.setSettings c).scrub = s.scrub := rfl
@[simp] theorem setSettings_remap (c : Settings) : (s.setSettings c).remap = s.remap := rfl
@[simp] theorem setSettings_repairQueue (c : Settings) : (s.setSettings c).repairQueue = s.repairQueue := rfl
@[simp] theorem setSettings_currentJob (c : Settings) : (s.setSettings c).currentJob = s.currentJob := rfl
@[simp] theorem setSettings_repairBuffer (c : Settings) : (s.setSettings c).repairBuffer = s.repairBuffer := rfl
@[simp] theorem setSettings_quiet (c : Settings) : (s.setSettings c).quiet = s.quiet := rfl
@[simp] theorem setSettings_links (c : Settings) : (s.setSettings c).links = s.links := rfl
@[simp] theorem setSettings_claim (c : Settings) : (s.setSettings c).claim = s.claim := rfl
@[simp] theorem setSettings_settings (c : Settings) : (s.setSettings c).settings = c := rfl

@[simp] theorem setJob_pending (j : Option CurrentJob) : (s.setJob j).pending = s.pending := rfl
@[simp] theorem setJob_now (j : Option CurrentJob) : (s.setJob j).now = s.now := rfl
@[simp] theorem setJob_freeCount (j : Option CurrentJob) : (s.setJob j).freeCount = s.freeCount := rfl
@[simp] theorem setJob_resetN (j : Option CurrentJob) : (s.setJob j).resetN = s.resetN := rfl
@[simp] theorem setJob_hotPin (j : Option CurrentJob) : (s.setJob j).hotPin = s.hotPin := rfl
@[simp] theorem setJob_mem (j : Option CurrentJob) : (s.setJob j).mem = s.mem := rfl
@[simp] theorem setJob_banks (j : Option CurrentJob) : (s.setJob j).banks = s.banks := rfl
@[simp] theorem setJob_window (j : Option CurrentJob) : (s.setJob j).window = s.window := rfl
@[simp] theorem setJob_pathBusy (j : Option CurrentJob) : (s.setJob j).pathBusy = s.pathBusy := rfl
@[simp] theorem setJob_stampCounter (j : Option CurrentJob) : (s.setJob j).stampCounter = s.stampCounter := rfl
@[simp] theorem setJob_queues (j : Option CurrentJob) : (s.setJob j).queues = s.queues := rfl
@[simp] theorem setJob_detached (j : Option CurrentJob) : (s.setJob j).detached = s.detached := rfl
@[simp] theorem setJob_holds (j : Option CurrentJob) : (s.setJob j).holds = s.holds := rfl
@[simp] theorem setJob_watches (j : Option CurrentJob) : (s.setJob j).watches = s.watches := rfl
@[simp] theorem setJob_notices (j : Option CurrentJob) : (s.setJob j).notices = s.notices := rfl
@[simp] theorem setJob_regions (j : Option CurrentJob) : (s.setJob j).regions = s.regions := rfl
@[simp] theorem setJob_refresh (j : Option CurrentJob) : (s.setJob j).refresh = s.refresh := rfl
@[simp] theorem setJob_checks (j : Option CurrentJob) : (s.setJob j).checks = s.checks := rfl
@[simp] theorem setJob_scrub (j : Option CurrentJob) : (s.setJob j).scrub = s.scrub := rfl
@[simp] theorem setJob_remap (j : Option CurrentJob) : (s.setJob j).remap = s.remap := rfl
@[simp] theorem setJob_repairQueue (j : Option CurrentJob) : (s.setJob j).repairQueue = s.repairQueue := rfl
@[simp] theorem setJob_currentJob (j : Option CurrentJob) : (s.setJob j).currentJob = j := rfl
@[simp] theorem setJob_repairBuffer (j : Option CurrentJob) : (s.setJob j).repairBuffer = s.repairBuffer := rfl
@[simp] theorem setJob_quiet (j : Option CurrentJob) : (s.setJob j).quiet = s.quiet := rfl
@[simp] theorem setJob_links (j : Option CurrentJob) : (s.setJob j).links = s.links := rfl
@[simp] theorem setJob_claim (j : Option CurrentJob) : (s.setJob j).claim = s.claim := rfl
@[simp] theorem setJob_settings (j : Option CurrentJob) : (s.setJob j).settings = s.settings := rfl

@[simp] theorem mapRecords_pending (f : Record → Record) : (s.mapRecords f).pending = s.pending := rfl
@[simp] theorem mapRecords_now (f : Record → Record) : (s.mapRecords f).now = s.now := rfl
@[simp] theorem mapRecords_freeCount (f : Record → Record) : (s.mapRecords f).freeCount = s.freeCount := rfl
@[simp] theorem mapRecords_resetN (f : Record → Record) : (s.mapRecords f).resetN = s.resetN := rfl
@[simp] theorem mapRecords_hotPin (f : Record → Record) : (s.mapRecords f).hotPin = s.hotPin := rfl
@[simp] theorem mapRecords_mem (f : Record → Record) : (s.mapRecords f).mem = s.mem := rfl
@[simp] theorem mapRecords_banks (f : Record → Record) : (s.mapRecords f).banks = s.banks := rfl
@[simp] theorem mapRecords_window (f : Record → Record) : (s.mapRecords f).window = s.window := rfl
@[simp] theorem mapRecords_pathBusy (f : Record → Record) : (s.mapRecords f).pathBusy = s.pathBusy := rfl
@[simp] theorem mapRecords_stampCounter (f : Record → Record) : (s.mapRecords f).stampCounter = s.stampCounter := rfl
@[simp] theorem mapRecords_queues (f : Record → Record) : (s.mapRecords f).queues = s.queues.map (fun q => q.map f) := rfl
@[simp] theorem mapRecords_detached (f : Record → Record) : (s.mapRecords f).detached = s.detached.map f := rfl
@[simp] theorem mapRecords_holds (f : Record → Record) : (s.mapRecords f).holds = s.holds := rfl
@[simp] theorem mapRecords_watches (f : Record → Record) : (s.mapRecords f).watches = s.watches := rfl
@[simp] theorem mapRecords_notices (f : Record → Record) : (s.mapRecords f).notices = s.notices := rfl
@[simp] theorem mapRecords_regions (f : Record → Record) : (s.mapRecords f).regions = s.regions := rfl
@[simp] theorem mapRecords_refresh (f : Record → Record) : (s.mapRecords f).refresh = s.refresh := rfl
@[simp] theorem mapRecords_checks (f : Record → Record) : (s.mapRecords f).checks = s.checks := rfl
@[simp] theorem mapRecords_scrub (f : Record → Record) : (s.mapRecords f).scrub = s.scrub := rfl
@[simp] theorem mapRecords_remap (f : Record → Record) : (s.mapRecords f).remap = s.remap := rfl
@[simp] theorem mapRecords_repairQueue (f : Record → Record) : (s.mapRecords f).repairQueue = s.repairQueue := rfl
@[simp] theorem mapRecords_currentJob (f : Record → Record) : (s.mapRecords f).currentJob = s.currentJob := rfl
@[simp] theorem mapRecords_repairBuffer (f : Record → Record) : (s.mapRecords f).repairBuffer = s.repairBuffer := rfl
@[simp] theorem mapRecords_quiet (f : Record → Record) : (s.mapRecords f).quiet = s.quiet := rfl
@[simp] theorem mapRecords_links (f : Record → Record) : (s.mapRecords f).links = s.links := rfl
@[simp] theorem mapRecords_claim (f : Record → Record) : (s.mapRecords f).claim = s.claim := rfl
@[simp] theorem mapRecords_settings (f : Record → Record) : (s.mapRecords f).settings = s.settings := rfl

@[simp] theorem mapBanks_pending (f : BankId → Bank → Bank) : (s.mapBanks f).pending = s.pending := rfl
@[simp] theorem mapBanks_now (f : BankId → Bank → Bank) : (s.mapBanks f).now = s.now := rfl
@[simp] theorem mapBanks_freeCount (f : BankId → Bank → Bank) : (s.mapBanks f).freeCount = s.freeCount := rfl
@[simp] theorem mapBanks_resetN (f : BankId → Bank → Bank) : (s.mapBanks f).resetN = s.resetN := rfl
@[simp] theorem mapBanks_hotPin (f : BankId → Bank → Bank) : (s.mapBanks f).hotPin = s.hotPin := rfl
@[simp] theorem mapBanks_mem (f : BankId → Bank → Bank) : (s.mapBanks f).mem = s.mem := rfl
@[simp] theorem mapBanks_banks (f : BankId → Bank → Bank) : (s.mapBanks f).banks = .ofFn (fun b => f b (s.bank b)) := rfl
@[simp] theorem mapBanks_window (f : BankId → Bank → Bank) : (s.mapBanks f).window = s.window := rfl
@[simp] theorem mapBanks_pathBusy (f : BankId → Bank → Bank) : (s.mapBanks f).pathBusy = s.pathBusy := rfl
@[simp] theorem mapBanks_stampCounter (f : BankId → Bank → Bank) : (s.mapBanks f).stampCounter = s.stampCounter := rfl
@[simp] theorem mapBanks_queues (f : BankId → Bank → Bank) : (s.mapBanks f).queues = s.queues := rfl
@[simp] theorem mapBanks_detached (f : BankId → Bank → Bank) : (s.mapBanks f).detached = s.detached := rfl
@[simp] theorem mapBanks_holds (f : BankId → Bank → Bank) : (s.mapBanks f).holds = s.holds := rfl
@[simp] theorem mapBanks_watches (f : BankId → Bank → Bank) : (s.mapBanks f).watches = s.watches := rfl
@[simp] theorem mapBanks_notices (f : BankId → Bank → Bank) : (s.mapBanks f).notices = s.notices := rfl
@[simp] theorem mapBanks_regions (f : BankId → Bank → Bank) : (s.mapBanks f).regions = s.regions := rfl
@[simp] theorem mapBanks_refresh (f : BankId → Bank → Bank) : (s.mapBanks f).refresh = s.refresh := rfl
@[simp] theorem mapBanks_checks (f : BankId → Bank → Bank) : (s.mapBanks f).checks = s.checks := rfl
@[simp] theorem mapBanks_scrub (f : BankId → Bank → Bank) : (s.mapBanks f).scrub = s.scrub := rfl
@[simp] theorem mapBanks_remap (f : BankId → Bank → Bank) : (s.mapBanks f).remap = s.remap := rfl
@[simp] theorem mapBanks_repairQueue (f : BankId → Bank → Bank) : (s.mapBanks f).repairQueue = s.repairQueue := rfl
@[simp] theorem mapBanks_currentJob (f : BankId → Bank → Bank) : (s.mapBanks f).currentJob = s.currentJob := rfl
@[simp] theorem mapBanks_repairBuffer (f : BankId → Bank → Bank) : (s.mapBanks f).repairBuffer = s.repairBuffer := rfl
@[simp] theorem mapBanks_quiet (f : BankId → Bank → Bank) : (s.mapBanks f).quiet = s.quiet := rfl
@[simp] theorem mapBanks_links (f : BankId → Bank → Bank) : (s.mapBanks f).links = s.links := rfl
@[simp] theorem mapBanks_claim (f : BankId → Bank → Bank) : (s.mapBanks f).claim = s.claim := rfl
@[simp] theorem mapBanks_settings (f : BankId → Bank → Bank) : (s.mapBanks f).settings = s.settings := rfl

@[simp] theorem atInstant_pending (t : Instant) : (s.atInstant t).pending = s.pending := rfl
@[simp] theorem atInstant_now (t : Instant) : (s.atInstant t).now = t := rfl
@[simp] theorem atInstant_freeCount (t : Instant) : (s.atInstant t).freeCount = s.freeCount := rfl
@[simp] theorem atInstant_resetN (t : Instant) : (s.atInstant t).resetN = s.resetN := rfl
@[simp] theorem atInstant_hotPin (t : Instant) : (s.atInstant t).hotPin = s.hotPin := rfl
@[simp] theorem atInstant_mem (t : Instant) : (s.atInstant t).mem = s.mem := rfl
@[simp] theorem atInstant_banks (t : Instant) : (s.atInstant t).banks = s.banks := rfl
@[simp] theorem atInstant_window (t : Instant) : (s.atInstant t).window = s.window := rfl
@[simp] theorem atInstant_pathBusy (t : Instant) : (s.atInstant t).pathBusy = s.pathBusy := rfl
@[simp] theorem atInstant_stampCounter (t : Instant) : (s.atInstant t).stampCounter = s.stampCounter := rfl
@[simp] theorem atInstant_queues (t : Instant) : (s.atInstant t).queues = s.queues := rfl
@[simp] theorem atInstant_detached (t : Instant) : (s.atInstant t).detached = s.detached := rfl
@[simp] theorem atInstant_holds (t : Instant) : (s.atInstant t).holds = s.holds := rfl
@[simp] theorem atInstant_watches (t : Instant) : (s.atInstant t).watches = s.watches := rfl
@[simp] theorem atInstant_notices (t : Instant) : (s.atInstant t).notices = s.notices := rfl
@[simp] theorem atInstant_regions (t : Instant) : (s.atInstant t).regions = s.regions := rfl
@[simp] theorem atInstant_refresh (t : Instant) : (s.atInstant t).refresh = s.refresh := rfl
@[simp] theorem atInstant_checks (t : Instant) : (s.atInstant t).checks = s.checks := rfl
@[simp] theorem atInstant_scrub (t : Instant) : (s.atInstant t).scrub = s.scrub := rfl
@[simp] theorem atInstant_remap (t : Instant) : (s.atInstant t).remap = s.remap := rfl
@[simp] theorem atInstant_repairQueue (t : Instant) : (s.atInstant t).repairQueue = s.repairQueue := rfl
@[simp] theorem atInstant_currentJob (t : Instant) : (s.atInstant t).currentJob = s.currentJob := rfl
@[simp] theorem atInstant_repairBuffer (t : Instant) : (s.atInstant t).repairBuffer = s.repairBuffer := rfl
@[simp] theorem atInstant_quiet (t : Instant) : (s.atInstant t).quiet = s.quiet := rfl
@[simp] theorem atInstant_links (t : Instant) : (s.atInstant t).links = s.links := rfl
@[simp] theorem atInstant_claim (t : Instant) : (s.atInstant t).claim = s.claim := rfl
@[simp] theorem atInstant_settings (t : Instant) : (s.atInstant t).settings = s.settings := rfl

@[simp] theorem occupyPath_pending : (s.occupyPath).pending = s.pending := rfl
@[simp] theorem occupyPath_now : (s.occupyPath).now = s.now := rfl
@[simp] theorem occupyPath_freeCount : (s.occupyPath).freeCount = s.freeCount := rfl
@[simp] theorem occupyPath_resetN : (s.occupyPath).resetN = s.resetN := rfl
@[simp] theorem occupyPath_hotPin : (s.occupyPath).hotPin = s.hotPin := rfl
@[simp] theorem occupyPath_mem : (s.occupyPath).mem = s.mem := rfl
@[simp] theorem occupyPath_banks : (s.occupyPath).banks = s.banks := rfl
@[simp] theorem occupyPath_window : (s.occupyPath).window = s.window := rfl
@[simp] theorem occupyPath_pathBusy : (s.occupyPath).pathBusy = some (s.now + pathOccupancy) := rfl
@[simp] theorem occupyPath_stampCounter : (s.occupyPath).stampCounter = s.stampCounter := rfl
@[simp] theorem occupyPath_queues : (s.occupyPath).queues = s.queues := rfl
@[simp] theorem occupyPath_detached : (s.occupyPath).detached = s.detached := rfl
@[simp] theorem occupyPath_holds : (s.occupyPath).holds = s.holds := rfl
@[simp] theorem occupyPath_watches : (s.occupyPath).watches = s.watches := rfl
@[simp] theorem occupyPath_notices : (s.occupyPath).notices = s.notices := rfl
@[simp] theorem occupyPath_regions : (s.occupyPath).regions = s.regions := rfl
@[simp] theorem occupyPath_refresh : (s.occupyPath).refresh = s.refresh := rfl
@[simp] theorem occupyPath_checks : (s.occupyPath).checks = s.checks := rfl
@[simp] theorem occupyPath_scrub : (s.occupyPath).scrub = s.scrub := rfl
@[simp] theorem occupyPath_remap : (s.occupyPath).remap = s.remap := rfl
@[simp] theorem occupyPath_repairQueue : (s.occupyPath).repairQueue = s.repairQueue := rfl
@[simp] theorem occupyPath_currentJob : (s.occupyPath).currentJob = s.currentJob := rfl
@[simp] theorem occupyPath_repairBuffer : (s.occupyPath).repairBuffer = s.repairBuffer := rfl
@[simp] theorem occupyPath_quiet : (s.occupyPath).quiet = s.quiet := rfl
@[simp] theorem occupyPath_links : (s.occupyPath).links = s.links := rfl
@[simp] theorem occupyPath_claim : (s.occupyPath).claim = s.claim := rfl
@[simp] theorem occupyPath_settings : (s.occupyPath).settings = s.settings := rfl

@[simp] theorem touchBank_pending (l : LineId) (f : Bank → Bank) : (s.touchBank l f).pending = s.pending := rfl
@[simp] theorem touchBank_now (l : LineId) (f : Bank → Bank) : (s.touchBank l f).now = s.now := rfl
@[simp] theorem touchBank_freeCount (l : LineId) (f : Bank → Bank) : (s.touchBank l f).freeCount = s.freeCount := rfl
@[simp] theorem touchBank_resetN (l : LineId) (f : Bank → Bank) : (s.touchBank l f).resetN = s.resetN := rfl
@[simp] theorem touchBank_hotPin (l : LineId) (f : Bank → Bank) : (s.touchBank l f).hotPin = s.hotPin := rfl
@[simp] theorem touchBank_mem (l : LineId) (f : Bank → Bank) : (s.touchBank l f).mem = s.mem := rfl
@[simp] theorem touchBank_banks (l : LineId) (f : Bank → Bank) : (s.touchBank l f).banks = s.banks.set (lineBank l) (f (s.bank (lineBank l))) := rfl
@[simp] theorem touchBank_window (l : LineId) (f : Bank → Bank) : (s.touchBank l f).window = s.window := rfl
@[simp] theorem touchBank_pathBusy (l : LineId) (f : Bank → Bank) : (s.touchBank l f).pathBusy = s.pathBusy := rfl
@[simp] theorem touchBank_stampCounter (l : LineId) (f : Bank → Bank) : (s.touchBank l f).stampCounter = s.stampCounter := rfl
@[simp] theorem touchBank_queues (l : LineId) (f : Bank → Bank) : (s.touchBank l f).queues = s.queues := rfl
@[simp] theorem touchBank_detached (l : LineId) (f : Bank → Bank) : (s.touchBank l f).detached = s.detached := rfl
@[simp] theorem touchBank_holds (l : LineId) (f : Bank → Bank) : (s.touchBank l f).holds = s.holds := rfl
@[simp] theorem touchBank_watches (l : LineId) (f : Bank → Bank) : (s.touchBank l f).watches = s.watches := rfl
@[simp] theorem touchBank_notices (l : LineId) (f : Bank → Bank) : (s.touchBank l f).notices = s.notices := rfl
@[simp] theorem touchBank_regions (l : LineId) (f : Bank → Bank) : (s.touchBank l f).regions = s.regions := rfl
@[simp] theorem touchBank_refresh (l : LineId) (f : Bank → Bank) : (s.touchBank l f).refresh = s.refresh := rfl
@[simp] theorem touchBank_checks (l : LineId) (f : Bank → Bank) : (s.touchBank l f).checks = s.checks := rfl
@[simp] theorem touchBank_scrub (l : LineId) (f : Bank → Bank) : (s.touchBank l f).scrub = s.scrub := rfl
@[simp] theorem touchBank_remap (l : LineId) (f : Bank → Bank) : (s.touchBank l f).remap = s.remap := rfl
@[simp] theorem touchBank_repairQueue (l : LineId) (f : Bank → Bank) : (s.touchBank l f).repairQueue = s.repairQueue := rfl
@[simp] theorem touchBank_currentJob (l : LineId) (f : Bank → Bank) : (s.touchBank l f).currentJob = s.currentJob := rfl
@[simp] theorem touchBank_repairBuffer (l : LineId) (f : Bank → Bank) : (s.touchBank l f).repairBuffer = s.repairBuffer := rfl
@[simp] theorem touchBank_quiet (l : LineId) (f : Bank → Bank) : (s.touchBank l f).quiet = s.quiet := rfl
@[simp] theorem touchBank_links (l : LineId) (f : Bank → Bank) : (s.touchBank l f).links = s.links := rfl
@[simp] theorem touchBank_claim (l : LineId) (f : Bank → Bank) : (s.touchBank l f).claim = s.claim := rfl
@[simp] theorem touchBank_settings (l : LineId) (f : Bank → Bank) : (s.touchBank l f).settings = s.settings := rfl

@[simp] theorem storeWords_pending (l : LineId) (ws : List (WordIx × CheckedWord)) : (s.storeWords l ws).pending = s.pending := rfl
@[simp] theorem storeWords_now (l : LineId) (ws : List (WordIx × CheckedWord)) : (s.storeWords l ws).now = s.now := rfl
@[simp] theorem storeWords_freeCount (l : LineId) (ws : List (WordIx × CheckedWord)) : (s.storeWords l ws).freeCount = s.freeCount := rfl
@[simp] theorem storeWords_resetN (l : LineId) (ws : List (WordIx × CheckedWord)) : (s.storeWords l ws).resetN = s.resetN := rfl
@[simp] theorem storeWords_hotPin (l : LineId) (ws : List (WordIx × CheckedWord)) : (s.storeWords l ws).hotPin = s.hotPin := rfl
@[simp] theorem storeWords_mem (l : LineId) (ws : List (WordIx × CheckedWord)) : (s.storeWords l ws).mem = s.mem.storeLine (s.openLine l) ws := rfl
@[simp] theorem storeWords_banks (l : LineId) (ws : List (WordIx × CheckedWord)) : (s.storeWords l ws).banks = s.banks := rfl
@[simp] theorem storeWords_window (l : LineId) (ws : List (WordIx × CheckedWord)) : (s.storeWords l ws).window = s.window := rfl
@[simp] theorem storeWords_pathBusy (l : LineId) (ws : List (WordIx × CheckedWord)) : (s.storeWords l ws).pathBusy = s.pathBusy := rfl
@[simp] theorem storeWords_stampCounter (l : LineId) (ws : List (WordIx × CheckedWord)) : (s.storeWords l ws).stampCounter = s.stampCounter := rfl
@[simp] theorem storeWords_queues (l : LineId) (ws : List (WordIx × CheckedWord)) : (s.storeWords l ws).queues = s.queues := rfl
@[simp] theorem storeWords_detached (l : LineId) (ws : List (WordIx × CheckedWord)) : (s.storeWords l ws).detached = s.detached := rfl
@[simp] theorem storeWords_holds (l : LineId) (ws : List (WordIx × CheckedWord)) : (s.storeWords l ws).holds = s.holds := rfl
@[simp] theorem storeWords_watches (l : LineId) (ws : List (WordIx × CheckedWord)) : (s.storeWords l ws).watches = s.watches := rfl
@[simp] theorem storeWords_notices (l : LineId) (ws : List (WordIx × CheckedWord)) : (s.storeWords l ws).notices = s.notices := rfl
@[simp] theorem storeWords_regions (l : LineId) (ws : List (WordIx × CheckedWord)) : (s.storeWords l ws).regions = s.regions := rfl
@[simp] theorem storeWords_refresh (l : LineId) (ws : List (WordIx × CheckedWord)) : (s.storeWords l ws).refresh = s.refresh := rfl
@[simp] theorem storeWords_checks (l : LineId) (ws : List (WordIx × CheckedWord)) : (s.storeWords l ws).checks = s.checks := rfl
@[simp] theorem storeWords_scrub (l : LineId) (ws : List (WordIx × CheckedWord)) : (s.storeWords l ws).scrub = s.scrub := rfl
@[simp] theorem storeWords_remap (l : LineId) (ws : List (WordIx × CheckedWord)) : (s.storeWords l ws).remap = s.remap := rfl
@[simp] theorem storeWords_repairQueue (l : LineId) (ws : List (WordIx × CheckedWord)) : (s.storeWords l ws).repairQueue = s.repairQueue := rfl
@[simp] theorem storeWords_currentJob (l : LineId) (ws : List (WordIx × CheckedWord)) : (s.storeWords l ws).currentJob = s.currentJob := rfl
@[simp] theorem storeWords_repairBuffer (l : LineId) (ws : List (WordIx × CheckedWord)) : (s.storeWords l ws).repairBuffer = s.repairBuffer := rfl
@[simp] theorem storeWords_quiet (l : LineId) (ws : List (WordIx × CheckedWord)) : (s.storeWords l ws).quiet = s.quiet := rfl
@[simp] theorem storeWords_links (l : LineId) (ws : List (WordIx × CheckedWord)) : (s.storeWords l ws).links = s.links := rfl
@[simp] theorem storeWords_claim (l : LineId) (ws : List (WordIx × CheckedWord)) : (s.storeWords l ws).claim = s.claim := rfl
@[simp] theorem storeWords_settings (l : LineId) (ws : List (WordIx × CheckedWord)) : (s.storeWords l ws).settings = s.settings := rfl

@[simp] theorem writeBackLine_pending (l : LineId) (os : List WordOutcome) : (s.writeBackLine l os).pending = s.pending := rfl
@[simp] theorem writeBackLine_now (l : LineId) (os : List WordOutcome) : (s.writeBackLine l os).now = s.now := rfl
@[simp] theorem writeBackLine_freeCount (l : LineId) (os : List WordOutcome) : (s.writeBackLine l os).freeCount = s.freeCount := rfl
@[simp] theorem writeBackLine_resetN (l : LineId) (os : List WordOutcome) : (s.writeBackLine l os).resetN = s.resetN := rfl
@[simp] theorem writeBackLine_hotPin (l : LineId) (os : List WordOutcome) : (s.writeBackLine l os).hotPin = s.hotPin := rfl
@[simp] theorem writeBackLine_mem (l : LineId) (os : List WordOutcome) : (s.writeBackLine l os).mem = s.mem.writeBack (s.openLine l) (numbered os) := rfl
@[simp] theorem writeBackLine_banks (l : LineId) (os : List WordOutcome) : (s.writeBackLine l os).banks = s.banks := rfl
@[simp] theorem writeBackLine_window (l : LineId) (os : List WordOutcome) : (s.writeBackLine l os).window = s.window := rfl
@[simp] theorem writeBackLine_pathBusy (l : LineId) (os : List WordOutcome) : (s.writeBackLine l os).pathBusy = s.pathBusy := rfl
@[simp] theorem writeBackLine_stampCounter (l : LineId) (os : List WordOutcome) : (s.writeBackLine l os).stampCounter = s.stampCounter := rfl
@[simp] theorem writeBackLine_queues (l : LineId) (os : List WordOutcome) : (s.writeBackLine l os).queues = s.queues := rfl
@[simp] theorem writeBackLine_detached (l : LineId) (os : List WordOutcome) : (s.writeBackLine l os).detached = s.detached := rfl
@[simp] theorem writeBackLine_holds (l : LineId) (os : List WordOutcome) : (s.writeBackLine l os).holds = s.holds := rfl
@[simp] theorem writeBackLine_watches (l : LineId) (os : List WordOutcome) : (s.writeBackLine l os).watches = s.watches := rfl
@[simp] theorem writeBackLine_notices (l : LineId) (os : List WordOutcome) : (s.writeBackLine l os).notices = s.notices := rfl
@[simp] theorem writeBackLine_regions (l : LineId) (os : List WordOutcome) : (s.writeBackLine l os).regions = s.regions := rfl
@[simp] theorem writeBackLine_refresh (l : LineId) (os : List WordOutcome) : (s.writeBackLine l os).refresh = s.refresh := rfl
@[simp] theorem writeBackLine_checks (l : LineId) (os : List WordOutcome) : (s.writeBackLine l os).checks = s.checks := rfl
@[simp] theorem writeBackLine_scrub (l : LineId) (os : List WordOutcome) : (s.writeBackLine l os).scrub = s.scrub := rfl
@[simp] theorem writeBackLine_remap (l : LineId) (os : List WordOutcome) : (s.writeBackLine l os).remap = s.remap := rfl
@[simp] theorem writeBackLine_repairQueue (l : LineId) (os : List WordOutcome) : (s.writeBackLine l os).repairQueue = s.repairQueue := rfl
@[simp] theorem writeBackLine_currentJob (l : LineId) (os : List WordOutcome) : (s.writeBackLine l os).currentJob = s.currentJob := rfl
@[simp] theorem writeBackLine_repairBuffer (l : LineId) (os : List WordOutcome) : (s.writeBackLine l os).repairBuffer = s.repairBuffer := rfl
@[simp] theorem writeBackLine_quiet (l : LineId) (os : List WordOutcome) : (s.writeBackLine l os).quiet = s.quiet := rfl
@[simp] theorem writeBackLine_links (l : LineId) (os : List WordOutcome) : (s.writeBackLine l os).links = s.links := rfl
@[simp] theorem writeBackLine_claim (l : LineId) (os : List WordOutcome) : (s.writeBackLine l os).claim = s.claim := rfl
@[simp] theorem writeBackLine_settings (l : LineId) (os : List WordOutcome) : (s.writeBackLine l os).settings = s.settings := rfl

@[simp] theorem decay_pending (l : LineId) (ws : List Flip) : (s.decay l ws).pending = s.pending := rfl
@[simp] theorem decay_now (l : LineId) (ws : List Flip) : (s.decay l ws).now = s.now := rfl
@[simp] theorem decay_freeCount (l : LineId) (ws : List Flip) : (s.decay l ws).freeCount = s.freeCount := rfl
@[simp] theorem decay_resetN (l : LineId) (ws : List Flip) : (s.decay l ws).resetN = s.resetN := rfl
@[simp] theorem decay_hotPin (l : LineId) (ws : List Flip) : (s.decay l ws).hotPin = s.hotPin := rfl
@[simp] theorem decay_mem (l : LineId) (ws : List Flip) : (s.decay l ws).mem = s.mem.flipBits (s.openLine l) ws := rfl
@[simp] theorem decay_banks (l : LineId) (ws : List Flip) : (s.decay l ws).banks = s.banks := rfl
@[simp] theorem decay_window (l : LineId) (ws : List Flip) : (s.decay l ws).window = s.window := rfl
@[simp] theorem decay_pathBusy (l : LineId) (ws : List Flip) : (s.decay l ws).pathBusy = s.pathBusy := rfl
@[simp] theorem decay_stampCounter (l : LineId) (ws : List Flip) : (s.decay l ws).stampCounter = s.stampCounter := rfl
@[simp] theorem decay_queues (l : LineId) (ws : List Flip) : (s.decay l ws).queues = s.queues := rfl
@[simp] theorem decay_detached (l : LineId) (ws : List Flip) : (s.decay l ws).detached = s.detached := rfl
@[simp] theorem decay_holds (l : LineId) (ws : List Flip) : (s.decay l ws).holds = s.holds := rfl
@[simp] theorem decay_watches (l : LineId) (ws : List Flip) : (s.decay l ws).watches = s.watches := rfl
@[simp] theorem decay_notices (l : LineId) (ws : List Flip) : (s.decay l ws).notices = s.notices := rfl
@[simp] theorem decay_regions (l : LineId) (ws : List Flip) : (s.decay l ws).regions = s.regions := rfl
@[simp] theorem decay_refresh (l : LineId) (ws : List Flip) : (s.decay l ws).refresh = s.refresh := rfl
@[simp] theorem decay_checks (l : LineId) (ws : List Flip) : (s.decay l ws).checks = s.checks := rfl
@[simp] theorem decay_scrub (l : LineId) (ws : List Flip) : (s.decay l ws).scrub = s.scrub := rfl
@[simp] theorem decay_remap (l : LineId) (ws : List Flip) : (s.decay l ws).remap = s.remap := rfl
@[simp] theorem decay_repairQueue (l : LineId) (ws : List Flip) : (s.decay l ws).repairQueue = s.repairQueue := rfl
@[simp] theorem decay_currentJob (l : LineId) (ws : List Flip) : (s.decay l ws).currentJob = s.currentJob := rfl
@[simp] theorem decay_repairBuffer (l : LineId) (ws : List Flip) : (s.decay l ws).repairBuffer = s.repairBuffer := rfl
@[simp] theorem decay_quiet (l : LineId) (ws : List Flip) : (s.decay l ws).quiet = s.quiet := rfl
@[simp] theorem decay_links (l : LineId) (ws : List Flip) : (s.decay l ws).links = s.links := rfl
@[simp] theorem decay_claim (l : LineId) (ws : List Flip) : (s.decay l ws).claim = s.claim := rfl
@[simp] theorem decay_settings (l : LineId) (ws : List Flip) : (s.decay l ws).settings = s.settings := rfl

@[simp] theorem releaseHold_pending (h : Holder) : (s.releaseHold h).pending = s.pending := rfl
@[simp] theorem releaseHold_now (h : Holder) : (s.releaseHold h).now = s.now := rfl
@[simp] theorem releaseHold_freeCount (h : Holder) : (s.releaseHold h).freeCount = s.freeCount := rfl
@[simp] theorem releaseHold_resetN (h : Holder) : (s.releaseHold h).resetN = s.resetN := rfl
@[simp] theorem releaseHold_hotPin (h : Holder) : (s.releaseHold h).hotPin = s.hotPin := rfl
@[simp] theorem releaseHold_mem (h : Holder) : (s.releaseHold h).mem = s.mem := rfl
@[simp] theorem releaseHold_banks (h : Holder) : (s.releaseHold h).banks = s.banks := rfl
@[simp] theorem releaseHold_window (h : Holder) : (s.releaseHold h).window = s.window := rfl
@[simp] theorem releaseHold_pathBusy (h : Holder) : (s.releaseHold h).pathBusy = s.pathBusy := rfl
@[simp] theorem releaseHold_stampCounter (h : Holder) : (s.releaseHold h).stampCounter = s.stampCounter := rfl
@[simp] theorem releaseHold_queues (h : Holder) : (s.releaseHold h).queues = s.queues := rfl
@[simp] theorem releaseHold_detached (h : Holder) : (s.releaseHold h).detached = s.detached := rfl
@[simp] theorem releaseHold_holds (h : Holder) : (s.releaseHold h).holds = s.holds.filter (fun e => decide (e.holder ≠ h)) := rfl
@[simp] theorem releaseHold_watches (h : Holder) : (s.releaseHold h).watches = s.watches := rfl
@[simp] theorem releaseHold_notices (h : Holder) : (s.releaseHold h).notices = s.notices := rfl
@[simp] theorem releaseHold_regions (h : Holder) : (s.releaseHold h).regions = s.regions := rfl
@[simp] theorem releaseHold_refresh (h : Holder) : (s.releaseHold h).refresh = s.refresh := rfl
@[simp] theorem releaseHold_checks (h : Holder) : (s.releaseHold h).checks = s.checks := rfl
@[simp] theorem releaseHold_scrub (h : Holder) : (s.releaseHold h).scrub = s.scrub := rfl
@[simp] theorem releaseHold_remap (h : Holder) : (s.releaseHold h).remap = s.remap := rfl
@[simp] theorem releaseHold_repairQueue (h : Holder) : (s.releaseHold h).repairQueue = s.repairQueue := rfl
@[simp] theorem releaseHold_currentJob (h : Holder) : (s.releaseHold h).currentJob = s.currentJob := rfl
@[simp] theorem releaseHold_repairBuffer (h : Holder) : (s.releaseHold h).repairBuffer = s.repairBuffer := rfl
@[simp] theorem releaseHold_quiet (h : Holder) : (s.releaseHold h).quiet = s.quiet := rfl
@[simp] theorem releaseHold_links (h : Holder) : (s.releaseHold h).links = s.links := rfl
@[simp] theorem releaseHold_claim (h : Holder) : (s.releaseHold h).claim = s.claim := rfl
@[simp] theorem releaseHold_settings (h : Holder) : (s.releaseHold h).settings = s.settings := rfl

@[simp] theorem modRecord_pending (st : Stamp) (f : Record → Record) : (s.modRecord st f).pending = s.pending := rfl
@[simp] theorem modRecord_now (st : Stamp) (f : Record → Record) : (s.modRecord st f).now = s.now := rfl
@[simp] theorem modRecord_freeCount (st : Stamp) (f : Record → Record) : (s.modRecord st f).freeCount = s.freeCount := rfl
@[simp] theorem modRecord_resetN (st : Stamp) (f : Record → Record) : (s.modRecord st f).resetN = s.resetN := rfl
@[simp] theorem modRecord_hotPin (st : Stamp) (f : Record → Record) : (s.modRecord st f).hotPin = s.hotPin := rfl
@[simp] theorem modRecord_mem (st : Stamp) (f : Record → Record) : (s.modRecord st f).mem = s.mem := rfl
@[simp] theorem modRecord_banks (st : Stamp) (f : Record → Record) : (s.modRecord st f).banks = s.banks := rfl
@[simp] theorem modRecord_window (st : Stamp) (f : Record → Record) : (s.modRecord st f).window = s.window := rfl
@[simp] theorem modRecord_pathBusy (st : Stamp) (f : Record → Record) : (s.modRecord st f).pathBusy = s.pathBusy := rfl
@[simp] theorem modRecord_stampCounter (st : Stamp) (f : Record → Record) : (s.modRecord st f).stampCounter = s.stampCounter := rfl
@[simp] theorem modRecord_queues (st : Stamp) (f : Record → Record) : (s.modRecord st f).queues = s.queues.map (fun q => q.map (fun r => if r.stamp = st then f r else r)) := rfl
@[simp] theorem modRecord_detached (st : Stamp) (f : Record → Record) : (s.modRecord st f).detached = s.detached.map (fun r => if r.stamp = st then f r else r) := rfl
@[simp] theorem modRecord_holds (st : Stamp) (f : Record → Record) : (s.modRecord st f).holds = s.holds := rfl
@[simp] theorem modRecord_watches (st : Stamp) (f : Record → Record) : (s.modRecord st f).watches = s.watches := rfl
@[simp] theorem modRecord_notices (st : Stamp) (f : Record → Record) : (s.modRecord st f).notices = s.notices := rfl
@[simp] theorem modRecord_regions (st : Stamp) (f : Record → Record) : (s.modRecord st f).regions = s.regions := rfl
@[simp] theorem modRecord_refresh (st : Stamp) (f : Record → Record) : (s.modRecord st f).refresh = s.refresh := rfl
@[simp] theorem modRecord_checks (st : Stamp) (f : Record → Record) : (s.modRecord st f).checks = s.checks := rfl
@[simp] theorem modRecord_scrub (st : Stamp) (f : Record → Record) : (s.modRecord st f).scrub = s.scrub := rfl
@[simp] theorem modRecord_remap (st : Stamp) (f : Record → Record) : (s.modRecord st f).remap = s.remap := rfl
@[simp] theorem modRecord_repairQueue (st : Stamp) (f : Record → Record) : (s.modRecord st f).repairQueue = s.repairQueue := rfl
@[simp] theorem modRecord_currentJob (st : Stamp) (f : Record → Record) : (s.modRecord st f).currentJob = s.currentJob := rfl
@[simp] theorem modRecord_repairBuffer (st : Stamp) (f : Record → Record) : (s.modRecord st f).repairBuffer = s.repairBuffer := rfl
@[simp] theorem modRecord_quiet (st : Stamp) (f : Record → Record) : (s.modRecord st f).quiet = s.quiet := rfl
@[simp] theorem modRecord_links (st : Stamp) (f : Record → Record) : (s.modRecord st f).links = s.links := rfl
@[simp] theorem modRecord_claim (st : Stamp) (f : Record → Record) : (s.modRecord st f).claim = s.claim := rfl
@[simp] theorem modRecord_settings (st : Stamp) (f : Record → Record) : (s.modRecord st f).settings = s.settings := rfl

@[simp] theorem dropRecord_pending (p : Port) (st : Stamp) : (s.dropRecord p st).pending = s.pending := rfl
@[simp] theorem dropRecord_now (p : Port) (st : Stamp) : (s.dropRecord p st).now = s.now := rfl
@[simp] theorem dropRecord_freeCount (p : Port) (st : Stamp) : (s.dropRecord p st).freeCount = s.freeCount := rfl
@[simp] theorem dropRecord_resetN (p : Port) (st : Stamp) : (s.dropRecord p st).resetN = s.resetN := rfl
@[simp] theorem dropRecord_hotPin (p : Port) (st : Stamp) : (s.dropRecord p st).hotPin = s.hotPin := rfl
@[simp] theorem dropRecord_mem (p : Port) (st : Stamp) : (s.dropRecord p st).mem = s.mem := rfl
@[simp] theorem dropRecord_banks (p : Port) (st : Stamp) : (s.dropRecord p st).banks = s.banks := rfl
@[simp] theorem dropRecord_window (p : Port) (st : Stamp) : (s.dropRecord p st).window = s.window := rfl
@[simp] theorem dropRecord_pathBusy (p : Port) (st : Stamp) : (s.dropRecord p st).pathBusy = s.pathBusy := rfl
@[simp] theorem dropRecord_stampCounter (p : Port) (st : Stamp) : (s.dropRecord p st).stampCounter = s.stampCounter := rfl
@[simp] theorem dropRecord_queues (p : Port) (st : Stamp) : (s.dropRecord p st).queues = s.queues.set p ((s.queue p).filter (fun q => decide (q.stamp ≠ st))) := rfl
@[simp] theorem dropRecord_detached (p : Port) (st : Stamp) : (s.dropRecord p st).detached = s.detached := rfl
@[simp] theorem dropRecord_holds (p : Port) (st : Stamp) : (s.dropRecord p st).holds = s.holds := rfl
@[simp] theorem dropRecord_watches (p : Port) (st : Stamp) : (s.dropRecord p st).watches = s.watches := rfl
@[simp] theorem dropRecord_notices (p : Port) (st : Stamp) : (s.dropRecord p st).notices = s.notices := rfl
@[simp] theorem dropRecord_regions (p : Port) (st : Stamp) : (s.dropRecord p st).regions = s.regions := rfl
@[simp] theorem dropRecord_refresh (p : Port) (st : Stamp) : (s.dropRecord p st).refresh = s.refresh := rfl
@[simp] theorem dropRecord_checks (p : Port) (st : Stamp) : (s.dropRecord p st).checks = s.checks := rfl
@[simp] theorem dropRecord_scrub (p : Port) (st : Stamp) : (s.dropRecord p st).scrub = s.scrub := rfl
@[simp] theorem dropRecord_remap (p : Port) (st : Stamp) : (s.dropRecord p st).remap = s.remap := rfl
@[simp] theorem dropRecord_repairQueue (p : Port) (st : Stamp) : (s.dropRecord p st).repairQueue = s.repairQueue := rfl
@[simp] theorem dropRecord_currentJob (p : Port) (st : Stamp) : (s.dropRecord p st).currentJob = s.currentJob := rfl
@[simp] theorem dropRecord_repairBuffer (p : Port) (st : Stamp) : (s.dropRecord p st).repairBuffer = s.repairBuffer := rfl
@[simp] theorem dropRecord_quiet (p : Port) (st : Stamp) : (s.dropRecord p st).quiet = s.quiet := rfl
@[simp] theorem dropRecord_links (p : Port) (st : Stamp) : (s.dropRecord p st).links = s.links := rfl
@[simp] theorem dropRecord_claim (p : Port) (st : Stamp) : (s.dropRecord p st).claim = s.claim := rfl
@[simp] theorem dropRecord_settings (p : Port) (st : Stamp) : (s.dropRecord p st).settings = s.settings := rfl

@[simp] theorem useFree_pending : (s.useFree).pending = s.pending := rfl
@[simp] theorem useFree_now : (s.useFree).now = s.now := rfl
@[simp] theorem useFree_freeCount : (s.useFree).freeCount = s.freeCount + 1 := rfl
@[simp] theorem useFree_resetN : (s.useFree).resetN = s.resetN := rfl
@[simp] theorem useFree_hotPin : (s.useFree).hotPin = s.hotPin := rfl
@[simp] theorem useFree_mem : (s.useFree).mem = s.mem := rfl
@[simp] theorem useFree_banks : (s.useFree).banks = s.banks := rfl
@[simp] theorem useFree_window : (s.useFree).window = s.window := rfl
@[simp] theorem useFree_pathBusy : (s.useFree).pathBusy = s.pathBusy := rfl
@[simp] theorem useFree_stampCounter : (s.useFree).stampCounter = s.stampCounter := rfl
@[simp] theorem useFree_queues : (s.useFree).queues = s.queues := rfl
@[simp] theorem useFree_detached : (s.useFree).detached = s.detached := rfl
@[simp] theorem useFree_holds : (s.useFree).holds = s.holds := rfl
@[simp] theorem useFree_watches : (s.useFree).watches = s.watches := rfl
@[simp] theorem useFree_notices : (s.useFree).notices = s.notices := rfl
@[simp] theorem useFree_regions : (s.useFree).regions = s.regions := rfl
@[simp] theorem useFree_refresh : (s.useFree).refresh = s.refresh := rfl
@[simp] theorem useFree_checks : (s.useFree).checks = s.checks := rfl
@[simp] theorem useFree_scrub : (s.useFree).scrub = s.scrub := rfl
@[simp] theorem useFree_remap : (s.useFree).remap = s.remap := rfl
@[simp] theorem useFree_repairQueue : (s.useFree).repairQueue = s.repairQueue := rfl
@[simp] theorem useFree_currentJob : (s.useFree).currentJob = s.currentJob := rfl
@[simp] theorem useFree_repairBuffer : (s.useFree).repairBuffer = s.repairBuffer := rfl
@[simp] theorem useFree_quiet : (s.useFree).quiet = s.quiet := rfl
@[simp] theorem useFree_links : (s.useFree).links = s.links := rfl
@[simp] theorem useFree_claim : (s.useFree).claim = s.claim := rfl
@[simp] theorem useFree_settings : (s.useFree).settings = s.settings := rfl

end Sys2Proof.Machine.State
end

