-- ==== Sys2Proof/Laws/Control.lean ====
section
/-! SUPPORT. What the shared operations of the control side can do, said once for each: `Control s t` holds between the state before
and the state after. -/

namespace Sys2Proof.Machine

/-! ## What they never change -/

/-- A bank without what the control side changes: its state, its idle timer and its marks. -/
def Bank.core (x : Bank) : Bank := { x with state := .closed, idle := .stopped, marks := .empty, idleReset := false }

/-- A link without its error counts. -/
def Link.core (l : Link) : Link := { l with errors := .zero }

/-- The parts of the state that the control side leaves alone. -/
structure Fixed where
  pending : List Instr
  now : Instant
  resetN : Bool
  hotPin : Bool
  mem : Memory
  window : List Instant
  pathBusy : Option Instant
  stampCounter : Stamp
  remap : Table 16 (Table 4 Spare)
  debt : Table 4 Int
  urgentAt : Table 4 (Option Instant)
  rotation : GroupId
  quarter : Option Instant
  sweepDone : Bool
  sweepAt : Nat
  wakeTimer : Option Instant
  links : Port → Link
  banks : BankId → Bank

def State.fixed (s : State) : Fixed :=
  { pending := s.pending, now := s.now, resetN := s.resetN, hotPin := s.hotPin, mem := s.mem, window := s.window
    pathBusy := s.pathBusy, stampCounter := s.stampCounter, remap := s.remap, debt := s.refresh.debt
    urgentAt := s.refresh.urgentAt, rotation := s.refresh.rotation, quarter := s.refresh.quarter
    sweepDone := s.scrub.sweepDone, sweepAt := s.scrub.sweepAt, wakeTimer := s.quiet.wakeTimer
    links := fun p => (s.link p).core, banks := fun b => (s.bank b).core }

/-- What names a record: port, tag, kind with its fields, posted, region and stamp. -/
def Record.key (r : Record) : Port × Tag × ReqOp × Bool × Option RegionIx × Stamp :=
  (r.port, r.tag, r.op, r.posted, r.region, r.stamp)

/-- A bank's state stays, or it moves between CLOSED and REPAIRING. -/
def BankState.Rests (a b : BankState) : Prop :=
  a = b ∨ ((a = .closed ∨ a = .repairing) ∧ (b = .closed ∨ b = .repairing))

/-- What the control side can do, but for which jobs wait. -/
structure Moves (s t : State) : Prop where
  fixed : t.fixed = s.fixed
  queues : ∀ p, ((t.queue p).map Record.key).Sublist ((s.queue p).map Record.key)
  detached : (t.detached.map Record.key).Sublist (s.detached.map Record.key)
  holds : t.holds.Sublist s.holds
  asleep : t.asleep = s.asleep
  banks : ∀ b, (s.bank b).state.Rests (t.bank b).state
  notices : ∀ p, (s.noticeQ p).Bounded → (t.noticeQ p).Bounded
  repairs : s.repairQueue.length ≤ 4 → t.repairQueue.length ≤ 4
  regions : RegionsApart s → RegionsApart t
  watches : WatchesBounded s → WatchesBounded t

/-- What the control side can do; no job waits without a current one after it, if none did before. -/
structure Control (s t : State) : Prop extends Moves s t where
  first : JobFirst s → JobFirst t

namespace BankState.Rests

theorem rfl' (a : BankState) : a.Rests a := Or.inl rfl

theorem trans {a b c : BankState} (h : a.Rests b) (k : b.Rests c) : a.Rests c := by
  rcases h with rfl | ⟨ha, hb⟩
  · exact k
  · rcases k with rfl | ⟨_, hc⟩
    · exact Or.inr ⟨ha, hb⟩
    · exact Or.inr ⟨ha, hc⟩

end BankState.Rests

namespace Moves

theorem refl (s : State) : Moves s s where
  fixed := rfl
  queues _ := List.Sublist.refl _
  detached := List.Sublist.refl _
  holds := List.Sublist.refl _
  asleep := rfl
  banks _ := .rfl' _
  notices _ h := h
  repairs h := h
  regions h := h
  watches h := h

theorem trans {s t u : State} (h : Moves s t) (k : Moves t u) : Moves s u where
  fixed := k.fixed.trans h.fixed
  queues p := (k.queues p).trans (h.queues p)
  detached := k.detached.trans h.detached
  holds := k.holds.trans h.holds
  asleep := k.asleep.trans h.asleep
  banks b := (h.banks b).trans (k.banks b)
  notices p x := k.notices p (h.notices p x)
  repairs x := k.repairs (h.repairs x)
  regions x := k.regions (h.regions x)
  watches x := k.watches (h.watches x)

end Moves

namespace Control

theorem refl (s : State) : Control s s := { Moves.refl s with first := fun h => h }

theorem trans {s t u : State} (h : Control s t) (k : Control t u) : Control s u :=
  { h.toMoves.trans k.toMoves with first := fun x => k.first (h.first x) }

theorem foldl {α : Type} {f : State → α → State} (hf : ∀ s a, Control s (f s a)) (l : List α) (s : State) :
    Control s (l.foldl f s) := by
  induction l generalizing s with
  | nil => exact refl s
  | cons a l ih => exact (hf s a).trans (ih _)

variable {s t : State}

theorem now (h : Control s t) : t.now = s.now := congrArg Fixed.now h.fixed
theorem mem (h : Control s t) : t.mem = s.mem := congrArg Fixed.mem h.fixed
theorem window (h : Control s t) : t.window = s.window := congrArg Fixed.window h.fixed
theorem remap (h : Control s t) : t.remap = s.remap := congrArg Fixed.remap h.fixed
theorem pathBusy (h : Control s t) : t.pathBusy = s.pathBusy := congrArg Fixed.pathBusy h.fixed
theorem stampCounter (h : Control s t) : t.stampCounter = s.stampCounter := congrArg Fixed.stampCounter h.fixed
theorem link (h : Control s t) (p : Port) : (t.link p).core = (s.link p).core := congrFun (congrArg Fixed.links h.fixed) p
theorem bank (h : Control s t) (b : BankId) : (t.bank b).core = (s.bank b).core := congrFun (congrArg Fixed.banks h.fixed) b

theorem online (h : Control s t) (p : Port) : t.online p = s.online p := by
  have e := congrArg Link.state (h.link p)
  simp only [Link.core] at e
  simp only [State.online, e]

end Control

/-! ## The watch table's bounds -/

theorem ownedWatches_set (t : Table 32 (Option Watch)) (i : WatchId) (w : Option Watch) (p : Port) :
    ownedWatches (t.set i w) p ≤ ownedWatches t p + if ownedBy p w = true then 1 else 0 := by
  have h : ∀ (l : List (Option Watch)) (k : Nat),
      ((l.set k w).filter (ownedBy p)).length ≤ (l.filter (ownedBy p)).length + if ownedBy p w = true then 1 else 0 := by
    intro l
    induction l with
    | nil => intro k; simp
    | cons x l ih =>
      intro k
      cases k with
      | zero => simp only [List.set_cons_zero, List.filter_cons]; split <;> split <;> simp
      | succ k =>
        have := ih k
        simp only [List.set_cons_succ, List.filter_cons]
        split
        · simp only [List.length_cons]; omega
        · exact this
  exact h t.items i.val

/-- An entry removed keeps the bounds. -/
theorem WatchTableBounded.clear {t : Table 32 (Option Watch)} (h : WatchTableBounded t) (i : WatchId) :
    WatchTableBounded (t.set i none) where
  owned p := (ownedWatches_set t i none p).trans (by simpa [ownedBy] using h.owned p)
  apart j k w hj hk := by
    rw [Table.get_set] at hj hk
    split at hj
    · cases hj
    · split at hk
      · cases hk
      · exact h.apart j k w hj hk

/-- An entry armed for a port that owns fewer than 16, on a line the port does not watch, keeps the bounds. -/
theorem WatchTableBounded.arm {t : Table 32 (Option Watch)} (h : WatchTableBounded t) (i : WatchId) (w : Watch)
    (hc : ownedWatches t w.owner < Config.watchesPerPort) (hn : ∀ j, t.get j ≠ some w) :
    WatchTableBounded (t.set i (some w)) where
  owned p := by
    have e := ownedWatches_set t i (some w) p
    by_cases hp : w.owner = p
    · subst hp; simp only [ownedBy, decide_true, if_true] at e; omega
    · simp only [ownedBy, decide_eq_true_eq, hp, if_false, Nat.add_zero] at e
      exact e.trans (h.owned p)
  apart j k x hj hk := by
    rw [Table.get_set] at hj hk
    split at hj
    · rename_i ej
      split at hk
      · rename_i ek; rw [ej, ek]
      · rw [← hj] at hk; exact absurd hk (hn k)
    · split at hk
      · rw [← hk] at hj; exact absurd hj (hn j)
      · exact h.apart j k x hj hk

/-! ## Notices -/

theorem countUp_le {top n : Nat} (h : n ≤ top) : countUp top n ≤ top := by
  unfold countUp; split <;> omega

/-- A change of one port's notices that keeps the bounds. -/
theorem control_setNoticeQ (s : State) (p : Port) (q : NoticeQueue) (h : (s.noticeQ p).Bounded → q.Bounded) :
    Control s (s.setNoticeQ p q) :=
  { Control.refl s with
    notices := fun k hk => by
      by_cases e : k = p
      · subst e; simpa using h hk
      · simpa [e] using hk }

/-- A change of one watch entry that keeps the table's bounds. -/
theorem control_setWatch (s : State) (i : WatchId) (w : Option Watch)
    (h : WatchesBounded s → WatchTableBounded (s.watches.set i w)) : Control s (s.setWatch i w) :=
  { Control.refl s with watches := h }

/-- An entry removed. -/
theorem control_clearWatch (s : State) (i : WatchId) : Control s (s.setWatch i none) :=
  control_setWatch s i none fun h => h.clear i

/-- A change of claim, settings, freeCount or votes touches nothing that `Control` bounds. -/
theorem control_setVote (s : State) (p : Port) (v : Option Vote) : Control s (s.setVote p v) := { Control.refl s with }
theorem control_setClaim (s : State) (c : Claim) : Control s (s.setClaim c) := { Control.refl s with }
theorem control_setSettings (s : State) (c : Settings) : Control s (s.setSettings c) := { Control.refl s with }
theorem control_setChecks (s : State) (c : CheckUnit) : Control s (s.setChecks c) := { Control.refl s with }
theorem control_setJob (s : State) (c : CurrentJob) : Control s (s.setJob (some c)) :=
  { Control.refl s with first := fun _ h => nomatch h }

theorem control_placeNotice (s : State) (p : Port) (n : Notice) : Control s (s.placeNotice p n) := by
  unfold State.placeNotice
  split
  · dsimp only
    split
    · rename_i hl
      refine control_setNoticeQ s p _ fun h => ⟨?_, h.2.1, fun hp => ?_⟩
      · simp only [List.length_append, List.length_singleton]; omega
      · have := h.2.2 hp; omega
    · rename_i hl
      refine control_setNoticeQ s p _ fun h => ⟨h.1, countUp_le h.2.1, fun _ => ?_⟩
      have := h.1; show (s.noticeQ p).queue.length = _; omega
  · exact .refl s

theorem control_placeIf (s : State) (want : Enables → Bool) (n : Notice) (p : Port) : Control s (s.placeIf want n p) := by
  unfold State.placeIf
  split
  · exact control_placeNotice ..
  · exact .refl s

theorem control_broadcast (s : State) (want : Enables → Bool) (n : Notice) : Control s (s.broadcast want n) :=
  (control_placeIf ..).trans ((control_placeIf ..).trans (control_placeIf ..))

/-! ## Records -/

theorem map_key_of {f : Record → Record} (hf : ∀ r, (f r).key = r.key) (l : List Record) :
    (l.map f).map Record.key = l.map Record.key := by simp [hf]

theorem control_mapRecords (s : State) {f : Record → Record} (hf : ∀ r, (f r).key = r.key) : Control s (s.mapRecords f) :=
  { Control.refl s with
    queues := fun p => by rw [State.queue_mapRecords, map_key_of hf]
    detached := by
      show ((s.detached.map f).map Record.key).Sublist _
      rw [map_key_of hf] }

theorem control_modRecord (s : State) (st : Stamp) {f : Record → Record} (hf : ∀ r, (f r).key = r.key) :
    Control s (s.modRecord st f) :=
  control_mapRecords s fun r => by split <;> simp [hf]

theorem control_finishControl (s : State) (st : Stamp) (res : Result) : Control s (s.finishControl st res) :=
  control_modRecord s st fun _ => rfl

theorem control_dropRecord (s : State) (p : Port) (st : Stamp) : Control s (s.dropRecord p st) :=
  { Control.refl s with
    queues := fun k => by
      by_cases e : k = p
      · subst e
        unfold State.dropRecord
        rw [State.queue_setQueue_self]
        exact List.filter_sublist.map _
      · unfold State.dropRecord
        rw [State.queue_setQueue_of_ne _ e] }

/-! ## Watches -/

theorem control_recheckWatch (s : State) (i : WatchId) : Control s (s.recheckWatch i) := by
  unfold State.recheckWatch
  split
  · split
    · exact (control_clearWatch ..).trans (control_placeNotice ..)
    · exact .refl s
  · exact .refl s

theorem control_recheckWatches (s : State) : Control s s.recheckWatches := Control.foldl control_recheckWatch _ s

theorem control_fireWatch (p : Port) (l : LineId) (s : State) (i : WatchId) : Control s (s.fireWatch p l i) := by
  unfold State.fireWatch
  split
  · split
    · exact (control_clearWatch ..).trans (control_placeNotice ..)
    · exact .refl s
  · exact .refl s

theorem control_fireWatches (s : State) (p : Port) (l : LineId) : Control s (s.fireWatches p l) :=
  Control.foldl (control_fireWatch p l) _ s

/-! ## Regions -/

theorem rangesOverlap_comm (b l b' l' : Nat) : rangesOverlap b l b' l' = rangesOverlap b' l' b l := by
  simp only [rangesOverlap, and_comm]

/-- Changing one region keeps the regions apart if its new ranges are apart from the others' and a DISABLED one counts nothing. -/
theorem RegionsApart.setRegion {s : State} (h : RegionsApart s) (i : RegionIx) (r : Region)
    (hr : ∀ j, j ≠ i → ∀ b l b' l', r.Range b l → (s.region j).Range b' l' → rangesOverlap b l b' l' = false)
    (hu : r.state = .disabled → r.inFlight = 0) : RegionsApart (s.setRegion i r) where
  apart j k hjk b l b' l' hj hk := by
    change ((s.setRegion i r).region j).Range b l at hj
    change ((s.setRegion i r).region k).Range b' l' at hk
    by_cases e : j = i
    · subst e
      rw [State.region_setRegion_self] at hj
      rw [State.region_setRegion_of_ne _ (Ne.symm hjk)] at hk
      exact hr k (Ne.symm hjk) _ _ _ _ hj hk
    · rw [State.region_setRegion_of_ne _ e] at hj
      by_cases e' : k = i
      · subst e'
        rw [State.region_setRegion_self] at hk
        rw [rangesOverlap_comm]
        exact hr j e _ _ _ _ hk hj
      · rw [State.region_setRegion_of_ne _ e'] at hk
        exact h.apart j k hjk _ _ _ _ hj hk
  unused j hj := by
    change ((s.setRegion i r).region j).state = .disabled at hj
    change ((s.setRegion i r).region j).inFlight = 0
    by_cases e : j = i
    · subst e
      rw [State.region_setRegion_self] at hj ⊢
      exact hu hj
    · rw [State.region_setRegion_of_ne _ e] at hj ⊢
      exact h.unused j hj

theorem control_setRegion (s : State) (i : RegionIx) (r : Region)
    (h : RegionsApart s → RegionsApart (s.setRegion i r)) : Control s (s.setRegion i r) :=
  { Control.refl s with regions := h }

/-- A change of a region that leaves its ranges, and counts nothing in a DISABLED one. -/
theorem control_setRegion_same (s : State) (i : RegionIx) (n : Nat)
    (h : (s.region i).state = .disabled → (s.region i).inFlight = 0 → n = 0) :
    Control s (s.setRegion i { s.region i with inFlight := n }) :=
  control_setRegion s i _ fun ha => RegionsApart.setRegion ha i _
    (fun j hj b l b' l' h1 h2 => ha.apart i j (Ne.symm hj) b l b' l' h1 h2)
    (fun hd => h hd (ha.unused i hd))

theorem control_takeEffect (s : State) (i : RegionIx) (x : Replacement)
    (h : RegionsApart s → ∀ j, j ≠ i → x.enable = true → ∀ b' l', (s.region j).Range b' l' →
      rangesOverlap x.body.base x.body.limit b' l' = false)
    (h0 : (s.region i).inFlight = 0) : Control s (s.takeEffect i x) := by
  refine Control.trans ?_ (control_recheckWatches _)
  refine control_setRegion s i _ fun ha => RegionsApart.setRegion ha i _ ?_ (fun _ => h0)
  intro j hj b l b' l' h1 h2
  rcases h1 with ⟨he, rfl, rfl⟩ | ⟨y, hy, _⟩
  · refine h ha j hj ?_ b' l' h2
    by_contra hne
    simp [hne] at he
  · simp at hy

theorem control_endDrain (s : State) (i : RegionIx) (h0 : (s.region i).inFlight = 0) : Control s (s.endDrain i) := by
  unfold State.endDrain
  split
  · exact .refl s
  · rename_i x hx
    have hc : Control s (s.takeEffect i x) := control_takeEffect s i x
      (fun ha j hj he b' l' h2 => ha.apart i j (Ne.symm hj) _ _ _ _ (Or.inr ⟨x, hx, he, rfl, rfl⟩) h2) h0
    dsimp only
    split
    · exact hc.trans (control_finishControl ..)
    · exact hc

theorem control_leaveRegion (s : State) (i : RegionIx) : Control s (s.leaveRegion i) := by
  have hc := control_setRegion_same s i ((s.region i).inFlight - 1) (fun _ h => by omega)
  unfold State.leaveRegion
  dsimp only
  split
  · rename_i h
    refine hc.trans (control_endDrain _ i ?_)
    rw [State.region_setRegion_self]; exact h.2
  · exact hc

theorem control_leaveRegionOf (s : State) (r : Record) : Control s (s.leaveRegionOf r) := by
  unfold State.leaveRegionOf
  split
  · exact control_leaveRegion ..
  · exact .refl s

theorem control_finishMemory (s : State) (r : Record) (res : Result) : Control s (s.finishMemory r res) := by
  unfold State.finishMemory
  split
  · split
    · dsimp only
      refine (control_dropRecord s r.port r.stamp).trans (.trans ?_ (control_leaveRegionOf ..))
      split
      · exact .refl _
      · exact control_placeNotice ..
    · refine Control.trans ?_ (control_leaveRegionOf _ _)
      exact control_modRecord s r.stamp fun _ => rfl
  · refine Control.trans (t := { s with detached := s.detached.filter (fun q => decide (q.stamp ≠ r.stamp)) })
      { Control.refl s with detached := ?_ } (control_leaveRegionOf ..)
    exact List.filter_sublist.map _

/-! ## Banks -/

/-- A change of one bank that keeps its core and lets its state rest. -/
theorem control_setBank (s : State) (b : BankId) (x : Bank) (hc : x.core = (s.bank b).core)
    (hs : (s.bank b).state.Rests x.state) : Control s (s.setBank b x) :=
  { Control.refl s with
    fixed := by
      have : (fun k => ((s.setBank b x).bank k).core) = fun k => (s.bank k).core := by
        funext k
        by_cases e : k = b
        · subst e; simpa using hc
        · simp [e]
      simp only [State.fixed, this]
      rfl
    banks := fun k => by
      by_cases e : k = b
      · subst e; simpa using hs
      · simpa [e] using BankState.Rests.rfl' _ }

/-- A change of every bank that keeps the cores and lets the states rest. -/
theorem control_mapBanks (s : State) (f : BankId → Bank → Bank) (hc : ∀ b, (f b (s.bank b)).core = (s.bank b).core)
    (hs : ∀ b, (s.bank b).state.Rests (f b (s.bank b)).state) : Control s (s.mapBanks f) :=
  { Control.refl s with
    fixed := by
      have : (fun k => ((s.mapBanks f).bank k).core) = fun k => (s.bank k).core := by
        funext k; simpa using hc k
      simp only [State.fixed, this]
      rfl
    banks := fun k => by simpa using hs k }

/-! ## The quiet controller -/

theorem control_setQuiet (s : State) (q : Quiet) (hw : q.wakeTimer = s.quiet.wakeTimer)
    (ha : (s.setQuiet q).asleep = s.asleep) : Control s (s.setQuiet q) :=
  { Control.refl s with
    fixed := by simp only [State.fixed, State.setQuiet, hw]; rfl
    asleep := ha }

theorem control_withdrawRetention (s : State) : Control s s.withdrawRetention :=
  control_mapBanks s _ (fun _ => rfl) (fun _ => .rfl' _)

theorem control_quietBreak (s : State) : Control s s.quietBreak := by
  unfold State.quietBreak
  split
  · rename_i h
    exact control_setQuiet s _ rfl (by simp [State.asleep, State.setQuiet, h])
  · rename_i h
    refine Control.trans ?_ (control_withdrawRetention _)
    exact control_setQuiet s _ rfl (by simp [State.asleep, State.setQuiet, h])
  all_goals exact .refl s

theorem control_enterEntering (s : State) (h : s.asleep = false) : Control s s.enterEntering := by
  refine Control.trans ?_ (control_mapBanks _ _ (fun b => ?_) (fun b => ?_))
  · exact control_setQuiet s _ rfl (by rw [h]; simp [State.asleep, State.setQuiet])
  · dsimp only; split <;> rfl
  · dsimp only; split <;> exact .rfl' _

theorem control_beginSettling (s : State) (h : s.asleep = false) : Control s s.beginSettling := by
  unfold State.beginSettling
  split
  · exact control_enterEntering s h
  · exact control_setQuiet s _ rfl (by rw [h]; simp [State.asleep, State.setQuiet])

theorem control_reviewQuiet (s : State) : Control s s.reviewQuiet := by
  unfold State.reviewQuiet
  have hc : Control s (if s.settled then s else s.quietBreak) := by
    split
    · exact .refl s
    · exact control_quietBreak s
  revert hc
  generalize (if s.settled then s else s.quietBreak) = u
  intro hc
  dsimp only
  split
  · rename_i h
    exact hc.trans (control_beginSettling _ (by simp [State.asleep, h.1]))
  · exact hc

theorem control_wakeCause (s : State) (c : WakeCause) (p : Port) : Control s (s.wakeCause c p) := by
  unfold State.wakeCause
  split
  · rename_i h
    exact control_setQuiet s _ rfl (by simp [State.asleep, State.setQuiet, h])
  · exact .refl s

/-! ## The scrubber and the repair controller -/

theorem control_setScrub (s : State) (x : Scrubber) (hd : x.sweepDone = s.scrub.sweepDone)
    (ha : x.sweepAt = s.scrub.sweepAt) : Control s (s.setScrub x) :=
  { Control.refl s with fixed := by simp only [State.fixed, State.setScrub, hd, ha]; rfl }

theorem control_scrubStepEnd (s : State) : Control s s.scrubStepEnd := control_setScrub s _ rfl rfl

theorem control_releaseScrubHold (s : State) : Control s s.releaseScrubHold :=
  { Control.refl s with holds := List.filter_sublist }

theorem taken_core (x : Bank) : x.taken.core = x.core := by unfold Bank.taken; split <;> rfl

theorem taken_rests (x : Bank) : x.state.Rests x.taken.state := by
  unfold Bank.taken
  split
  · rename_i h; exact Or.inr ⟨Or.inl h, Or.inr rfl⟩
  all_goals exact .rfl' _

theorem control_takeBank (s : State) (b : BankId) : Control s (s.takeBank b) := by
  have hc := control_setBank s b _ (taken_core _) (taken_rests _)
  unfold State.takeBank
  dsimp only
  split
  · exact hc.trans ((control_releaseScrubHold _).trans (control_scrubStepEnd _))
  · exact hc

theorem control_releaseBank (s : State) (b : BankId) : Control s (s.releaseBank b) := by
  refine control_setBank s b _ rfl ?_
  by_cases h : (s.bank b).state = .repairing
  · exact Or.inr ⟨Or.inr h, Or.inl (by simp [h])⟩
  · exact Or.inl (by simp [h])

/-- The end of a job alone: the jobs that wait have no current one before them until the next starts. -/
theorem moves_endJob (s : State) (j : Job) (st : Status) (sp : Option SpareId) (n : Nat) : Moves s (s.endJob j st sp n) := by
  unfold State.endJob
  have h1 : Moves s ({ s with currentJob := none, repairBuffer := [] } : State) := { Moves.refl s with }
  have h2 := h1.trans (control_releaseBank _ j.bank).toMoves
  have h3 := h2.trans (Control.foldl (fun t (q : Requester) => control_finishControl t q.stamp ⟨st, .repair sp n⟩)
    j.requesters _).toMoves
  have h4 := h3.trans (control_broadcast _ Enables.repairDone (.repairDone j.bank j.row sp st n)).toMoves
  dsimp only
  split
  · exact h4.trans (control_setChecks ..).toMoves
  · exact h4

theorem control_runJob (s : State) (j : Job) (sp : SpareId) : Control s (s.runJob j sp) :=
  (control_setJob ..).trans (control_takeBank ..)

@[simp] theorem placeNotice_repairQueue (s : State) (p : Port) (n : Notice) :
    (s.placeNotice p n).repairQueue = s.repairQueue := by
  unfold State.placeNotice; dsimp only; split
  · split <;> rfl
  · rfl

@[simp] theorem broadcast_repairQueue (s : State) (w : Enables → Bool) (n : Notice) :
    (s.broadcast w n).repairQueue = s.repairQueue := by
  unfold State.broadcast State.placeIf
  split <;> split <;> split <;> simp

theorem takeBank_repairQueue (s : State) (b : BankId) : (s.takeBank b).repairQueue = s.repairQueue := by
  unfold State.takeBank
  dsimp only
  split <;> rfl

theorem endJob_repairQueue (s : State) (j : Job) (st : Status) (sp : Option SpareId) (n : Nat) :
    (s.endJob j st sp n).repairQueue = s.repairQueue := by
  have hf : ∀ (l : List Requester) (t : State) (res : Result),
      (l.foldl (fun t q => t.finishControl q.stamp res) t).repairQueue = t.repairQueue := by
    intro l
    induction l with
    | nil => intros; rfl
    | cons a l ih => intro t res; rw [List.foldl_cons, ih]; rfl
  unfold State.endJob
  dsimp only
  split
  · rw [State.setChecks_repairQueue, broadcast_repairQueue, hf]; rfl
  · rw [broadcast_repairQueue, hf]; rfl

theorem moves_startJobs (js : List Job) (s : State) (h : s.repairQueue.length ≤ 4 → js.length ≤ 4) :
    Moves s (State.startJobs js s) := by
  induction js generalizing s with
  | nil => exact { Moves.refl s with repairs := fun _ => Nat.zero_le 4 }
  | cons j rest ih =>
    unfold State.startJobs
    split
    · refine Moves.trans (t := { s with repairQueue := rest })
        { Moves.refl s with repairs := fun x => ?_ } (control_runJob ..).toMoves
      have := h x
      simp only [List.length_cons] at this
      show rest.length ≤ 4
      omega
    · refine ((control_takeBank s j.bank).toMoves.trans (moves_endJob _ j .noSpare none 0)).trans (ih _ ?_)
      rw [endJob_repairQueue, takeBank_repairQueue]
      intro x
      have := h x
      simp only [List.length_cons] at this
      omega

/-- Once the head of the queue has been started, a job is current or none waits. -/
theorem jobFirst_startJobs (js : List Job) (s : State) : JobFirst (State.startJobs js s) := by
  induction js generalizing s with
  | nil => exact fun _ => rfl
  | cons j rest ih =>
    unfold State.startJobs
    split
    · exact (control_takeBank _ _).first fun h => nomatch h
    · exact ih _

theorem control_startJobs (js : List Job) (s : State) (h : s.repairQueue.length ≤ 4 → js.length ≤ 4) :
    Control s (State.startJobs js s) :=
  { moves_startJobs js s h with first := fun _ => jobFirst_startJobs js s }

theorem control_completeJob (s : State) (c : CurrentJob) : Control s (s.completeJob c) :=
  { (moves_endJob ..).trans (moves_startJobs _ _ fun h => h) with first := fun _ => jobFirst_startJobs _ _ }

theorem quietBreak_repairQueue (s : State) : s.quietBreak.repairQueue = s.repairQueue := by
  unfold State.quietBreak; split <;> rfl

/-- A job that fits merges with a queued one or with the current one, or finds room. -/
theorem jobFits_cases {s : State} {new : Job} (h : s.jobFits new = true) :
    s.repairQueue.any (fun j => j.sameRow new) = true ∨ s.currentTakes new = true ∨ s.repairQueue.length < 4 := by
  simp only [State.jobFits, Bool.or_eq_true] at h
  rcases h with (h | h) | h
  · exact Or.inl h
  · exact Or.inr (Or.inl h)
  · exact Or.inr (Or.inr (of_decide_eq_true h))

theorem control_submitJob (s : State) (new : Job) (h : s.jobFits new = true) : Control s (s.submitJob new) := by
  unfold State.submitJob
  split
  · exact { Control.refl s with repairs := fun x => by simpa using x, first := fun x h => by simpa using x h }
  · rename_i hq
    have hr := (jobFits_cases h).resolve_left hq
    split
    · rename_i c hcur
      split
      · exact control_setJob ..
      · rename_i ht
        have hl := hr.resolve_left (by simpa [State.currentTakes, hcur] using ht)
        refine Control.trans ?_ (control_quietBreak _)
        refine { Control.refl s with repairs := fun _ => ?_, first := fun _ h => nomatch hcur.symm.trans h }
        show (s.repairQueue ++ [new]).length ≤ 4
        simp only [List.length_append, List.length_singleton]
        omega
    · rename_i hcur
      have hl := hr.resolve_left (by simp [State.currentTakes, hcur])
      refine (control_quietBreak s).trans (control_startJobs _ _ fun _ => ?_)
      simp only [List.length_append, List.length_singleton]
      omega

theorem control_autoJob (s : State) (b : BankId) (row : RowId) : Control s (s.autoJob b row) := by
  unfold State.autoJob
  dsimp only
  split
  · rename_i h; exact control_submitJob s _ h
  · exact .refl s

/-! ## The check-bit unit -/

theorem control_advise (s : State) (b : BankId) (row : RowId) : Control s (s.advise b row) := by
  unfold State.advise
  dsimp only
  split
  · exact (control_broadcast ..).trans (control_autoJob ..)
  · exact control_broadcast ..

theorem control_noteFault (s : State) (b : BankId) (row : RowId) : Control s (s.noteFault b row) := by
  unfold State.noteFault
  dsimp only
  split
  · exact (control_setChecks ..).trans (control_advise ..)
  · exact control_setChecks ..

theorem control_countWord (f : ReadFor) (l : LineId) (s : State) (x : WordIx × WordOutcome) :
    Control s (s.countWord f l x) := by
  unfold State.countWord
  split
  · exact .refl s
  · exact .refl s
  · dsimp only
    split
    · exact (control_setChecks ..).trans (control_noteFault ..)
    · exact control_setChecks ..
  · exact (control_setChecks ..).trans (control_broadcast ..)

theorem control_countLine (s : State) (f : ReadFor) (l : LineId) (os : List WordOutcome) : Control s (s.countLine f l os) :=
  Control.foldl (control_countWord f l) _ s

/-! ## Claim, settings and the other control kinds -/

theorem control_restartClaim (s : State) : Control s s.restartClaim := control_setClaim ..

theorem control_doClaim (s : State) (p : Port) : Control s (s.doClaim p).1 := by
  unfold State.doClaim
  split
  · exact control_setClaim ..
  · split
    · exact control_restartClaim s
    · exact .refl s

theorem control_doRelease (s : State) (p : Port) : Control s (s.doRelease p).1 := by
  unfold State.doRelease
  split
  · exact control_setClaim ..
  · exact .refl s

theorem ageAt_key (now : Instant) (limit : Nat) (r : Record) : (r.ageAt now limit).key = r.key := by
  unfold Record.ageAt; split <;> rfl

theorem control_putSetting (s : State) (code v : Nat) : Control s (s.putSetting code v) := by
  unfold State.putSetting
  split
  · exact control_setSettings ..
  · dsimp only
    split
    · exact (control_setSettings ..).trans (control_mapRecords _ (ageAt_key _ _))
    · exact control_setSettings ..
  · exact control_setSettings ..
  · dsimp only
    split
    · exact (control_setSettings ..).trans (control_setScrub _ _ rfl rfl)
    · split
      · exact (control_setSettings ..).trans (control_setScrub _ _ rfl rfl)
      · exact control_setSettings ..
  · exact control_setSettings ..
  · exact control_setSettings ..
  · exact control_setSettings ..
  · exact .refl s

theorem control_clearWake (s : State) : Control s s.clearWake := control_setQuiet s _ rfl rfl

theorem control_clearCounters (s : State) : Control s s.clearCounters :=
  { Control.refl s with
    fixed := by
      have : (fun p => (s.clearCounters.link p).core) = fun p => (s.link p).core := by
        funext p; cases p <;> rfl
      simp only [State.fixed, this]
      rfl }

theorem control_doSet (s : State) (p : Port) (code v : Nat) : Control s (s.doSet p code v).1 := by
  unfold State.doSet
  split
  · exact control_clearWake s
  · split
    · exact .refl s
    · split
      · exact .refl s
      · split
        · exact (control_clearCounters s).trans (control_restartClaim _)
        · split
          · exact (control_putSetting ..).trans (control_restartClaim _)
          · exact .refl s

theorem control_doUnwatch (s : State) (p : Port) (i : Nat) : Control s (s.doUnwatch p i).1 := by
  unfold State.doUnwatch
  split
  · split
    · split
      · exact control_clearWatch ..
      · exact .refl s
    · exact .refl s
  · exact .refl s

theorem control_doNoticeMask (s : State) (p : Port) (e : Enables) : Control s (s.doNoticeMask p e) :=
  control_setNoticeQ s p _ fun h => h

theorem control_doQuiet (s : State) (p : Port) (v : Nat) : Control s (s.doQuiet p v).1 := by
  unfold State.doQuiet
  split
  · exact (control_setVote ..).trans ((control_quietBreak _).trans (control_wakeCause ..))
  · exact (control_setVote ..).trans (control_quietBreak _)
  · exact .refl s

theorem mem_allRegions (j : RegionIx) : j ∈ allRegions := by revert j; decide

/-- The overlap check that fails finds no range of another region in common. -/
theorem not_rangeTaken {s : State} {i : RegionIx} {b l : Nat} (h : s.rangeTaken i b l = false) (j : RegionIx) (hj : j ≠ i)
    (b' l' : Nat) (hr : (s.region j).Range b' l') : rangesOverlap b l b' l' = false := by
  have hm : j ∈ allRegions := mem_allRegions j
  have hc : (s.region j).conflicts b l = false := by
    have := List.any_eq_false.mp h j hm
    simpa [hj] using this
  unfold Region.conflicts at hc
  rw [Bool.or_eq_false_iff] at hc
  rcases hr with ⟨hs, rfl, rfl⟩ | ⟨x, hx, he, rfl, rfl⟩
  · simpa [hs] using hc.1
  · have := hc.2
    rw [hx] at this
    simpa [he] using this

theorem control_beginDrain (s : State) (st : Stamp) (i : RegionIx) (x : Replacement) (h0 : (s.region i).inFlight ≠ 0)
    (hx : x.enable = true → s.rangeTaken i x.body.base x.body.limit = false) : Control s (s.beginDrain st i x) := by
  unfold State.beginDrain
  refine Control.trans ?_ (control_quietBreak _)
  refine Control.trans ?_ (control_restartClaim _)
  refine Control.trans ?_ (control_modRecord _ st fun _ => rfl)
  refine control_setRegion s i { s.region i with state := .draining, replacement := some x } ?_
  intro ha
  refine RegionsApart.setRegion ha i _ (fun j hj b l b' l' h1 h2 => ?_) (fun h => by simp at h)
  rcases h1 with ⟨_, rfl, rfl⟩ | ⟨y, hy, he, rfl, rfl⟩
  · exact ha.apart i j (Ne.symm hj) _ _ _ _ (Or.inl ⟨fun hd => h0 (ha.unused i hd), rfl, rfl⟩) h2
  · simp only [Option.some.injEq] at hy
    subst hy
    exact not_rangeTaken (hx he) j hj _ _ h2

theorem control_doRegionSet (s : State) (p : Port) (st : Stamp) (x : RegionSetParams) : Control s (s.doRegionSet p st x) := by
  unfold State.doRegionSet
  split
  · exact control_finishControl ..
  · split
    · exact control_finishControl ..
    · rename_i i new _
      split
      · exact control_finishControl ..
      · split
        · exact control_finishControl ..
        · rename_i _ hov
          have hx : new.enable = true → s.rangeTaken i new.body.base new.body.limit = false := by
            intro he
            by_contra hne
            exact hov ⟨he, by simpa using hne⟩
          split
          · rename_i h0
            exact ((control_takeEffect s i new (fun _ j hj he b' l' h2 => not_rangeTaken (hx he) j hj b' l' h2) h0).trans
              (control_restartClaim _)).trans (control_finishControl ..)
          · rename_i h0
            exact control_beginDrain s st i new h0 hx

theorem control_doRepair (s : State) (p : Port) (st : Stamp) (tag : Tag) (b : BankId) (row : RowId) (mode : RepairMode) :
    Control s (s.doRepair p st tag b row mode) := by
  unfold State.doRepair
  split
  · exact control_finishControl ..
  · dsimp only
    split
    · rename_i h
      refine Control.trans ?_ (control_submitJob _ _ h)
      refine Control.trans ?_ (control_restartClaim _)
      exact control_modRecord s st fun _ => rfl
    · exact control_finishControl ..

theorem control_carryOut (s : State) (r : Record) : Control s (s.carryOut r) := by
  unfold State.carryOut
  split
  · exact control_finishControl ..
  · exact (control_doUnwatch ..).trans (control_finishControl ..)
  · exact (control_doNoticeMask ..).trans (control_finishControl ..)
  · exact control_doRegionSet ..
  · exact control_finishControl ..
  · exact control_doRepair ..
  · exact (control_doQuiet ..).trans (control_finishControl ..)
  · exact (control_doClaim ..).trans (control_finishControl ..)
  · exact (control_doRelease ..).trans (control_finishControl ..)
  · exact (control_doSet ..).trans (control_finishControl ..)
  · exact control_finishControl ..
  all_goals exact .refl s

/-! ## After an event -/

theorem review_key (s : State) (r : Record) : (s.review r).key = r.key := by
  unfold State.review
  split
  · split <;> rfl
  · split <;> rfl
  · rfl
  · rfl

theorem control_reviewRecords (s : State) : Control s s.reviewRecords :=
  { Control.refl s with
    queues := fun p => by
      have e : s.reviewRecords.queue p = (s.queue p).map s.review := PerPort.get_map ..
      rw [e, map_key_of (review_key s)] }

theorem control_useFree (s : State) : Control s { s with freeCount := s.freeCount + 1 } := { Control.refl s with }

theorem control_drive (n : Nat) (s : State) : Control s (State.drive n s) := by
  induction n generalizing s with
  | zero => exact control_reviewRecords s
  | succ n ih =>
    unfold State.drive
    dsimp only
    split
    · exact control_reviewRecords s
    · exact (control_reviewRecords s).trans ((control_useFree _).trans ((control_carryOut ..).trans (ih _)))

theorem control_reviewScrub (s : State) : Control s s.reviewScrub := by
  unfold State.reviewScrub
  split
  · exact control_scrubStepEnd s
  · exact .refl s

theorem idleNext_core (s : State) (b : BankId) (x : Bank) :
    (s.idleNext b x).core = x.core ∧ (s.idleNext b x).state = x.state ∧ (s.idleNext b x).marks = x.marks := by
  unfold State.idleNext
  split
  · split
    · exact ⟨rfl, rfl, rfl⟩
    · split
      · split <;> exact ⟨rfl, rfl, rfl⟩
      · exact ⟨rfl, rfl, rfl⟩
      · exact ⟨rfl, rfl, rfl⟩
  · exact ⟨rfl, rfl, rfl⟩

theorem control_reviewIdle (s : State) : Control s s.reviewIdle :=
  control_mapBanks s _ (fun b => (idleNext_core s b _).1) (fun b => Or.inl (idleNext_core s b _).2.1.symm)

theorem control_settle (s : State) : Control s s.settle :=
  (control_drive ..).trans ((control_reviewScrub _).trans ((control_reviewIdle _).trans (control_reviewQuiet _)))

end Sys2Proof.Machine
end

