-- ==== Sys2Proof/Laws/Ports.lean ====
section
/-! SUPPORT. What the shared operations of the control side do to the notices, votes and claim of the ports: `Ports s t` holds between the
state before and the state after, and with `Control s t` it keeps the ports consistent. -/

namespace Sys2Proof.Machine

structure Ports (s t : State) : Prop where
  online : ∀ p, t.online p = s.online p
  notices : ∀ p, s.online p = false → t.noticeQ p = s.noticeQ p
  votes : ∀ p, t.vote p = s.vote p ∨ (s.online p = true ∧ (t.vote p).isSome = true)
  holder : t.claim.holder = s.claim.holder ∨ t.claim.holder = none ∨ ∃ p, s.online p = true ∧ t.claim.holder = some p
  timer : s.claim.timer.isSome = s.claim.holder.isSome → t.claim.timer.isSome = t.claim.holder.isSome

namespace Ports

theorem refl (s : State) : Ports s s where
  online _ := rfl
  notices _ _ := rfl
  votes _ := Or.inl rfl
  holder := Or.inl rfl
  timer h := h

theorem trans {s t u : State} (h : Ports s t) (k : Ports t u) : Ports s u where
  online p := (k.online p).trans (h.online p)
  notices p hp := (k.notices p ((h.online p).trans hp)).trans (h.notices p hp)
  votes p := by
    rcases k.votes p with e | ⟨ho, hv⟩
    · rw [e]; exact h.votes p
    · exact Or.inr ⟨(h.online p) ▸ ho, hv⟩
  holder := by
    rcases k.holder with e | e | ⟨p, hp, e⟩
    · rw [e]; exact h.holder
    · exact Or.inr (Or.inl e)
    · exact Or.inr (Or.inr ⟨p, (h.online p) ▸ hp, e⟩)
  timer x := k.timer (h.timer x)

theorem foldl {α : Type} {f : State → α → State} (hf : ∀ s a, Ports s (f s a)) (l : List α) (s : State) :
    Ports s (l.foldl f s) := by
  induction l generalizing s with
  | nil => exact refl s
  | cons a l ih => exact (hf s a).trans (ih _)

/-- The links, notices, votes and claim are as they were. -/
theorem of_eq {s t : State} (hl : t.links = s.links) (hn : t.notices = s.notices) (hv : t.quiet.votes = s.quiet.votes)
    (hc : t.claim = s.claim) : Ports s t where
  online p := by unfold State.online State.link; rw [hl]
  notices p _ := by simp only [State.noticeQ, hn]
  votes p := Or.inl (by simp only [State.vote, hv])
  holder := Or.inl (by rw [hc])
  timer h := by rw [hc]; exact h

/-- The notices of an online port change, and no more. -/
theorem of_setNoticeQ (s : State) (p : Port) (q : NoticeQueue) (h : s.online p = true) : Ports s (s.setNoticeQ p q) where
  online _ := rfl
  notices k hk := State.noticeQ_setNoticeQ_of_ne _ (fun e => by rw [e, h] at hk; exact Bool.noConfusion hk) _
  votes _ := Or.inl rfl
  holder := Or.inl rfl
  timer x := x

/-- The vote of an online port is set, and no more. -/
theorem of_setVote (s : State) (p : Port) (v : Vote) (h : s.online p = true) : Ports s (s.setVote p (some v)) where
  online _ := rfl
  notices _ _ := rfl
  votes k := by
    by_cases e : k = p
    · subst e; exact Or.inr ⟨h, by simp⟩
    · exact Or.inl (State.vote_setVote_of_ne _ e _)
  holder := Or.inl rfl
  timer x := x

/-- With the records as the control side leaves them, the ports stay consistent. -/
theorem consistent {s t : State} (h : Ports s t) (c : Control s t) (hs : PortsConsistent s) : PortsConsistent t where
  own p r hr := by
    have hk : r.key ∈ (t.queue p).map Record.key := List.mem_map_of_mem hr
    obtain ⟨q, hq, e⟩ := List.mem_map.mp ((c.queues p).subset hk)
    have := hs.own p q hq
    simp only [Record.key, Prod.mk.injEq] at e
    rw [← e.1]; exact this
  offline p hp := by
    have hp' : s.online p = false := (h.online p) ▸ hp
    have hi := hs.offline p hp'
    refine ⟨?_, ?_, ?_, ?_, ?_⟩
    · have := c.queues p
      rw [hi.queue] at this
      simpa using this
    · rw [h.notices p hp']; exact hi.notices
    · have := congrArg Link.replay (c.link p); simp only [Link.core] at this; rw [this]; exact hi.replay
    · have := congrArg Link.refusals (c.link p); simp only [Link.core] at this; rw [this]; exact hi.refusals
    · rcases h.votes p with e | ⟨ho, _⟩
      · rw [e]; exact hi.vote
      · rw [hp'] at ho; exact Bool.noConfusion ho
  votes p hp := by
    rcases h.votes p with e | ⟨_, hv⟩
    · rw [e]; exact hs.votes p ((h.online p) ▸ hp)
    · exact hv
  holder p hp := by
    rw [h.online p]
    rcases h.holder with e | e | ⟨k, hk, e⟩
    · exact hs.holder p (e ▸ hp)
    · rw [e] at hp; exact absurd hp (by simp)
    · rw [e] at hp; simp only [Option.some.injEq] at hp; rw [← hp]; exact hk
  timer := h.timer hs.timer

end Ports

theorem ports_placeNotice (s : State) (p : Port) (n : Notice) : Ports s (s.placeNotice p n) := by
  unfold State.placeNotice
  split
  · rename_i h
    dsimp only
    split <;> exact .of_setNoticeQ s p _ h
  · exact .refl s

theorem ports_placeIf (s : State) (want : Enables → Bool) (n : Notice) (p : Port) : Ports s (s.placeIf want n p) := by
  unfold State.placeIf
  split
  · exact ports_placeNotice ..
  · exact .refl s

theorem ports_broadcast (s : State) (want : Enables → Bool) (n : Notice) : Ports s (s.broadcast want n) :=
  (ports_placeIf ..).trans ((ports_placeIf ..).trans (ports_placeIf ..))

theorem ports_modRecord (s : State) (st : Stamp) (f : Record → Record) : Ports s (s.modRecord st f) :=
  .of_eq rfl rfl rfl rfl

theorem ports_finishControl (s : State) (st : Stamp) (res : Result) : Ports s (s.finishControl st res) :=
  .of_eq rfl rfl rfl rfl

theorem ports_recheckWatch (s : State) (i : WatchId) : Ports s (s.recheckWatch i) := by
  unfold State.recheckWatch
  split
  · split
    · exact Ports.trans (t := s.setWatch i none) (.of_eq rfl rfl rfl rfl) (ports_placeNotice ..)
    · exact .refl s
  · exact .refl s

theorem ports_recheckWatches (s : State) : Ports s s.recheckWatches := Ports.foldl ports_recheckWatch _ s

theorem ports_fireWatch (p : Port) (l : LineId) (s : State) (i : WatchId) : Ports s (s.fireWatch p l i) := by
  unfold State.fireWatch
  split
  · split
    · exact Ports.trans (t := s.setWatch i none) (.of_eq rfl rfl rfl rfl) (ports_placeNotice ..)
    · exact .refl s
  · exact .refl s

theorem ports_fireWatches (s : State) (p : Port) (l : LineId) : Ports s (s.fireWatches p l) :=
  Ports.foldl (ports_fireWatch p l) _ s

theorem ports_takeEffect (s : State) (i : RegionIx) (x : Replacement) : Ports s (s.takeEffect i x) := by
  refine Ports.trans ?_ (ports_recheckWatches _)
  exact .of_eq rfl rfl rfl rfl

theorem ports_endDrain (s : State) (i : RegionIx) : Ports s (s.endDrain i) := by
  unfold State.endDrain
  split
  · exact .refl s
  · dsimp only
    split
    · exact (ports_takeEffect ..).trans (ports_finishControl ..)
    · exact ports_takeEffect ..

theorem ports_leaveRegion (s : State) (i : RegionIx) : Ports s (s.leaveRegion i) := by
  unfold State.leaveRegion
  dsimp only
  split
  · refine Ports.trans ?_ (ports_endDrain _ _)
    exact .of_eq rfl rfl rfl rfl
  · exact .of_eq rfl rfl rfl rfl

theorem ports_leaveRegionOf (s : State) (r : Record) : Ports s (s.leaveRegionOf r) := by
  unfold State.leaveRegionOf
  split
  · exact ports_leaveRegion ..
  · exact .refl s

theorem ports_finishMemory (s : State) (r : Record) (res : Result) : Ports s (s.finishMemory r res) := by
  unfold State.finishMemory
  split
  · split
    · dsimp only
      refine Ports.trans (t := s.dropRecord r.port r.stamp) (.of_eq rfl rfl rfl rfl) (.trans ?_ (ports_leaveRegionOf ..))
      split
      · exact .refl _
      · exact ports_placeNotice ..
    · refine Ports.trans ?_ (ports_leaveRegionOf _ _)
      exact ports_modRecord ..
  · refine Ports.trans ?_ (ports_leaveRegionOf _ _)
    exact .of_eq rfl rfl rfl rfl

theorem ports_quietBreak (s : State) : Ports s s.quietBreak := by
  unfold State.quietBreak
  split <;> exact .of_eq rfl rfl rfl rfl

theorem ports_beginSettling (s : State) : Ports s s.beginSettling := by
  unfold State.beginSettling
  split <;> exact .of_eq rfl rfl rfl rfl

theorem ports_reviewQuiet (s : State) : Ports s s.reviewQuiet := by
  unfold State.reviewQuiet
  have hc : Ports s (if s.settled then s else s.quietBreak) := by
    split
    · exact .refl s
    · exact ports_quietBreak s
  revert hc
  generalize (if s.settled then s else s.quietBreak) = u
  intro hc
  dsimp only
  split
  · exact hc.trans (ports_beginSettling _)
  · exact hc

theorem ports_wakeCause (s : State) (c : WakeCause) (p : Port) : Ports s (s.wakeCause c p) := by
  unfold State.wakeCause
  split <;> exact .of_eq rfl rfl rfl rfl

theorem ports_takeBank (s : State) (b : BankId) : Ports s (s.takeBank b) := by
  unfold State.takeBank
  dsimp only
  split <;> exact .of_eq rfl rfl rfl rfl

theorem ports_setChecks (s : State) (c : CheckUnit) : Ports s (s.setChecks c) := .of_eq rfl rfl rfl rfl

theorem ports_endJob (s : State) (j : Job) (st : Status) (sp : Option SpareId) (n : Nat) : Ports s (s.endJob j st sp n) := by
  unfold State.endJob
  have h1 : Ports s ({ s with currentJob := none, repairBuffer := [] } : State) := .of_eq rfl rfl rfl rfl
  have h2 : Ports s (({ s with currentJob := none, repairBuffer := [] } : State).releaseBank j.bank) :=
    h1.trans (.of_eq rfl rfl rfl rfl)
  have h3 := h2.trans (Ports.foldl (fun t (q : Requester) => ports_finishControl t q.stamp ⟨st, .repair sp n⟩)
    j.requesters _)
  have h4 := h3.trans (ports_broadcast _ Enables.repairDone (.repairDone j.bank j.row sp st n))
  dsimp only
  split
  · exact h4.trans (ports_setChecks ..)
  · exact h4

theorem ports_runJob (s : State) (j : Job) (sp : SpareId) : Ports s (s.runJob j sp) := by
  refine Ports.trans ?_ (ports_takeBank _ _)
  exact .of_eq rfl rfl rfl rfl

theorem ports_startJobs (js : List Job) (s : State) : Ports s (State.startJobs js s) := by
  induction js generalizing s with
  | nil => exact .of_eq rfl rfl rfl rfl
  | cons j rest ih =>
    unfold State.startJobs
    split
    · refine Ports.trans ?_ (ports_runJob _ _ _)
      exact .of_eq rfl rfl rfl rfl
    · exact ((ports_takeBank s j.bank).trans (ports_endJob _ j .noSpare none 0)).trans (ih _)

theorem ports_completeJob (s : State) (c : CurrentJob) : Ports s (s.completeJob c) :=
  (ports_endJob ..).trans (ports_startJobs ..)

theorem ports_submitJob (s : State) (new : Job) : Ports s (s.submitJob new) := by
  unfold State.submitJob
  split
  · exact .of_eq rfl rfl rfl rfl
  · split
    · split
      · exact .of_eq rfl rfl rfl rfl
      · refine Ports.trans ?_ (ports_quietBreak _)
        exact .of_eq rfl rfl rfl rfl
    · exact (ports_quietBreak s).trans (ports_startJobs ..)

theorem ports_autoJob (s : State) (b : BankId) (row : RowId) : Ports s (s.autoJob b row) := by
  unfold State.autoJob
  dsimp only
  split
  · exact ports_submitJob ..
  · exact .refl s

theorem ports_advise (s : State) (b : BankId) (row : RowId) : Ports s (s.advise b row) := by
  unfold State.advise
  dsimp only
  split
  · exact (ports_broadcast ..).trans (ports_autoJob ..)
  · exact ports_broadcast ..

theorem ports_noteFault (s : State) (b : BankId) (row : RowId) : Ports s (s.noteFault b row) := by
  unfold State.noteFault
  dsimp only
  split
  · exact (ports_setChecks ..).trans (ports_advise ..)
  · exact ports_setChecks ..

theorem ports_countWord (f : ReadFor) (l : LineId) (s : State) (x : WordIx × WordOutcome) : Ports s (s.countWord f l x) := by
  unfold State.countWord
  split
  · exact .refl s
  · exact .refl s
  · dsimp only
    split
    · exact (ports_setChecks ..).trans (ports_noteFault ..)
    · exact ports_setChecks ..
  · exact (ports_setChecks ..).trans (ports_broadcast ..)

theorem ports_countLine (s : State) (f : ReadFor) (l : LineId) (os : List WordOutcome) : Ports s (s.countLine f l os) :=
  Ports.foldl (ports_countWord f l) _ s

/-! ## Control records of an online port -/

/-- The claim goes to an online port, its timer running. -/
theorem ports_grantClaim (s : State) (p : Port) (t : Instant) (h : s.online p = true) :
    Ports s (s.setClaim { holder := some p, timer := some t }) where
  online _ := rfl
  notices _ _ := rfl
  votes _ := Or.inl rfl
  holder := Or.inr (Or.inr ⟨p, h, rfl⟩)
  timer _ := rfl

theorem ports_freeClaim (s : State) : Ports s (s.setClaim { holder := none, timer := none }) where
  online _ := rfl
  notices _ _ := rfl
  votes _ := Or.inl rfl
  holder := Or.inr (Or.inl rfl)
  timer _ := rfl

/-- The claim timer starts anew under a holder. -/
theorem ports_restartClaim (s : State) (h : s.claim.holder.isSome = true) : Ports s s.restartClaim where
  online _ := rfl
  notices _ _ := rfl
  votes _ := Or.inl rfl
  holder := Or.inl rfl
  timer _ := by
    show (some (s.now + claimLength)).isSome = s.claim.holder.isSome
    rw [h]; rfl

/-- A port that the claim check lets through holds the claim. -/
theorem holder_of_claimRefusal {s : State} {p : Port} (h : s.claimRefusal p = none) : s.claim.holder = some p := by
  unfold State.claimRefusal at h
  split at h
  · rename_i k hk
    split at h
    · rename_i e; rw [hk, e]
    · exact absurd h (by simp)
  · exact absurd h (by simp)

theorem ports_doClaim (s : State) (p : Port) (h : s.online p = true) : Ports s (s.doClaim p).1 := by
  unfold State.doClaim
  split
  · exact ports_grantClaim s p _ h
  · rename_i k hk
    split
    · exact ports_restartClaim s (by rw [hk]; rfl)
    · exact .refl s

theorem ports_doRelease (s : State) (p : Port) : Ports s (s.doRelease p).1 := by
  unfold State.doRelease
  split
  · exact ports_freeClaim s
  · exact .refl s

theorem ports_clearCounters (s : State) : Ports s s.clearCounters where
  online p := by cases p <;> rfl
  notices _ _ := rfl
  votes _ := Or.inl rfl
  holder := Or.inl rfl
  timer h := h

theorem ports_putSetting (s : State) (code v : Nat) : Ports s (s.putSetting code v) := by
  unfold State.putSetting
  split
  case h_2 => dsimp only; split <;> exact .of_eq rfl rfl rfl rfl
  case h_4 =>
    dsimp only
    split
    · exact .of_eq rfl rfl rfl rfl
    · split <;> exact .of_eq rfl rfl rfl rfl
  all_goals exact .of_eq rfl rfl rfl rfl

theorem putSetting_claim (s : State) (code v : Nat) : (s.putSetting code v).claim = s.claim := by
  unfold State.putSetting
  split
  case h_2 => dsimp only; split <;> rfl
  case h_4 =>
    dsimp only
    split
    · rfl
    · split <;> rfl
  all_goals rfl

theorem ports_doSet (s : State) (p : Port) (code v : Nat) : Ports s (s.doSet p code v).1 := by
  unfold State.doSet
  split
  · exact .of_eq rfl rfl rfl rfl
  · split
    · exact .refl s
    · split
      · exact .refl s
      · rename_i hc
        have hh : s.claim.holder.isSome = true := by rw [holder_of_claimRefusal hc]; rfl
        split
        · exact (ports_clearCounters s).trans (ports_restartClaim _ hh)
        · split
          · exact (ports_putSetting ..).trans (ports_restartClaim _ (by rw [putSetting_claim]; exact hh))
          · exact .refl s

theorem ports_doUnwatch (s : State) (p : Port) (i : Nat) : Ports s (s.doUnwatch p i).1 := by
  unfold State.doUnwatch
  split
  · split
    · split
      · exact .of_eq rfl rfl rfl rfl
      · exact .refl s
    · exact .refl s
  · exact .refl s

theorem ports_doQuiet (s : State) (p : Port) (v : Nat) (h : s.online p = true) : Ports s (s.doQuiet p v).1 := by
  unfold State.doQuiet
  split
  · exact (Ports.of_setVote s p _ h).trans ((ports_quietBreak _).trans (ports_wakeCause ..))
  · exact (Ports.of_setVote s p _ h).trans (ports_quietBreak _)
  · exact .refl s

theorem foldl_recheckWatch_claim (l : List WatchId) (s : State) : (l.foldl State.recheckWatch s).claim = s.claim := by
  induction l generalizing s with
  | nil => rfl
  | cons i l ih =>
    rw [List.foldl_cons, ih]
    unfold State.recheckWatch
    split
    · split
      · unfold State.placeNotice
        split
        · dsimp only; split <;> rfl
        · rfl
      · rfl
    · rfl

theorem takeEffect_claim (s : State) (i : RegionIx) (x : Replacement) : (s.takeEffect i x).claim = s.claim :=
  foldl_recheckWatch_claim ..

theorem ports_beginDrain (s : State) (st : Stamp) (i : RegionIx) (x : Replacement) (h : s.claim.holder.isSome = true) :
    Ports s (s.beginDrain st i x) := by
  unfold State.beginDrain
  refine Ports.trans ?_ (ports_quietBreak _)
  refine Ports.trans ?_ (ports_restartClaim _ ?_)
  · exact .of_eq rfl rfl rfl rfl
  · exact h

theorem ports_doRegionSet (s : State) (p : Port) (st : Stamp) (x : RegionSetParams) : Ports s (s.doRegionSet p st x) := by
  unfold State.doRegionSet
  split
  · exact ports_finishControl ..
  · rename_i hc
    have hh : s.claim.holder.isSome = true := by rw [holder_of_claimRefusal hc]; rfl
    split
    · exact ports_finishControl ..
    · split
      · exact ports_finishControl ..
      · split
        · exact ports_finishControl ..
        · split
          · exact ((ports_takeEffect ..).trans (ports_restartClaim _ (by rw [takeEffect_claim]; exact hh))).trans
              (ports_finishControl ..)
          · exact ports_beginDrain _ _ _ _ hh

theorem ports_doRepair (s : State) (p : Port) (st : Stamp) (tag : Tag) (b : BankId) (row : RowId) (mode : RepairMode) :
    Ports s (s.doRepair p st tag b row mode) := by
  unfold State.doRepair
  split
  · exact ports_finishControl ..
  · rename_i hc
    have hh : s.claim.holder.isSome = true := by rw [holder_of_claimRefusal hc]; rfl
    dsimp only
    split
    · refine Ports.trans ?_ (ports_submitJob _ _)
      refine Ports.trans ?_ (ports_restartClaim _ ?_)
      · exact ports_modRecord ..
      · exact hh
    · exact ports_finishControl ..

theorem ports_carryOut (s : State) (r : Record) (h : s.online r.port = true) : Ports s (s.carryOut r) := by
  unfold State.carryOut
  split
  · exact ports_finishControl ..
  · exact (ports_doUnwatch ..).trans (ports_finishControl ..)
  · exact (Ports.of_setNoticeQ s _ _ h).trans (ports_finishControl ..)
  · exact ports_doRegionSet ..
  · exact ports_finishControl ..
  · exact ports_doRepair ..
  · exact (ports_doQuiet _ _ _ h).trans (ports_finishControl ..)
  · exact (ports_doClaim _ _ h).trans (ports_finishControl ..)
  · exact (ports_doRelease ..).trans (ports_finishControl ..)
  · exact (ports_doSet ..).trans (ports_finishControl ..)
  · exact ports_finishControl ..
  all_goals exact .refl s

/-! ## After an event -/

theorem mem_of_nextOfPort {s : State} {p : Port} {r : Record} (h : s.nextOfPort p = some r) : r ∈ s.queue p :=
  List.mem_of_find?_eq_some h

/-- The record carried out next stands in a queue. -/
theorem nextControl_mem {s : State} {r : Record} (h : s.nextControl = some r) : ∃ p, r ∈ s.queue p := by
  have hm : ∀ x ∈ Port.all.filterMap s.nextOfPort, ∃ p, x ∈ s.queue p := by
    intro x hx
    obtain ⟨p, _, hp⟩ := List.mem_filterMap.mp hx
    exact ⟨p, mem_of_nextOfPort hp⟩
  unfold State.nextControl at h
  split at h
  · exact absurd h (by simp)
  · rename_i x hx
    simp only [Option.some.injEq] at h
    subst h
    exact hm _ (by rw [hx]; simp)
  · rename_i x y t hx
    simp only [Option.some.injEq] at h
    subst h
    refine hm _ ?_
    rw [hx]
    have hlt : Config.portOrder s.freeCount % (t.length + 2) < (x :: y :: t).length := by
      simp only [List.length_cons]; exact Nat.mod_lt _ (by omega)
    rw [List.getD_eq_getElem _ _ hlt]
    exact List.getElem_mem hlt

/-- A record of a queue belongs to an online port. -/
theorem online_of_mem {s : State} (h : PortsConsistent s) {p : Port} {r : Record} (hr : r ∈ s.queue p) :
    s.online r.port = true := by
  rw [h.own p r hr]
  by_contra hn
  have := (h.offline p (by simpa using hn)).queue
  rw [this] at hr
  exact absurd hr (by simp)

theorem ports_reviewRecords (s : State) : Ports s s.reviewRecords := .of_eq rfl rfl rfl rfl

theorem ports_useFree (s : State) : Ports s { s with freeCount := s.freeCount + 1 } := .of_eq rfl rfl rfl rfl

theorem ports_drive (n : Nat) (s : State) (h : PortsConsistent s) : Ports s (State.drive n s) := by
  induction n generalizing s with
  | zero => exact ports_reviewRecords s
  | succ n ih =>
    unfold State.drive
    dsimp only
    split
    · exact ports_reviewRecords s
    · rename_i r hr
      have h1 := (ports_reviewRecords s).consistent (control_reviewRecords s) h
      obtain ⟨p, hp⟩ := nextControl_mem hr
      have ho := online_of_mem h1 hp
      have hp2 := (ports_useFree s.reviewRecords).trans (ports_carryOut _ r ho)
      have hc2 := (control_useFree s.reviewRecords).trans (control_carryOut _ r)
      exact ((ports_reviewRecords s).trans hp2).trans (ih _ (hp2.consistent hc2 h1))

theorem ports_reviewScrub (s : State) : Ports s s.reviewScrub := by
  unfold State.reviewScrub
  split <;> exact .of_eq rfl rfl rfl rfl

theorem ports_reviewIdle (s : State) : Ports s s.reviewIdle := .of_eq rfl rfl rfl rfl

theorem ports_settle (s : State) (h : PortsConsistent s) : Ports s s.settle :=
  (ports_drive _ s h).trans ((ports_reviewScrub _).trans ((ports_reviewIdle _).trans (ports_reviewQuiet _)))

end Sys2Proof.Machine
end

