-- ==== Sys2Proof/Laws/Time.lean ====
section
/-! SUPPORT. The passing of time changes the present instant and nothing else. -/

namespace Sys2Proof.Machine.State

variable (s : State)

/-- Time passes to some instant. -/
theorem passTime_exists (dt : Nat) : ∃ n, s.passTime dt = s.atInstant n := by
  unfold passTime
  split
  · exact ⟨s.now, rfl⟩
  · split
    · exact ⟨s.now, rfl⟩
    · exact ⟨_, rfl⟩

/-- The interval expiry passes time as well. -/
theorem passToInterval_exists (dt : Nat) : ∃ n, s.passToInterval dt = s.atInstant n := passTime_exists s _

/-- Whatever does not look at the present instant stays as it is when time passes. -/
theorem of_passTime {α : Type} (f : State → α) (h : ∀ n, f (s.atInstant n) = f s) (dt : Nat) : f (s.passTime dt) = f s := by
  obtain ⟨n, hn⟩ := s.passTime_exists dt
  rw [hn, h]

@[simp] theorem passTime_pending (dt : Nat) : (s.passTime dt).pending = s.pending := s.of_passTime (·.pending) (fun _ => rfl) dt
@[simp] theorem passTime_freeCount (dt : Nat) : (s.passTime dt).freeCount = s.freeCount := s.of_passTime (·.freeCount) (fun _ => rfl) dt
@[simp] theorem passTime_resetN (dt : Nat) : (s.passTime dt).resetN = s.resetN := s.of_passTime (·.resetN) (fun _ => rfl) dt
@[simp] theorem passTime_hotPin (dt : Nat) : (s.passTime dt).hotPin = s.hotPin := s.of_passTime (·.hotPin) (fun _ => rfl) dt
@[simp] theorem passTime_mem (dt : Nat) : (s.passTime dt).mem = s.mem := s.of_passTime (·.mem) (fun _ => rfl) dt
@[simp] theorem passTime_banks (dt : Nat) : (s.passTime dt).banks = s.banks := s.of_passTime (·.banks) (fun _ => rfl) dt
@[simp] theorem passTime_window (dt : Nat) : (s.passTime dt).window = s.window := s.of_passTime (·.window) (fun _ => rfl) dt
@[simp] theorem passTime_pathBusy (dt : Nat) : (s.passTime dt).pathBusy = s.pathBusy := s.of_passTime (·.pathBusy) (fun _ => rfl) dt
@[simp] theorem passTime_stampCounter (dt : Nat) : (s.passTime dt).stampCounter = s.stampCounter := s.of_passTime (·.stampCounter) (fun _ => rfl) dt
@[simp] theorem passTime_queues (dt : Nat) : (s.passTime dt).queues = s.queues := s.of_passTime (·.queues) (fun _ => rfl) dt
@[simp] theorem passTime_detached (dt : Nat) : (s.passTime dt).detached = s.detached := s.of_passTime (·.detached) (fun _ => rfl) dt
@[simp] theorem passTime_holds (dt : Nat) : (s.passTime dt).holds = s.holds := s.of_passTime (·.holds) (fun _ => rfl) dt
@[simp] theorem passTime_watches (dt : Nat) : (s.passTime dt).watches = s.watches := s.of_passTime (·.watches) (fun _ => rfl) dt
@[simp] theorem passTime_notices (dt : Nat) : (s.passTime dt).notices = s.notices := s.of_passTime (·.notices) (fun _ => rfl) dt
@[simp] theorem passTime_regions (dt : Nat) : (s.passTime dt).regions = s.regions := s.of_passTime (·.regions) (fun _ => rfl) dt
@[simp] theorem passTime_refresh (dt : Nat) : (s.passTime dt).refresh = s.refresh := s.of_passTime (·.refresh) (fun _ => rfl) dt
@[simp] theorem passTime_checks (dt : Nat) : (s.passTime dt).checks = s.checks := s.of_passTime (·.checks) (fun _ => rfl) dt
@[simp] theorem passTime_scrub (dt : Nat) : (s.passTime dt).scrub = s.scrub := s.of_passTime (·.scrub) (fun _ => rfl) dt
@[simp] theorem passTime_remap (dt : Nat) : (s.passTime dt).remap = s.remap := s.of_passTime (·.remap) (fun _ => rfl) dt
@[simp] theorem passTime_repairQueue (dt : Nat) : (s.passTime dt).repairQueue = s.repairQueue := s.of_passTime (·.repairQueue) (fun _ => rfl) dt
@[simp] theorem passTime_currentJob (dt : Nat) : (s.passTime dt).currentJob = s.currentJob := s.of_passTime (·.currentJob) (fun _ => rfl) dt
@[simp] theorem passTime_repairBuffer (dt : Nat) : (s.passTime dt).repairBuffer = s.repairBuffer := s.of_passTime (·.repairBuffer) (fun _ => rfl) dt
@[simp] theorem passTime_quiet (dt : Nat) : (s.passTime dt).quiet = s.quiet := s.of_passTime (·.quiet) (fun _ => rfl) dt
@[simp] theorem passTime_links (dt : Nat) : (s.passTime dt).links = s.links := s.of_passTime (·.links) (fun _ => rfl) dt
@[simp] theorem passTime_claim (dt : Nat) : (s.passTime dt).claim = s.claim := s.of_passTime (·.claim) (fun _ => rfl) dt
@[simp] theorem passTime_settings (dt : Nat) : (s.passTime dt).settings = s.settings := s.of_passTime (·.settings) (fun _ => rfl) dt

/-! ## What does not look at the present instant -/

@[simp] theorem passTime_bank (b : BankId) (dt : Nat) : (s.passTime dt).bank b = s.bank b :=
  s.of_passTime (fun z => z.bank b) (fun _ => rfl) dt
@[simp] theorem passTime_queue (p : Port) (dt : Nat) : (s.passTime dt).queue p = s.queue p :=
  s.of_passTime (fun z => z.queue p) (fun _ => rfl) dt
@[simp] theorem passTime_noticeQ (p : Port) (dt : Nat) : (s.passTime dt).noticeQ p = s.noticeQ p :=
  s.of_passTime (fun z => z.noticeQ p) (fun _ => rfl) dt
@[simp] theorem passTime_region (i : RegionIx) (dt : Nat) : (s.passTime dt).region i = s.region i :=
  s.of_passTime (fun z => z.region i) (fun _ => rfl) dt
@[simp] theorem passTime_link (p : Port) (dt : Nat) : (s.passTime dt).link p = s.link p :=
  s.of_passTime (fun z => z.link p) (fun _ => rfl) dt
@[simp] theorem passTime_vote (p : Port) (dt : Nat) : (s.passTime dt).vote p = s.vote p :=
  s.of_passTime (fun z => z.vote p) (fun _ => rfl) dt
@[simp] theorem passTime_spares (b : BankId) (dt : Nat) : (s.passTime dt).spares b = s.spares b :=
  s.of_passTime (fun z => z.spares b) (fun _ => rfl) dt
@[simp] theorem passTime_online (p : Port) (dt : Nat) : (s.passTime dt).online p = s.online p :=
  s.of_passTime (fun z => z.online p) (fun _ => rfl) dt
@[simp] theorem passTime_repairPhase (b : BankId) (dt : Nat) : (s.passTime dt).repairPhase b = s.repairPhase b :=
  s.of_passTime (fun z => z.repairPhase b) (fun _ => rfl) dt
@[simp] theorem passTime_hot (dt : Nat) : (s.passTime dt).hot = s.hot :=
  s.of_passTime (fun z => z.hot) (fun _ => rfl) dt
@[simp] theorem passTime_freeSlots (p : Port) (dt : Nat) : (s.passTime dt).freeSlots p = s.freeSlots p :=
  s.of_passTime (fun z => z.freeSlots p) (fun _ => rfl) dt
@[simp] theorem passTime_records (dt : Nat) : (s.passTime dt).records = s.records :=
  s.of_passTime (fun z => z.records) (fun _ => rfl) dt
@[simp] theorem passTime_asleep (dt : Nat) : (s.passTime dt).asleep = s.asleep :=
  s.of_passTime (fun z => z.asleep) (fun _ => rfl) dt
@[simp] theorem passTime_settled (dt : Nat) : (s.passTime dt).settled = s.settled :=
  s.of_passTime (fun z => z.settled) (fun _ => rfl) dt
@[simp] theorem passTime_held (l : LineId) (dt : Nat) : (s.passTime dt).held l = s.held l :=
  s.of_passTime (fun z => z.held l) (fun _ => rfl) dt
@[simp] theorem passTime_openLine (l : LineId) (dt : Nat) : (s.passTime dt).openLine l = s.openLine l :=
  s.of_passTime (fun z => z.openLine l) (fun _ => rfl) dt
@[simp] theorem passTime_lineOf (b : BankId) (x : LineIx) (dt : Nat) : (s.passTime dt).lineOf b x = s.lineOf b x :=
  s.of_passTime (fun z => z.lineOf b x) (fun _ => rfl) dt
@[simp] theorem passTime_tagBusy (p : Port) (t : Tag) (dt : Nat) : (s.passTime dt).tagBusy p t = s.tagBusy p t :=
  s.of_passTime (fun z => z.tagBusy p t) (fun _ => rfl) dt
@[simp] theorem passTime_verdict (p : Port) (k : Byte) (r : Request) (dt : Nat) : (s.passTime dt).verdict p k r = s.verdict p k r :=
  s.of_passTime (fun z => z.verdict p k r) (fun _ => rfl) dt
@[simp] theorem passTime_discards (p : Port) (k : Byte) (r : Request) (dt : Nat) : (s.passTime dt).discards p k r = s.discards p k r :=
  s.of_passTime (fun z => z.discards p k r) (fun _ => rfl) dt
@[simp] theorem passTime_blockReason (r : Record) (dt : Nat) : (s.passTime dt).blockReason r = s.blockReason r :=
  s.of_passTime (fun z => z.blockReason r) (fun _ => rfl) dt
@[simp] theorem passTime_rowWanted (b : BankId) (row : RowId) (dt : Nat) : (s.passTime dt).rowWanted b row = s.rowWanted b row :=
  s.of_passTime (fun z => z.rowWanted b row) (fun _ => rfl) dt
@[simp] theorem passTime_coveringRegion (n : Nat) (dt : Nat) : (s.passTime dt).coveringRegion n = s.coveringRegion n :=
  s.of_passTime (fun z => z.coveringRegion n) (fun _ => rfl) dt
@[simp] theorem passTime_firstAnswer (p : Port) (dt : Nat) : (s.passTime dt).firstAnswer p = s.firstAnswer p :=
  s.of_passTime (fun z => z.firstAnswer p) (fun _ => rfl) dt
@[simp] theorem passTime_firstDue (p : Port) (dt : Nat) : (s.passTime dt).firstDue p = s.firstDue p :=
  s.of_passTime (fun z => z.firstDue p) (fun _ => rfl) dt
@[simp] theorem passTime_watchOf (p : Port) (l : LineId) (dt : Nat) : (s.passTime dt).watchOf p l = s.watchOf p l :=
  s.of_passTime (fun z => z.watchOf p l) (fun _ => rfl) dt
@[simp] theorem passTime_watchCount (p : Port) (dt : Nat) : (s.passTime dt).watchCount p = s.watchCount p :=
  s.of_passTime (fun z => z.watchCount p) (fun _ => rfl) dt
@[simp] theorem passTime_freeWatch (dt : Nat) : (s.passTime dt).freeWatch = s.freeWatch :=
  s.of_passTime (fun z => z.freeWatch) (fun _ => rfl) dt
@[simp] theorem passTime_freeSpare (b : BankId) (dt : Nat) : (s.passTime dt).freeSpare b = s.freeSpare b :=
  s.of_passTime (fun z => z.freeSpare b) (fun _ => rfl) dt
@[simp] theorem passTime_servingSpare (b : BankId) (row : RowId) (dt : Nat) : (s.passTime dt).servingSpare b row = s.servingSpare b row :=
  s.of_passTime (fun z => z.servingSpare b row) (fun _ => rfl) dt
@[simp] theorem passTime_rangeTaken (i : RegionIx) (x y : Nat) (dt : Nat) : (s.passTime dt).rangeTaken i x y = s.rangeTaken i x y :=
  s.of_passTime (fun z => z.rangeTaken i x y) (fun _ => rfl) dt
@[simp] theorem passTime_readItem (c : Nat) (x : Option Nat) (dt : Nat) : (s.passTime dt).readItem c x = s.readItem c x :=
  s.of_passTime (fun z => z.readItem c x) (fun _ => rfl) dt

end Sys2Proof.Machine.State
end

