-- ==== Sys2Proof/Laws/Admission.lean ====
section
/-! SUPPORT. What the arrival of a REQUEST packet can do, case by case, and what an accepted request's record changes. -/

namespace Sys2Proof.Machine

/-! ## The five ways of a REQUEST packet -/

/-- Neither the silence timer nor the acceptance changes what admission decides. -/
theorem verdict_setLink (s : State) (q : Port) (l : Link) (p : Port) (code : Byte) (r : Request) :
    (s.setLink q l).verdict p code r = s.verdict p code r := rfl

/-- The state of the link's side after the acceptance of a REQUEST. -/
def State.accepted (s : State) (p : Port) : State := (s.heard p).acceptPacket p

inductive Received (s : State) (p : Port) (code : Byte) (r : Request) : State → Prop where
  /-- The link is not UP: nothing arrives. -/
  | offline (h : s.online p = false) : Received s p code r s
  | discarded (h : s.online p = true) (hd : s.discards p code r = true) : Received s p code r ((s.heard p).discardPacket p)
  | refused (st : Status) (h : s.online p = true) (hd : s.discards p code r = false)
      (hv : s.verdict p code r = .refuse st) (ha : answeredByResponse code r = true) :
      Received s p code r ((s.accepted p).addRefusal p r.tag st)
  | noticed (st : Status) (h : s.online p = true) (hd : s.discards p code r = false)
      (hv : s.verdict p code r = .refuse st) (ha : answeredByResponse code r = false) :
      Received s p code r ((s.accepted p).placeNotice p (.error r.tag st))
  | admitted (o : ReqOp) (posted : Bool) (region : Option RegionIx) (h : s.online p = true)
      (hd : s.discards p code r = false) (hv : s.verdict p code r = .accept o posted region) :
      Received s p code r ((s.accepted p).letIn p r.tag o posted region)

theorem received (s : State) (p : Port) (code : Byte) (r : Request) : Received s p code r (s.receive p code r) := by
  unfold State.receive
  split
  · rename_i h
    split
    · rename_i hd
      exact .discarded h hd
    · rename_i hd
      have hd' : s.discards p code r = false := by simpa using hd
      unfold State.decideRequest
      have e : ((s.heard p).acceptPacket p).verdict p code r = s.verdict p code r := rfl
      rw [e]
      cases hv : s.verdict p code r with
      | refuse st =>
        dsimp only
        split
        · rename_i ha; exact .refused st h hd' hv ha
        · rename_i ha; exact .noticed st h hd' hv (by simpa using ha)
      | accept o posted region => exact .admitted o posted region h hd' hv
  · rename_i h
    exact .offline (by simpa using h)

/-! ## What an acceptance finds -/

/-- An accepted request found room in its queue, and an ACTIVE covering region if it is counted in one. -/
theorem verdict_accept {s : State} {p : Port} {code : Byte} {r : Request} {o : ReqOp} {posted : Bool}
    {region : Option RegionIx} (h : s.verdict p code r = .accept o posted region) :
    (s.queue p).length < 16 ∧ ∀ i, region = some i → (s.region i).state = .active := by
  have hregion : ∀ page, s.regionVerdict p r.tag r.posted o page = .accept o posted region →
      ∀ i, region = some i → (s.region i).state = .active := by
    intro page hv i hi
    unfold State.regionVerdict at hv
    split at hv
    · exact absurd hv (by simp)
    · rename_i k hk
      have hcov := List.find?_some hk
      have hnd : (s.region k).state ≠ .disabled := by
        unfold Region.covers at hcov
        exact (of_decide_eq_true hcov).1
      split at hv
      · exact absurd hv (by simp)
      · rename_i hdr
        have hact : (s.region k).state = .active := by
          cases hs : (s.region k).state with
          | active => rfl
          | draining => exact absurd hs hdr
          | disabled => exact absurd hs hnd
        split at hv
        · exact absurd hv (by simp)
        · split at hv
          · split at hv
            · exact absurd hv (by simp)
            · simp only [Verdict.accept.injEq] at hv
              rw [← hv.2.2] at hi
              simp only [Option.some.injEq] at hi
              rw [← hi]; exact hact
          · simp only [Verdict.accept.injEq] at hv
            rw [← hv.2.2] at hi
            simp only [Option.some.injEq] at hi
            rw [← hi]; exact hact
  unfold State.verdict at h
  split at h
  · exact absurd h (by simp)
  · rename_i hq
    refine ⟨by simpa [Config.queueDepth] using hq, ?_⟩
    split at h
    · exact absurd h (by simp)
    · split at h
      · exact absurd h (by simp)
      · rename_i o' _
        split at h
        · exact absurd h (by simp)
        · split at h
          · exact absurd h (by simp)
          · split at h
            · rename_i l n _
              have ho : o' = o := by
                unfold State.regionVerdict at h
                split at h
                · exact absurd h (by simp)
                · split at h
                  · exact absurd h (by simp)
                  · split at h
                    · exact absurd h (by simp)
                    · split at h
                      · split at h
                        · exact absurd h (by simp)
                        · simp only [Verdict.accept.injEq] at h; exact h.1
                      · simp only [Verdict.accept.injEq] at h; exact h.1
              subst ho
              exact hregion _ h
            · simp only [Verdict.accept.injEq] at h
              intro i hi
              rw [← h.2.2] at hi
              exact absurd hi (by simp)

/-! ## The new record -/

/-- The state in which a record has joined its queue, taken the stamp and been counted. -/
def State.joined (s : State) (p : Port) (x : Record) (region : Option RegionIx) : State :=
  (({ s with stampCounter := s.stampCounter + 1 }).setQueue p (s.queue p ++ [x])).countIn region

theorem quietBreak_queue (s : State) (p : Port) : s.quietBreak.queue p = s.queue p := by
  unfold State.quietBreak; split <;> rfl

theorem quietBreak_stampCounter (s : State) : s.quietBreak.stampCounter = s.stampCounter := by
  unfold State.quietBreak; split <;> rfl

theorem quietBreak_region (s : State) (i : RegionIx) : s.quietBreak.region i = s.region i := by
  unfold State.quietBreak; split <;> rfl

/-- The record as it joins: the fields admission gives it, evaluated once. -/
def State.firstRecord (s : State) (p : Port) (t : Tag) (o : ReqOp) (posted : Bool) (region : Option RegionIx) : Record :=
  s.quietBreak.review (s.newRecord p t o posted region)

theorem firstRecord_key (s : State) (p : Port) (t : Tag) (o : ReqOp) (posted : Bool) (region : Option RegionIx) :
    (s.firstRecord p t o posted region).key = (p, t, o, posted, region, s.stampCounter) := by
  unfold State.firstRecord
  rw [review_key]
  rfl

theorem enqueue_eq (s : State) (p : Port) (t : Tag) (o : ReqOp) (posted : Bool) (region : Option RegionIx) :
    s.enqueue p t o posted region =
      if o.isArray then (s.quietBreak.joined p (s.firstRecord p t o posted region) region).wakeCause .request p
      else s.quietBreak.joined p (s.firstRecord p t o posted region) region := by
  unfold State.enqueue State.joined State.firstRecord
  rw [quietBreak_queue, quietBreak_stampCounter]

/-- After the joining, admission does nothing the control side could not do. -/
theorem control_enqueue (s : State) (p : Port) (t : Tag) (o : ReqOp) (posted : Bool) (region : Option RegionIx) :
    Control (s.quietBreak.joined p (s.firstRecord p t o posted region) region) (s.enqueue p t o posted region) := by
  rw [enqueue_eq]
  split
  · exact control_wakeCause ..
  · exact .refl _

theorem control_letIn (s : State) (p : Port) (t : Tag) (o : ReqOp) (posted : Bool) (region : Option RegionIx) :
    Control (s.quietBreak.joined p (s.firstRecord p t o posted region) region) (s.letIn p t o posted region) := by
  unfold State.letIn
  dsimp only
  split
  · split
    · refine (control_enqueue ..).trans (control_setBank _ _ _ ?_ ?_)
      · exact (idleNext_core ..).1
      · exact Or.inl (idleNext_core ..).2.1.symm
    · split
      · exact (control_enqueue ..).trans ((control_carryOut ..).trans (control_settle _))
      · exact (control_enqueue ..).trans (control_carryOut ..)
  · exact control_enqueue ..

theorem ports_enqueue (s : State) (p : Port) (t : Tag) (o : ReqOp) (posted : Bool) (region : Option RegionIx) :
    Ports (s.quietBreak.joined p (s.firstRecord p t o posted region) region) (s.enqueue p t o posted region) := by
  rw [enqueue_eq]
  split
  · exact ports_wakeCause ..
  · exact .refl _

/-- The parts of the state that a joining leaves alone. -/
theorem joined_eqs (s : State) (p : Port) (x : Record) (region : Option RegionIx) :
    (s.joined p x region).links = s.links ∧ (s.joined p x region).notices = s.notices ∧
      (s.joined p x region).quiet = s.quiet ∧ (s.joined p x region).claim = s.claim ∧
      (s.joined p x region).mem = s.mem ∧ (s.joined p x region).banks = s.banks ∧
      (s.joined p x region).holds = s.holds ∧ (s.joined p x region).refresh = s.refresh ∧
      (s.joined p x region).window = s.window ∧ (s.joined p x region).remap = s.remap ∧
      (s.joined p x region).repairQueue = s.repairQueue ∧ (s.joined p x region).detached = s.detached ∧
      (s.joined p x region).stampCounter = s.stampCounter + 1 ∧
      (s.joined p x region).queue p = s.queue p ++ [x] ∧
      (∀ q, q ≠ p → (s.joined p x region).queue q = s.queue q) := by
  unfold State.joined State.countIn
  cases region with
  | none =>
    exact ⟨rfl, rfl, rfl, rfl, rfl, rfl, rfl, rfl, rfl, rfl, rfl, rfl, rfl, State.queue_setQueue_self .., fun q hq =>
      State.queue_setQueue_of_ne _ hq _⟩
  | some i =>
    exact ⟨rfl, rfl, rfl, rfl, rfl, rfl, rfl, rfl, rfl, rfl, rfl, rfl, rfl, State.queue_setQueue_self .., fun q hq =>
      State.queue_setQueue_of_ne _ hq _⟩

@[simp] theorem joined_watches (s : State) (p : Port) (x : Record) (region : Option RegionIx) :
    (s.joined p x region).watches = s.watches := by
  cases region <;> rfl

@[simp] theorem joined_currentJob (s : State) (p : Port) (x : Record) (region : Option RegionIx) :
    (s.joined p x region).currentJob = s.currentJob := by
  cases region <;> rfl

end Sys2Proof.Machine
end

