-- ==== Sys2Proof/Laws/Arbiter.lean ====
section
/-! SUPPORT. What the command arbiter's choice implies: `Legal s g` says, command by command, what holds of the state when it is chosen. -/

namespace Sys2Proof.Machine

/-! ## Picking -/

theorem pick_mem {α : Type} {before : α → α → Bool} {l : List α} {x : α} (h : pick before l = some x) : x ∈ l := by
  induction l generalizing x with
  | nil => exact absurd h (by simp [pick])
  | cons a t ih =>
    unfold pick at h
    cases hp : pick before t with
    | none => rw [hp] at h; simp only [Option.some.injEq] at h; rw [← h]; exact List.mem_cons_self
    | some y =>
      rw [hp] at h
      dsimp only at h
      split at h
      · simp only [Option.some.injEq] at h; rw [← h]; exact List.mem_cons_of_mem _ (ih hp)
      · simp only [Option.some.injEq] at h; rw [← h]; exact List.mem_cons_self

theorem firstOffer_mem {before : Record → Record → Bool} {offer : Record → Option Grant} {rs : List Record} {g : Grant}
    (h : firstOffer before offer rs = some g) : ∃ r ∈ rs, offer r = some g := by
  unfold firstOffer at h
  split at h
  · rename_i r hr
    exact ⟨r, (List.mem_filter.mp (pick_mem hr)).1, h⟩
  · exact absurd h (by simp)

theorem or_some {α : Type} {a b : Option α} {x : α} (h : a.or b = some x) : a = some x ∨ b = some x := by
  cases a with
  | none => exact Or.inr (by simpa using h)
  | some y => exact Or.inl (by simpa using h)

theorem mem_allBanks (b : BankId) : b ∈ allBanks := List.mem_finRange b

theorem mem_allGroups (g : GroupId) : g ∈ allGroups := by revert g; decide

theorem groupAll_apply {s : State} {g : GroupId} {f : Bank → Bool} (h : s.groupAll g f = true) (b : BankId)
    (hb : groupOf b = g) : f (s.bank b) = true := by
  have := List.all_eq_true.mp h b (mem_allBanks b)
  simpa [hb] using this

theorem allBanksIn_apply {s : State} {x : BankState} (h : s.allBanksIn x = true) (b : BankId) : (s.bank b).state = x := by
  have := List.all_eq_true.mp h b (mem_allBanks b)
  simpa using this

theorem refreshLegal_apply {s : State} {g : GroupId} (h : s.refreshLegal g = true) (b : BankId) (hb : groupOf b = g) :
    (s.bank b).state = .closed ∨ (s.bank b).state = .repairing := by
  have := groupAll_apply h b hb
  simpa using this

/-! ## Lines and their fields -/

theorem lineBank_mkLine (row : RowId) (b : BankId) (x : LineIx) : lineBank (mkLine row b x) = b := by
  apply Fin.ext
  simp only [lineBank, mkLine]
  omega

theorem lineRow_mkLine (row : RowId) (b : BankId) (x : LineIx) : lineRow (mkLine row b x) = row := by
  apply Fin.ext
  simp only [lineRow, mkLine]
  omega

theorem lineIx_mkLine (row : RowId) (b : BankId) (x : LineIx) : lineIx (mkLine row b x) = x := by
  apply Fin.ext
  simp only [lineIx, mkLine]
  omega

theorem mkLine_fields (l : LineId) : mkLine (lineRow l) (lineBank l) (lineIx l) = l := by
  apply Fin.ext
  simp only [lineBank, lineRow, lineIx, mkLine]
  omega

/-! ## Legal choices -/

/-- An OPEN of the bank is legal for its source (R7). -/
inductive MayOpen (s : State) (b : BankId) (src : Source) : Prop where
  | other (hs : src ≠ .repair) (h : s.openLegal b = true)
  | job (hs : src = .repair) (h : s.repairOpenLegal b = true)
      (hp : s.repairPhase b = some .copyOut ∨ s.repairPhase b = some .copyIn)

/-- No other holder or merge stands on the line (R40, R57). -/
structure LineClear (s : State) (src : Source) (l : LineId) : Prop where
  request : ∀ r, src = .request r → s.lineFree r.holder l = true
  scrubber : src = .scrubber → s.lineFree .scrubber l = true
  others : src = .repair ∨ src = .sweep → s.lineUnclaimed l = true

inductive Legal (s : State) : Grant → Prop where
  | openRow (b : BankId) (row : RowId) (src : Source) (h : MayOpen s b src) (hn : s.servingSpare b row = none) :
      Legal s ⟨.openRow b row, src⟩
  | openSpare (b : BankId) (sp : SpareId) (row : RowId) (src : Source) (h : MayOpen s b src)
      (hn : s.servingSpare b row = some sp ∨ ∃ c, s.currentJob = some c ∧ src = .repair ∧ c.phase = .copyIn ∧
        c.job.bank = b ∧ c.job.row = row ∧ c.chosen = sp) : Legal s ⟨.openSpare b sp row, src⟩
  | close (b : BankId) (src : Source) (h : s.closeLegal b = true) : Legal s ⟨.close b, src⟩
  | read (l : LineId) (src : Source) (h : s.accessLegal l true = true)
      (hf : LineClear s src l)
      (hr : ∀ r, src = .request r → r ∈ s.records ∧ r.nextAccess = some (true, l) ∧
        (r.op.isAtomic = true → s.holdMayBeGiven r.holder l = true))
      (hx : src = .scrubber ∨ src = .repair ∨ ∃ r, src = .request r) :
      Legal s ⟨.readLine (lineBank l) (lineIx l), src⟩
  | write (l : LineId) (src : Source) (h : s.accessLegal l false = true)
      (hf : LineClear s src l)
      (hr : ∀ r, src = .request r → r ∈ s.records ∧ r.nextAccess = some (false, l)) :
      Legal s ⟨.writeLine (lineBank l) (lineIx l), src⟩
  | refresh (g : GroupId) (src : Source) (h : s.refreshLegal g = true) (hd : -8 < s.refresh.debt.get g) :
      Legal s ⟨.refreshGroup g, src⟩
  | retain (src : Source) (h : s.quiet.part = .entering) (hb : ∀ b, (s.bank b).state = .closed)
      (hd : ∀ g, s.refresh.debt.get g ≤ 0) : Legal s ⟨.retain, src⟩
  | resume (src : Source) (h : s.quiet.part = .waking) (hb : ∀ b, (s.bank b).state = .retained)
      (ht : s.quiet.wakeTimer = none) : Legal s ⟨.resume, src⟩
  | programSoft (c : CurrentJob) (src : Source) (h : s.currentJob = some c) (hp : c.phase = .copyOut)
      (hm : c.job.mode = .soft) (hl : 32 ≤ c.linesRead) (hb : (s.bank c.job.bank).state = .repairing) :
      Legal s ⟨.programSoft c.job.bank c.chosen, src⟩
  | programFuse (c : CurrentJob) (src : Source) (h : s.currentJob = some c) (hp : c.phase = .copyOut)
      (hm : c.job.mode = .fused) (hl : 32 ≤ c.linesRead) (hb : (s.bank c.job.bank).state = .repairing) :
      Legal s ⟨.programFuse c.job.bank c.chosen, src⟩

variable {s : State} {g : Grant}

theorem legal_closeOf {f : BankId → Bool} (h : s.closeOf f = some g) : Legal s g := by
  unfold State.closeOf at h
  obtain ⟨b, hb, rfl⟩ := Option.map_eq_some_iff.mp h
  have := List.find?_some hb
  simp only [Bool.and_eq_true] at this
  exact .close b _ this.2

theorem legal_refreshGrant {k : Option GroupId} (h : refreshGrant k = some g)
    (hk : ∀ x, k = some x → s.refreshLegal x = true ∧ -8 < s.refresh.debt.get x) : Legal s g := by
  unfold refreshGrant at h
  obtain ⟨x, hx, rfl⟩ := Option.map_eq_some_iff.mp h
  exact .refresh x _ (hk x hx).1 (hk x hx).2

theorem highestDebt_apply {f : GroupId → Bool} {x : GroupId} (h : s.highestDebt f = some x) : f x = true := by
  unfold State.highestDebt at h
  exact (List.mem_filter.mp (pick_mem h)).2

theorem legal_quietOffer (h : s.quietOffer = some g) : Legal s g := by
  unfold State.quietOffer at h
  split at h
  · rename_i hp
    split at h
    · refine legal_refreshGrant h fun x hx => ?_
      have := highestDebt_apply hx
      simp only [Bool.and_eq_true, decide_eq_true_eq] at this
      exact ⟨this.2, by omega⟩
    · rename_i hd
      split at h
      · rename_i hb
        simp only [Option.some.injEq] at h
        subst h
        refine .retain _ hp (allBanksIn_apply hb) fun x => ?_
        by_contra hx
        exact hd (List.any_eq_true.mpr ⟨x, mem_allGroups x, by simpa using hx⟩)
      · exact absurd h (by simp)
  · rename_i hp
    split at h
    · rename_i hb
      simp only [Option.some.injEq] at h
      subst h
      simp only [Bool.and_eq_true, Option.isNone_iff_eq_none] at hb
      exact .resume _ hp (allBanksIn_apply hb.2) hb.1
    · exact absurd h (by simp)
  · exact absurd h (by simp)
  · exact absurd h (by simp)
  · exact absurd h (by simp)

theorem legal_class1 (h : s.class1 = some g) : Legal s g := by
  rcases or_some h with h | h
  · exact legal_closeOf h
  · exact legal_quietOffer h

theorem legal_class2 (h : s.class2 = some g) : Legal s g := by
  refine legal_refreshGrant h fun x hx => ?_
  have := (List.mem_filter.mp (pick_mem hx)).2
  simp only [State.urgent, Bool.and_eq_true, decide_eq_true_eq] at this
  exact ⟨this.2, by omega⟩

theorem legal_openCmd {b : BankId} {row : RowId} {src : Source} (h : MayOpen s b src) :
    Legal s ⟨s.openCmd b row, src⟩ := by
  unfold State.openCmd
  split
  · rename_i sp hn; exact .openSpare b sp row src h (Or.inl hn)
  · rename_i hn; exact .openRow b row src h hn

/-- What R7 asks of every OPEN, by its source. -/
theorem openLegal_apply {b : BankId} (h : s.openLegal b = true) :
    (s.bank b).state = .closed ∧ s.repairPhase b = none ∧ s.refresh.debt.get (groupOf b) ≠ 8 ∧ s.quiet.part ≠ .entering ∧
      s.openTiming b = true := by
  simp only [State.openLegal, State.urgent, Bool.and_eq_true, decide_eq_true_eq, Bool.not_eq_true', decide_eq_false_iff_not,
    Option.isNone_iff_eq_none] at h
  exact ⟨h.1.1.1.1, h.1.1.1.2, h.1.1.2, h.1.2, h.2⟩

theorem repairOpenLegal_apply {b : BankId} (h : s.repairOpenLegal b = true) :
    (s.bank b).state = .repairing ∧ s.refresh.debt.get (groupOf b) ≠ 8 ∧ s.openTiming b = true := by
  simp only [State.repairOpenLegal, State.urgent, Bool.and_eq_true, decide_eq_true_eq, Bool.not_eq_true',
    decide_eq_false_iff_not] at h
  exact ⟨h.1.1, h.1.2, h.2⟩

theorem MayOpen.timing {b : BankId} {src : Source} (h : MayOpen s b src) :
    ((s.bank b).state = .closed ∨ (s.bank b).state = .repairing) ∧ s.refresh.debt.get (groupOf b) ≠ 8 ∧
      s.openTiming b = true := by
  rcases h with ⟨_, h⟩ | ⟨_, h, _⟩
  · have := openLegal_apply h; exact ⟨Or.inl this.1, this.2.2.1, this.2.2.2.2⟩
  · have := repairOpenLegal_apply h; exact ⟨Or.inr this.1, this.2⟩

/-- The clearness of a line for the one source an access is for. -/
theorem lineClear_request {r : Record} {l : LineId} (h : s.lineFree r.holder l = true) : LineClear s (.request r) l where
  request q hq := by injection hq with e; rw [← e]; exact h
  scrubber hq := Source.noConfusion hq
  others hq := by rcases hq with hq | hq <;> exact Source.noConfusion hq

theorem lineClear_scrubber {l : LineId} (h : s.lineFree .scrubber l = true) : LineClear s .scrubber l where
  request q hq := Source.noConfusion hq
  scrubber _ := h
  others hq := by rcases hq with hq | hq <;> exact Source.noConfusion hq

theorem lineClear_other {src : Source} {l : LineId} (hs : src = .repair ∨ src = .sweep)
    (h : s.lineUnclaimed l = true) : LineClear s src l where
  request q hq := by rcases hs with hs | hs <;> rw [hs] at hq <;> exact Source.noConfusion hq
  scrubber hq := by rcases hs with hs | hs <;> rw [hs] at hq <;> exact Source.noConfusion hq
  others _ := h

/-- A line free for a holder: who holds it, and whose merge may stand on it. -/
theorem lineFree_apply {h : Holder} {l : LineId} (hf : s.lineFree h l = true) :
    (∀ e ∈ s.holds, e.line = l → e.holder = h) ∧ ∀ q ∈ s.records, q.mergesOn l = true → q.holder = h := by
  simp only [State.lineFree, State.heldByOther, State.noMergeBut, Bool.and_eq_true, Bool.not_eq_true',
    List.any_eq_false, decide_eq_true_eq, not_and, Bool.and_eq_true] at hf
  refine ⟨fun e he hl => ?_, fun q hq hm => ?_⟩
  · by_contra hn; exact hf.1 e he hl hn
  · by_contra hn; exact hf.2 q hq hn hm

/-- An unclaimed line: nobody holds it and no merge stands on it. -/
theorem lineUnclaimed_apply {l : LineId} (hf : s.lineUnclaimed l = true) :
    (∀ e ∈ s.holds, e.line ≠ l) ∧ ∀ q ∈ s.records, q.mergesOn l = false := by
  simp only [State.lineUnclaimed, State.held, Bool.and_eq_true, Bool.not_eq_true', List.any_eq_false,
    decide_eq_true_eq] at hf
  exact ⟨hf.1, fun q hq => by simpa using hf.2 q hq⟩

theorem legal_copyOffer {b : BankId} {n : Nat} {row : RowId} {isRead : Bool} (h : s.copyOffer b n row isRead = some g) :
    Legal s g := by
  unfold State.copyOffer at h
  split at h
  · exact absurd h (by simp)
  · split at h
    · split at h
      · rename_i ha
        simp only [Bool.and_eq_true] at ha
        simp only [Option.some.injEq] at h
        subst h
        cases isRead with
        | true =>
          have := Legal.read (s := s) (mkLine row b (copyLine n)) .repair ha.1
            (lineClear_other (Or.inl rfl) ha.2) (fun r hr => by simp at hr) (Or.inr (Or.inl rfl))
          rw [lineBank_mkLine, lineIx_mkLine] at this
          exact this
        | false =>
          have := Legal.write (s := s) (mkLine row b (copyLine n)) .repair ha.1
            (lineClear_other (Or.inl rfl) ha.2) (fun r hr => by simp at hr)
          rw [lineBank_mkLine, lineIx_mkLine] at this
          exact this
      · exact absurd h (by simp)
    · split at h
      · rename_i hc
        simp only [Option.some.injEq] at h
        subst h
        exact .close b _ hc
      · exact absurd h (by simp)

theorem legal_jobOffer {c : CurrentJob} (hj : s.currentJob = some c) (h : s.jobOffer c = some g) : Legal s g := by
  unfold State.jobOffer at h
  dsimp only at h
  split at h
  · split at h
    · rename_i hc
      simp only [Bool.and_eq_true] at hc
      simp only [Option.some.injEq] at h
      subst h
      exact .close _ _ hc.2
    · exact absurd h (by simp)
  · rename_i hp hb
    have hph : s.repairPhase c.job.bank = some .copyOut := by simp [State.repairPhase, hj, hp]
    split at h
    · split at h
      · rename_i ho
        simp only [Option.some.injEq] at h
        subst h
        exact legal_openCmd (.job rfl ho (Or.inl hph))
      · exact absurd h (by simp)
    · rename_i hl
      simp only [Option.some.injEq] at h
      subst h
      cases hm : c.job.mode with
      | soft => exact .programSoft c _ hj hp hm (by omega) hb
      | fused => exact .programFuse c _ hj hp hm (by omega) hb
  · exact legal_copyOffer h
  · rename_i hp _
    have hph : s.repairPhase c.job.bank = some .copyIn := by simp [State.repairPhase, hj, hp]
    split at h
    · rename_i ho
      simp only [Option.some.injEq] at h
      subst h
      exact .openSpare _ _ _ _ (.job rfl ho (Or.inr hph)) (Or.inr ⟨c, hj, rfl, hp, rfl, rfl, rfl⟩)
    · exact absurd h (by simp)
  · exact legal_copyOffer h
  · exact absurd h (by simp)

theorem legal_class3 (h : s.class3 = some g) : Legal s g := by
  unfold State.class3 at h
  split at h
  · rename_i c hc; exact legal_jobOffer hc h
  · exact absurd h (by simp)

/-- The access a record offers; an atomic that reads must be given its hold. -/
theorem legal_accessOffer {r : Record} (hr : r ∈ s.records) (h : s.accessOffer r = some g)
    (ha : ∀ l, r.nextAccess = some (true, l) → r.op.isAtomic = true → s.holdMayBeGiven r.holder l = true) :
    Legal s g := by
  unfold State.accessOffer at h
  split at h
  · exact absurd h (by simp)
  · rename_i isRead l hn
    split at h
    · rename_i hl
      simp only [Bool.and_eq_true] at hl
      simp only [Option.some.injEq] at h
      subst h
      cases isRead with
      | true =>
        refine .read l _ hl.1 (lineClear_request hl.2) (fun q hq => ?_) (Or.inr (Or.inr ⟨r, rfl⟩))
        simp only [Source.request.injEq] at hq
        subst hq
        exact ⟨hr, hn, ha l hn⟩
      | false =>
        refine .write l _ hl.1 (lineClear_request hl.2) (fun q hq => ?_)
        simp only [Source.request.injEq] at hq
        subst hq
        exact ⟨hr, hn⟩
    · exact absurd h (by simp)

/-- An ACTIVE atomic has read already. -/
theorem active_atomic_writes {r : Record} {l : LineId} (ha : r.op.isAtomic = true) (h : r.isActive = true) :
    r.nextAccess ≠ some (true, l) := by
  have hs : r.state = .active := by simpa [Record.isActive] using h
  unfold Record.nextAccess
  cases ho : r.op <;> rw [ho] at ha <;> simp only [ReqOp.isAtomic, Bool.false_eq_true] at ha <;> simp [ReqOp.span, hs]

theorem legal_class4 (h : s.class4 = some g) : Legal s g := by
  obtain ⟨r, hr, ho⟩ := firstOffer_mem h
  obtain ⟨hm, ha⟩ := List.mem_filter.mp hr
  exact legal_accessOffer hm ho fun l hn hat => absurd hn (active_atomic_writes hat ha)

theorem readyRecords_mem {r : Record} (h : r ∈ s.readyRecords) : r ∈ s.records ∧ r.isReady = true := by
  obtain ⟨hm, hr⟩ := List.mem_filter.mp h
  simp only [Bool.and_eq_true] at hr
  exact ⟨hm, hr.1⟩

/-- The first access of a READY record is to its first line. -/
theorem ready_first {r : Record} {l : LineId} {n : Nat} (h : r.isReady = true) (hs : r.op.span = some (l, n)) {k : LineId}
    {isRead : Bool} (hn : r.nextAccess = some (isRead, k)) : k = l := by
  have hst : r.state = .ready := by simpa [Record.isReady] using h
  unfold Record.nextAccess at hn
  rw [hs] at hn
  simp only [hst, Option.some.injEq, Prod.mk.injEq] at hn
  exact hn.2.symm

theorem legal_class5 (h : s.class5 = some g) : Legal s g := by
  obtain ⟨r, hr, ho⟩ := firstOffer_mem h
  obtain ⟨hm, hrd⟩ := readyRecords_mem hr
  unfold State.hitOffer at ho
  split at ho
  · exact absurd ho (by simp)
  · rename_i l n hs
    dsimp only at ho
    split at ho
    · rename_i hc
      simp only [Bool.and_eq_true, Bool.or_eq_true, Bool.not_eq_true'] at hc
      refine legal_accessOffer hm ho fun k hn hat => ?_
      rw [ready_first hrd hs hn]
      rcases hc.2 with hna | hh
      · rw [hat] at hna; exact Bool.noConfusion hna
      · exact hh
    · exact absurd ho (by simp)

theorem legal_class6 (h : s.class6 = some g) : Legal s g := by
  obtain ⟨r, hr, ho⟩ := firstOffer_mem h
  unfold State.rowOffer at ho
  split at ho
  · exact absurd ho (by simp)
  · dsimp only at ho
    split at ho
    · rename_i hl
      simp only [upkeep, Option.some.injEq] at ho
      subst ho
      exact legal_openCmd (.other (by simp) hl)
    · split at ho
      · exact absurd ho (by simp)
      · split at ho
        · rename_i hc
          simp only [Bool.and_eq_true] at hc
          simp only [upkeep, Option.some.injEq] at ho
          subst ho
          exact .close _ _ hc.2
        · exact absurd ho (by simp)

theorem legal_class7 (h : s.class7 = some g) : Legal s g := by
  unfold State.class7 at h
  split at h
  · rename_i x hx
    have hd := highestDebt_apply hx
    simp only [Bool.and_eq_true, decide_eq_true_eq] at hd
    rcases or_some h with h | h
    · exact legal_closeOf h
    · split at h
      · rename_i hl
        simp only [upkeep, Option.some.injEq] at h
        subst h
        exact .refresh x _ hl (by omega)
      · exact absurd h (by simp)
  · exact absurd h (by simp)

theorem legal_class8 (h : s.class8 = some g) : Legal s g := by
  rcases or_some h with h | h
  · refine legal_refreshGrant h fun x hx => ?_
    have := highestDebt_apply hx
    simp only [Bool.and_eq_true, decide_eq_true_eq] at this
    exact ⟨this.2, by omega⟩
  · split at h
    · refine legal_refreshGrant h fun x hx => ?_
      have := highestDebt_apply hx
      simp only [Bool.and_eq_true, decide_eq_true_eq] at this
      exact ⟨this.2, this.1.1⟩
    · exact absurd h (by simp)

theorem legal_scrubAccess {l : LineId} {isRead : Bool} (h : s.scrubAccess l isRead = some g) : Legal s g := by
  unfold State.scrubAccess at h
  dsimp only at h
  split at h
  · rename_i hl
    simp only [Option.some.injEq] at h
    subst h
    exact legal_openCmd (.other (by simp) hl)
  · split at h
    · rename_i hc
      simp only [Bool.and_eq_true] at hc
      simp only [Option.some.injEq] at h
      subst h
      cases isRead with
      | true => exact .read l _ hc.1.2 (lineClear_scrubber hc.2) (fun r hr => by simp at hr) (Or.inl rfl)
      | false => exact .write l _ hc.1.2 (lineClear_scrubber hc.2) (fun r hr => by simp at hr)
    · exact absurd h (by simp)

theorem legal_scrubOffer (h : s.scrubOffer = some g) : Legal s g := by
  unfold State.scrubOffer at h
  dsimp only at h
  split at h
  · exact absurd h (by simp)
  · exact legal_scrubAccess h
  · split at h
    · exact legal_scrubAccess h
    · exact absurd h (by simp)
  · exact legal_scrubAccess h

theorem legal_sweepOffer (h : s.sweepOffer = some g) : Legal s g := by
  unfold State.sweepOffer at h
  split at h
  · exact absurd h (by simp)
  rcases or_some h with h | h
  · obtain ⟨x, hx, rfl⟩ := Option.map_eq_some_iff.mp h
    unfold State.closeOf at hx
    obtain ⟨b, hb, rfl⟩ := Option.map_eq_some_iff.mp hx
    have := List.find?_some hb
    simp only [Bool.and_eq_true] at this
    exact .close b _ this.2
  · split at h
    · exact absurd h (by simp)
    · rename_i l _
      dsimp only at h
      split at h
      · rename_i hl
        simp only [Bool.and_eq_true] at hl
        simp only [Option.some.injEq] at h
        subst h
        exact .write l _ hl.1 (lineClear_other (Or.inr rfl) hl.2) (fun r hr => by simp at hr)
      · split at h
        · rename_i ho
          simp only [Bool.and_eq_true] at ho
          simp only [Option.some.injEq] at h
          subst h
          exact legal_openCmd (.other (by simp) ho.1)
        · exact absurd h (by simp)

theorem legal_class9 (h : s.class9 = some g) : Legal s g := by
  unfold State.class9 at h
  split at h
  · split at h
    · exact absurd h (by simp)
    · exact legal_scrubOffer h
  · exact legal_sweepOffer h

theorem legal_class10 (h : s.class10 = some g) : Legal s g := legal_closeOf h

/-- What the arbiter chooses is legal, and it chooses only while the path is free. -/
theorem choice_legal (h : s.arbiterChoice = some g) : s.pathBusy = none ∧ Legal s g := by
  unfold State.arbiterChoice at h
  split at h
  · exact absurd h (by simp)
  · rename_i hp
    refine ⟨by simpa using hp, ?_⟩
    rcases or_some h with h | h
    · exact legal_class1 h
    rcases or_some h with h | h
    · exact legal_class2 h
    rcases or_some h with h | h
    · exact legal_class3 h
    rcases or_some h with h | h
    · exact legal_class4 h
    rcases or_some h with h | h
    · exact legal_class5 h
    rcases or_some h with h | h
    · exact legal_class6 h
    rcases or_some h with h | h
    · exact legal_class7 h
    rcases or_some h with h | h
    · exact legal_class8 h
    rcases or_some h with h | h
    · exact legal_class9 h
    · exact legal_class10 h

/-- A legal line access is to a line of the bank's open row, the line the command names. -/
theorem lineOf_accessLegal {l : LineId} {isRead : Bool} (h : s.accessLegal l isRead = true) :
    s.lineOf (lineBank l) (lineIx l) = some l := by
  simp only [State.accessLegal, Bool.and_eq_true, decide_eq_true_eq] at h
  unfold State.lineOf
  rw [h.1.1.2]
  simp [mkLine_fields]

end Sys2Proof.Machine
end

