-- ==== Sys2Proof/Laws/Candidates.lean ====
section
/-! SUPPORT. The arbiter's ten classes and their candidates of Table 18: a class offers a command exactly when it has a candidate, and what
it offers is one. -/

namespace Sys2Proof.Machine

/-! ## Picking the best -/

/-- What `pick` needs of an order to give the best of a list. -/
structure PickOrder {α : Type} (before : α → α → Bool) : Prop where
  asymm : ∀ x y, before x y = true → before y x = false
  split : ∀ x y z, before z x = true → before z y = true ∨ before y x = true

theorem PickOrder.irrefl {α : Type} {before : α → α → Bool} (h : PickOrder before) (x : α) : before x x = false := by
  cases hx : before x x with
  | false => rfl
  | true => exact (h.asymm x x hx).symm.trans hx |> fun e => Bool.noConfusion e

theorem pick_best {α : Type} {before : α → α → Bool} (ho : PickOrder before) {l : List α} {x : α}
    (h : pick before l = some x) : ∀ y ∈ l, before y x = false := by
  induction l generalizing x with
  | nil => simp
  | cons a t ih =>
    unfold pick at h
    cases hp : pick before t with
    | none =>
      rw [hp] at h
      simp only [Option.some.injEq] at h
      subst h
      have ht : t = [] := by
        cases t with
        | nil => rfl
        | cons b u =>
          exfalso
          unfold pick at hp
          cases hu : pick before u with
          | none => rw [hu] at hp; simp at hp
          | some z => rw [hu] at hp; dsimp only at hp; split at hp <;> simp at hp
      subst ht
      intro y hy
      rw [List.mem_singleton.mp hy]
      exact ho.irrefl _
    | some z =>
      rw [hp] at h
      dsimp only at h
      split at h
      · rename_i hz
        simp only [Option.some.injEq] at h
        subst h
        intro y hy
        rcases List.mem_cons.mp hy with rfl | hy
        · exact ho.asymm _ _ hz
        · exact ih hp y hy
      · rename_i hz
        simp only [Option.some.injEq] at h
        subst h
        intro y hy
        rcases List.mem_cons.mp hy with rfl | hy
        · exact ho.irrefl _
        · cases hya : before y a with
          | false => rfl
          | true =>
            rcases ho.split a z y hya with h1 | h1
            · rw [ih hp y hy] at h1; exact Bool.noConfusion h1
            · exact absurd h1 hz

theorem pick_none {α : Type} {before : α → α → Bool} {l : List α} : pick before l = none ↔ l = [] := by
  cases l with
  | nil => simp [pick]
  | cons a t =>
    simp only [reduceCtorEq, iff_false]
    unfold pick
    cases pick before t with
    | none => simp
    | some z => dsimp only; split <;> simp

/-- Of equal ones `pick` gives the first. -/
theorem pick_first {before : GroupId → GroupId → Bool} {l : List GroupId} {x : GroupId}
    (hl : l.Pairwise (· < ·)) (h : pick before l = some x) : ∀ y ∈ l, before x y = true ∨ x ≤ y := by
  induction l generalizing x with
  | nil => simp
  | cons a t ih =>
    obtain ⟨ha, ht⟩ := List.pairwise_cons.mp hl
    unfold pick at h
    cases hp : pick before t with
    | none =>
      rw [hp] at h
      simp only [Option.some.injEq] at h
      rw [pick_none.mp hp, ← h]
      intro y hy
      rw [List.mem_singleton.mp hy]
      exact Or.inr (le_refl _)
    | some z =>
      rw [hp] at h
      dsimp only at h
      split at h
      · rename_i hz
        simp only [Option.some.injEq] at h
        subst h
        intro y hy
        rcases List.mem_cons.mp hy with rfl | hy
        · exact Or.inl hz
        · exact ih ht hp y hy
      · simp only [Option.some.injEq] at h
        subst h
        intro y hy
        rcases List.mem_cons.mp hy with rfl | hy
        · exact Or.inr (le_refl _)
        · exact Or.inr (le_of_lt (ha y hy))

theorem firstOffer_best {before : Record → Record → Bool} (ho : PickOrder before) {offer : Record → Option Grant}
    {rs : List Record} {g : Grant} (h : firstOffer before offer rs = some g) :
    ∃ r ∈ rs, offer r = some g ∧ ∀ q ∈ rs, (offer q).isSome = true → before q r = false := by
  unfold firstOffer at h
  split at h
  · rename_i r hr
    exact ⟨r, (List.mem_filter.mp (pick_mem hr)).1, h, fun q hq hs => pick_best ho hr q (List.mem_filter.mpr ⟨hq, hs⟩)⟩
  · exact absurd h (by simp)

theorem firstOffer_none {before : Record → Record → Bool} {offer : Record → Option Grant} {rs : List Record}
    (h : firstOffer before offer rs = none) : ∀ r ∈ rs, offer r = none := by
  unfold firstOffer at h
  split at h
  · rename_i r hr
    have := (List.mem_filter.mp (pick_mem hr)).2
    rw [h] at this
    exact absurd this (by simp)
  · rename_i hn
    intro r hr
    have he := pick_none.mp hn
    by_contra hs
    have : r ∈ rs.filter (fun r => (offer r).isSome) := List.mem_filter.mpr ⟨hr, Option.isSome_iff_ne_none.mpr hs⟩
    rw [he] at this
    exact absurd this (by simp)

theorem stampOrder : PickOrder (fun r q : Record => decide (r.stamp < q.stamp)) where
  asymm x y h := by simp only [decide_eq_true_eq] at h; simp only [decide_eq_false_iff_not]; bv_omega
  split x y z h := by simp only [decide_eq_true_eq] at *; bv_omega

theorem ranksBefore_iff {r q : Record} : r.ranksBefore q = true ↔ RanksBefore r q := by
  simp [Record.ranksBefore, RanksBefore]

theorem rankOrder : PickOrder Record.ranksBefore where
  asymm x y h := by
    simp only [Record.ranksBefore, Bool.or_eq_true, Bool.and_eq_true, decide_eq_true_eq, Bool.not_eq_true'] at h
    cases hx : x.aged <;> cases hy : y.aged <;> simp_all [Record.ranksBefore]
    all_goals bv_omega
  split x y z h := by
    simp only [Record.ranksBefore, Bool.or_eq_true, Bool.and_eq_true, decide_eq_true_eq, Bool.not_eq_true'] at *
    cases hx : x.aged <;> cases hy : y.aged <;> cases hz : z.aged <;> simp_all
    all_goals bv_omega

variable {s : State} {g : Grant}

theorem debtOrder : PickOrder (fun g h : GroupId => decide (s.refresh.debt.get h < s.refresh.debt.get g)) where
  asymm x y h := by simp only [decide_eq_true_eq, decide_eq_false_iff_not] at *; omega
  split x y z h := by simp only [decide_eq_true_eq] at *; omega

theorem urgentOrder : PickOrder (fun g h : GroupId =>
    decide ((s.refresh.urgentAt.get g).getD 0 < (s.refresh.urgentAt.get h).getD 0)) where
  asymm x y h := by
    simp only [decide_eq_true_eq, decide_eq_false_iff_not] at *
    exact Nat.lt_asymm h
  split x y z h := by
    simp only [decide_eq_true_eq] at *
    exact (Nat.lt_or_ge _ _).imp id (fun hge => Nat.lt_of_le_of_lt hge h)

theorem allGroups_rise : allGroups.Pairwise (· < ·) := by decide

theorem highestDebt_top {f : GroupId → Bool} {P : GroupId → Prop} (hP : ∀ g, f g = true ↔ P g) {x : GroupId}
    (h : s.highestDebt f = some x) : TopGroup s P x where
  holds := (hP x).mp (highestDebt_apply h)
  top k hk := by
    have hm : k ∈ allGroups.filter f := List.mem_filter.mpr ⟨mem_allGroups k, (hP k).mpr hk⟩
    have h1 := pick_best debtOrder h k hm
    have h2 := pick_first (allGroups_rise.filter _) h k hm
    simp only [decide_eq_false_iff_not, decide_eq_true_eq] at h1 h2
    rcases h2 with h2 | h2
    · exact Or.inl h2
    · by_cases he : s.refresh.debt.get k = s.refresh.debt.get x
      · exact Or.inr ⟨he, h2⟩
      · exact Or.inl (by omega)

theorem highestDebt_none {f : GroupId → Bool} (h : s.highestDebt f = none) (g : GroupId) : f g = false := by
  have := pick_none.mp h
  by_contra hf
  have hm : g ∈ allGroups.filter f := List.mem_filter.mpr ⟨mem_allGroups g, by simpa using hf⟩
  rw [this] at hm
  exact absurd hm (by simp)

/-! ## Conditions -/

theorem since_iff {t : Option Instant} {n : Nat} : s.since t n = true ↔ s.Past t n := by
  unfold State.since State.Past
  cases t with
  | none => simp
  | some i => simp

theorem closable_iff {b : BankId} : s.closeLegal b = true ↔ Closable s b := by
  simp only [State.closeLegal, Bool.and_eq_true, decide_eq_true_eq, since_iff]
  exact ⟨fun h => ⟨h.1.1.1, h.1.1.2, h.1.2, h.2⟩, fun h => ⟨⟨⟨h.opened, h.sinceOpen⟩, h.sinceRead⟩, h.sinceWrite⟩⟩

theorem onBank_iff {r : Record} {b : BankId} : r.onBank b = true ↔ ∃ a n, r.op.span = some (a, n) ∧ lineBank a = b := by
  unfold Record.onBank
  split
  · rename_i a n h; simp [h]
  · rename_i h; simp [h]

theorem onRow_iff {r : Record} {b : BankId} {row : RowId} :
    r.onRow b row = true ↔ ∃ a n, r.op.span = some (a, n) ∧ lineBank a = b ∧ lineRow a = row := by
  unfold Record.onRow
  split
  · rename_i a n h; simp [h]
  · rename_i h; simp [h]

theorem noActive_iff {b : BankId} : s.activeOn b = false ↔ NoActiveOn s b := by
  simp only [State.activeOn, NoActiveOn, List.any_eq_false, Record.isActive, Bool.and_eq_true, decide_eq_true_eq, onBank_iff,
    not_and, not_exists]

theorem readyFor_iff {b : BankId} {row : RowId} : s.rowReady b row = true ↔ ReadyFor s b row := by
  simp only [State.rowReady, ReadyFor, List.any_eq_true, Record.isReady, Bool.and_eq_true, decide_eq_true_eq, onRow_iff]

theorem readyFor_not {b : BankId} {row : RowId} : s.rowReady b row = false ↔ ¬ ReadyFor s b row := by
  rw [← readyFor_iff, Bool.not_eq_true]

theorem groupAll_iff {k : GroupId} {f : Bank → Bool} :
    s.groupAll k f = true ↔ ∀ b, groupOf b = k → f (s.bank b) = true := by
  simp only [State.groupAll, List.all_eq_true, Bool.or_eq_true, decide_eq_true_eq]
  exact ⟨fun h b hb => (h b (mem_allBanks b)).resolve_left (fun hn => hn hb), fun h b _ => by
    by_cases hb : groupOf b = k
    · exact Or.inr (h b hb)
    · exact Or.inl hb⟩

theorem openTimed_iff {b : BankId} : s.urgent (groupOf b) = false ∧ s.openTiming b = true ↔ OpenTimed s b := by
  simp only [State.urgent, State.openTiming, Bool.and_eq_true, groupAll_iff, decide_eq_true_eq, decide_eq_false_iff_not,
    State.openSpacing, List.all_eq_true, Bool.or_eq_true, since_iff, State.windowFree]
  constructor
  · rintro ⟨hu, ⟨hr, hs⟩, hw⟩
    refine ⟨hr, hu, fun k hk => ?_, fun i hl hi => ?_⟩
    · have := (hs k (mem_allBanks k)).resolve_left hk
      by_cases hg : groupOf k = groupOf b
      · rw [if_pos hg]; rw [if_pos (by simp [sameGroup, hg])] at this; exact this
      · rw [if_neg hg]; rw [if_neg (by simp [sameGroup, Ne.symm hg])] at this; exact this
    · rcases hw with hw | hw
      · omega
      · exact hw i hi
  · intro h
    refine ⟨h.urgent, ⟨h.refreshing, fun k _ => ?_⟩, ?_⟩
    · by_cases hk : k = b
      · exact Or.inl hk
      · refine Or.inr ?_
        have := h.spacing k hk
        by_cases hg : groupOf k = groupOf b
        · rw [if_pos (by simp [sameGroup, hg])]; rw [if_pos hg] at this; exact this
        · rw [if_neg (by simp [sameGroup, Ne.symm hg])]; rw [if_neg hg] at this; exact this
    · by_cases hl : s.window.length < 4
      · exact Or.inl hl
      · exact Or.inr fun i hi => h.window i (by omega) hi

theorem openable_iff {b : BankId} : s.openLegal b = true ↔ Openable s b := by
  have e : s.openLegal b = true ↔ (s.bank b).state = .closed ∧ s.repairPhase b = none ∧ s.quiet.part ≠ .entering ∧
      (s.urgent (groupOf b) = false ∧ s.openTiming b = true) := by
    simp only [State.openLegal, Bool.and_eq_true, decide_eq_true_eq, Option.isNone_iff_eq_none, Bool.not_eq_true']
    tauto
  rw [e, openTimed_iff]
  exact ⟨fun h => ⟨h.1, h.2.1, h.2.2.1, h.2.2.2⟩, fun h => ⟨h.closed, h.phase, h.entering, h.timed⟩⟩

theorem repairOpenable_iff {b : BankId} :
    s.repairOpenLegal b = true ↔ (s.bank b).state = .repairing ∧ OpenTimed s b := by
  rw [← openTimed_iff]
  simp only [State.repairOpenLegal, Bool.and_eq_true, decide_eq_true_eq, Bool.not_eq_true']
  tauto

theorem servesRow_iff {b : BankId} {i : SpareId} {row : RowId} :
    ((s.spares b).get i).serves row = true ↔ ServesRow s b i row := by
  simp only [Spare.serves, ServesRow, decide_eq_true_eq]

theorem opensAs_iff {b : BankId} {row : RowId} {c : ArrayCmd} : OpensAs s b row c ↔ s.openCmd b row = c := by
  unfold State.openCmd State.servingSpare
  have hm : ∀ i : SpareId, i ∈ allSpares := by decide
  have hp : allSpares.Pairwise (· < ·) := by decide
  constructor
  · rintro (⟨i, h, low⟩ | h)
    · have : allSpares.find? (fun i => ((s.spares b).get i).serves row) = some i := by
        rw [List.find?_eq_some_iff_append]
        refine ⟨servesRow_iff.mpr h, ?_⟩
        obtain ⟨as, bs, e⟩ := List.append_of_mem (hm i)
        refine ⟨as, bs, e, fun a ha => ?_⟩
        have : a < i := by
          have := e ▸ hp
          exact (List.pairwise_append.mp this).2.2 a ha i (by simp)
        have := low a this
        rw [← servesRow_iff] at this
        simpa using this
      rw [this]
    · have : allSpares.find? (fun i => ((s.spares b).get i).serves row) = none := by
        rw [List.find?_eq_none]
        intro x _
        rw [servesRow_iff]
        exact h x
      rw [this]
  · intro e
    split at e
    · rename_i i hi
      subst e
      obtain ⟨h, as, bs, ea, hn⟩ := List.find?_eq_some_iff_append.mp hi
      refine .spare i (servesRow_iff.mp h) fun j hj => ?_
      have hja := hm j
      rw [ea] at hja
      rcases List.mem_append.mp hja with hja | hja
      · have := hn j hja
        rw [← servesRow_iff]
        simpa using this
      · exfalso
        have hp' := ea ▸ hp
        rcases List.mem_cons.mp hja with rfl | hja
        · exact lt_irrefl _ hj
        · exact absurd ((List.pairwise_cons.mp (List.pairwise_append.mp hp').2.1).1 j hja) (not_lt_of_gt hj)
    · rename_i hn
      subst e
      refine .plain fun i hi => ?_
      have := List.find?_eq_none.mp hn i (hm i)
      exact this (servesRow_iff.mpr hi)

theorem accessible_iff {l : LineId} {isRead : Bool} : s.accessLegal l isRead = true ↔ Accessible s l isRead := by
  simp only [State.accessLegal, Bool.and_eq_true, decide_eq_true_eq, Bool.not_eq_true', State.accessSpacing, List.all_eq_true,
    Bool.or_eq_true, since_iff, sameGroup]
  constructor
  · rintro ⟨⟨⟨ho, hr⟩, hc⟩, hs⟩
    refine ⟨ho, hr, hc, fun k t ht => ?_, fun hrd k => ?_⟩
    · have := (hs k (mem_allBanks k)).1
      rcases ht with rfl | rfl
      · by_cases hg : groupOf k = groupOf (lineBank l)
        · simpa [hg, accessSpacingSame, accessSpacingOther, ns] using this.1
        · simpa [hg, Ne.symm hg, accessSpacingSame, accessSpacingOther, ns] using this.1
      · by_cases hg : groupOf k = groupOf (lineBank l)
        · simpa [hg, accessSpacingSame, accessSpacingOther, ns] using this.2
        · simpa [hg, Ne.symm hg, accessSpacingSame, accessSpacingOther, ns] using this.2
    · have := (hs k (mem_allBanks k)).2.resolve_left (by simp [hrd])
      by_cases hg : groupOf k = groupOf (lineBank l)
      · simpa [hg, turnaroundSame, turnaroundOther] using this
      · simpa [hg, Ne.symm hg, turnaroundSame, turnaroundOther] using this
  · intro h
    refine ⟨⟨⟨h.opened, h.row⟩, h.reset⟩, fun k _ => ⟨⟨?_, ?_⟩, ?_⟩⟩
    · have := h.spacing k _ (Or.inl rfl)
      by_cases hg : groupOf k = groupOf (lineBank l)
      · simpa [hg, accessSpacingSame, accessSpacingOther, ns] using this
      · simpa [hg, Ne.symm hg, accessSpacingSame, accessSpacingOther, ns] using this
    · have := h.spacing k _ (Or.inr rfl)
      by_cases hg : groupOf k = groupOf (lineBank l)
      · simpa [hg, accessSpacingSame, accessSpacingOther, ns] using this
      · simpa [hg, Ne.symm hg, accessSpacingSame, accessSpacingOther, ns] using this
    · cases hrd : isRead with
      | false => exact Or.inl rfl
      | true =>
        refine Or.inr ?_
        have := h.turnaround hrd k
        by_cases hg : groupOf k = groupOf (lineBank l)
        · simpa [hg, turnaroundSame, turnaroundOther] using this
        · simpa [hg, Ne.symm hg, turnaroundSame, turnaroundOther] using this

theorem freeFor_iff {h : Holder} {l : LineId} : s.lineFree h l = true ↔ FreeFor s h l := by
  refine ⟨lineFree_apply, fun hf => ?_⟩
  simp only [State.lineFree, State.heldByOther, State.noMergeBut, Bool.and_eq_true, Bool.not_eq_true',
    List.any_eq_false, decide_eq_true_eq, not_and, Bool.and_eq_true]
  exact ⟨fun e he hl hn => hn (hf.1 e he hl), fun q hq hn hm => hn (hf.2 q hq hm)⟩

theorem unclaimed_iff {l : LineId} : s.lineUnclaimed l = true ↔ Unclaimed s l := by
  refine ⟨lineUnclaimed_apply, fun hf => ?_⟩
  simp only [State.lineUnclaimed, State.held, Bool.and_eq_true, Bool.not_eq_true', List.any_eq_false, decide_eq_true_eq]
  exact ⟨hf.1, fun q hq => by simpa using hf.2 q hq⟩

theorem holdGiven_iff {h : Holder} {l : LineId} : s.holdMayBeGiven h l = true ↔ HoldGiven s h l := by
  simp only [State.holdMayBeGiven, State.holdFree, State.held, State.accessPending, Bool.and_eq_true, decide_eq_true_eq,
    Bool.not_eq_true', List.any_eq_false, Option.isNone_iff_eq_none, not_and, Config.holdEntries]
  constructor
  · rintro ⟨⟨⟨hl, hu⟩, ht⟩, hp⟩
    exact ⟨of_decide_eq_true hl, hu, fun q hq hn => by simpa using ht q hq hn, hp⟩
  · intro hg
    exact ⟨⟨⟨decide_eq_true hg.room, hg.unheld⟩, fun q hq hn => by simpa using hg.untouched q hq hn⟩, hg.phase⟩

theorem refreshable_iff {k : GroupId} : s.refreshLegal k = true ↔ Refreshable s k := by
  simp only [State.refreshLegal, groupAll_iff, decide_eq_true_eq, Refreshable]

theorem allBanksIn_iff {x : BankState} : s.allBanksIn x = true ↔ ∀ b, (s.bank b).state = x := by
  refine ⟨allBanksIn_apply, fun h => List.all_eq_true.mpr fun b _ => by simpa using h b⟩

theorem forced_iff {m : CloseMarks} : m.forced = true ↔ Forced m := by
  simp only [CloseMarks.forced, Forced, Bool.or_eq_true, or_assoc]

theorem isEmpty_iff {m : CloseMarks} : m.isEmpty = true ↔ m = ⟨false, false, false, false⟩ := by
  cases m; simp [CloseMarks.isEmpty, and_assoc]

theorem isAtomic_iff {o : ReqOp} : o.isAtomic = true ↔ Atomic o := by
  cases o <;> simp [ReqOp.isAtomic, Atomic]

theorem readsFirst_iff {o : ReqOp} : o.readsFirst = true ↔ ReadsFirst o := by
  cases o <;> simp [ReqOp.readsFirst, ReadsFirst, Atomic, ReqOp.maskPartly]

theorem allBanks_rise : allBanks.Pairwise (· < ·) := List.pairwise_lt_finRange 16

theorem lowest_of_find {f : BankId → Bool} {P : BankId → Prop} (hP : ∀ b, f b = true ↔ P b) {b : BankId}
    (h : allBanks.find? f = some b) : LowestBank P b := by
  obtain ⟨hf, as, bs, ea, hn⟩ := List.find?_eq_some_iff_append.mp h
  refine ⟨(hP b).mp hf, fun k hk => ?_⟩
  have hka := mem_allBanks k
  have hp := allBanks_rise
  rw [ea] at hka hp
  rcases List.mem_append.mp hka with hka | hka
  · have := hn k hka
    rw [← hP]
    simpa using this
  · exfalso
    rcases List.mem_cons.mp hka with rfl | hka
    · exact lt_irrefl _ hk
    · exact absurd ((List.pairwise_cons.mp (List.pairwise_append.mp hp).2.1).1 k hka) (not_lt_of_gt hk)

theorem closeOf_some {f : BankId → Bool} {P : BankId → Prop} (hP : ∀ b, (f b && s.closeLegal b) = true ↔ P b)
    (h : s.closeOf f = some g) : ∃ b, g = ⟨.close b, .upkeep⟩ ∧ LowestBank P b := by
  unfold State.closeOf at h
  obtain ⟨b, hb, rfl⟩ := Option.map_eq_some_iff.mp h
  exact ⟨b, rfl, lowest_of_find hP hb⟩

theorem closeOf_none {f : BankId → Bool} {P : BankId → Prop} (hP : ∀ b, (f b && s.closeLegal b) = true ↔ P b)
    (h : s.closeOf f = none) (b : BankId) : ¬ P b := by
  unfold State.closeOf at h
  rw [Option.map_eq_none_iff, List.find?_eq_none] at h
  rw [← hP]
  exact h b (mem_allBanks b)

theorem or_none {α : Type} {a b : Option α} (h : a.or b = none) : a = none ∧ b = none := by
  cases a with
  | none => exact ⟨rfl, by simpa using h⟩
  | some x => exact absurd h (by simp)

/-! ## The classes -/

/-- A class and its candidates: what it offers is one, and where it offers nothing there is none. -/
structure Offers (s : State) (n : Nat) (o : Option Grant) : Prop where
  some : ∀ g, o = some g → Candidate s n g
  none : o = none → ∀ g, ¬ Candidate s n g

theorem forcedClose_iff {b : BankId} :
    (((s.bank b).resetClose || ((s.bank b).marks.forced && !s.activeOn b)) && s.closeLegal b) = true ↔ ForcedClose s b := by
  rw [Bool.and_eq_true, Bool.or_eq_true, Bool.and_eq_true, Bool.not_eq_true', closable_iff, forced_iff, noActive_iff, ForcedClose]
  tauto

theorem quietCommand_some (h : s.quietOffer = some g) : ∃ c, g = ⟨c, .upkeep⟩ ∧ QuietCommand s c := by
  unfold State.quietOffer at h
  split at h
  · rename_i hp
    split at h
    · obtain ⟨x, hx, rfl⟩ := Option.map_eq_some_iff.mp h
      exact ⟨_, rfl, .refresh x hp (highestDebt_top (fun k => by
        simp only [Bool.and_eq_true, decide_eq_true_eq, refreshable_iff]) hx)⟩
    · rename_i hd
      split at h
      · rename_i hb
        simp only [Option.some.injEq] at h
        subst h
        refine ⟨_, rfl, .retain hp (fun x => ?_) (allBanksIn_apply hb)⟩
        by_contra hx
        exact hd (List.any_eq_true.mpr ⟨x, mem_allGroups x, by simpa using hx⟩)
      · exact absurd h (by simp)
  · rename_i hp
    split at h
    · rename_i hb
      simp only [Option.some.injEq] at h
      subst h
      simp only [Bool.and_eq_true, Option.isNone_iff_eq_none] at hb
      exact ⟨_, rfl, .resume hp hb.1 (allBanksIn_apply hb.2)⟩
    · exact absurd h (by simp)
  · exact absurd h (by simp)
  · exact absurd h (by simp)
  · exact absurd h (by simp)

theorem quietCommand_none (h : s.quietOffer = none) (c : ArrayCmd) : ¬ QuietCommand s c := by
  unfold State.quietOffer at h
  rintro (⟨k, he, ht⟩ | ⟨he, hd, hb⟩ | ⟨hw, ht, hb⟩)
  · rw [he] at h
    dsimp only at h
    rw [if_pos (List.any_eq_true.mpr ⟨k, mem_allGroups k, by simpa using ht.holds.1⟩)] at h
    have := highestDebt_none (Option.map_eq_none_iff.mp h) k
    simp [refreshable_iff.mpr ht.holds.2, ht.holds.1] at this
  · rw [he] at h
    dsimp only at h
    rw [if_neg (by
      simp only [List.any_eq_true, decide_eq_true_eq, not_exists, not_and]
      intro k _
      have := hd k
      omega), if_pos (allBanksIn_iff.mpr hb)] at h
    exact absurd h (by simp)
  · rw [hw] at h
    dsimp only at h
    rw [if_pos (by rw [ht, allBanksIn_iff.mpr hb]; rfl)] at h
    exact absurd h (by simp)

theorem offers_class1 : Offers s 1 s.class1 where
  some g h := by
    unfold State.class1 at h
    cases hc : s.closeOf (fun b => (s.bank b).resetClose || ((s.bank b).marks.forced && !s.activeOn b)) with
    | some x =>
      rw [hc] at h
      simp only [Option.some_or, Option.some.injEq] at h
      subst h
      obtain ⟨b, rfl, hb⟩ := closeOf_some (fun b => forcedClose_iff) hc
      exact .forced b hb
    | none =>
      rw [hc, Option.none_or] at h
      obtain ⟨c, rfl, hq⟩ := quietCommand_some h
      exact .quiet c (closeOf_none (fun b => forcedClose_iff) hc) hq
  none h g hg := by
    obtain ⟨hc, hq⟩ := or_none h
    rcases hg with ⟨b, hb⟩ | ⟨c, _, hc'⟩
    · exact closeOf_none (fun b => forcedClose_iff) hc b hb.holds
    · exact quietCommand_none hq _ hc'

theorem urgent_iff {k : GroupId} :
    (s.urgent k && s.refreshLegal k) = true ↔ s.refresh.debt.get k = 8 ∧ Refreshable s k := by
  rw [Bool.and_eq_true, refreshable_iff, State.urgent, decide_eq_true_eq]

theorem offers_class2 : Offers s 2 s.class2 where
  some g h := by
    obtain ⟨x, hx, rfl⟩ := Option.map_eq_some_iff.mp h
    have hm := urgent_iff.mp (List.mem_filter.mp (pick_mem hx)).2
    refine .urgent x hm.1 hm.2 fun k hk hr => ?_
    have hmem : k ∈ allGroups.filter (fun g => s.urgent g && s.refreshLegal g) :=
      List.mem_filter.mpr ⟨mem_allGroups k, urgent_iff.mpr ⟨hk, hr⟩⟩
    have h1 := pick_best urgentOrder hx k hmem
    have h2 := pick_first (allGroups_rise.filter _) hx k hmem
    simp only [decide_eq_false_iff_not, decide_eq_true_eq] at h1 h2
    rcases h2 with h2 | h2
    · exact Or.inl h2
    · rcases Nat.lt_trichotomy ((s.refresh.urgentAt.get x).getD 0) ((s.refresh.urgentAt.get k).getD 0) with h3 | h3 | h3
      · exact Or.inl h3
      · exact Or.inr ⟨h3, h2⟩
      · exact absurd h3 h1
  none h g hg := by
    have := pick_none.mp (Option.map_eq_none_iff.mp h)
    rcases hg with _ | _ | ⟨k, hd, hr, _⟩
    have hm : k ∈ allGroups.filter (fun g => s.urgent g && s.refreshLegal g) :=
      List.mem_filter.mpr ⟨mem_allGroups k, urgent_iff.mpr ⟨hd, hr⟩⟩
    rw [this] at hm
    exact absurd hm (by simp)

/-- The copy access or CLOSE of a job's open bank. -/
theorem copyOffer_some {b : BankId} {n : Nat} {row : RowId} {isRead : Bool} (h : s.copyOffer b n row isRead = some g) :
    ¬ Forced (s.bank b).marks ∧ (s.bank b).resetClose = false ∧
      ((∃ i : LineIx, i.val = n ∧ Accessible s (mkLine row b i) isRead ∧ Unclaimed s (mkLine row b i) ∧
          g = ⟨if isRead then .readLine b i else .writeLine b i, .repair⟩) ∨
        32 ≤ n ∧ Closable s b ∧ g = ⟨.close b, .repair⟩) := by
  unfold State.copyOffer at h
  split at h
  · exact absurd h (by simp)
  · rename_i hm
    simp only [Bool.or_eq_true, not_or, Bool.not_eq_true] at hm
    refine ⟨by rw [← forced_iff, hm.1]; simp, hm.2, ?_⟩
    split at h
    · rename_i hn
      split at h
      · rename_i ha
        simp only [Bool.and_eq_true, accessible_iff, unclaimed_iff] at ha
        simp only [Option.some.injEq] at h
        exact Or.inl ⟨copyLine n, Nat.mod_eq_of_lt hn, ha.1, ha.2, h.symm⟩
      · exact absurd h (by simp)
    · rename_i hn
      split at h
      · rename_i hc
        simp only [Option.some.injEq] at h
        exact Or.inr ⟨by omega, closable_iff.mp hc, h.symm⟩
      · exact absurd h (by simp)

theorem copyOffer_none {b : BankId} {n : Nat} {row : RowId} {isRead : Bool} (h : s.copyOffer b n row isRead = none)
    (hm : ¬ Forced (s.bank b).marks) (hr : (s.bank b).resetClose = false) :
    (∀ i : LineIx, i.val = n → Accessible s (mkLine row b i) isRead → ¬ Unclaimed s (mkLine row b i)) ∧
      (32 ≤ n → ¬ Closable s b) := by
  unfold State.copyOffer at h
  rw [if_neg (by rw [hr, Bool.or_false, forced_iff]; exact hm)] at h
  refine ⟨fun i hi ha hu => ?_, fun hn hc => ?_⟩
  · have hn : n < 32 := hi ▸ i.isLt
    have e : copyLine n = i := Fin.ext (by rw [← hi]; exact Nat.mod_eq_of_lt i.isLt)
    rw [if_pos hn, e, if_pos (by rw [accessible_iff.mpr ha, unclaimed_iff.mpr hu]; rfl)] at h
    exact absurd h (by simp)
  · rw [if_neg (by omega), if_pos (closable_iff.mpr hc)] at h
    exact absurd h (by simp)

theorem jobCommand_some {c : CurrentJob} (h : s.jobOffer c = some g) : ∃ d, g = ⟨d, .repair⟩ ∧ JobCommand s c d := by
  unfold State.jobOffer at h
  dsimp only at h
  split at h
  · rename_i hp _
    split at h
    · rename_i hc
      simp only [Bool.and_eq_true, Bool.not_eq_true', noActive_iff, closable_iff] at hc
      simp only [Option.some.injEq] at h
      exact ⟨_, h.symm, .leave hp hc.1.1 hc.1.2 hc.2⟩
    · exact absurd h (by simp)
  · rename_i hp hb
    split at h
    · rename_i hl
      split at h
      · rename_i ho
        simp only [Option.some.injEq] at h
        exact ⟨_, h.symm, .openOut _ hp hb hl (repairOpenable_iff.mp ho).2 (opensAs_iff.mpr rfl)⟩
      · exact absurd h (by simp)
    · rename_i hl
      simp only [Option.some.injEq] at h
      exact ⟨_, h.symm, .program hp hb (by omega)⟩
  · rename_i hp _
    obtain ⟨hm, hr, ⟨i, hi, ha, hu, rfl⟩ | ⟨hl, hc, rfl⟩⟩ := copyOffer_some h
    · exact ⟨_, rfl, .read i hp hm hi ha hu⟩
    · exact ⟨_, rfl, .closeOut hp hm hr hl hc⟩
  · rename_i hp hb
    split at h
    · rename_i ho
      simp only [Option.some.injEq] at h
      exact ⟨_, h.symm, .openIn hp hb (repairOpenable_iff.mp ho).2⟩
    · exact absurd h (by simp)
  · rename_i hp _
    obtain ⟨hm, hr, ⟨i, hi, ha, hu, rfl⟩ | ⟨hl, hc, rfl⟩⟩ := copyOffer_some h
    · exact ⟨_, rfl, .write i hp hm hi ha hu⟩
    · exact ⟨_, rfl, .closeIn hp hm hr hl hc⟩
  · exact absurd h (by simp)

theorem jobCommand_none {c : CurrentJob} (h : s.jobOffer c = none) (d : ArrayCmd) : ¬ JobCommand s c d := by
  unfold State.jobOffer at h
  dsimp only at h
  rintro (⟨hp, hm, ha, hc⟩ | ⟨_, hp, hb, hl, ht, ho⟩ | ⟨i, hp, hm, hi, ha, hu⟩ | ⟨hp, hm, hr, hl, hc⟩ | ⟨hp, hb, hl⟩ |
    ⟨hp, hb, ht⟩ | ⟨i, hp, hm, hi, ha, hu⟩ | ⟨hp, hm, hr, hl, hc⟩)
  · simp only [hp, hc.opened] at h
    rw [if_pos (by rw [hm, noActive_iff.mpr ha, closable_iff.mpr hc]; rfl)] at h
    exact absurd h (by simp)
  · simp only [hp, hb] at h
    rw [if_pos hl, if_pos (repairOpenable_iff.mpr ⟨hb, ht⟩)] at h
    exact absurd h (by simp)
  · have hb := ha.opened
    have hr := ha.reset
    rw [lineBank_mkLine] at hb hr
    simp only [hp, hb] at h
    exact (copyOffer_none h hm hr).1 i hi ha hu
  · simp only [hp, hc.opened] at h
    exact (copyOffer_none h hm hr).2 hl hc
  · simp only [hp, hb] at h
    rw [if_neg (by omega)] at h
    exact absurd h (by simp)
  · simp only [hp, hb] at h
    rw [if_pos (repairOpenable_iff.mpr ⟨hb, ht⟩)] at h
    exact absurd h (by simp)
  · have hb := ha.opened
    have hr := ha.reset
    rw [lineBank_mkLine] at hb hr
    simp only [hp, hb] at h
    exact (copyOffer_none h hm hr).1 i hi ha hu
  · simp only [hp, hc.opened] at h
    exact (copyOffer_none h hm hr).2 hl hc

theorem offers_class3 : Offers s 3 s.class3 where
  some g h := by
    unfold State.class3 at h
    split at h
    · rename_i c hc
      obtain ⟨d, rfl, hd⟩ := jobCommand_some h
      exact .job c d hc hd
    · exact absurd h (by simp)
  none h g hg := by
    rcases hg with _ | _ | _ | ⟨c, d, hc, hd⟩
    unfold State.class3 at h
    rw [hc] at h
    exact jobCommand_none h d hd

theorem nextLine_iff {r : Record} {isRead : Bool} {l : LineId} :
    r.nextAccess = some (isRead, l) ↔ NextLine r isRead l := by
  constructor
  · intro h
    unfold Record.nextAccess at h
    split at h
    · exact absurd h (by simp)
    · rename_i a n hs
      split at h
      · rename_i hst
        simp only [Option.some.injEq, Prod.mk.injEq] at h
        obtain ⟨rfl, rfl⟩ := h
        exact .first a n _ hst hs readsFirst_iff
      · rename_i hst
        split at h
        · rename_i x m ho
          rw [ho, ReqOp.span, Option.some.injEq, Prod.mk.injEq] at hs
          obtain ⟨rfl, rfl⟩ := hs
          split at h
          · rename_i hn
            simp only [Option.some.injEq, Prod.mk.injEq] at h
            obtain ⟨rfl, rfl⟩ := h
            exact .read x m _ hst ho hn rfl
          · exact absurd h (by simp)
        · rename_i x m d ho
          rw [ho, ReqOp.span, Option.some.injEq, Prod.mk.injEq] at hs
          obtain ⟨rfl, rfl⟩ := hs
          split at h
          · rename_i hn
            simp only [Option.some.injEq, Prod.mk.injEq] at h
            obtain ⟨rfl, rfl⟩ := h
            exact .write x m d _ hst ho hn rfl
          · exact absurd h (by simp)
        all_goals first
          | (cases h; done)
          | (rename_i ho
             cases h
             refine .second _ _ hst hs ?_
             rw [ho]
             simp [Atomic])
      · exact absurd h (by simp)
      · exact absurd h (by simp)
  · rintro (⟨a, n, _, hs, hp, hr⟩ | ⟨a, n, _, hs, ho, hn, hl⟩ | ⟨a, n, d, _, hs, ho, hn, hl⟩ | ⟨a, n, hs, hp, ho⟩)
    · unfold Record.nextAccess
      rw [hp]
      simp only [hs, Option.some.injEq, Prod.mk.injEq, and_true]
      rw [Bool.eq_iff_iff, readsFirst_iff, hr]
    · unfold Record.nextAccess
      simp only [ho, ReqOp.span, hs, if_pos hn, Option.some.injEq, Prod.mk.injEq, true_and]
      exact Fin.ext hl.symm
    · unfold Record.nextAccess
      simp only [ho, ReqOp.span, hs, if_pos hn, Option.some.injEq, Prod.mk.injEq, true_and]
      exact Fin.ext hl.symm
    · unfold Record.nextAccess
      rw [hp]
      simp only [hs]
      rcases ho with (⟨x, y, ho⟩ | ⟨x, y, ho⟩ | ⟨x, y, z, ho⟩) | ⟨x, y, z, ho⟩ <;> simp [ho]

theorem recordOffer_iff {r : Record} {c : ArrayCmd} :
    s.accessOffer r = some ⟨c, .request r⟩ ↔ RecordOffer s r c := by
  unfold State.accessOffer RecordOffer
  constructor
  · intro h
    split at h
    · exact absurd h (by simp)
    · rename_i isRead l hn
      split at h
      · rename_i ha
        simp only [Bool.and_eq_true, accessible_iff, freeFor_iff] at ha
        simp only [Option.some.injEq, Grant.mk.injEq, and_true] at h
        exact ⟨isRead, l, nextLine_iff.mp hn, ha.1, ha.2, h.symm⟩
      · exact absurd h (by simp)
  · rintro ⟨isRead, l, hn, ha, hf, rfl⟩
    rw [nextLine_iff.mpr hn]
    dsimp only
    rw [if_pos (by rw [accessible_iff.mpr ha, freeFor_iff.mpr hf]; rfl)]
    rfl

/-- What a record offers is for it. -/
theorem accessOffer_for {r : Record} (h : s.accessOffer r = some g) : g = ⟨g.cmd, .request r⟩ := by
  unfold State.accessOffer at h
  split at h
  · exact absurd h (by simp)
  · split at h
    · simp only [Option.some.injEq] at h; rw [← h]
    · exact absurd h (by simp)

theorem recordOffer_of {r : Record} (h : s.accessOffer r = some g) : RecordOffer s r g.cmd :=
  recordOffer_iff.mp (accessOffer_for h ▸ h)

theorem offers_class4 : Offers s 4 s.class4 where
  some g h := by
    obtain ⟨r, hr, ho, hb⟩ := firstOffer_best stampOrder h
    obtain ⟨hm, ha⟩ := List.mem_filter.mp hr
    rw [accessOffer_for ho]
    refine .active r g.cmd hm (by simpa [Record.isActive] using ha) (recordOffer_of ho) fun q hq hqa d hd => ?_
    have := hb q (List.mem_filter.mpr ⟨hq, by simpa [Record.isActive] using hqa⟩) (by rw [recordOffer_iff.mpr hd]; rfl)
    simpa using this
  none h g hg := by
    rcases hg with _ | _ | _ | _ | ⟨r, c, hr, ha, ho, _⟩
    have := firstOffer_none h r (List.mem_filter.mpr ⟨hr, by simpa [Record.isActive] using ha⟩)
    rw [recordOffer_iff.mpr ho] at this
    exact absurd this (by simp)

theorem barred_iff {r : Record} {b : BankId} {row : RowId} : s.barred r b row = true ↔ Barred s r b row := by
  simp only [State.barred, Barred, List.any_eq_true, Bool.and_eq_true, Bool.or_eq_true, decide_eq_true_eq, Record.isReady,
    Bool.not_eq_true', onBank_iff]
  constructor
  · rintro ⟨q, hq, ⟨⟨⟨hr, hs⟩, a, n, hp, hb⟩, hn⟩, hc⟩
    refine ⟨q, hq, hr, hs, hc, a, n, hp, hb, fun e => ?_⟩
    rw [onRow_iff.mpr ⟨a, n, hp, hb, e⟩] at hn
    exact Bool.noConfusion hn
  · rintro ⟨q, hq, hr, hs, hc, a, n, hp, hb, hne⟩
    refine ⟨q, hq, ⟨⟨⟨hr, hs⟩, a, n, hp, hb⟩, ?_⟩, hc⟩
    by_contra hon
    obtain ⟨a', n', hp', _, he⟩ := onRow_iff.mp (Bool.not_eq_false _ ▸ hon)
    rw [hp, Option.some.injEq, Prod.mk.injEq] at hp'
    exact hne (hp'.1 ▸ he)

theorem hitOffer_iff {r : Record} (hr : r.state = .ready) :
    (s.hitOffer r = some g ↔ ∃ c, g = ⟨c, .request r⟩ ∧ HitOffer s r c) := by
  unfold State.hitOffer
  constructor
  · intro h
    split at h
    · exact absurd h (by simp)
    · rename_i l n hs
      dsimp only at h
      split at h
      · rename_i hc
        simp only [Bool.and_eq_true, Bool.not_eq_true', Bool.or_eq_true, isEmpty_iff, holdGiven_iff] at hc
        refine ⟨g.cmd, accessOffer_for h, hr, recordOffer_of h, l, n, hs, hc.1.1, ?_, fun ha => ?_⟩
        · rw [← barred_iff, hc.1.2]; simp
        · refine hc.2.resolve_left ?_
          rw [isAtomic_iff.mpr ha]; simp
      · exact absurd h (by simp)
  · rintro ⟨c, rfl, _, ho, l, n, hs, hm, hb, hh⟩
    rw [hs]
    dsimp only
    rw [if_pos ?_, recordOffer_iff.mpr ho]
    rw [← barred_iff, Bool.not_eq_true] at hb
    rw [isEmpty_iff.mpr hm, hb]
    cases ha : r.op.isAtomic with
    | false => rfl
    | true => rw [holdGiven_iff.mpr (hh (isAtomic_iff.mp ha))]; rfl

theorem nextLine_usesLines {r : Record} {isRead : Bool} {l : LineId} (h : NextLine r isRead l) : r.op.usesLines = true := by
  rcases h with ⟨a, n, _, hs, hp, hr⟩ | ⟨a, n, _, hs, ho, hn, hl⟩ | ⟨a, n, d, _, hs, ho, hn, hl⟩ | ⟨a, n, hs, hp, ho⟩
  · simp [ReqOp.usesLines, hp]
  · simp [ReqOp.usesLines, ho, ReqOp.span]
  · simp [ReqOp.usesLines, ho, ReqOp.span]
  · simp [ReqOp.usesLines, hp]

theorem mem_readyRecords {r : Record} (hm : r ∈ s.records) (hr : r.state = .ready) (hl : r.op.usesLines = true) :
    r ∈ s.readyRecords := List.mem_filter.mpr ⟨hm, by simp [Record.isReady, hr, hl]⟩

theorem offers_class5 : Offers s 5 s.class5 where
  some g h := by
    obtain ⟨r, hr, ho, hb⟩ := firstOffer_best rankOrder h
    obtain ⟨hm, hrd⟩ := readyRecords_mem hr
    obtain ⟨c, rfl, hh⟩ := (hitOffer_iff (by simpa [Record.isReady] using hrd)).mp ho
    refine .hit r c hm hh fun q hq d hd => ?_
    obtain ⟨_, _, hn, _⟩ := hd.offer
    have := hb q (mem_readyRecords hq hd.ready (nextLine_usesLines hn)) (by rw [(hitOffer_iff hd.ready).mpr ⟨d, rfl, hd⟩]; rfl)
    rw [← ranksBefore_iff, this]
    simp
  none h g hg := by
    rcases hg with _ | _ | _ | _ | _ | ⟨r, c, hr, hh, _⟩
    obtain ⟨_, _, hn, _⟩ := hh.offer
    have := firstOffer_none h r (mem_readyRecords hr hh.ready (nextLine_usesLines hn))
    rw [(hitOffer_iff hh.ready).mpr ⟨c, rfl, hh⟩] at this
    exact absurd this (by simp)

theorem rowOffer_iff {r : Record} (hr : r.state = .ready) :
    (s.rowOffer r = some g ↔ ∃ c, g = ⟨c, .upkeep⟩ ∧ RowOffer s r c) := by
  unfold State.rowOffer
  constructor
  · intro h
    split at h
    · exact absurd h (by simp)
    · rename_i l n hs
      dsimp only at h
      split at h
      · rename_i ho
        simp only [Option.some.injEq] at h
        exact ⟨_, h.symm, .opens l n _ hr hs (openable_iff.mp ho) (opensAs_iff.mpr rfl)⟩
      · split at h
        · exact absurd h (by simp)
        · rename_i row hrow
          split at h
          · rename_i hc
            simp only [Bool.and_eq_true, decide_eq_true_eq, Bool.not_eq_true', Option.isNone_iff_eq_none, noActive_iff,
              Bool.or_eq_true, closable_iff, readyFor_not] at hc
            simp only [Option.some.injEq] at h
            refine ⟨_, h.symm, .closes l n row hr hs hc.2 hrow hc.1.1.1.1 hc.1.1.1.2 hc.1.1.2 ?_⟩
            exact or_assoc.mp hc.1.2
          · exact absurd h (by simp)
  · rintro ⟨c, rfl, ⟨l, n, _, _, hs, ho, hc⟩ | ⟨l, n, row, _, hs, hc, hrow, hne, hph, ha, hw⟩⟩
    · rw [hs]
      dsimp only
      rw [if_pos (openable_iff.mpr ho), opensAs_iff.mp hc]
      rfl
    · rw [hs]
      dsimp only
      rw [if_neg (by
        rw [openable_iff]
        intro ho
        have := ho.closed
        rw [hc.opened] at this
        exact BankState.noConfusion this), hrow]
      dsimp only
      rw [if_pos]
      · rfl
      · simp only [Bool.and_eq_true, decide_eq_true_eq, Bool.not_eq_true', Option.isNone_iff_eq_none, noActive_iff,
          Bool.or_eq_true, closable_iff, readyFor_not]
        exact ⟨⟨⟨⟨hne, hph⟩, ha⟩, or_assoc.mpr hw⟩, hc⟩

theorem rowOffer_ready {r : Record} {c : ArrayCmd} (h : RowOffer s r c) : r.state = .ready ∧ r.op.usesLines = true := by
  rcases h with ⟨l, n, _, hr, hs, _, _⟩ | ⟨l, n, row, hr, hs, _, _, _, _, _, _⟩ <;> exact ⟨hr, by simp [ReqOp.usesLines, hs]⟩

theorem offers_class6 : Offers s 6 s.class6 where
  some g h := by
    obtain ⟨r, hr, ho, hb⟩ := firstOffer_best rankOrder h
    obtain ⟨hm, hrd⟩ := readyRecords_mem hr
    obtain ⟨c, rfl, hh⟩ := (rowOffer_iff (by simpa [Record.isReady] using hrd)).mp ho
    refine .row r c hm hh fun q hq d hd => ?_
    have hqr := rowOffer_ready hd
    have := hb q (mem_readyRecords hq hqr.1 hqr.2) (by rw [(rowOffer_iff hqr.1).mpr ⟨d, rfl, hd⟩]; rfl)
    rw [← ranksBefore_iff, this]
    simp
  none h g hg := by
    rcases hg with _ | _ | _ | _ | _ | _ | ⟨r, c, hr, hh, _⟩
    have hqr := rowOffer_ready hh
    have := firstOffer_none h r (mem_readyRecords hr hqr.1 hqr.2)
    rw [(rowOffer_iff hqr.1).mpr ⟨c, rfl, hh⟩] at this
    exact absurd this (by simp)

theorem dueClose_iff {k : GroupId} {b : BankId} :
    ((decide (groupOf b = k) && (s.repairPhase b).isNone && !s.activeOn b &&
      match (s.bank b).openRow with
      | some row => !s.rowReady b row
      | none => false) && s.closeLegal b) = true ↔ DueClose s k b := by
  rw [Bool.and_eq_true, Bool.and_eq_true, Bool.and_eq_true, Bool.and_eq_true, decide_eq_true_eq, Option.isNone_iff_eq_none,
    Bool.not_eq_true', noActive_iff, closable_iff]
  constructor
  · rintro ⟨⟨⟨⟨hg, hp⟩, ha⟩, hr⟩, hc⟩
    refine ⟨hg, hp, ha, ?_, hc⟩
    cases ho : (s.bank b).openRow with
    | none => rw [ho] at hr; exact absurd hr (by simp)
    | some row => rw [ho] at hr; exact ⟨row, rfl, readyFor_not.mp (by simpa using hr)⟩
  · intro h
    obtain ⟨row, ho, hr⟩ := h.row
    refine ⟨⟨⟨⟨h.group, h.phase⟩, h.active⟩, ?_⟩, h.legal⟩
    rw [ho]
    simpa using readyFor_not.mpr hr

theorem dueCommand_iff {k : GroupId} {c : ArrayCmd} : s.dueOffer k = some ⟨c, .upkeep⟩ ↔ DueCommand s k c := by
  unfold State.dueOffer
  constructor
  · intro h
    rcases or_some h with h | h
    · obtain ⟨b, e, hb⟩ := closeOf_some (fun b => dueClose_iff) h
      injection e with e1 e2
      rw [e1]
      exact .close b hb
    · split at h
      · rename_i hr
        simp only [upkeep, Option.some.injEq, Grant.mk.injEq, and_true] at h
        subst h
        exact .refresh (refreshable_iff.mp hr)
      · exact absurd h (by simp)
  · intro h
    cases hc : s.closeOf (fun b => decide (groupOf b = k) && (s.repairPhase b).isNone && !s.activeOn b &&
      match (s.bank b).openRow with
      | some row => !s.rowReady b row
      | none => false) with
    | some x =>
      obtain ⟨b, rfl, hb⟩ := closeOf_some (fun b => dueClose_iff) hc
      rcases h with ⟨b', hb'⟩ | hr
      · have : b = b' := by
          rcases lt_trichotomy b b' with hlt | he | hlt
          · exact absurd hb.holds (hb'.low b hlt)
          · exact he
          · exact absurd hb'.holds (hb.low b' hlt)
        rw [this]; rfl
      · exfalso
        have h1 := hr b hb.holds.group
        rw [hb.holds.legal.opened] at h1
        rcases h1 with h1 | h1 <;> exact BankState.noConfusion h1
    | none =>
      rcases h with ⟨b', hb'⟩ | hr
      · exact absurd hb'.holds (closeOf_none (fun b => dueClose_iff) hc b')
      · rw [Option.none_or, if_pos (refreshable_iff.mpr hr)]; rfl

theorem dueOffer_upkeep {k : GroupId} (h : s.dueOffer k = some g) : g = ⟨g.cmd, .upkeep⟩ := by
  rcases or_some h with h | h
  · obtain ⟨b, e, _⟩ := closeOf_some (fun b => dueClose_iff) h
    rw [e]
  · split at h
    · simp only [upkeep, Option.some.injEq] at h; rw [← h]
    · exact absurd h (by simp)

theorem dueGroup_iff {k : GroupId} :
    (decide (4 ≤ s.refresh.debt.get k ∧ s.refresh.debt.get k ≤ 7) && (s.dueOffer k).isSome) = true ↔
      4 ≤ s.refresh.debt.get k ∧ s.refresh.debt.get k ≤ 7 ∧ ∃ d, DueCommand s k d := by
  rw [Bool.and_eq_true, decide_eq_true_eq, and_assoc]
  refine and_congr_right fun _ => and_congr_right fun _ => ⟨fun h => ?_, fun ⟨d, hd⟩ => ?_⟩
  · obtain ⟨x, hx⟩ := Option.isSome_iff_exists.mp h
    exact ⟨x.cmd, dueCommand_iff.mp (dueOffer_upkeep hx ▸ hx)⟩
  · rw [dueCommand_iff.mpr hd]; rfl

theorem offers_class7 : Offers s 7 s.class7 where
  some g h := by
    unfold State.class7 at h
    split at h
    · rename_i k hk
      rw [dueOffer_upkeep h]
      exact .due k _ (highestDebt_top (fun k => dueGroup_iff) hk) (dueCommand_iff.mp (dueOffer_upkeep h ▸ h))
    · exact absurd h (by simp)
  none h g hg := by
    rcases hg with _ | _ | _ | _ | _ | _ | _ | ⟨k, c, ht, hc⟩
    unfold State.class7 at h
    split at h
    · rename_i k' hk'
      have := highestDebt_apply hk'
      rw [Bool.and_eq_true, h] at this
      exact absurd this.2 (by simp)
    · rename_i hn
      have := highestDebt_none hn k
      rw [dueGroup_iff.mpr ht.holds] at this
      exact Bool.noConfusion this

theorem groupWanted_iff {k : GroupId} : s.groupWanted k = false ↔
    ∀ r ∈ s.records, r.state = .ready ∨ r.state = .active → ∀ a n, r.op.span = some (a, n) → groupOf (lineBank a) ≠ k := by
  simp only [State.groupWanted, List.any_eq_false, Bool.and_eq_true, Bool.or_eq_true, Record.isReady, Record.isActive,
    decide_eq_true_eq, not_and, List.any_eq_true, not_exists, onBank_iff]
  constructor
  · intro h r hr hs a n hp he
    exact h r hr hs (lineBank a) (mem_allBanks _) he a n hp rfl
  · rintro h r hr hs b _ he a n hp rfl
    exact h r hr hs a n hp he

theorem idleGroup_iff {k : GroupId} :
    (decide (1 ≤ s.refresh.debt.get k ∧ s.refresh.debt.get k ≤ 3) && !s.groupWanted k && s.refreshLegal k) = true ↔
      IdleGroup s k := by
  rw [Bool.and_eq_true, Bool.and_eq_true, decide_eq_true_eq, Bool.not_eq_true', groupWanted_iff, refreshable_iff]
  exact ⟨fun h => ⟨h.1.1, h.1.2, h.2⟩, fun h => ⟨⟨h.debt, h.unwanted⟩, h.legal⟩⟩

theorem noRecords_iff : s.noRecords = true ↔ s.records = [] := by
  simp only [State.noRecords, State.records, Bool.and_eq_true, List.isEmpty_iff, List.append_eq_nil_iff]

theorem pullGroup_iff {k : GroupId} :
    (decide (-8 < s.refresh.debt.get k ∧ s.refresh.debt.get k ≤ 0) && s.refreshLegal k) = true ↔
      -8 < s.refresh.debt.get k ∧ s.refresh.debt.get k ≤ 0 ∧ Refreshable s k := by
  rw [Bool.and_eq_true, decide_eq_true_eq, refreshable_iff, and_assoc]

theorem offers_class8 : Offers s 8 s.class8 where
  some g h := by
    unfold State.class8 at h
    cases hi : refreshGrant (s.highestDebt (fun g =>
      decide (1 ≤ s.refresh.debt.get g ∧ s.refresh.debt.get g ≤ 3) && !s.groupWanted g && s.refreshLegal g)) with
    | some x =>
      rw [hi, Option.some_or, Option.some.injEq] at h
      subst h
      obtain ⟨k, hk, rfl⟩ := Option.map_eq_some_iff.mp hi
      exact .idle k (highestDebt_top (fun k => idleGroup_iff) hk)
    | none =>
      rw [hi, Option.none_or] at h
      split at h
      · rename_i hr
        obtain ⟨k, hk, rfl⟩ := Option.map_eq_some_iff.mp h
        refine .pullIn k (fun j hj => ?_) (noRecords_iff.mp hr) (highestDebt_top (fun k => pullGroup_iff) hk)
        have := highestDebt_none (Option.map_eq_none_iff.mp hi) j
        rw [idleGroup_iff.mpr hj] at this
        exact Bool.noConfusion this
      · exact absurd h (by simp)
  none h g hg := by
    obtain ⟨h1, h2⟩ := or_none h
    rcases hg with _ | _ | _ | _ | _ | _ | _ | _ | ⟨k, ht⟩ | ⟨k, _, hr, ht⟩
    · have := highestDebt_none (Option.map_eq_none_iff.mp h1) k
      rw [idleGroup_iff.mpr ht.holds] at this
      exact Bool.noConfusion this
    · rw [if_pos (noRecords_iff.mpr hr)] at h2
      have := highestDebt_none (Option.map_eq_none_iff.mp h2) k
      rw [pullGroup_iff.mpr ht.holds] at this
      exact Bool.noConfusion this

theorem scrubAccess_iff {isRead : Bool} {c : ArrayCmd} :
    s.scrubAccess s.scrub.pointer isRead = some ⟨c, .scrubber⟩ ↔ ScrubAccess s isRead c := by
  unfold State.scrubAccess
  dsimp only
  constructor
  · intro h
    split at h
    · rename_i ho
      simp only [Option.some.injEq, Grant.mk.injEq, and_true] at h
      exact .opens c (openable_iff.mp ho) (opensAs_iff.mpr h)
    · split at h
      · rename_i hc
        simp only [Bool.and_eq_true, isEmpty_iff, Option.isNone_iff_eq_none, accessible_iff, freeFor_iff] at hc
        simp only [Option.some.injEq, Grant.mk.injEq, and_true] at h
        subst h
        exact .access hc.1.1.1 hc.1.1.2 hc.1.2 hc.2
      · exact absurd h (by simp)
  · rintro (⟨_, ho, hc⟩ | ⟨hm, hp, ha, hf⟩)
    · rw [if_pos (openable_iff.mpr ho), opensAs_iff.mp hc]
    · rw [if_neg (by
        rw [openable_iff]
        intro ho
        have := ho.closed
        rw [ha.opened] at this
        exact BankState.noConfusion this), if_pos]
      · rfl
      · rw [isEmpty_iff.mpr hm, hp, accessible_iff.mpr ha, freeFor_iff.mpr hf]; rfl

theorem scrubAccess_for {l : LineId} {isRead : Bool} (h : s.scrubAccess l isRead = some g) : g = ⟨g.cmd, .scrubber⟩ := by
  unfold State.scrubAccess at h
  dsimp only at h
  split at h
  · simp only [Option.some.injEq] at h; rw [← h]
  · split at h
    · simp only [Option.some.injEq] at h; rw [← h]
    · exact absurd h (by simp)

theorem scrubCommand_some (h : s.scrubOffer = some g) : ∃ c, g = ⟨c, .scrubber⟩ ∧ ScrubCommand s c := by
  unfold State.scrubOffer at h
  dsimp only at h
  split at h
  · exact absurd h (by simp)
  · rename_i hst
    exact ⟨_, scrubAccess_for h, .started _ hst (scrubAccess_iff.mp (scrubAccess_for h ▸ h))⟩
  · rename_i hst
    split at h
    · rename_i hg
      exact ⟨_, scrubAccess_for h, .pending _ hst (holdGiven_iff.mp hg) (scrubAccess_iff.mp (scrubAccess_for h ▸ h))⟩
    · exact absurd h (by simp)
  · rename_i hst
    exact ⟨_, scrubAccess_for h, .holding _ hst (scrubAccess_iff.mp (scrubAccess_for h ▸ h))⟩

theorem scrubCommand_none (h : s.scrubOffer = none) (c : ArrayCmd) : ¬ ScrubCommand s c := by
  unfold State.scrubOffer at h
  rintro (⟨hst, ha⟩ | ⟨hst, hg, ha⟩ | ⟨hst, ha⟩)
  · simp only [hst] at h
    rw [scrubAccess_iff.mpr ha] at h
    exact absurd h (by simp)
  · simp only [hst] at h
    rw [if_pos (holdGiven_iff.mpr hg), scrubAccess_iff.mpr ha] at h
    exact absurd h (by simp)
  · simp only [hst] at h
    rw [scrubAccess_iff.mpr ha] at h
    exact absurd h (by simp)

theorem sweptClose_iff {b : BankId} : (s.sweptOpen b && s.closeLegal b) = true ↔ SweptClose s b := by
  rw [Bool.and_eq_true, closable_iff, SweptClose, and_comm, State.sweptOpen]
  refine and_congr_right fun _ => ?_
  cases (s.bank b).openRow with
  | none => simp
  | some row => simp

theorem openCount_iff :
    s.openCount < 2 ↔ ∀ b k, (s.bank b).openRow.isSome = true → (s.bank k).openRow.isSome = true → b = k := by
  have hm : ∀ b, b ∈ allBanks.filter (fun b => (s.bank b).openRow.isSome) ↔ (s.bank b).openRow.isSome = true := fun b => by
    simp [mem_allBanks]
  have hnd : (allBanks.filter (fun b => (s.bank b).openRow.isSome)).Nodup := (List.nodup_finRange 16).filter _
  unfold State.openCount
  generalize allBanks.filter (fun b => (s.bank b).openRow.isSome) = l at hm hnd
  constructor
  · intro h b k hb hk
    rw [← hm] at hb hk
    match l, h with
    | [], _ => exact absurd hb (by simp)
    | [x], _ => rw [List.mem_singleton.mp hb, List.mem_singleton.mp hk]
  · intro h
    match l, hnd with
    | [], _ => simp
    | [x], _ => simp
    | x :: y :: t, hnd =>
      exfalso
      have := h x y ((hm x).mp (by simp)) ((hm y).mp (by simp))
      subst this
      simp at hnd

theorem sweepLine_some {l : LineId} : s.sweepLine = some l ↔ l.val = s.scrub.sweepAt := by
  unfold State.sweepLine
  split
  · simp only [Option.some.injEq]
    exact ⟨fun h => by rw [← h], fun h => Fin.ext h.symm⟩
  · rename_i hn
    exact ⟨fun h => absurd h (by simp), fun h => absurd (h ▸ l.isLt) hn⟩

theorem resetClosePending_iff : s.resetClosePending = false ↔ ∀ b, (s.bank b).resetClose = false := by
  simp only [State.resetClosePending, List.any_eq_false, Bool.not_eq_true]
  exact ⟨fun h b => h b (mem_allBanks b), fun h b _ => h b⟩

theorem sweepCommand_some (h : s.sweepOffer = some g) :
    (∀ b, (s.bank b).resetClose = false) ∧ ∃ c, g = ⟨c, .sweep⟩ ∧ SweepCommand s c := by
  unfold State.sweepOffer at h
  split at h
  · exact absurd h (by simp)
  · rename_i hp
    refine ⟨resetClosePending_iff.mp (by simpa using hp), ?_⟩
    cases hc : s.closeOf s.sweptOpen with
    | some x =>
      rw [hc, Option.map_some, Option.some_or, Option.some.injEq] at h
      obtain ⟨b, rfl, hb⟩ := closeOf_some (fun b => sweptClose_iff) hc
      exact ⟨_, h.symm, .close b hb⟩
    | none =>
      have hn := closeOf_none (fun b => sweptClose_iff) hc
      rw [hc, Option.map_none, Option.none_or] at h
      split at h
      · exact absurd h (by simp)
      · rename_i l hl
        rw [sweepLine_some] at hl
        dsimp only at h
        split at h
        · rename_i ha
          simp only [Bool.and_eq_true, accessible_iff, unclaimed_iff] at ha
          simp only [Option.some.injEq] at h
          exact ⟨_, h.symm, .write l hn hl ha.1 ha.2⟩
        · split at h
          · rename_i ho
            simp only [Bool.and_eq_true, openable_iff, decide_eq_true_eq, openCount_iff] at ho
            simp only [Option.some.injEq] at h
            exact ⟨_, h.symm, .opens l _ hn hl ho.1 ho.2 (opensAs_iff.mpr rfl)⟩
          · exact absurd h (by simp)

theorem sweepCommand_none (h : s.sweepOffer = none) (hp : ∀ b, (s.bank b).resetClose = false) (c : ArrayCmd) :
    ¬ SweepCommand s c := by
  unfold State.sweepOffer at h
  rw [if_neg (by rw [resetClosePending_iff.mpr hp]; simp)] at h
  obtain ⟨h1, h2⟩ := or_none h
  have hn := closeOf_none (fun b => sweptClose_iff) (Option.map_eq_none_iff.mp h1)
  rintro (⟨b, hb⟩ | ⟨l, _, hl, ha, hf⟩ | ⟨l, _, _, hl, ho, h2b, hc⟩)
  · exact hn b hb.holds
  · rw [sweepLine_some.mpr hl] at h2
    dsimp only at h2
    rw [if_pos (by rw [accessible_iff.mpr ha, unclaimed_iff.mpr hf]; rfl)] at h2
    exact absurd h2 (by simp)
  · rw [sweepLine_some.mpr hl] at h2
    dsimp only at h2
    split at h2
    · exact absurd h2 (by simp)
    · rw [if_pos (by rw [openable_iff.mpr ho, decide_eq_true (openCount_iff.mpr h2b)]; rfl)] at h2
      exact absurd h2 (by simp)

theorem asleep_iff : s.asleep = false ↔ s.quiet.part ≠ .retained ∧ s.quiet.part ≠ .waking := by
  simp only [State.asleep, decide_eq_false_iff_not, not_or]

theorem offers_class9 : Offers s 9 s.class9 where
  some g h := by
    unfold State.class9 at h
    split at h
    · rename_i hd
      split at h
      · exact absurd h (by simp)
      · rename_i ha
        obtain ⟨c, rfl, hc⟩ := scrubCommand_some h
        exact .scrub c hd (asleep_iff.mp (by simpa using ha)) hc
    · rename_i hd
      obtain ⟨hp, c, rfl, hc⟩ := sweepCommand_some h
      exact .sweep c (by simpa using hd) hp hc
  none h g hg := by
    unfold State.class9 at h
    rcases hg with _ | _ | _ | _ | _ | _ | _ | _ | _ | _ | ⟨c, hd, hq, hc⟩ | ⟨c, hd, hr, hc⟩
    · rw [if_pos hd, if_neg (by rw [asleep_iff.mpr hq]; simp)] at h
      exact scrubCommand_none h c hc
    · rw [if_neg (by rw [hd]; simp)] at h
      exact sweepCommand_none h hr c hc

theorem idleClose_iff {b : BankId} :
    ((decide ((s.bank b).idle = .expired) && (s.repairPhase b).isNone && !s.activeOn b) && s.closeLegal b) = true ↔
      IdleClose s b := by
  rw [Bool.and_eq_true, Bool.and_eq_true, Bool.and_eq_true, decide_eq_true_eq, Option.isNone_iff_eq_none, Bool.not_eq_true',
    noActive_iff, closable_iff]
  exact ⟨fun h => ⟨h.1.1.1, h.1.1.2, h.1.2, h.2⟩, fun h => ⟨⟨⟨h.expired, h.phase⟩, h.active⟩, h.legal⟩⟩

theorem offers_class10 : Offers s 10 s.class10 where
  some g h := by
    obtain ⟨b, rfl, hb⟩ := closeOf_some (fun b => idleClose_iff) h
    exact .idleClose b hb
  none h g hg := by
    rcases hg with _ | _ | _ | _ | _ | _ | _ | _ | _ | _ | _ | _ | ⟨b, hb⟩
    exact closeOf_none (fun b => idleClose_iff) h b hb.holds

/-- There are ten classes. -/
theorem candidate_class {n : Nat} (h : Candidate s n g) : 1 ≤ n ∧ n ≤ 10 := by
  rcases h <;> omega

end Sys2Proof.Machine
end

