-- ==== Sys2Proof/Laws/Commands.lean ====
section
/-! SUPPORT. What one command can do, said once: `After s c t` holds between the state after the command's time has passed and its next
state, and `exec_after` says that every command goes one of these ways. -/

namespace Sys2Proof.Machine

inductive After (s : State) : Instr → State → Prop where
  | timeOnly (c : Instr) : After s c s
  | instant (dt n : Nat) : After s (.timingIntervalExpiry dt) (s.atInstant n)
  -- resets and pins
  | cold (dt : Nat) : After s (.coldReset dt) s.coldReset
  | warm (dt : Nat) (h : s.resetN = true) : After s (.warmReset dt) s.warmReset
  | rise (dt : Nat) (h : s.resetN = false) : After s (.resetNRise dt) ({ s with resetN := true } : State).reviewQuiet
  | pin (dt : Nat) (level : Bool) : After s (.hotPinChange dt level) { s with hotPin := level }
  -- the links
  | training (dt : Nat) (p : Port) (h : (s.link p).state = .down) (hr : s.resetN = true) :
      After s (.trainingStart dt p)
        (s.setLink p { s.link p with state := .training, training := some (s.now + trainingLength) })
  | up (dt : Nat) (p : Port) (h : (s.link p).state = .training) : After s (.trainingComplete dt p) (s.goUp p)
  | down (c : Instr) (dt : Nat) (p : Port) (h : (s.link p).state = .training)
      (hc : c = .trainingTimeout dt p ∨ c = .signalLoss dt p) : After s c (s.setLink p (s.link p).downed)
  | teardown (c : Instr) (dt : Nat) (p : Port) (h : s.online p = true)
      (hc : c = .signalLoss dt p ∨ c = .silenceTimeout dt p ∨ c = .resetPacket dt p) : After s c (s.teardown p)
  | badPacket (dt : Nat) (p : Port) (h : s.online p = true) : After s (.badCheckPacket dt p) (s.badPacket p)
  | discard (c : Instr) (dt : Nat) (p : Port) (h : s.online p = true)
      (hc : (∃ k r, c = .requestDiscard dt p k r) ∨ ∃ k, c = .otherKindDiscard dt p k) :
      After s c ((s.heard p).discardPacket p)
  | ack (dt : Nat) (p : Port) (n : Byte) (h : s.online p = true) :
      After s (.ackReceived dt p n) ((s.heard p).setLink p (((s.heard p).link p).takeAck n))
  | nak (dt : Nat) (p : Port) (n : Byte) (h : s.online p = true) :
      After s (.nakReceived dt p n) ((s.heard p).setLink p (((s.heard p).link p).takeNak n))
  | idle (dt : Nat) (p : Port) (h : s.online p = true) : After s (.idleReceived dt p) (s.heard p)
  | ackTimer (dt : Nat) (p : Port) (h : s.over (s.link p).ackTimer = true) :
      After s (.ackTimerExpiry dt p) (s.setLink p { s.link p with ackTimer := .expired })
  | keepalive (dt : Nat) (p : Port) (h : s.over (s.link p).keepalive = true) :
      After s (.keepaliveExpiry dt p) (s.setLink p { s.link p with keepalive := .expired })
  | sendNak (dt : Nat) (p : Port) (h : s.nextToSend p = some .nak) :
      After s (.sendNak dt p) ((s.sendPlain p .nak).clearNakDue p)
  | sendReplay (dt : Nat) (p : Port) (h : s.nextToSend p = some .replay) : After s (.sendReplay dt p) (s.sendReplayed p)
  | sendInit (dt : Nat) (p : Port) (h : s.nextToSend p = some .init) :
      After s (.sendInit dt p) ((s.sendSequenced p .init).clearInit p)
  | sendResponse (dt : Nat) (p : Port) (first : Bool) (h : s.nextToSend p = some .response) :
      After s (.sendResponse dt p first) (s.sendAnswer p first).reviewQuiet
  | sendNotice (dt : Nat) (p : Port) (h : s.nextToSend p = some .notice) : After s (.sendNotice dt p) (s.sendHeadNotice p)
  | sendAck (dt : Nat) (p : Port) (h : s.nextToSend p = some .ack) : After s (.sendAck dt p) (s.sendPlain p .ack)
  | sendIdle (dt : Nat) (p : Port) (h : s.nextToSend p = some .idle) : After s (.sendIdle dt p) (s.sendPlain p .idle)
  -- requests
  | request (c : Instr) (dt : Nat) (p : Port) (k : Byte) (r : Request) (hc : requestRow c = some (dt, p, k, r)) :
      After s c (s.receive p k r)
  -- array commands, each the arbiter's choice
  | openRow (dt : Nat) (b : BankId) (row : RowId) (g : Grant) (h : s.arbiterChoice = some g) (hg : g.cmd = .openRow b row) :
      After s (.openRow dt b row) (s.issueOpen b row none)
  | openSpare (dt : Nat) (b : BankId) (sp : SpareId) (row : RowId) (g : Grant) (h : s.arbiterChoice = some g)
      (hg : g.cmd = .openSpare b sp row) : After s (.openSpare dt b sp) (s.issueOpen b row (some sp))
  | close (dt : Nat) (b : BankId) (g : Grant) (h : s.arbiterChoice = some g) (hg : g.cmd = .close b) :
      After s (.close dt b) (s.issueClose b)
  | readLine (dt : Nat) (b : BankId) (line : LineIx) (flips : List Flip) (l : LineId) (g : Grant)
      (h : s.arbiterChoice = some g) (hg : g.cmd = .readLine b line) (hl : s.lineOf b line = some l) :
      After s (.readLine dt b line flips) ((s.decay l flips).issueRead g.source l)
  | writeLine (dt : Nat) (b : BankId) (line : LineIx) (l : LineId) (g : Grant) (h : s.arbiterChoice = some g)
      (hg : g.cmd = .writeLine b line) (hl : s.lineOf b line = some l) :
      After s (.writeLine dt b line) (s.issueWrite g.source l)
  | refreshGroup (dt : Nat) (g : GroupId) (x : Grant) (h : s.arbiterChoice = some x) (hg : x.cmd = .refreshGroup g) :
      After s (.refreshGroup dt g) (s.issueRefresh g)
  | retain (dt : Nat) (x : Grant) (h : s.arbiterChoice = some x) (hg : x.cmd = .retain) :
      After s (.retain dt) s.issueRetain
  | resume (dt : Nat) (x : Grant) (h : s.arbiterChoice = some x) (hg : x.cmd = .resume) :
      After s (.resume dt) s.issueResume
  | programSoft (dt : Nat) (b : BankId) (sp : SpareId) (x : Grant) (h : s.arbiterChoice = some x)
      (hg : x.cmd = .programSoft b sp) : After s (.programSoft dt b sp) (s.issueProgram softProgramming)
  | programFuse (dt : Nat) (b : BankId) (sp : SpareId) (x : Grant) (h : s.arbiterChoice = some x)
      (hg : x.cmd = .programFuse b sp) :
      After s (.programFuse dt b sp)
        ((s.issueProgram fuseProgramming).setSpare b sp { state := .retiredFused, mapped := none })
  -- expiries
  | pathFree (dt : Nat) (h : s.reached s.pathBusy = true) : After s (.pathOccupancyExpiry dt) { s with pathBusy := none }
  | opened (dt : Nat) (b : BankId) (h : (s.bank b).state = .opening) (hs : s.since (s.bank b).lastOpen openDelay = true) :
      After s (.openDelayEnd dt b) (s.setBank b (s.idleNext b { s.bank b with state := .opened, idleReset := false }))
  | closed (dt : Nat) (b : BankId) (h : (s.bank b).state = .closing) (hs : s.since (s.bank b).lastClose closeDelay = true) :
      After s (.closeDelayEnd dt b) (s.endClose b)
  | refreshed (dt : Nat) (g : GroupId) (h : s.refreshOver g = true) :
      After s (.groupRefreshEnd dt g) (s.mapBanks (s.endRefreshBank g)).leaveWaitAny
  | programmed (dt : Nat) (c : CurrentJob) (h : s.currentJob = some c) (hp : c.phase = .program)
      (hr : s.reached c.programEnds = true) : After s (.programmingEnd dt) (s.bindSpare c)
  | woken (dt : Nat) (h : s.quiet.part = .waking) (hr : s.reached s.quiet.wakeTimer = true) :
      After s (.wakeTimerExpiry dt) s.endWake
  | idleTimer (dt : Nat) (b : BankId) (h : s.over (s.bank b).idle = true) :
      After s (.idleTimerExpiry dt b) (s.setBank b { s.bank b with idle := .expired })
  | rowLimit (dt : Nat) (b : BankId) (h : (s.bank b).state = .opening ∨ (s.bank b).state = .opened)
      (ho : s.over (s.bank b).openAge = true) : After s (.rowOpenLimit dt b) (s.setBank b (s.bank b).limitReached)
  | quarter (dt : Nat) (h : s.reached s.refresh.quarter = true) :
      After s (.groupExpiry dt) (s.groupExpires s.refresh.rotation).nextQuarter
  | aged (dt : Nat) (p : Port) (st : Stamp) (h : s.ageReached p st = true) :
      After s (.recordAged dt p st) (s.ageThrough st)
  | scrubStep (dt : Nat) (h : s.reached s.scrub.timer = true) : After s (.scrubStepTimerExpiry dt) s.startStep
  | idleHold (dt : Nat) (h : s.quiet.part = .settling) (hr : s.reached s.quiet.holdTimer = true) :
      After s (.idleHoldExpiry dt) s.enterEntering
  | claimTimer (dt : Nat) (p : Port) (h : s.claim.holder = some p) (hr : s.reached s.claim.timer = true) :
      After s (.claimTimerExpiry dt) (s.claimLapses p)

theorem next_inj {s t : State} (h : (Host.Outcome.next s : Host.Outcome State Fault Refusal) = .next t) : t = s := by
  injection h with h; exact h.symm

/-- Where a choice is made between an effect and the passing of time alone. -/
theorem after_ite {s u t : State} {c : Instr} {q : Prop} [Decidable q] (hu : q → After s c u)
    (h : (if q then Host.Outcome.next u else Host.Outcome.next s : Host.Outcome State Fault Refusal) = .next t) :
    After s c t := by
  split at h
  · rename_i hq; rw [next_inj h]; exact hu hq
  · rw [next_inj h]; exact .timeOnly c

section

variable {s t : State}

theorem after_request {c : Instr} {dt : Nat} {p : Port} {k : Byte} {r : Request}
    (hc : requestRow c = some (dt, p, k, r))
    (h : (Host.Outcome.next ((s.passTime dt).receive p k r) : Host.Outcome State Fault Refusal) = .next t) :
    ∃ dt, After (s.passTime dt) c t :=
  ⟨dt, by rw [next_inj h]; exact .request _ _ _ _ _ hc⟩

theorem after_signalLoss {dt : Nat} {p : Port} (h : execSignalLoss dt p s = .next t) :
    After (s.passTime dt) (.signalLoss dt p) t := by
  simp only [execSignalLoss] at h
  split at h
  · rename_i hs; rw [next_inj h]; exact .teardown _ dt p (by unfold State.online; rw [hs]; rfl) (Or.inl rfl)
  · rename_i hs; rw [next_inj h]; exact .down _ dt p hs (Or.inr rfl)
  · rw [next_inj h]; exact .timeOnly _

theorem after_openRow {dt : Nat} {b : BankId} {row : RowId} (h : execOpenRow dt b row s = .next t) :
    After (s.passTime dt) (.openRow dt b row) t := by
  simp only [execOpenRow] at h
  split at h
  · rename_i g hg; exact after_ite (fun hq => .openRow dt b row g hg hq) h
  · rw [next_inj h]; exact .timeOnly _

theorem after_openSpare {dt : Nat} {b : BankId} {sp : SpareId} (h : execOpenSpare dt b sp s = .next t) :
    After (s.passTime dt) (.openSpare dt b sp) t := by
  simp only [execOpenSpare] at h
  split at h
  · rename_i g hg
    split at h
    · rename_i k i row hr
      refine after_ite (fun hq => ?_) h
      obtain ⟨rfl, rfl⟩ := hq
      exact .openSpare dt k i row g hg hr
    · rw [next_inj h]; exact .timeOnly _
  · rw [next_inj h]; exact .timeOnly _

theorem after_close {dt : Nat} {b : BankId} (h : execClose dt b s = .next t) :
    After (s.passTime dt) (.close dt b) t := by
  simp only [execClose] at h
  split at h
  · rename_i g hg; exact after_ite (fun hq => .close dt b g hg hq) h
  · rw [next_inj h]; exact .timeOnly _

theorem after_readLine {dt : Nat} {b : BankId} {line : LineIx} {flips : List Flip}
    (h : execReadLine dt b line flips s = .next t) : After (s.passTime dt) (.readLine dt b line flips) t := by
  simp only [execReadLine] at h
  split at h
  · rename_i g l hg hl; exact after_ite (fun hq => .readLine dt b line flips l g hg hq hl) h
  · rw [next_inj h]; exact .timeOnly _

theorem after_writeLine {dt : Nat} {b : BankId} {line : LineIx} (h : execWriteLine dt b line s = .next t) :
    After (s.passTime dt) (.writeLine dt b line) t := by
  simp only [execWriteLine] at h
  split at h
  · rename_i g l hg hl; exact after_ite (fun hq => .writeLine dt b line l g hg hq hl) h
  · rw [next_inj h]; exact .timeOnly _

theorem after_refreshGroup {dt : Nat} {g : GroupId} (h : execRefreshGroup dt g s = .next t) :
    After (s.passTime dt) (.refreshGroup dt g) t := by
  simp only [execRefreshGroup] at h
  split at h
  · rename_i x hx; exact after_ite (fun hq => .refreshGroup dt g x hx hq) h
  · rw [next_inj h]; exact .timeOnly _

theorem after_retain {dt : Nat} (h : execRetain dt s = .next t) : After (s.passTime dt) (.retain dt) t := by
  simp only [execRetain] at h
  split at h
  · rename_i x hx; exact after_ite (fun hq => .retain dt x hx hq) h
  · rw [next_inj h]; exact .timeOnly _

theorem after_resume {dt : Nat} (h : execResume dt s = .next t) : After (s.passTime dt) (.resume dt) t := by
  simp only [execResume] at h
  split at h
  · rename_i x hx; exact after_ite (fun hq => .resume dt x hx hq) h
  · rw [next_inj h]; exact .timeOnly _

theorem after_programSoft {dt : Nat} {b : BankId} {sp : SpareId} (h : execProgramSoft dt b sp s = .next t) :
    After (s.passTime dt) (.programSoft dt b sp) t := by
  simp only [execProgramSoft] at h
  split at h
  · rename_i x hx; exact after_ite (fun hq => .programSoft dt b sp x hx hq) h
  · rw [next_inj h]; exact .timeOnly _

theorem after_programFuse {dt : Nat} {b : BankId} {sp : SpareId} (h : execProgramFuse dt b sp s = .next t) :
    After (s.passTime dt) (.programFuse dt b sp) t := by
  simp only [execProgramFuse] at h
  split at h
  · rename_i x hx; exact after_ite (fun hq => .programFuse dt b sp x hx hq) h
  · rw [next_inj h]; exact .timeOnly _

theorem after_programmingEnd {dt : Nat} (h : execProgrammingEnd dt s = .next t) :
    After (s.passTime dt) (.programmingEnd dt) t := by
  simp only [execProgrammingEnd] at h
  split at h
  · rename_i c hc; exact after_ite (fun hq => .programmed dt c hc hq.1 hq.2) h
  · rw [next_inj h]; exact .timeOnly _

theorem after_claimTimerExpiry {dt : Nat} (h : execClaimTimerExpiry dt s = .next t) :
    After (s.passTime dt) (.claimTimerExpiry dt) t := by
  simp only [execClaimTimerExpiry] at h
  split at h
  · rename_i p hp; exact after_ite (fun hq => .claimTimer dt p hp hq) h
  · rw [next_inj h]; exact .timeOnly _

end

/-- Every command goes one of the ways of `After`. -/
theorem exec_after {c : Instr} {s t : State} (h : exec c s = .next t) : ∃ dt, After (s.passTime dt) c t := by
  cases c with
  | coldReset dt => exact ⟨dt, by rw [next_inj h]; exact .cold dt⟩
  | warmReset dt => exact ⟨dt, after_ite (fun hq => .warm dt hq) h⟩
  | resetNRise dt =>
    refine ⟨dt, ?_⟩
    simp only [exec, execResetNRise] at h
    split at h
    · rw [next_inj h]; exact .timeOnly _
    · rename_i hr; rw [next_inj h]; exact .rise dt (by simpa using hr)
  | hotPinChange dt level => exact ⟨dt, by rw [next_inj h]; exact .pin dt level⟩
  | trainingStart dt p => exact ⟨dt, after_ite (fun hq => .training dt p hq.1 hq.2) h⟩
  | trainingComplete dt p => exact ⟨dt, after_ite (fun hq => .up dt p hq) h⟩
  | trainingTimeout dt p => exact ⟨dt, after_ite (fun hq => .down _ dt p hq.1 (Or.inl rfl)) h⟩
  | signalLoss dt p => exact ⟨dt, after_signalLoss h⟩
  | silenceTimeout dt p => exact ⟨dt, after_ite (fun hq => .teardown _ dt p hq.1 (Or.inr (Or.inl rfl))) h⟩
  | resetPacket dt p => exact ⟨dt, after_ite (fun hq => .teardown _ dt p hq (Or.inr (Or.inr rfl))) h⟩
  | badCheckPacket dt p => exact ⟨dt, after_ite (fun hq => .badPacket dt p hq) h⟩
  | requestDiscard dt p k r => exact ⟨dt, after_ite (fun hq => .discard _ dt p hq.1 (Or.inl ⟨k, r, rfl⟩)) h⟩
  | otherKindDiscard dt p k => exact ⟨dt, after_ite (fun hq => .discard _ dt p hq.1 (Or.inr ⟨k, rfl⟩)) h⟩
  | ackReceived dt p n => exact ⟨dt, after_ite (fun hq => .ack dt p n hq) h⟩
  | nakReceived dt p n => exact ⟨dt, after_ite (fun hq => .nak dt p n hq) h⟩
  | idleReceived dt p => exact ⟨dt, after_ite (fun hq => .idle dt p hq) h⟩
  | ackTimerExpiry dt p => exact ⟨dt, after_ite (fun hq => .ackTimer dt p hq) h⟩
  | keepaliveExpiry dt p => exact ⟨dt, after_ite (fun hq => .keepalive dt p hq) h⟩
  | sendNak dt p => exact ⟨dt, after_ite (fun hq => .sendNak dt p hq) h⟩
  | sendReplay dt p => exact ⟨dt, after_ite (fun hq => .sendReplay dt p hq) h⟩
  | sendInit dt p => exact ⟨dt, after_ite (fun hq => .sendInit dt p hq) h⟩
  | sendResponse dt p first => exact ⟨dt, after_ite (fun hq => .sendResponse dt p first hq) h⟩
  | sendNotice dt p => exact ⟨dt, after_ite (fun hq => .sendNotice dt p hq) h⟩
  | sendAck dt p => exact ⟨dt, after_ite (fun hq => .sendAck dt p hq) h⟩
  | sendIdle dt p => exact ⟨dt, after_ite (fun hq => .sendIdle dt p hq) h⟩
  | openRow dt b row => exact ⟨dt, after_openRow h⟩
  | openSpare dt b sp => exact ⟨dt, after_openSpare h⟩
  | close dt b => exact ⟨dt, after_close h⟩
  | readLine dt b line flips => exact ⟨dt, after_readLine h⟩
  | writeLine dt b line => exact ⟨dt, after_writeLine h⟩
  | refreshGroup dt g => exact ⟨dt, after_refreshGroup h⟩
  | retain dt => exact ⟨dt, after_retain h⟩
  | resume dt => exact ⟨dt, after_resume h⟩
  | programSoft dt b sp => exact ⟨dt, after_programSoft h⟩
  | programFuse dt b sp => exact ⟨dt, after_programFuse h⟩
  | pathOccupancyExpiry dt => exact ⟨dt, after_ite (fun hq => .pathFree dt hq) h⟩
  | timingIntervalExpiry dt =>
    obtain ⟨n, hn⟩ := s.passToInterval_exists dt
    refine ⟨0, ?_⟩
    rw [next_inj h, hn]
    exact .instant dt n
  | openDelayEnd dt b => exact ⟨dt, after_ite (fun hq => .opened dt b hq.1 hq.2) h⟩
  | closeDelayEnd dt b => exact ⟨dt, after_ite (fun hq => .closed dt b hq.1 hq.2) h⟩
  | groupRefreshEnd dt g => exact ⟨dt, after_ite (fun hq => .refreshed dt g hq) h⟩
  | programmingEnd dt => exact ⟨dt, after_programmingEnd h⟩
  | wakeTimerExpiry dt => exact ⟨dt, after_ite (fun hq => .woken dt hq.1 hq.2) h⟩
  | idleTimerExpiry dt b => exact ⟨dt, after_ite (fun hq => .idleTimer dt b hq) h⟩
  | rowOpenLimit dt b => exact ⟨dt, after_ite (fun hq => .rowLimit dt b hq.1 hq.2) h⟩
  | groupExpiry dt => exact ⟨dt, after_ite (fun hq => .quarter dt hq) h⟩
  | recordAged dt p st => exact ⟨dt, after_ite (fun hq => .aged dt p st hq) h⟩
  | scrubStepTimerExpiry dt => exact ⟨dt, after_ite (fun hq => .scrubStep dt hq) h⟩
  | idleHoldExpiry dt => exact ⟨dt, after_ite (fun hq => .idleHold dt hq.1 hq.2) h⟩
  | claimTimerExpiry dt => exact ⟨dt, after_claimTimerExpiry h⟩
  | read dt p r => exact after_request (k := 1) rfl h
  | write dt p r => exact after_request (k := 2) rfl h
  | writePart dt p r => exact after_request (k := 3) rfl h
  | fence dt p r => exact after_request (k := 4) rfl h
  | fetchAdd dt p r => exact after_request (k := 5) rfl h
  | swap dt p r => exact after_request (k := 6) rfl h
  | compareSwap dt p r => exact after_request (k := 7) rfl h
  | watch dt p r => exact after_request (k := 8) rfl h
  | unwatch dt p r => exact after_request (k := 9) rfl h
  | noticeMask dt p r => exact after_request (k := 10) rfl h
  | regionSet dt p r => exact after_request (k := 11) rfl h
  | regionGet dt p r => exact after_request (k := 12) rfl h
  | repair dt p r => exact after_request (k := 13) rfl h
  | quiet dt p r => exact after_request (k := 14) rfl h
  | claim dt p r => exact after_request (k := 15) rfl h
  | release dt p r => exact after_request (k := 16) rfl h
  | unknownRequestKind dt p k r => exact after_request (k := k) rfl h
  | _ dt p r => exact after_request rfl h

end Sys2Proof.Machine
end

