-- ==== Sys2Proof/Laws/Forms.lean ====
section
/-! SUPPORT. The spelled conditions of Safety.lean on a request and on the part agree with the functions of the machine: the form of a
request by its kind, the ranges of REGION_SET, the seven conditions of settling, the reasons a record waits for. -/

namespace Sys2Proof.Machine

theorem wordsOfBytes_short {bs : List Byte} (h : bs.length < 8) : wordsOfBytes bs = [] := by
  match bs, h with
  | [], _ => rfl
  | [_], _ => rfl
  | [_, _], _ => rfl
  | [_, _, _], _ => rfl
  | [_, _, _, _], _ => rfl
  | [_, _, _, _, _], _ => rfl
  | [_, _, _, _, _, _], _ => rfl
  | [_, _, _, _, _, _, _], _ => rfl

theorem wordsOfBytes_long {bs : List Byte} (h : 8 ≤ bs.length) :
    wordsOfBytes bs = wordOfBytes (bs.take 8) :: wordsOfBytes (bs.drop 8) := by
  match bs, h with
  | b0 :: b1 :: b2 :: b3 :: b4 :: b5 :: b6 :: b7 :: t, _ => rfl

theorem wordsOfBytes_one {bs : List Byte} {x : Word} :
    wordsOfBytes bs = [x] ↔ (8 ≤ bs.length ∧ bs.length < 16) ∧ x = wordOfBytes (bs.take 8) := by
  by_cases h8 : bs.length < 8
  · rw [wordsOfBytes_short h8]; simp; omega
  · rw [wordsOfBytes_long (by omega)]
    by_cases h16 : (bs.drop 8).length < 8
    · rw [wordsOfBytes_short h16]
      simp only [List.length_drop] at h16
      simp only [List.cons.injEq, and_true]
      exact ⟨fun h => ⟨⟨by omega, by omega⟩, h.symm⟩, fun h => h.2.symm⟩
    · rw [wordsOfBytes_long (by omega)]
      simp only [List.length_drop] at h16
      simp only [List.cons.injEq, reduceCtorEq, and_false, false_iff, not_and]
      omega

theorem wordsOfBytes_two {bs : List Byte} {x y : Word} :
    wordsOfBytes bs = [x, y] ↔
      (16 ≤ bs.length ∧ bs.length < 24) ∧ x = wordOfBytes (bs.take 8) ∧ y = wordOfBytes ((bs.drop 8).take 8) := by
  by_cases h8 : bs.length < 8
  · rw [wordsOfBytes_short h8]; simp; omega
  · rw [wordsOfBytes_long (by omega), List.cons.injEq, wordsOfBytes_one, List.length_drop]
    constructor
    · rintro ⟨h1, h2, h3⟩
      exact ⟨⟨by omega, by omega⟩, h1.symm, h3⟩
    · rintro ⟨h1, h2, h3⟩
      exact ⟨h2.symm, ⟨by omega, by omega⟩, h3⟩

theorem formed_iff {k : Kind} {r : Request} {o : ReqOp} : WellFormedAs r k o ↔ kindOp k r = some o := by
  constructor
  · rintro (⟨ha, hn⟩ | ⟨ha, hn, hb⟩ | ⟨ha, hb, hm⟩ | ⟨x, ha, hb, hx⟩ | ⟨x, ha, hb, hx⟩ | ⟨x, y, ha, hb, hx, hy⟩ | ha | _ | _ | _ |
      ⟨i, rest, hb⟩ | ⟨f, rest, hb⟩ | ⟨ps, hb⟩ | ⟨i, rest, hb⟩ | ⟨b, r0, r1, m, rest, bank, row, mode, hb, hk, hr, hm⟩ | ⟨v, rest, hb⟩ |
      ⟨c, v0, v1, rest, hb⟩ | ⟨c, rest, hb, hc⟩ | ⟨c, x, rest, hb, hc⟩)
    · simp [kindOp, lineAligned, ha, hn.1, hn.2]
    · simp [kindOp, lineAligned, ha, hn.1, hn.2, hb]
    · have : (r.body.take 8).any (fun b => decide (b ≠ 0)) = true := by
        obtain ⟨b, h1, h2⟩ := hm
        exact List.any_eq_true.mpr ⟨b, h1, by simpa using h2⟩
      simp only [kindOp, lineAligned, ha, hb, this]; simp
    · have := wordsOfBytes_one.mpr ⟨hb, hx⟩
      simp [kindOp, operandWords, this, wordAligned, ha]
    · have := wordsOfBytes_one.mpr ⟨hb, hx⟩
      simp [kindOp, operandWords, this, wordAligned, ha]
    · have := wordsOfBytes_two.mpr ⟨hb, hx, hy⟩
      simp [kindOp, operandWords, this, wordAligned, ha]
    · simp [kindOp, wordAligned, ha]
    · rfl
    · rfl
    · rfl
    · simp [kindOp, hb]
    · simp [kindOp, hb, enablesOf]
    · simp [kindOp, hb]
    · simp [kindOp, hb]
    · have e0 : leNat [r0, r1] = r0.toNat + 256 * r1.toNat := by simp [leNat]
      have hlt : b.toNat < 16 ∧ leNat [r0, r1] < 65536 := by rw [← hk, e0, ← hr]; exact ⟨bank.isLt, row.isLt⟩
      have hbank : bank = ⟨b.toNat, hlt.1⟩ := Fin.ext hk
      have hrow : row = ⟨leNat [r0, r1], hlt.2⟩ := Fin.ext (hr.trans e0.symm)
      simp only [kindOp, repairOp, hb]
      rw [dif_pos hlt]
      rcases hm with ⟨rfl, rfl⟩ | ⟨rfl, rfl⟩
      · simp [hbank, hrow]
      · simp [hbank, hrow]
    · simp [kindOp, hb]
    · simp [kindOp, hb, leNat]
    · have : getTakesParam c.toNat = false := by simpa [getTakesParam] using hc
      simp [kindOp, getOp, hb, this]
    · have : getTakesParam c.toNat = true := by simpa [getTakesParam] using hc
      simp [kindOp, getOp, hb, this]
  · intro h
    cases k <;> simp only [kindOp] at h
    · split at h
      · rename_i hc; cases h; exact .read (by simpa [lineAligned] using hc.1) hc.2
      · cases h
    · split at h
      · rename_i hc; cases h; exact .write (by simpa [lineAligned] using hc.1) ⟨hc.2.1, hc.2.2.1⟩ hc.2.2.2
      · cases h
    · split at h
      · rename_i hc
        cases h
        refine .writePart (by simpa [lineAligned] using hc.1) hc.2.1 ?_
        obtain ⟨b, h1, h2⟩ := List.any_eq_true.mp hc.2.2
        exact ⟨b, h1, by simpa using h2⟩
      · cases h
    · cases h; exact .fence
    · split at h
      · rename_i x hx
        split at h
        · rename_i hc
          cases h
          have := wordsOfBytes_one.mp hx
          exact .fetchAdd x (by simpa [wordAligned] using hc) this.1 this.2
        · cases h
      · cases h
    · split at h
      · rename_i x hx
        split at h
        · rename_i hc
          cases h
          have := wordsOfBytes_one.mp hx
          exact .swap x (by simpa [wordAligned] using hc) this.1 this.2
        · cases h
      · cases h
    · split at h
      · rename_i x y hx
        split at h
        · rename_i hc
          cases h
          have := wordsOfBytes_two.mp hx
          exact .compareSwap x y (by simpa [wordAligned] using hc) this.1 this.2.1 this.2.2
        · cases h
      · cases h
    · split at h
      · rename_i hc; cases h; exact .watch (by simpa [wordAligned] using hc)
      · cases h
    · split at h
      · rename_i i rest hb; cases h; exact .unwatch i rest hb
      · cases h
    · split at h
      · rename_i f rest hb; cases h; exact .noticeMask f rest hb
      · cases h
    · split at h
      · rename_i ps hb; cases h; exact .regionSet ps hb
      · cases h
    · split at h
      · rename_i i rest hb; cases h; exact .regionGet i rest hb
      · cases h
    · unfold repairOp at h
      split at h
      · rename_i b r0 r1 m rest hb
        split at h
        · rename_i hlt
          split at h
          · rename_i hm
            cases h
            exact .repair b r0 r1 m rest _ _ _ hb rfl (by simp [leNat]) (Or.inl ⟨BitVec.eq_of_toNat_eq (by simpa using hm), rfl⟩)
          · split at h
            · rename_i hm
              cases h
              exact .repair b r0 r1 m rest _ _ _ hb rfl (by simp [leNat]) (Or.inr ⟨BitVec.eq_of_toNat_eq (by simpa using hm), rfl⟩)
            · cases h
        · cases h
      · cases h
    · split at h
      · rename_i v rest hb; cases h; exact .quiet v rest hb
      · cases h
    · cases h; exact .claim
    · cases h; exact .release
    · split at h
      · rename_i c v0 v1 rest hb
        cases h
        have := WellFormedAs.set (r := r) c v0 v1 rest hb
        simpa [leNat] using this
      · cases h
    · unfold getOp at h
      split at h
      · cases h
      · rename_i c rest hb
        split at h
        · rename_i hc
          split at h
          · cases h
          · rename_i x rest' 
            cases h
            exact .getOf c x rest' hb (by simpa [getTakesParam] using hc)
        · rename_i hc
          cases h
          exact .get c rest hb (by simpa [getTakesParam] using hc)

theorem rightsNamed_iff {n : Nat} {x : Rights} : RightsNamed n x ↔ rightsOf n = some x := by
  unfold RightsNamed
  match n with
  | 0 => simp [rightsOf, eq_comm]
  | 1 => simp [rightsOf, eq_comm]
  | 2 => simp [rightsOf, eq_comm]
  | n + 3 => simp [rightsOf]

theorem namesRegion_iff {ps : RegionSetParams} {g : RegionIx} {new : Replacement} :
    NamesRegion ps g new ↔ ps.target = some (g, new) := by
  have hb : ps.body = match rightsOf ps.rightsA, rightsOf ps.rightsB, rightsOf ps.rightsC with
    | some ra, some rb, some rc =>
        some { base := ps.base, limit := ps.limit, rights := ⟨ra, rb, rc⟩, atomics := ps.atomics, posting := ps.posting
               watches := ps.watches }
    | _, _, _ => none := rfl
  constructor
  · rintro ⟨hi, hr, ha, hb', hc, hp, hf⟩
    have hlt : ps.index < 8 ∧ ps.base ≤ ps.limit ∧ ps.limit < Config.pages := by
      refine ⟨hi ▸ g.isLt, hr.1, ?_⟩
      have := hr.2
      unfold Config.pages
      omega
    unfold RegionSetParams.target
    rw [dif_pos hlt, hb, rightsNamed_iff.mp ha, rightsNamed_iff.mp hb', rightsNamed_iff.mp hc]
    obtain ⟨e, ⟨b, l, ⟨ra, rb, rc⟩, at', po, wa⟩⟩ := new
    simp only at hp hf
    obtain ⟨rfl, rfl⟩ := hp
    obtain ⟨rfl, rfl, rfl, rfl⟩ := hf
    have : (⟨ps.index, hlt.1⟩ : RegionIx) = g := Fin.ext hi
    rw [this]
    rfl
  · intro h
    unfold RegionSetParams.target at h
    split at h
    · rename_i hlt
      split at h
      · rename_i bd hbd
        simp only [Option.some.injEq, Prod.mk.injEq] at h
        obtain ⟨rfl, rfl⟩ := h
        rw [hb] at hbd
        split at hbd
        · rename_i ra rb rc h1 h2 h3
          simp only [Option.some.injEq] at hbd
          subst hbd
          exact ⟨rfl, ⟨hlt.2.1, by have := hlt.2.2; unfold Config.pages at this; omega⟩, rightsNamed_iff.mpr h1, rightsNamed_iff.mpr h2,
            rightsNamed_iff.mpr h3, ⟨rfl, rfl⟩, ⟨rfl, rfl, rfl, rfl⟩⟩
        · exact absurd hbd (by simp)
      · exact absurd h (by simp)
    · exact absurd h (by simp)

theorem outsideRegions_iff {ps : RegionSetParams} : OutsideRegions ps ↔ ps.target = none := by
  have hr : ∀ n, rightsOf n = none ↔ 3 ≤ n := fun n => by
    match n with
    | 0 => simp [rightsOf]
    | 1 => simp [rightsOf]
    | 2 => simp [rightsOf]
    | n + 3 => simp [rightsOf]
  unfold OutsideRegions RegionSetParams.target
  constructor
  · intro h
    split
    · rename_i hlt
      have h2 := hlt.2.2
      unfold Config.pages at h2
      have : ps.body = none := by
        unfold RegionSetParams.body
        have : rightsOf ps.rightsA = none ∨ rightsOf ps.rightsB = none ∨ rightsOf ps.rightsC = none := by
          rw [hr, hr, hr]; omega
        rcases this with h | h | h
        · rw [h]
        · rw [h]; split <;> simp_all
        · rw [h]; split <;> simp_all
      rw [this]
    · rfl
  · intro h
    by_contra hn
    simp only [not_or] at hn
    rw [dif_pos (by unfold Config.pages; omega)] at h
    have h1 : ∀ n, ¬ 3 ≤ n → ∃ x, rightsOf n = some x := fun n hn => by
      rw [← hr] at hn
      exact Option.ne_none_iff_exists'.mp hn
    obtain ⟨a, ha⟩ := h1 _ hn.2.2.2.1
    obtain ⟨b, hb⟩ := h1 _ hn.2.2.2.2.1
    obtain ⟨c, hc⟩ := h1 _ hn.2.2.2.2.2
    unfold RegionSetParams.body at h
    rw [ha, hb, hc] at h
    exact absurd h (by simp)

theorem takenByAnother_iff {s : State} {g : RegionIx} {new : Replacement} :
    TakenByAnother s g new ↔ s.rangeTaken g new.body.base new.body.limit = true := by
  have hm : ∀ i : RegionIx, i ∈ allRegions := by decide
  simp only [State.rangeTaken, List.any_eq_true, Bool.and_eq_true, decide_eq_true_eq, TakenByAnother]
  constructor
  · rintro ⟨j, b, l, hj, hr, h1, h2⟩
    refine ⟨j, hm j, hj, ?_⟩
    unfold Region.conflicts rangesOverlap
    rcases hr with ⟨hs, rfl, rfl⟩ | ⟨x, hx, he, rfl, rfl⟩
    · simp [hs, h1, h2]
    · simp [hx, he, h1, h2]
  · rintro ⟨j, _, hj, hc⟩
    unfold Region.conflicts rangesOverlap at hc
    rw [Bool.or_eq_true, Bool.and_eq_true, decide_eq_true_eq, decide_eq_true_eq] at hc
    rcases hc with ⟨hs, h1, h2⟩ | hc
    · exact ⟨j, _, _, hj, Or.inl ⟨hs, rfl, rfl⟩, h1, h2⟩
    · split at hc
      · rename_i x hx
        simp only [Bool.and_eq_true, decide_eq_true_eq] at hc
        exact ⟨j, _, _, hj, Or.inr ⟨x, hx, hc.1, rfl, rfl⟩, hc.2.1, hc.2.2⟩
      · exact absurd hc (by simp)

theorem settles_iff {s : State} : s.settled = true ↔ Settles s := by
  have hq : s.allQuiet = true ↔ ∀ p, s.online p = true → s.vote p = some .quiet := by
    simp only [State.allQuiet, Port.all, List.all_cons, List.all_nil, Bool.and_true, Bool.and_eq_true, Bool.or_eq_true, Bool.not_eq_true',
      decide_eq_true_eq]
    constructor
    · rintro ⟨ha, hb, hc⟩ p hp
      cases p
      · exact ha.resolve_left (by simp [hp])
      · exact hb.resolve_left (by simp [hp])
      · exact hc.resolve_left (by simp [hp])
    · intro h
      refine ⟨?_, ?_, ?_⟩ <;> exact (Bool.eq_false_or_eq_true _).symm.imp id (fun h' => h _ h')
  have hn : s.noRecords = true ↔ (∀ p, s.queue p = []) ∧ s.detached = [] := by
    simp only [State.noRecords, Bool.and_eq_true, List.isEmpty_iff]
    exact ⟨fun h => ⟨fun p => by cases p; exacts [h.1.1.1, h.1.1.2, h.1.2], h.2⟩, fun h => ⟨⟨⟨h.1 _, h.1 _⟩, h.1 _⟩, h.2⟩⟩
  have hd : s.noDrain = true ↔ ∀ g, (s.region g).state ≠ .draining := by
    simp only [State.noDrain, List.all_eq_true, decide_eq_true_eq, State.region, Table.get]
    constructor
    · intro h g; exact h _ (List.getElem_mem _)
    · intro h r hr
      obtain ⟨i, hi, rfl⟩ := List.mem_iff_getElem.mp hr
      exact h ⟨i, by rw [← s.regions.size]; exact hi⟩
  simp only [State.settled, Bool.and_eq_true, hq, hn, hd, List.isEmpty_iff, Option.isNone_iff_eq_none]
  exact ⟨fun h => ⟨h.1.1.1.1.1.1, h.1.1.1.1.1.2, h.1.1.1.1.2, h.1.1.1.2, h.1.1.2, h.1.2, h.2⟩,
    fun h => ⟨⟨⟨⟨⟨⟨h.votes, h.records⟩, h.holds⟩, h.jobs⟩, h.drains⟩, h.sweep⟩, h.pin⟩⟩

/-! ## Table 15: the records evaluated anew (R27) -/

variable {s : State}

theorem mem_earlierUndone {r q : Record} : q ∈ s.earlierUndone r ↔ EarlierUndone s r q := by
  simp only [State.earlierUndone, EarlierUndone, List.mem_filter, List.mem_append, Bool.and_eq_true, decide_eq_true_eq, Record.isDone,
    Bool.not_eq_true', decide_eq_false_iff_not]

theorem overlaps_iff {r q : Record} : r.overlaps q = true ↔ LinesMeet r q := by
  unfold Record.overlaps LinesMeet
  split
  · rename_i a n b m h1 h2; simp [h1, h2]
  · rename_i h1 h2; simp [h2]
  · rename_i h; simp [h]

theorem isFence_iff {o : ReqOp} : o.isFence = true ↔ o = .fence := by cases o <;> simp [ReqOp.isFence]
theorem isRepair_iff {o : ReqOp} : o.isRepair = true ↔ ∃ b row m, o = .repair b row m := by cases o <;> simp [ReqOp.isRepair]

theorem heldBack_retention {x : Record} : (x.op.isArray && s.asleep) = true ↔ HeldBack s x .retention := by
  simp only [ReqOp.isArray, ReqOp.usesLines, Bool.and_eq_true, Bool.or_eq_true, isRepair_iff, State.asleep, decide_eq_true_eq, HeldBack]

theorem heldBack_fence {x : Record} : (s.earlierUndone x).any (fun q => q.op.isFence) = true ↔ HeldBack s x .fence := by
  simp only [List.any_eq_true, mem_earlierUndone, isFence_iff, HeldBack]

theorem heldBack_order {x : Record} :
    ((x.op.usesLines && (s.earlierUndone x).any (fun q => x.overlaps q)) || (x.op.isFence && !(s.earlierUndone x).isEmpty)) = true ↔
      HeldBack s x .order := by
  simp only [Bool.or_eq_true, Bool.and_eq_true, List.any_eq_true, mem_earlierUndone, overlaps_iff, isFence_iff, Bool.not_eq_true', HeldBack]
  constructor
  · rintro (⟨_, q, hq, ho⟩ | ⟨hf, hn⟩)
    · exact ⟨q, hq, Or.inl ho⟩
    · cases he : s.earlierUndone x with
      | nil => rw [he] at hn; simp at hn
      | cons q t => exact ⟨q, mem_earlierUndone.mp (by rw [he]; simp), Or.inr hf⟩
  · rintro ⟨q, hq, ho | hf⟩
    · obtain ⟨a, n, b, m, h1, h2, h3⟩ := ho
      exact Or.inl ⟨by simp [ReqOp.usesLines, h1], q, hq, a, n, b, m, h1, h2, h3⟩
    · refine Or.inr ⟨hf, ?_⟩
      cases he : s.earlierUndone x with
      | nil => have := mem_earlierUndone.mpr hq; rw [he] at this; simp at this
      | cons q t => rfl

theorem heldBack_hold {x : Record} : (x.op.usesLines && s.holdBlocks x) = true ↔ HeldBack s x .hold := by
  simp only [Bool.and_eq_true, HeldBack, State.holdBlocks, ReqOp.usesLines, Option.isSome_iff_exists, Prod.exists]
  constructor
  · rintro ⟨⟨a, n, hs⟩, h⟩
    refine ⟨a, n, hs, ?_⟩
    rw [hs] at h
    simp only [Bool.or_eq_true, List.any_eq_true, Bool.and_eq_true, decide_eq_true_eq, Record.touches, hs, isAtomic_iff] at h
    rcases h with ⟨e, he, ht, hh⟩ | ⟨ha, h⟩
    · exact Or.inl ⟨e, he, hh, ht.1, ht.2⟩
    · refine Or.inr ⟨ha, ?_⟩
      rw [Bool.not_eq_true'] at h
      by_contra hc
      simp only [not_or, not_exists, not_and, Nat.not_le, Bool.not_eq_true] at hc
      have : s.holdFree x.holder a = true := by
        unfold State.holdFree State.held State.accessPending
        simp only [Bool.and_eq_true, decide_eq_true_eq, Bool.not_eq_true', List.any_eq_false, not_and, Bool.not_eq_true]
        refine ⟨⟨by have := hc.1; unfold Config.holdEntries; omega, fun e he => hc.2.1 e he⟩, fun q hq hn => ?_⟩
        refine hc.2.2 q hq ?_
        by_contra hb
        simp only [not_or, not_not] at hb
        exact hn (by unfold Record.holder; rw [hb.1, hb.2])
      rw [this] at h
      exact Bool.noConfusion h
  · rintro ⟨a, n, hs, h⟩
    refine ⟨⟨a, n, hs⟩, ?_⟩
    rw [hs]
    simp only [Bool.or_eq_true, List.any_eq_true, Bool.and_eq_true, decide_eq_true_eq, Record.touches, hs, isAtomic_iff]
    rcases h with ⟨e, he, hh, ht⟩ | ⟨ha, h⟩
    · exact Or.inl ⟨e, he, ht, hh⟩
    · refine Or.inr ⟨ha, ?_⟩
      rw [Bool.not_eq_true']
      by_contra hc
      rw [Bool.not_eq_false] at hc
      unfold State.holdFree State.held State.accessPending at hc
      simp only [Bool.and_eq_true, decide_eq_true_eq, Bool.not_eq_true', List.any_eq_false, not_and, Bool.not_eq_true] at hc
      rcases h with h | ⟨e, he, hl⟩ | ⟨q, hq, hn, hacc⟩
      · have := hc.1.1; unfold Config.holdEntries at this; omega
      · exact hc.1.2 e he hl
      · have := hc.2 q hq (fun e => by unfold Record.holder at e; injection e with e1 e2; rcases hn with hn | hn <;> exact hn (by assumption))
        rw [hacc] at this; exact Bool.noConfusion this

theorem heldBack_bank {x : Record} : (x.op.usesLines && s.bankBlocks x) = true ↔ HeldBack s x .bank := by
  simp only [Bool.and_eq_true, HeldBack, State.bankBlocks, ReqOp.usesLines, Option.isSome_iff_exists, Prod.exists]
  have key : ∀ b, (∃ p, s.repairPhase b = some p) ↔ ∃ c, s.currentJob = some c ∧ c.job.bank = b := by
    intro b
    unfold State.repairPhase
    cases s.currentJob with
    | none => simp
    | some c => simp
  constructor
  · rintro ⟨⟨a, n, hs⟩, h⟩
    rw [hs] at h
    obtain ⟨c, hc, hb⟩ := (key _).mp (Option.isSome_iff_exists.mp h)
    exact ⟨a, n, c, hs, hc, hb⟩
  · rintro ⟨a, n, c, hs, hc, hb⟩
    refine ⟨⟨a, n, hs⟩, ?_⟩
    rw [hs]
    exact Option.isSome_iff_exists.mpr ((key _).mpr ⟨c, hc, hb⟩)

/-- Table 15 (R27, R37, R56, R143): the reason recorded is the first that holds. -/
theorem blockReason_none {x : Record} (h : ∀ c, ¬ HeldBack s x c) : s.blockReason x = none := by
  unfold State.blockReason
  dsimp only
  rw [if_neg (fun e => h _ (heldBack_retention.mp e)), if_neg (fun e => h _ (heldBack_fence.mp e)), if_neg (fun e => h _ (heldBack_order.mp e)),
    if_neg (fun e => h _ (heldBack_hold.mp e)), if_neg (fun e => h _ (heldBack_bank.mp e))]

theorem blockReason_some {x : Record} {c : BlockReason} (h : FirstReason s x c) : s.blockReason x = some c := by
  unfold State.blockReason
  dsimp only
  obtain ⟨hc, hl⟩ := h
  cases c with
  | retention => rw [if_pos (heldBack_retention.mpr hc)]
  | fence => rw [if_neg (fun e => hl .retention (by decide) (heldBack_retention.mp e)), if_pos (heldBack_fence.mpr hc)]
  | order => rw [if_neg (fun e => hl .retention (by decide) (heldBack_retention.mp e)), if_neg (fun e => hl .fence (by decide) (heldBack_fence.mp e)), if_pos (heldBack_order.mpr hc)]
  | hold => rw [if_neg (fun e => hl .retention (by decide) (heldBack_retention.mp e)), if_neg (fun e => hl .fence (by decide) (heldBack_fence.mp e)), if_neg (fun e => hl .order (by decide) (heldBack_order.mp e)), if_pos (heldBack_hold.mpr hc)]
  | bank => rw [if_neg (fun e => hl .retention (by decide) (heldBack_retention.mp e)), if_neg (fun e => hl .fence (by decide) (heldBack_fence.mp e)), if_neg (fun e => hl .order (by decide) (heldBack_order.mp e)), if_neg (fun e => hl .hold (by decide) (heldBack_hold.mp e)), if_pos (heldBack_bank.mpr hc)]

theorem blockReason_heldBack {x : Record} {c : BlockReason} (h : HeldBack s x c) : s.blockReason x ≠ none := by
  unfold State.blockReason
  dsimp only
  cases c
  · rw [if_pos (heldBack_retention.mpr h)]; simp
  · split
    · simp
    · rw [if_pos (heldBack_fence.mpr h)]; simp
  · split
    · simp
    · split
      · simp
      · rw [if_pos (heldBack_order.mpr h)]; simp
  · split
    · simp
    · split
      · simp
      · split
        · simp
        · rw [if_pos (heldBack_hold.mpr h)]; simp
  · split
    · simp
    · split
      · simp
      · split
        · simp
        · split
          · simp
          · rw [if_pos (heldBack_bank.mpr h)]; simp

/-- One record evaluated anew, as `Reviewed` spells it. -/
theorem reviewed_review (r : Record) : Reviewed s r (s.review r) := by
  unfold State.review
  constructor
  · split
    · split <;> rfl
    · split <;> rfl
    · rfl
    · rfl
  · rintro (h | h) <;> simp [h]
  · rintro (h | h) hn <;> simp [h, blockReason_none hn]
  · rintro (h | h) c hc <;> simp [h, blockReason_some hc]

theorem reviewRecords_queue (p : Port) : s.reviewRecords.queue p = (s.queue p).map s.review := by
  cases p <;> rfl

end Sys2Proof.Machine
end

