-- ==== Sys2Proof/Laws/Drains.lean ====
section
/-! SUPPORT. What the watch table, the region table and a record's end do, in the words of Safety.lean: a recheck and a firing of watches
(R71, R74), a replacement that takes effect and a drain that ends (R94, R96), a record that leaves its region (R41, R50, R52, R90). -/

namespace Sys2Proof.Machine

/-! ## Watches that end -/

theorem placeNotice_eq (s : State) (p : Port) (n : Notice) :
    s.placeNotice p n = if s.online p = true then s.setNoticeQ p ((s.noticeQ p).joined n) else s := by
  unfold State.placeNotice NoticeQueue.joined countUp Config.noticeDepth
  by_cases h : s.online p = true
  · rw [if_pos h, if_pos h]
    dsimp only
    split <;> rfl
  · rw [if_neg h, if_neg h]

/-- The entries that meet a condition end, with their notices: what a recheck and a firing do (R71, R74). -/
def State.endWatch (c : Watch → Bool) (k : WatchCause) (s : State) (i : WatchId) : State :=
  match s.watches.get i with
  | some w => if c w then (s.setWatch i none).placeNotice w.owner (.watchEnded i w.line k) else s
  | none => s

/-- The notice of one entry that meets the condition, for one port. -/
def State.endNote (s : State) (c : Watch → Bool) (k : WatchCause) (p : Port) (i : WatchId) : Option Notice :=
  match s.watches.get i with
  | some w => if c w = true ∧ w.owner = p then some (.watchEnded i w.line k) else none
  | none => none

/-- Of these entries, the ones that meet the condition have ended between `s` and `u`, and their owners are told. -/
structure EndedOver (s : State) (c : Watch → Bool) (k : WatchCause) (l : List WatchId) (u : State) : Prop where
  frame : u = { s with watches := u.watches, notices := u.notices }
  watch : ∀ i, u.watches.get i =
    if i ∈ l then (s.watches.get i).bind (fun w => if c w = true then none else some w) else s.watches.get i
  told : ∀ p, u.noticeQ p =
    if s.online p = true then (l.filterMap (s.endNote c k p)).foldl NoticeQueue.joined (s.noticeQ p) else s.noticeQ p

theorem endWatch_one (s : State) (c : Watch → Bool) (k : WatchCause) (i : WatchId) : EndedOver s c k [i] (s.endWatch c k i) := by
  unfold State.endWatch
  cases hw : s.watches.get i with
  | none =>
    refine ⟨rfl, fun j => ?_, fun p => ?_⟩
    · by_cases hj : j = i
      · subst hj; simp [hw]
      · simp [hj]
    · simp [State.endNote, hw]
  | some w =>
    dsimp only
    by_cases hl : c w = true
    · rw [if_pos hl, placeNotice_eq]
      by_cases ho : s.online w.owner = true
      · have ho' : (s.setWatch i none).online w.owner = true := ho
        rw [if_pos ho']
        refine ⟨rfl, fun j => ?_, fun p => ?_⟩
        · show (s.watches.set i none).get j = _
          by_cases hj : j = i
          · subst hj; simp [hw, hl]
          · simp [hj]
        · by_cases hp : p = w.owner
          · subst hp
            simp [State.endNote, hw, hl, ho]
            rfl
          · rw [State.noticeQ_setNoticeQ_of_ne _ hp]
            simp [State.endNote, hw, hl, Ne.symm hp]
            rfl
      · have ho' : ¬ (s.setWatch i none).online w.owner = true := ho
        rw [if_neg ho']
        refine ⟨rfl, fun j => ?_, fun p => ?_⟩
        · show (s.watches.set i none).get j = _
          by_cases hj : j = i
          · subst hj; simp [hw, hl]
          · simp [hj]
        · show s.noticeQ p = _
          by_cases hp : p = w.owner
          · subst hp; simp [ho]
          · simp [State.endNote, hw, hl, Ne.symm hp]
    · rw [if_neg hl]
      refine ⟨rfl, fun j => ?_, fun p => ?_⟩
      · by_cases hj : j = i
        · subst hj; simp [hw, hl]
        · simp [hj]
      · simp [State.endNote, hw, hl]

theorem EndedOver.region {s u : State} {c : Watch → Bool} {k : WatchCause} {l : List WatchId} (h : EndedOver s c k l u)
    (j : RegionIx) : u.region j = s.region j := by
  unfold State.region
  rw [congrArg State.regions h.frame]

theorem EndedOver.online {s u : State} {c : Watch → Bool} {k : WatchCause} {l : List WatchId} (h : EndedOver s c k l u)
    (p : Port) : u.online p = s.online p := by
  unfold State.online State.link
  rw [congrArg State.links h.frame]

/-- The condition may be given anew at each entry, where it looks at nothing that an end changes. -/
theorem ended_over {f : State → WatchId → State} {c : State → Watch → Bool} {k : WatchCause}
    (hf : ∀ s i, f s i = s.endWatch (c s) k i) (hc : ∀ s u l, EndedOver s (c s) k l u → c u = c s) (l : List WatchId)
    (hn : l.Nodup) (s : State) : EndedOver s (c s) k l (l.foldl f s) := by
  induction l generalizing s with
  | nil => exact ⟨rfl, fun i => by simp, fun p => by simp⟩
  | cons i t ih =>
    have h1 : EndedOver s (c s) k [i] (f s i) := hf s i ▸ endWatch_one s (c s) k i
    have h2 := ih (List.nodup_cons.mp hn).2 (f s i)
    have hi := (List.nodup_cons.mp hn).1
    rw [hc s _ _ h1] at h2
    have hnote : ∀ p, t.filterMap ((f s i).endNote (c s) k p) = t.filterMap (s.endNote (c s) k p) := fun p => by
      refine List.filterMap_congr fun j hj => ?_
      unfold State.endNote
      rw [h1.watch j, if_neg (by simp; rintro rfl; exact hi hj)]
    simp only [List.foldl_cons]
    refine ⟨?_, fun j => ?_, fun p => ?_⟩
    · rw [h2.frame, h1.frame]
    · rw [h2.watch j, h1.watch j]
      simp only [List.mem_cons, List.mem_nil_iff, or_false]
      by_cases hj : j ∈ t
      · rw [if_pos hj, if_neg (by rintro rfl; exact hi hj), if_pos (Or.inr hj)]
      · rw [if_neg hj]
        simp [hj]
    · rw [h2.told p, h1.told p, h1.online, hnote]
      by_cases ho : s.online p = true
      · rw [if_pos ho, if_pos ho, if_pos ho]
        simp only [List.filterMap_cons, List.filterMap_nil]
        cases s.endNote (c s) k p i <;> rfl
      · rw [if_neg ho, if_neg ho, if_neg ho]

theorem allWatchIds_nodup : allWatchIds.Nodup := List.nodup_finRange 32

theorem covering_iff {s : State} {page : Nat} {g : RegionIx} : (s.region g).covers page = true ↔ Covering s page g := by
  unfold Region.covers Covering; simp

theorem covering_of_coveringRegion {s : State} {page : Nat} {i : RegionIx} (h : s.coveringRegion page = some i) : Covering s page i :=
  covering_iff.mp (List.find?_some (p := fun i => (s.region i).covers page) h)

theorem not_covering {s : State} {page : Nat} (h : s.coveringRegion page = none) (j : RegionIx) : ¬ Covering s page j := fun hc =>
  List.find?_eq_none.mp h j (mem_allRegions j) (covering_iff.mpr hc)

theorem linePage_eq (l : LineId) : linePage l = l.val / 64 := rfl

theorem watchLapsed_of {s : State} {w : Watch}
    (h : ∀ j, Covering s (w.line.val / 64) j → (s.region j).body.rights.get w.owner = .none) : s.watchLapsed w = true := by
  unfold State.watchLapsed
  rw [linePage_eq]
  generalize w.line.val / 64 = page at h ⊢
  cases hc : s.coveringRegion page with
  | none => rfl
  | some i => exact decide_eq_true (h i (covering_of_coveringRegion hc))

theorem not_watchLapsed {s : State} {w : Watch} {j : RegionIx} (h : Covering s (w.line.val / 64) j)
    (only : ∀ k, Covering s (w.line.val / 64) k → k = j) (hr : (s.region j).body.rights.get w.owner ≠ .none) :
    s.watchLapsed w = false := by
  unfold State.watchLapsed
  rw [linePage_eq]
  generalize w.line.val / 64 = page at h only ⊢
  cases hc : s.coveringRegion page with
  | none => exact absurd h (not_covering hc j)
  | some i =>
    have hi := only i (covering_of_coveringRegion hc)
    subst hi
    exact decide_eq_false hr

/-- Coverage looks at the regions alone. -/
theorem covering_congr {s t : State} (h : ∀ j, t.region j = s.region j) (page : Nat) (g : RegionIx) :
    Covering t page g ↔ Covering s page g := by
  unfold Covering
  rw [h g]

/-- A recheck ends the entries that have lapsed (R74). -/
theorem recheckWatches_over (s : State) : EndedOver s s.watchLapsed .cancelled allWatchIds s.recheckWatches :=
  ended_over (c := State.watchLapsed) (fun _ _ => rfl) (fun s u l h => funext fun w => by
    unfold State.watchLapsed State.coveringRegion
    simp only [h.region]) allWatchIds allWatchIds_nodup s

/-- A firing ends the other ports' entries on the line (R71). -/
theorem fireWatches_over (s : State) (p : Port) (l : LineId) :
    EndedOver s (fun w => decide (w.line = l ∧ w.owner ≠ p)) (.written p) allWatchIds (s.fireWatches p l) :=
  ended_over (c := fun _ w => decide (w.line = l ∧ w.owner ≠ p)) (fun s i => by
    unfold State.fireWatch State.endWatch
    cases s.watches.get i <;> simp) (fun _ _ _ _ => rfl) allWatchIds allWatchIds_nodup s

theorem EndedOver.cancelled {s u : State} (h : EndedOver s s.watchLapsed .cancelled allWatchIds u) (p : Port) :
    cancelledOf s.watches u.watches p = allWatchIds.filterMap (s.endNote s.watchLapsed .cancelled p) := by
  unfold cancelledOf
  have ha : ∀ i : WatchId, i ∈ allWatchIds := List.mem_finRange
  refine List.filterMap_congr fun i _ => ?_
  rw [h.watch i, if_pos (ha i)]
  unfold State.endNote
  cases s.watches.get i with
  | none => rfl
  | some w =>
    by_cases hl : s.watchLapsed w = true
    · simp [hl]
    · simp [hl]

/-- The recheck, in the words of R74. -/
theorem EndedOver.rechecked {s u : State} (h : EndedOver s s.watchLapsed .cancelled allWatchIds u) :
    Rechecked s.watches s.noticeQ u := by
  have ha : ∀ i : WatchId, i ∈ allWatchIds := List.mem_finRange
  have hcov : ∀ page j, Covering u page j ↔ Covering s page j := covering_congr h.region
  refine ⟨fun i w j hw hc ho hr => ?_, fun i w hw hc => ?_, fun i hw => ?_, fun p => ?_⟩
  · rw [h.watch i, if_pos (ha i), hw, Option.bind_some, not_watchLapsed ((hcov _ _).mp hc)
      (fun k hk => ho k ((hcov _ _).mpr hk)) (h.region j ▸ hr)]
    rfl
  · rw [h.watch i, if_pos (ha i), hw, Option.bind_some,
      if_pos (watchLapsed_of (fun j hj => h.region j ▸ hc j ((hcov _ _).mpr hj)))]
  · rw [h.watch i, if_pos (ha i), hw]; rfl
  · rw [h.cancelled, h.online, h.told p]

/-! ## The watch table's lookups -/

theorem mem_allWatchIds (i : WatchId) : i ∈ allWatchIds := List.mem_finRange i

theorem find_finRange_some {n : Nat} {q : Fin n → Bool} {i : Fin n} :
    (List.finRange n).find? q = some i ↔ q i = true ∧ ∀ j, j < i → q j = false := by
  constructor
  · intro h
    refine ⟨List.find?_some h, fun j hj => ?_⟩
    obtain ⟨_, as, bs, e, hn⟩ := List.find?_eq_some_iff_append.mp h
    have hp : (List.finRange n).Pairwise (· < ·) := List.pairwise_lt_finRange n
    have hjm : j ∈ as ++ i :: bs := e ▸ List.mem_finRange j
    rw [e] at hp
    rcases List.mem_append.mp hjm with ha | hb
    · simpa using hn j ha
    · rcases List.mem_cons.mp hb with rfl | hb
      · exact absurd hj (lt_irrefl _)
      · exact absurd (List.rel_of_pairwise_cons (List.pairwise_append.mp hp).2.1 hb) (not_lt_of_gt hj)
  · rintro ⟨hi, hl⟩
    cases hf : (List.finRange n).find? q with
    | none => exact absurd hi (by simpa using List.find?_eq_none.mp hf i (List.mem_finRange i))
    | some k =>
      have hk := List.find?_some hf
      obtain ⟨_, as, bs, e, hn⟩ := List.find?_eq_some_iff_append.mp hf
      rcases lt_trichotomy k i with h | h | h
      · rw [hl k h] at hk; cases hk
      · rw [h]
      · have hp : (List.finRange n).Pairwise (· < ·) := List.pairwise_lt_finRange n
        have him : i ∈ as ++ k :: bs := e ▸ List.mem_finRange i
        rw [e] at hp
        rcases List.mem_append.mp him with ha | hb
        · rw [show q i = false by simpa using hn i ha] at hi; cases hi
        · rcases List.mem_cons.mp hb with rfl | hb
          · rfl
          · exact absurd (List.rel_of_pairwise_cons (List.pairwise_append.mp hp).2.1 hb) (not_lt_of_gt h)

theorem watchOf_some {s : State} {p : Port} {l : LineId} {i : WatchId} : s.watchOf p l = some i ↔ OwnsWatch s p l i := by
  unfold State.watchOf allWatchIds OwnsWatch
  rw [find_finRange_some]
  simp

theorem watchOf_none {s : State} {p : Port} {l : LineId} : s.watchOf p l = none ↔ ∀ i, s.watches.get i ≠ some ⟨p, l⟩ := by
  unfold State.watchOf
  rw [List.find?_eq_none]
  exact ⟨fun h i => by simpa using h i (mem_allWatchIds i), fun h i _ => by simpa using h i⟩

theorem freeWatch_some {s : State} {i : WatchId} : s.freeWatch = some i ↔ LowestFree s i := by
  unfold State.freeWatch allWatchIds LowestFree
  rw [find_finRange_some]
  simp [Option.ne_none_iff_isSome, Option.isNone_eq_false_iff]

theorem freeWatch_none {s : State} : s.freeWatch = none ↔ ∀ i, s.watches.get i ≠ none := by
  unfold State.freeWatch
  rw [List.find?_eq_none]
  exact ⟨fun h i => by simpa using h i (mem_allWatchIds i), fun h i _ => by simpa using h i⟩

theorem watchCount_eq (s : State) (p : Port) : s.watchCount p = watchesOf s p := by
  unfold State.watchCount ownedWatches watchesOf
  have e : s.watches.items = (List.finRange 32).map s.watches.get := by
    have hl : s.watches.items.length = 32 := s.watches.size
    apply List.ext_getElem
    · simp [hl]
    · intro i h1 h2
      simp only [List.getElem_map, List.getElem_finRange]
      rfl
  rw [e, List.filter_map, List.length_map]
  congr 1
  refine List.filter_congr fun i _ => ?_
  simp only [Function.comp]
  cases s.watches.get i <;> rfl

theorem filterMap_unique {α β : Type} {f : α → Option β} {i : α} {x : β} {l : List α} (hn : l.Nodup) (hi : i ∈ l) (hx : f i = some x)
    (ho : ∀ j, j ≠ i → f j = none) : l.filterMap f = [x] := by
  induction l with
  | nil => cases hi
  | cons a t ih =>
    by_cases e : a = i
    · subst e
      rw [List.filterMap_cons_some hx]
      congr 1
      exact List.filterMap_eq_nil_iff.mpr fun b hb => ho b (by rintro rfl; exact (List.nodup_cons.mp hn).1 hb)
    · rw [List.filterMap_cons_none (ho a e)]
      exact ih (List.nodup_cons.mp hn).2 ((List.mem_cons.mp hi).resolve_left (Ne.symm e))

/-- The firing of a line write, in the words of R71. -/
theorem fireWatches_spec (s : State) (p : Port) (l : LineId) :
    (∀ i w, (s.fireWatches p l).watches.get i = some w ↔ s.watches.get i = some w ∧ (w.line ≠ l ∨ w.owner = p)) ∧
    (s.fireWatches p l).noticeQ p = s.noticeQ p ∧
    ∀ q, q ≠ p →
      (∀ i, WatchesBounded s → s.watches.get i = some ⟨q, l⟩ → s.online q = true →
        (s.fireWatches p l).noticeQ q = (s.noticeQ q).joined (.watchEnded i l (.written p))) ∧
      ((∀ i, s.watches.get i ≠ some ⟨q, l⟩) → (s.fireWatches p l).noticeQ q = s.noticeQ q) := by
  have h := fireWatches_over s p l
  have hnil : ∀ q, (∀ i, s.endNote (fun w => decide (w.line = l ∧ w.owner ≠ p)) (.written p) q i = none) →
      (s.fireWatches p l).noticeQ q = s.noticeQ q := fun q hq => by
    rw [h.told q, List.filterMap_eq_nil_iff.mpr fun i _ => hq i]
    simp
  have hnote : ∀ q i x, s.endNote (fun w => decide (w.line = l ∧ w.owner ≠ p)) (.written p) q i = some x →
      s.watches.get i = some ⟨q, l⟩ ∧ q ≠ p ∧ x = .watchEnded i l (.written p) := fun q i x hx => by
    unfold State.endNote at hx
    split at hx
    · next w hw =>
      split at hx
      · next hc =>
        simp only [decide_eq_true_eq] at hc
        obtain ⟨⟨rfl, hp⟩, rfl⟩ := hc
        cases hx
        exact ⟨hw, hp, rfl⟩
      · cases hx
    · cases hx
  refine ⟨fun i w => ?_, ?_, fun q hq => ⟨fun i hb hw hon => ?_, fun hn => ?_⟩⟩
  · rw [h.watch i, if_pos (mem_allWatchIds i)]
    cases s.watches.get i with
    | none => simp
    | some x =>
      simp only [Option.bind_some, Option.some.injEq, decide_eq_true_eq]
      by_cases hc : x.line = l ∧ x.owner ≠ p
      · rw [if_pos hc]
        simp only [reduceCtorEq, false_iff, not_and, not_or]
        rintro rfl
        exact ⟨fun h => h hc.1, hc.2⟩
      · rw [if_neg hc]
        constructor
        · rintro ⟨rfl⟩
          exact ⟨rfl, by tauto⟩
        · rintro ⟨rfl, _⟩; rfl
  · refine hnil p fun i => ?_
    cases hx : s.endNote (fun w => decide (w.line = l ∧ w.owner ≠ p)) (.written p) p i with
    | none => rfl
    | some x => exact absurd rfl (hnote p i x hx).2.1
  · rw [h.told q, if_pos hon, filterMap_unique allWatchIds_nodup (mem_allWatchIds i) (x := .watchEnded i l (.written p))]
    · rfl
    · unfold State.endNote
      rw [hw]
      simp [hq]
    · intro j hj
      cases hx : s.endNote (fun w => decide (w.line = l ∧ w.owner ≠ p)) (.written p) q j with
      | none => rfl
      | some x => exact absurd (hb.apart j i _ (hnote q j x hx).1 hw) hj
  · refine hnil q fun i => ?_
    cases hx : s.endNote (fun w => decide (w.line = l ∧ w.owner ≠ p)) (.written p) q i with
    | none => rfl
    | some x => exact absurd (hnote q i x hx).1 (hn i)

/-! ## The end of a drain -/

/-- A replacement has taken effect on region `i` between `s` and `u` (R94). -/
structure TookEffect (s u : State) (i : RegionIx) (x : Replacement) : Prop where
  frame : ∃ rs ws ns, u = { s with regions := rs, watches := ws, notices := ns }
  region : u.region i = { state := if x.enable then .active else .disabled, body := x.body, inFlight := (s.region i).inFlight
                          replacement := none }
  others : ∀ j, j ≠ i → u.region j = s.region j
  rechecked : Rechecked s.watches s.noticeQ u

theorem takeEffect_spec (s : State) (i : RegionIx) (x : Replacement) : TookEffect s (s.takeEffect i x) i x := by
  unfold State.takeEffect
  generalize hy : ({ state := if x.enable then .active else .disabled, body := x.body, inFlight := (s.region i).inFlight
                     replacement := none } : Region) = y
  have h := recheckWatches_over (s.setRegion i y)
  generalize (s.setRegion i y).recheckWatches = u at h
  refine ⟨⟨(s.setRegion i y).regions, u.watches, u.notices, h.frame⟩, ?_, fun j hj => ?_, h.rechecked⟩
  · rw [h.region, hy]; exact State.region_setRegion_self ..
  · rw [h.region]; exact State.region_setRegion_of_ne _ hj _

theorem drains_iff {g : RegionIx} {q : Record} : q.drains g = true ↔ DrainsFor g q := by
  unfold Record.drains DrainsFor Record.isActive
  cases q.op <;> simp

theorem sole_finish {t : State} {q : Record} (h : t.Sole q) (res : Result) :
    DoneWith (t.finishControl q.stamp res) q t.now res := by
  refine ⟨q.finished t.now res, ?_, rfl, rfl, rfl, rfl, rfl⟩
  have e : (t.finishControl q.stamp res).queue q.port =
      (t.queue q.port).map (fun r => if r.stamp = q.stamp then r.finished t.now res else r) := by
    unfold State.finishControl State.modRecord State.mapRecords State.queue
    exact PerPort.get_map ..
  rw [e]
  exact List.mem_map.mpr ⟨q, h.here, by simp⟩

theorem mem_records {s : State} {p : Port} {q : Record} (h : q ∈ s.queue p) : q ∈ s.records := by
  unfold State.records
  cases p <;> simp [h]

/-- The drain of region `i` has ended between `s` and `u` (R96). -/
structure EndedDrain (s u : State) (g : RegionIx) (x : Replacement) : Prop where
  force : InForce u g x
  others : ∀ j, j ≠ g → u.region j = s.region j
  rechecked : Rechecked s.watches s.noticeQ u
  answered : ∀ q, s.Sole q → DrainsFor g q → (∀ y ∈ s.records, DrainsFor g y → y = q) → DoneWith u q s.now ⟨.ok, .none⟩

theorem endDrain_spec (s : State) (g : RegionIx) (x : Replacement) (hx : (s.region g).replacement = some x)
    (h0 : (s.region g).inFlight = 0) : EndedDrain s (s.endDrain g) g x := by
  have h := takeEffect_spec s g x
  unfold State.endDrain
  simp only [hx]
  generalize s.takeEffect g x = u at h
  obtain ⟨rs, ws, ns, e⟩ := h.frame
  have hrec : u.records = s.records := by rw [e]; rfl
  have hnow : u.now = s.now := by rw [e]
  have hq : ∀ p, u.queue p = s.queue p := fun p => by rw [e]; rfl
  cases hf : u.records.find? (Record.drains g) with
  | none =>
    refine ⟨h.region.trans (by rw [h0]), h.others, h.rechecked, fun q hs hd _ => ?_⟩
    rw [hrec] at hf
    exact absurd (drains_iff.mpr hd) (List.find?_eq_none.mp hf q (mem_records hs.here))
  | some y =>
    have hy : y ∈ s.records := hrec ▸ List.mem_of_find?_eq_some hf
    have hd := drains_iff.mp (List.find?_some hf)
    refine ⟨(h.region.trans (by rw [h0]) : _), h.others, ?_, fun q hs hdq ho => ?_⟩
    · exact ⟨h.rechecked.kept, h.rechecked.cancelled, h.rechecked.empty, h.rechecked.told⟩
    · obtain rfl := ho y hy hd
      rw [← hnow]
      exact sole_finish ⟨by rw [hq]; exact hs.here, fun z hz => by rw [hrec] at hz; exact hs.only z hz⟩ _

/-- A counted record leaves its region (R90, R96), said from an earlier state with the same regions and, but for the record itself, the
same records that wait for drains. -/
theorem leftRegion_since {s₀ s : State} {r : Record} (hg : ∀ g, s.region g = s₀.region g)
    (hq : ∀ g q, s₀.Sole q → DrainsFor g q → s.Sole q)
    (hu : (∀ y ∈ s₀.records, y.stamp = r.stamp → y = r) → ∀ g y, y ∈ s.records → DrainsFor g y → y ∈ s₀.records) :
    LeftRegion s₀ (s.leaveRegionOf r) r s.now s.watches s.noticeQ := by
  unfold State.leaveRegionOf
  cases hr : r.region with
  | none =>
    refine ⟨fun g _ => hg g, fun g h => ?_, fun _ => ⟨rfl, fun p => rfl⟩, fun g x h => ?_, fun g x q h => ?_⟩
    · rw [hr] at h; exact nomatch h
    · have := h.counted; rw [hr] at this; exact nomatch this
    · have := h.counted; rw [hr] at this; exact nomatch this
  | some i =>
    show LeftRegion s₀ (s.leaveRegion i) r s.now s.watches s.noticeQ
    unfold State.leaveRegion
    have hone : ∀ y : Region, (s.setRegion i y).region i = y := fun y => State.region_setRegion_self ..
    have hother : ∀ y j, j ≠ i → (s.setRegion i y).region j = s.region j := fun y j hj => State.region_setRegion_of_ne _ hj _
    have only : ∀ g x, EndsDrain s₀ r g x → g = i := fun g x h => by
      have h1 := h.counted; rw [hr] at h1; cases h1; rfl
    have hne : ∀ g, r.region ≠ some g → g ≠ i := fun g hg e => hg (by rw [hr, e])
    dsimp only
    generalize hz : ({ state := (s.region i).state, body := (s.region i).body, inFlight := (s.region i).inFlight - 1
                       replacement := (s.region i).replacement } : Region) = y
    have hpl : (∀ g x, ¬ EndsDrain s₀ r g x) → LeftRegion s₀ (s.setRegion i y) r s.now s.watches s.noticeQ := fun no =>
      ⟨fun g h => (hother y g (hne g h)).trans (hg g), fun g h _ => by rw [hr] at h; cases h; rw [hone, ← hz, hg],
        fun _ => ⟨rfl, fun p => rfl⟩, fun g x h => absurd h (no g x), fun g x q h => absurd h (no g x)⟩
    by_cases hc : (s.region i).state = .draining ∧ (s.region i).inFlight - 1 = 0
    · rw [if_pos hc]
      cases hp : (s.region i).replacement with
      | none =>
        have e : (s.setRegion i y).endDrain i = s.setRegion i y := by
          unfold State.endDrain; rw [hone, ← hz]; simp only [hp]
        rw [e]
        refine hpl fun g x h => ?_
        obtain rfl := only g x h
        rw [hg] at hp
        exact nomatch hp.symm.trans h.pending
      | some x =>
        have h := endDrain_spec (s.setRegion i y) i x (by rw [hone, ← hz]; exact hp) (by rw [hone, ← hz]; exact hc.2)
        generalize (s.setRegion i y).endDrain i = u at h ⊢
        have yes : EndsDrain s₀ r i x := ⟨hr, by rw [← hg]; exact hc.1, by rw [← hg]; omega, by rw [← hg]; exact hp⟩
        have same : ∀ g y, EndsDrain s₀ r g y → g = i ∧ y = x := fun g y hy => by
          obtain rfl := only g y hy
          exact ⟨rfl, Option.some.inj (hy.pending.symm.trans ((hg g) ▸ hp))⟩
        refine ⟨fun g h' => (h.others g (hne g h')).trans ((hother y g (hne g h')).trans (hg g)), fun g h' hn => ?_,
          fun hn => absurd yes (hn i x), fun g y hy => ?_, fun g y q hy hown hs hd ho => ?_⟩
        · rw [hr] at h'; cases h'
          exact absurd yes (hn x)
        · obtain ⟨rfl, rfl⟩ := same g y hy
          exact ⟨h.force, h.rechecked⟩
        · obtain ⟨rfl, rfl⟩ := same g y hy
          have hs' := hq g q hs hd
          exact h.answered q ⟨hs'.here, hs'.only⟩ hd fun z hz hdz => ho z (hu hown g z hz hdz) hdz
    · rw [if_neg hc]
      refine hpl fun g x h => ?_
      obtain rfl := only g x h
      refine hc ⟨(hg g).symm ▸ h.draining, ?_⟩
      have := h.last
      rw [hg]
      omega

theorem leftRegion (s : State) (r : Record) : LeftRegion s (s.leaveRegionOf r) r s.now s.watches s.noticeQ :=
  leftRegion_since (fun _ => rfl) (fun _ _ h _ => h) fun _ _ _ h _ => h

/-! ## A record ends -/

/-- Between `s` and `u` only records of that stamp have changed, none of them its operation. -/
structure ChangesOnly (s u : State) (st : Stamp) : Prop where
  back : ∀ y ∈ u.records, y.stamp ≠ st → y ∈ s.records
  stay : ∀ p, ∀ q ∈ s.queue p, q.stamp ≠ st → q ∈ u.queue p
  ops : ∀ y ∈ u.records, y.stamp = st → ∃ x ∈ s.records, x.stamp = st ∧ y.op = x.op

theorem mem_records_iff {s : State} {q : Record} : q ∈ s.records ↔ (∃ p, q ∈ s.queue p) ∨ q ∈ s.detached := by
  unfold State.records
  simp only [List.mem_append]
  constructor
  · rintro (((h | h) | h) | h)
    exacts [.inl ⟨_, h⟩, .inl ⟨_, h⟩, .inl ⟨_, h⟩, .inr h]
  · rintro (⟨p, h⟩ | h)
    · cases p <;> simp [h]
    · simp [h]

theorem ChangesOnly.same {s u : State} (st : Stamp) (hq : u.queues = s.queues) (hd : u.detached = s.detached) : ChangesOnly s u st := by
  have e : u.records = s.records := by unfold State.records State.queue; rw [hq, hd]
  have eq : ∀ p, u.queue p = s.queue p := fun p => by unfold State.queue; rw [hq]
  exact ⟨fun y hy _ => e ▸ hy, fun p q hq _ => eq p ▸ hq, fun y hy h => ⟨y, e ▸ hy, h, rfl⟩⟩

theorem ChangesOnly.trans {s u v : State} {st : Stamp} (h : ChangesOnly s u st) (k : ChangesOnly u v st) : ChangesOnly s v st := by
  refine ⟨fun y hy hn => h.back y (k.back y hy hn) hn, fun p q hq hn => k.stay p q (h.stay p q hq hn) hn, fun y hy hs => ?_⟩
  obtain ⟨x, hx, hs, ho⟩ := k.ops y hy hs
  obtain ⟨z, hz, hs', ho'⟩ := h.ops x hx hs
  exact ⟨z, hz, hs', ho.trans ho'⟩

theorem changesOnly_modRecord (s : State) (st : Stamp) {f : Record → Record} (hs : ∀ r, (f r).stamp = r.stamp) (ho : ∀ r, (f r).op = r.op) :
    ChangesOnly s (s.modRecord st f) st := by
  have hq : ∀ p, (s.modRecord st f).queue p = (s.queue p).map (fun r => if r.stamp = st then f r else r) := fun p =>
    PerPort.get_map ..
  have key : ∀ y (l : List Record), y ∈ l.map (fun r => if r.stamp = st then f r else r) →
      ∃ x ∈ l, y.stamp = x.stamp ∧ y.op = x.op ∧ (x.stamp ≠ st → y = x) := fun y l h => by
    obtain ⟨x, hx, rfl⟩ := List.mem_map.mp h
    refine ⟨x, hx, ?_⟩
    by_cases e : x.stamp = st
    · simp [e, hs, ho]
    · simp [e]
  have keyr : ∀ y ∈ (s.modRecord st f).records, ∃ x ∈ s.records, y.stamp = x.stamp ∧ y.op = x.op ∧ (x.stamp ≠ st → y = x) :=
    fun y hy => by
      rcases mem_records_iff.mp hy with ⟨p, h⟩ | h
      · rw [hq] at h
        obtain ⟨x, hx, k⟩ := key y _ h
        exact ⟨x, mem_records_iff.mpr (.inl ⟨p, hx⟩), k⟩
      · obtain ⟨x, hx, k⟩ := key y s.detached h
        exact ⟨x, mem_records_iff.mpr (.inr hx), k⟩
  refine ⟨fun y hy hn => ?_, fun p q h hn => ?_, fun y hy he => ?_⟩
  · obtain ⟨x, hx, e, _, k⟩ := keyr y hy
    rwa [k (e ▸ hn)]
  · rw [hq]; exact List.mem_map.mpr ⟨q, h, if_neg hn⟩
  · obtain ⟨x, hx, e, o, _⟩ := keyr y hy
    exact ⟨x, hx, e ▸ he, o⟩

theorem changesOnly_dropRecord (s : State) (p : Port) (st : Stamp) : ChangesOnly s (s.dropRecord p st) st := by
  have hq : ∀ k, (s.dropRecord p st).queue k = if k = p then (s.queue p).filter (fun q => decide (q.stamp ≠ st)) else s.queue k :=
    fun k => by
      unfold State.dropRecord
      by_cases h : k = p
      · subst h; rw [if_pos rfl]; exact State.queue_setQueue_self ..
      · rw [if_neg h]; exact State.queue_setQueue_of_ne _ h _
  have hsub : ∀ y ∈ (s.dropRecord p st).records, y ∈ s.records := fun y hy => by
    rcases mem_records_iff.mp hy with ⟨k, h⟩ | h
    · rw [hq] at h
      split at h
      · exact mem_records_iff.mpr (.inl ⟨p, (List.mem_filter.mp h).1⟩)
      · exact mem_records_iff.mpr (.inl ⟨k, h⟩)
    · exact mem_records_iff.mpr (.inr h)
  refine ⟨fun y hy _ => hsub y hy, fun k q h hn => ?_, fun y hy he => ⟨y, hsub y hy, he, rfl⟩⟩
  rw [hq]
  split
  · next e => exact List.mem_filter.mpr ⟨e ▸ h, decide_eq_true hn⟩
  · exact h

theorem changesOnly_endDetached (s : State) (st : Stamp) :
    ChangesOnly s { s with detached := s.detached.filter (fun q => decide (q.stamp ≠ st)) } st := by
  have hsub : ∀ y ∈ State.records { s with detached := s.detached.filter (fun q => decide (q.stamp ≠ st)) }, y ∈ s.records :=
    fun y hy => by
      rcases mem_records_iff.mp hy with ⟨k, h⟩ | h
      · exact mem_records_iff.mpr (.inl ⟨k, h⟩)
      · exact mem_records_iff.mpr (.inr (List.mem_filter.mp h).1)
  exact ⟨fun y hy _ => hsub y hy, fun k q h _ => h, fun y hy he => ⟨y, hsub y hy, he, rfl⟩⟩

/-- A record of a memory kind or WATCH leaves its region, said from a state in which only records of its stamp stood otherwise. -/
theorem leftRegion_changesOnly {s₀ s : State} {r : Record} (h : ChangesOnly s₀ s r.stamp) (hr : r ∈ s₀.records) (ho : r.op.span.isSome = true)
    (hg : s.regions = s₀.regions) : LeftRegion s₀ (s.leaveRegionOf r) r s.now s.watches s.noticeQ := by
  have hno : ∀ {g q}, DrainsFor g q → q.op ≠ r.op := fun hd e => by
    obtain ⟨_, ps, hp, _⟩ := hd
    rw [e] at hp
    rw [hp] at ho
    cases ho
  refine leftRegion_since (fun g => by unfold State.region; rw [hg]) (fun g q hs hd => ?_) fun hown g y hy hd => ?_
  · have hne : q.stamp ≠ r.stamp := fun e => hno hd (by rw [hs.only r hr e.symm])
    exact ⟨h.stay _ q hs.here hne, fun z hz e => hs.only z (h.back z hz (e ▸ hne)) e⟩
  · by_cases e : y.stamp = r.stamp
    · obtain ⟨x, hx, hxs, hxo⟩ := h.ops y hy e
      exact absurd (hxo.trans (by rw [hown x hx hxs])) (hno hd)
    · exact h.back y hy e

theorem leaveRegionOf_congr (s : State) {r q : Record} (h : q.region = r.region) : s.leaveRegionOf q = s.leaveRegionOf r := by
  unfold State.leaveRegionOf
  rw [h]

/-- What a record's end does (R41, R50, R51, R52), said from a state in which only records of its stamp stood otherwise. -/
theorem finishMemory_left {s₀ s : State} {r q : Record} (h : ChangesOnly s₀ s r.stamp) (hr : r ∈ s₀.records) (ho : r.op.span.isSome = true)
    (hg : s.regions = s₀.regions) (e1 : q.region = r.region) (e2 : q.stamp = r.stamp) (res : Result) :
    ∃ nq, LeftRegion s₀ (s.finishMemory q res) r s.now s.watches nq ∧
      (∀ p, p ≠ q.port → nq p = s.noticeQ p) ∧
      (q.posted = false ∨ s.queued q = false → ∀ p, nq p = s.noticeQ p) ∧
      (q.posted = true → s.queued q = true → nq q.port =
        if s.online q.port = true ∧ res.status ≠ .ok then (s.noticeQ q.port).joined (.error q.tag res.status)
        else s.noticeQ q.port) := by
  have hd : ChangesOnly s (s.dropRecord q.port q.stamp) r.stamp := by rw [← e2]; exact changesOnly_dropRecord s q.port q.stamp
  unfold State.finishMemory
  by_cases hq : s.queued q = true
  · rw [if_pos hq]
    by_cases hp : q.posted = true
    · rw [if_pos hp]
      dsimp only
      by_cases hs : res.status = .ok
      · rw [if_pos hs, leaveRegionOf_congr _ e1]
        refine ⟨s.noticeQ, ?_, fun _ _ => rfl, fun _ _ => rfl, fun _ _ => by simp [hs]⟩
        exact leftRegion_changesOnly (h.trans hd) hr ho hg
      · rw [if_neg hs, placeNotice_eq, leaveRegionOf_congr _ e1]
        by_cases hon : s.online q.port = true
        · have hon' : (s.dropRecord q.port q.stamp).online q.port = true := hon
          rw [if_pos hon']
          refine ⟨_, leftRegion_changesOnly ((h.trans hd).trans
            (ChangesOnly.same _ rfl rfl)) hr ho hg, fun p hne => ?_, fun hn => ?_, fun _ _ => ?_⟩
          · exact State.noticeQ_setNoticeQ_of_ne _ hne _
          · rcases hn with hn | hn
            · rw [hp] at hn; cases hn
            · rw [hq] at hn; cases hn
          · rw [if_pos ⟨hon, hs⟩]
            exact State.noticeQ_setNoticeQ_self ..
        · have hon' : ¬ (s.dropRecord q.port q.stamp).online q.port = true := hon
          rw [if_neg hon']
          refine ⟨s.noticeQ, leftRegion_changesOnly (h.trans hd) hr ho hg, fun _ _ => rfl,
            fun _ _ => rfl, fun _ _ => by rw [if_neg (fun hh => hon hh.1)]⟩
    · rw [if_neg hp, leaveRegionOf_congr _ e1]
      refine ⟨s.noticeQ, leftRegion_changesOnly (h.trans (e2 ▸ changesOnly_modRecord s q.stamp (fun _ => rfl) (fun _ => rfl))) hr ho hg,
        fun _ _ => rfl, fun _ _ => rfl, fun h => absurd h hp⟩
  · rw [if_neg hq, leaveRegionOf_congr _ e1]
    refine ⟨s.noticeQ, leftRegion_changesOnly (h.trans (e2 ▸ changesOnly_endDetached s q.stamp)) hr ho hg, fun _ _ => rfl, fun _ _ => rfl,
      fun _ h => absurd h hq⟩

end Sys2Proof.Machine
end

