-- ==== Sys2Proof/Laws/Effects.lean ====
section
/-! SUPPORT. The effects that end with work of the control side: each is a plain change of the state, named here where it has no name of its
own, followed by what `Control` and `Ports` allow. -/

namespace Sys2Proof.Machine

/-! ## READ_LINE -/

theorem control_armWatch (s : State) (p : Port) (l : LineId) : Control s (s.armWatch p l) := by
  unfold State.armWatch
  split
  · rename_i i hi
    refine control_setWatch s i _ fun h => ?_
    unfold State.watchPlace at hi
    split at hi
    · rename_i k hk
      rw [Option.some.injEq] at hi
      subst hi
      have e : s.watches.get k = some ⟨p, l⟩ := by simpa using List.find?_some hk
      rw [← e, Table.set_get]
      exact h
    · rename_i hk
      split at hi
      · rename_i hc
        refine h.arm i ⟨p, l⟩ hc fun j hj => ?_
        have := List.find?_eq_none.mp hk j (List.mem_finRange j)
        simp [hj] at this
      · cases hi
  · exact .refl s

theorem ports_armWatch (s : State) (p : Port) (l : LineId) : Ports s (s.armWatch p l) := by
  unfold State.armWatch
  split
  · exact .of_eq rfl rfl rfl rfl
  · exact .refl s

theorem control_afterRead (s : State) (r : Record) (l : LineId) (ws : List CheckedWord) :
    Control s (s.afterRead r l ws) := by
  unfold State.afterRead
  split
  · split
    · exact .refl s
    · exact control_finishMemory ..
  · exact (control_armWatch ..).trans (control_finishMemory ..)
  · split
    · exact .refl s
    · exact control_finishMemory ..
  · split
    · exact .refl s
    · exact control_finishMemory ..
  · split
    · exact .refl s
    · exact control_finishMemory ..
  · exact .refl s

theorem ports_afterRead (s : State) (r : Record) (l : LineId) (ws : List CheckedWord) : Ports s (s.afterRead r l ws) := by
  unfold State.afterRead
  split
  · split
    · exact .refl s
    · exact ports_finishMemory ..
  · exact (ports_armWatch ..).trans (ports_finishMemory ..)
  · split
    · exact .refl s
    · exact ports_finishMemory ..
  · split
    · exact .refl s
    · exact ports_finishMemory ..
  · split
    · exact .refl s
    · exact ports_finishMemory ..
  · exact .refl s

/-- After the read is taken, only the control side acts. -/
theorem control_requestRead (s : State) (r : Record) (l : LineId) : Control (s.readTaken r l) (s.requestRead r l) :=
  (control_countLine ..).trans ((control_afterRead ..).trans (control_settle _))

theorem ports_requestRead (s : State) (r : Record) (l : LineId) (h : PortsConsistent (s.readTaken r l)) :
    Ports (s.readTaken r l) (s.requestRead r l) := by
  have h1 := (ports_countLine (s.readTaken r l) .rowReader l (s.outcomes l)).trans
    (ports_afterRead _ (r.issued [checkedWords (s.outcomes l)] 1) l (checkedWords (s.outcomes l)))
  have c1 := (control_countLine (s.readTaken r l) .rowReader l (s.outcomes l)).trans
    (control_afterRead _ (r.issued [checkedWords (s.outcomes l)] 1) l (checkedWords (s.outcomes l)))
  exact h1.trans (ports_settle _ (h1.consistent c1 h))

/-- A record that reads takes one hold at the most, and only an atomic does. -/
theorem takeHold_cases (s : State) (r : Record) (l : LineId) (ws : List CheckedWord) :
    s.takeHold r l ws = s ∨
      (r.op.isAtomic = true ∧ s.takeHold r l ws = s.setHolds (s.holds ++ [{ line := l, holder := r.holder }])) := by
  unfold State.takeHold
  split
  · rename_i ho
    split
    · exact Or.inr ⟨by rw [ho]; rfl, rfl⟩
    · exact Or.inl rfl
  · rename_i ho
    split
    · exact Or.inr ⟨by rw [ho]; rfl, rfl⟩
    · exact Or.inl rfl
  · rename_i ho
    split
    · exact Or.inr ⟨by rw [ho]; rfl, rfl⟩
    · exact Or.inl rfl
  · exact Or.inl rfl

/-- What a taken read changes: the path, the free counter, its bank, the stored line, its records, and one hold at the most. -/
theorem readTaken_holds (s : State) (r : Record) (l : LineId) :
    (s.readTaken r l).holds = s.holds ∨
      (r.op.isAtomic = true ∧ (s.readTaken r l).holds = s.holds ++ [{ line := l, holder := r.holder }]) := by
  unfold State.readTaken
  rcases takeHold_cases ((s.readStored r l).modRecord r.stamp (fun q => q.issued [checkedWords (s.outcomes l)] 1)) r l
    (checkedWords (s.outcomes l)) with h | ⟨ha, h⟩
  · rw [h]; exact Or.inl rfl
  · rw [h]; exact Or.inr ⟨ha, rfl⟩

/-- The state in which the read is stored and the record issued, field by field. -/
theorem readTaken_eq (s : State) (r : Record) (l : LineId) :
    s.readTaken r l = { s with
      freeCount := s.freeCount + 1, pathBusy := some (s.now + pathOccupancy)
      banks := s.banks.set (lineBank l) ((s.bank (lineBank l)).requestAccess s.now true r)
      mem := (s.readTaken r l).mem, holds := (s.readTaken r l).holds
      queues := s.queues.map (fun q => q.map (fun q =>
        if q.stamp = r.stamp then q.issued [checkedWords (s.outcomes l)] 1 else q))
      detached := s.detached.map (fun q =>
        if q.stamp = r.stamp then q.issued [checkedWords (s.outcomes l)] 1 else q) } := by
  unfold State.readTaken
  rcases takeHold_cases ((s.readStored r l).modRecord r.stamp (fun q => q.issued [checkedWords (s.outcomes l)] 1)) r l
    (checkedWords (s.outcomes l)) with h | ⟨_, h⟩
  · rw [h]; rfl
  · rw [h]; rfl

/-- A bank keeps its state, its open row and its spare at a line access. -/
theorem requestAccess_keeps (x : Bank) (now : Instant) (isRead : Bool) (r : Record) :
    (x.requestAccess now isRead r).state = x.state ∧ (x.requestAccess now isRead r).openRow = x.openRow ∧
      (x.requestAccess now isRead r).servedBy = x.servedBy := by
  unfold Bank.requestAccess Bank.startRecord
  split
  · split <;> exact ⟨rfl, rfl, rfl⟩
  · exact ⟨rfl, rfl, rfl⟩

theorem issueAccess_keeps (x : Bank) (now : Instant) (isRead forRequest : Bool) :
    (x.issueAccess now isRead forRequest).state = x.state ∧ (x.issueAccess now isRead forRequest).openRow = x.openRow ∧
      (x.issueAccess now isRead forRequest).servedBy = x.servedBy := ⟨rfl, rfl, rfl⟩

theorem openLine_touchBank (s : State) (l : LineId) (f : Bank → Bank) (h : ∀ x, (f x).servedBy = x.servedBy) :
    (s.touchBank l f).openLine l = s.openLine l := by
  unfold State.openLine State.touchBank
  rw [State.bank_setBank_self, h]

/-- The stored line after the read. -/
theorem readTaken_mem (s : State) (r : Record) (l : LineId) :
    (s.readTaken r l).mem = s.mem.writeBack (s.openLine l) (numbered (s.outcomes l)) := by
  have h : (s.readTaken r l).mem = (s.readStored r l).mem := by
    unfold State.readTaken
    rcases takeHold_cases ((s.readStored r l).modRecord r.stamp (fun q => q.issued [checkedWords (s.outcomes l)] 1)) r l
      (checkedWords (s.outcomes l)) with h | ⟨_, h⟩
    · rw [h]; rfl
    · rw [h]; rfl
  rw [h]
  unfold State.readStored
  rw [State.writeBackLine_mem, openLine_touchBank _ _ _ fun x => (requestAccess_keeps x _ _ _).2.2]
  rfl

/-! ## The scrubber's read and the repair job's -/

/-- The scrubber's read before its counts and the evaluation. -/
def State.scrubReadTaken (s : State) (l : LineId) : State :=
  let s1 := s.useFree.occupyPath.touchBank l (fun x => x.issueAccess s.now true false)
  if (s.outcomes l).any WordOutcome.bad then s1.askScrubHold l (s.outcomes l) else s1.scrubStepEnd

theorem scrubRead_eq (s : State) (l : LineId) :
    s.scrubRead l = ((s.scrubReadTaken l).countLine .rowReader l (s.outcomes l)).settle := rfl

theorem control_scrubRead (s : State) (l : LineId) : Control (s.scrubReadTaken l) (s.scrubRead l) := by
  rw [scrubRead_eq]; exact (control_countLine ..).trans (control_settle _)

theorem ports_scrubRead (s : State) (l : LineId) (h : PortsConsistent (s.scrubReadTaken l)) :
    Ports (s.scrubReadTaken l) (s.scrubRead l) := by
  rw [scrubRead_eq]
  exact (ports_countLine ..).trans (ports_settle _ ((ports_countLine ..).consistent (control_countLine ..) h))

theorem scrubReadTaken_eq (s : State) (l : LineId) :
    s.scrubReadTaken l = { s with
      freeCount := s.freeCount + 1, pathBusy := some (s.now + pathOccupancy)
      banks := s.banks.set (lineBank l) ((s.bank (lineBank l)).issueAccess s.now true false)
      holds := (s.scrubReadTaken l).holds, scrub := (s.scrubReadTaken l).scrub } := by
  unfold State.scrubReadTaken
  dsimp only
  split
  · unfold State.askScrubHold; split <;> rfl
  · rfl

theorem scrubReadTaken_holds (s : State) (l : LineId) :
    (s.scrubReadTaken l).holds = s.holds ∨
      (s.holds.length < Config.holdEntries ∧ s.held l = false ∧
        (s.scrubReadTaken l).holds = s.holds ++ [{ line := l, holder := .scrubber }]) := by
  unfold State.scrubReadTaken
  dsimp only
  split
  · unfold State.askScrubHold
    split
    · rename_i h
      simp only [State.holdMayBeGiven, State.holdFree, Bool.and_eq_true, decide_eq_true_eq] at h
      exact Or.inr ⟨h.1.1.1, by have := h.1.1.2; rwa [Bool.not_eq_true'] at this, rfl⟩
    · exact Or.inl rfl
  · exact Or.inl rfl

theorem scrubReadTaken_scrub (s : State) (l : LineId) :
    (s.scrubReadTaken l).scrub.sweepDone = s.scrub.sweepDone ∧ (s.scrubReadTaken l).scrub.sweepAt = s.scrub.sweepAt := by
  unfold State.scrubReadTaken
  dsimp only
  split
  · unfold State.askScrubHold; split <;> exact ⟨rfl, rfl⟩
  · exact ⟨rfl, rfl⟩

/-- The repair job's read before its counts. -/
def State.repairReadTaken (s : State) (l : LineId) : State :=
  (s.useFree.occupyPath.touchBank l (fun x => x.issueAccess s.now true false)).bufferLine (checkedWords (s.outcomes l))

theorem repairRead_eq (s : State) (l : LineId) :
    s.repairRead l = (s.repairReadTaken l).countLine .copyOut l (s.outcomes l) := rfl

theorem repairReadTaken_eq (s : State) (l : LineId) :
    s.repairReadTaken l = { s with
      freeCount := s.freeCount + 1, pathBusy := some (s.now + pathOccupancy)
      banks := s.banks.set (lineBank l) ((s.bank (lineBank l)).issueAccess s.now true false)
      repairBuffer := (s.repairReadTaken l).repairBuffer, currentJob := (s.repairReadTaken l).currentJob } := by
  unfold State.repairReadTaken State.bufferLine
  split <;> rfl

/-! ## WRITE_LINE -/

theorem control_releaseHold (s : State) (h : Holder) : Control s (s.releaseHold h) :=
  { Control.refl s with holds := List.filter_sublist }

theorem control_writeReported (s : State) (r : Record) (l : LineId) : Control (s.writeStored r l) (s.writeReported r l) :=
  (control_fireWatches ..).trans (control_releaseHold ..)

/-- After the line is stored, only the control side acts. -/
theorem control_requestWrite (s : State) (r : Record) (l : LineId) : Control (s.writeStored r l) (s.requestWrite r l) := by
  unfold State.requestWrite
  refine Control.trans ?_ (control_settle _)
  split
  · exact (control_writeReported ..).trans (control_finishMemory ..)
  · exact control_writeReported ..

theorem ports_writeReported (s : State) (r : Record) (l : LineId) : Ports (s.writeStored r l) (s.writeReported r l) := by
  refine (ports_fireWatches (s.writeStored r l) r.port l).trans ?_
  exact .of_eq (by simp [State.writeReported]) (by simp [State.writeReported]) (by simp [State.writeReported])
    (by simp [State.writeReported])

theorem ports_requestWrite (s : State) (r : Record) (l : LineId) (h : PortsConsistent (s.writeStored r l)) :
    Ports (s.writeStored r l) (s.requestWrite r l) := by
  unfold State.requestWrite
  have h1 : Ports (s.writeStored r l)
      (if r.lastWrite then (s.writeReported r l).finishMemory r r.writeResult else s.writeReported r l) := by
    split
    · exact (ports_writeReported ..).trans (ports_finishMemory ..)
    · exact ports_writeReported ..
  have c1 : Control (s.writeStored r l)
      (if r.lastWrite then (s.writeReported r l).finishMemory r r.writeResult else s.writeReported r l) := by
    split
    · exact (control_writeReported ..).trans (control_finishMemory ..)
    · exact control_writeReported ..
  exact h1.trans (ports_settle _ (h1.consistent c1 h))

theorem writeStored_eq (s : State) (r : Record) (l : LineId) :
    s.writeStored r l = { s with
      pathBusy := some (s.now + pathOccupancy)
      banks := s.banks.set (lineBank l) ((s.bank (lineBank l)).requestAccess s.now false r)
      mem := s.mem.storeLine (s.openLine l) r.writeWords
      queues := s.queues.map (fun q => q.map (fun q => if q.stamp = r.stamp then q.issued [] r.writeCount else q))
      detached := s.detached.map (fun q => if q.stamp = r.stamp then q.issued [] r.writeCount else q) } := by
  have h := openLine_touchBank s.occupyPath l (fun x => x.requestAccess s.now false r)
    fun x => (requestAccess_keeps x _ _ _).2.2
  unfold State.writeStored State.storeWords
  rw [h]
  rfl

/-- The scrubber's write before its release and its step's end. -/
def State.scrubStored (s : State) (l : LineId) : State :=
  (s.occupyPath.touchBank l (fun x => x.issueAccess s.now false false)).storeWords l s.scrub.kept

theorem control_scrubWrite (s : State) (l : LineId) : Control (s.scrubStored l) (s.scrubWrite l) :=
  (control_releaseHold ..).trans ((control_scrubStepEnd _).trans (control_settle _))

theorem ports_scrubWrite (s : State) (l : LineId) (h : PortsConsistent (s.scrubStored l)) :
    Ports (s.scrubStored l) (s.scrubWrite l) := by
  have h1 : Ports (s.scrubStored l) ((s.scrubStored l).releaseHold .scrubber).scrubStepEnd := .of_eq rfl rfl rfl rfl
  exact h1.trans (ports_settle _ (h1.consistent ((control_releaseHold ..).trans (control_scrubStepEnd _)) h))

theorem scrubStored_eq (s : State) (l : LineId) :
    s.scrubStored l = { s with
      pathBusy := some (s.now + pathOccupancy)
      banks := s.banks.set (lineBank l) ((s.bank (lineBank l)).issueAccess s.now false false)
      mem := s.mem.storeLine (s.openLine l) s.scrub.kept } := by
  have h := openLine_touchBank s.occupyPath l (fun x => x.issueAccess s.now false false) fun x => rfl
  unfold State.scrubStored State.storeWords
  rw [h]
  rfl

theorem sweepWrite_eq (s : State) (l : LineId) :
    s.sweepWrite l = { s with
      pathBusy := some (s.now + pathOccupancy)
      banks := s.banks.set (lineBank l) ((s.bank (lineBank l)).issueAccess s.now false false)
      mem := s.mem.storeLine (s.openLine l) zeroLine
      scrub := { s.scrub with sweepAt := s.scrub.sweepAt + 1 } } := by
  have h := openLine_touchBank s.occupyPath l (fun x => x.issueAccess s.now false false) fun x => rfl
  unfold State.sweepWrite State.storeWords
  generalize zeroLine = z
  rw [h]
  rfl

theorem repairWrite_eq (s : State) (l : LineId) :
    s.repairWrite l = match s.currentJob with
      | none => s
      | some c => { s with
          pathBusy := some (s.now + pathOccupancy)
          banks := s.banks.set (lineBank l) ((s.bank (lineBank l)).issueAccess s.now false false)
          mem := s.mem.storeLine (s.openLine l) (s.bufferWords c.linesWritten)
          currentJob := some { c with
            linesWritten := c.linesWritten + 1
            poisonedWords := c.poisonedWords + poisonCount (s.bufferWords c.linesWritten) } } := by
  have h := openLine_touchBank s.occupyPath l (fun x => x.issueAccess s.now false false) fun x => rfl
  unfold State.repairWrite State.storeWords
  cases s.currentJob with
  | none => rfl
  | some c => dsimp only; rw [h]; rfl

/-! ## The others -/

/-- The watches of a port that leaves go, and the others stay. -/
theorem watchesBounded_leavePort {s : State} (h : WatchesBounded s) (p : Port) : WatchesBounded (s.leavePort p) where
  owned q := by
    have e : ∀ l : List (Option Watch), ((l.map (fun w => w.bind (Watch.unless p))).filter (ownedBy q)).length ≤
        (l.filter (ownedBy q)).length := by
      intro l
      induction l with
      | nil => exact Nat.le_refl 0
      | cons w l ih =>
        simp only [List.map_cons, List.filter_cons]
        cases w with
        | none => simpa [ownedBy] using ih
        | some w =>
          by_cases hw : w.owner = p
          · simp only [Option.bind_some, Watch.unless, hw, if_true, ownedBy, Bool.false_eq_true, if_false]
            split
            · simp only [List.length_cons]; omega
            · exact ih
          · simp only [Option.bind_some, Watch.unless, hw, if_false]
            split
            · simp only [List.length_cons]; omega
            · exact ih
    exact (e s.watches.items).trans (h.owned q)
  apart i j w hi hj := by
    have e : ∀ k, (s.leavePort p).watches.get k = some w → s.watches.get k = some w := by
      intro k hk
      change (s.watches.map _).get k = some w at hk
      rw [Table.get_map] at hk
      obtain ⟨x, hx, hw⟩ := Option.bind_eq_some_iff.mp hk
      unfold Watch.unless at hw
      split at hw
      · cases hw
      · rw [hx]; exact hw
    exact h.apart i j w (e i hi) (e j hj)

/-- After the port has left, only the control side acts. -/
theorem control_teardown (s : State) (p : Port) : Control (s.leavePort p) (s.teardown p) :=
  (Control.foldl control_leaveRegionOf _ _).trans ((control_quietBreak _).trans (control_settle _))

theorem ports_teardown (s : State) (p : Port) (h : PortsConsistent (s.leavePort p)) :
    Ports (s.leavePort p) (s.teardown p) := by
  have h1 := (Ports.foldl ports_leaveRegionOf (s.discarded p) (s.leavePort p)).trans (ports_quietBreak _)
  have c1 := (Control.foldl control_leaveRegionOf (s.discarded p) (s.leavePort p)).trans (control_quietBreak _)
  exact h1.trans (ports_settle _ (h1.consistent c1 h))

/-- The end of the wake before the blocks are evaluated anew. -/
def State.wakeDone (s : State) : State :=
  ((((s.mapBanks (fun _ x => x.woken)).setRefresh (s.refresh.restart (s.now + s.quarterLength))).setScrub
    s.scrubWake).setQuiet { s.quiet with part := .active, wakeTimer := none }).broadcast Enables.quietState .quietActive

theorem endWake_eq (s : State) : s.endWake = s.wakeDone.settle := rfl

theorem control_leaveWait (s : State) (b : BankId) : Control s (s.leaveWait b) := by
  unfold State.leaveWait
  split
  · split
    · exact control_setJob ..
    · exact .refl s
  · exact .refl s

theorem ports_leaveWait (s : State) (b : BankId) : Ports s (s.leaveWait b) := by
  unfold State.leaveWait
  split
  · split
    · exact .of_eq rfl rfl rfl rfl
    · exact .refl s
  · exact .refl s

/-- After the bank has left CLOSING, only the control side acts. -/
theorem control_endClose (s : State) (b : BankId) :
    Control (s.setBank b { s.bank b with state := s.restState b }) (s.endClose b) := by
  unfold State.endClose
  dsimp only
  split
  · split
    · exact (control_leaveWait ..).trans ((control_completeJob ..).trans (control_settle _))
    · exact control_leaveWait ..
  · exact control_leaveWait ..

theorem ports_endClose (s : State) (b : BankId)
    (h : PortsConsistent (s.setBank b { s.bank b with state := s.restState b })) :
    Ports (s.setBank b { s.bank b with state := s.restState b }) (s.endClose b) := by
  unfold State.endClose
  dsimp only
  split
  · split
    · rename_i c _ _
      have h1 := (ports_leaveWait (s.setBank b { s.bank b with state := s.restState b }) b).trans (ports_completeJob _ c)
      have c1 := (control_leaveWait (s.setBank b { s.bank b with state := s.restState b }) b).trans (control_completeJob _ c)
      exact h1.trans (ports_settle _ (h1.consistent c1 h))
    · exact ports_leaveWait ..
  · exact ports_leaveWait ..

theorem control_leaveWaitAny (s : State) : Control s s.leaveWaitAny := by
  unfold State.leaveWaitAny
  split
  · exact control_leaveWait ..
  · exact .refl s

theorem ports_leaveWaitAny (s : State) : Ports s s.leaveWaitAny := by
  unfold State.leaveWaitAny
  split
  · exact ports_leaveWait ..
  · exact .refl s

end Sys2Proof.Machine
end

