-- ==== Sys2Proof/Laws/Memory.lean ====
section
/-! SUPPORT. The array's cells: every memory operation keeps their canonical form, a cell reads as last written, and the operations on a
line change no cell outside its 64. -/

namespace Sys2Proof.Machine

/-! ## Sparse lists -/

section Sparse

variable {α : Type} [DecidableEq α] {d : α}

theorem sparseWf_mono {l : List (Nat × α)} {lo hi : Nat} (h : hi ≤ lo) (hl : sparseWf d lo l = true) :
    sparseWf d hi l = true := by
  cases l with
  | nil => rfl
  | cons e t =>
    obtain ⟨k, v⟩ := e
    simp only [sparseWf, Bool.and_eq_true, decide_eq_true_eq] at hl ⊢
    exact ⟨⟨by omega, hl.1.2⟩, hl.2⟩

/-- Writing keeps the canonical form. -/
theorem sparseSet_wf (l : List (Nat × α)) (lo a : Nat) (x : α) (hl : sparseWf d lo l = true) (ha : lo ≤ a) :
    sparseWf d lo (sparseSet d l a x) = true := by
  induction l generalizing lo with
  | nil =>
    unfold sparseSet
    split
    · rfl
    · rename_i hx; simp [sparseWf, ha, hx]
  | cons e t ih =>
    obtain ⟨k, v⟩ := e
    have hl' := hl
    simp only [sparseWf, Bool.and_eq_true, decide_eq_true_eq] at hl
    obtain ⟨⟨hk, hv⟩, ht⟩ := hl
    unfold sparseSet
    split
    · split
      · exact hl'
      · rename_i hx
        simp only [sparseWf, Bool.and_eq_true, decide_eq_true_eq]
        exact ⟨⟨ha, hx⟩, ⟨by omega, hv⟩, ht⟩
    · split
      · split
        · exact sparseWf_mono (by omega) ht
        · rename_i hx
          simp only [sparseWf, Bool.and_eq_true, decide_eq_true_eq]
          exact ⟨⟨ha, hx⟩, sparseWf_mono (by omega) ht⟩
      · simp only [sparseWf, Bool.and_eq_true, decide_eq_true_eq]
        exact ⟨⟨hk, hv⟩, ih _ ht (by omega)⟩

/-- Below its first key a canonical list reads as unlisted. -/
theorem sparseGet_below (l : List (Nat × α)) (lo a : Nat) (hl : sparseWf d lo l = true) (ha : a < lo) :
    sparseGet d l a = d := by
  cases l with
  | nil => rfl
  | cons e t =>
    obtain ⟨k, v⟩ := e
    simp only [sparseWf, Bool.and_eq_true, decide_eq_true_eq] at hl
    unfold sparseGet
    rw [if_pos (by omega)]

/-- Another key of a canonical list reads as before. -/
theorem sparseGet_sparseSet_of_ne (l : List (Nat × α)) (a b : Nat) (x : α) (h : b ≠ a) (lo : Nat)
    (hl : sparseWf d lo l = true) : sparseGet d (sparseSet d l a x) b = sparseGet d l b := by
  induction l generalizing lo with
  | nil =>
    unfold sparseSet
    split
    · rfl
    · simp only [sparseGet, h, if_false, ite_self]
  | cons e t ih =>
    obtain ⟨k, v⟩ := e
    simp only [sparseWf, Bool.and_eq_true, decide_eq_true_eq] at hl
    unfold sparseSet
    split
    · split
      · rfl
      · rename_i hk hx
        by_cases hb : b < a
        · rw [sparseGet, if_pos hb, sparseGet, if_pos (by omega)]
        · rw [sparseGet, if_neg hb, if_neg h]
    · split
      · rename_i hk he
        subst he
        by_cases hb : b < a
        · rw [show sparseGet d ((a, v) :: t) b = d by rw [sparseGet, if_pos hb]]
          split
          · exact sparseGet_below t _ b hl.2 (by omega)
          · rw [sparseGet, if_pos hb]
        · have e : sparseGet d ((a, v) :: t) b = sparseGet d t b := by rw [sparseGet, if_neg hb, if_neg h]
          rw [e]
          split
          · rfl
          · rw [sparseGet, if_neg hb, if_neg h]
      · simp only [sparseGet]
        split
        · rfl
        · split
          · rfl
          · exact ih _ hl.2

/-- The key written reads as written. -/
theorem sparseGet_sparseSet_self (l : List (Nat × α)) (a : Nat) (x : α) (lo : Nat) (hl : sparseWf d lo l = true) :
    sparseGet d (sparseSet d l a x) a = x := by
  induction l generalizing lo with
  | nil =>
    unfold sparseSet
    split
    · rename_i hx; subst hx; rfl
    · simp [sparseGet]
  | cons e t ih =>
    obtain ⟨k, v⟩ := e
    simp only [sparseWf, Bool.and_eq_true, decide_eq_true_eq] at hl
    unfold sparseSet
    split
    · rename_i hk
      split
      · rename_i hx; subst hx; rw [sparseGet, if_pos hk]
      · rw [sparseGet, if_neg (Nat.lt_irrefl a), if_pos rfl]
    · split
      · rename_i hk he
        subst he
        split
        · rename_i hx; subst hx; exact sparseGet_below t _ a hl.2 (by omega)
        · rw [sparseGet, if_neg (Nat.lt_irrefl a), if_pos rfl]
      · rename_i hk he
        rw [sparseGet, if_neg hk, if_neg he]
        exact ih _ hl.2

end Sparse

/-! ## The array -/

namespace Memory

variable {m : Memory}

theorem wf_cells (h : m.wf = true) : sparseWf unlistedByte 0 m.cells = true := by
  simp only [wf, Bool.and_eq_true] at h; exact h.1

theorem wf_marks (h : m.wf = true) : sparseWf CheckState.good 0 m.marks = true := by
  simp only [wf, Bool.and_eq_true] at h; exact h.2

theorem setByte_wf (h : m.wf = true) (a : Nat) (b : Byte) : (m.setByte a b).wf = true := by
  simp only [wf, Bool.and_eq_true] at h ⊢
  exact ⟨sparseSet_wf _ _ _ _ h.1 (Nat.zero_le a), h.2⟩

theorem setMark_wf (h : m.wf = true) (a : Nat) (c : CheckState) : (m.setMark a c).wf = true := by
  simp only [wf, Bool.and_eq_true] at h ⊢
  exact ⟨h.1, sparseSet_wf _ _ _ _ h.2 (Nat.zero_le a)⟩

theorem setBytes_wf (bs : List Byte) (m : Memory) (h : m.wf = true) (a : Nat) : (m.setBytes a bs).wf = true := by
  induction bs generalizing m a with
  | nil => exact h
  | cons b bs ih => exact ih _ (setByte_wf h a b) _

theorem storeWord_wf (h : m.wf = true) (a : Nat) (x : CheckedWord) : (m.storeWord a x).wf = true := by
  cases x with
  | data w => exact setMark_wf (setBytes_wf _ _ h _) _ _
  | poisoned => exact setMark_wf (setBytes_wf _ _ h _) _ _

theorem flipBits_wf (ws : List Flip) (m : Memory) (h : m.wf = true) (base : Nat) : (m.flipBits base ws).wf = true := by
  induction ws generalizing m with
  | nil => exact h
  | cons w ws ih => exact ih _ (setMark_wf h _ _)

theorem storeLine_wf (ws : List (WordIx × CheckedWord)) (m : Memory) (h : m.wf = true) (base : Nat) :
    (m.storeLine base ws).wf = true := by
  induction ws generalizing m with
  | nil => exact h
  | cons w ws ih => exact ih _ (storeWord_wf h _ _)

theorem writeBack_wf (ws : List (WordIx × WordOutcome)) (m : Memory) (h : m.wf = true) (base : Nat) :
    (m.writeBack base ws).wf = true := by
  induction ws generalizing m with
  | nil => exact h
  | cons w ws ih =>
    obtain ⟨w, o⟩ := w
    cases o with
    | corrected d => exact ih _ (storeWord_wf h _ _)
    | uncorrectable => exact ih _ (storeWord_wf h _ _)
    | clean d => exact ih _ h
    | poisoned => exact ih _ h

/-! ### What is read after a write -/

theorem byte_setByte_self (h : m.wf = true) (a : Nat) (b : Byte) : (m.setByte a b).byte a = b :=
  sparseGet_sparseSet_self _ _ _ _ (wf_cells h)

theorem byte_setByte_of_ne (h : m.wf = true) {a k : Nat} (hk : k ≠ a) (b : Byte) : (m.setByte a b).byte k = m.byte k :=
  sparseGet_sparseSet_of_ne _ _ _ _ hk _ (wf_cells h)

theorem mark_setMark_self (h : m.wf = true) (a : Nat) (c : CheckState) : (m.setMark a c).mark a = c :=
  sparseGet_sparseSet_self _ _ _ _ (wf_marks h)

theorem mark_setMark_of_ne (h : m.wf = true) {a k : Nat} (hk : k ≠ a) (c : CheckState) :
    (m.setMark a c).mark k = m.mark k := sparseGet_sparseSet_of_ne _ _ _ _ hk _ (wf_marks h)

/-- Two memories read alike outside the `n` cells from `base` on. -/
def AgreeOutside (base n : Nat) (m k : Memory) : Prop :=
  ∀ a, a < base ∨ base + n ≤ a → k.byte a = m.byte a ∧ k.mark a = m.mark a

namespace AgreeOutside

variable {base n : Nat} {m k l : Memory}

theorem refl (base n : Nat) (m : Memory) : AgreeOutside base n m m := fun _ _ => ⟨rfl, rfl⟩

theorem trans (h : AgreeOutside base n m k) (h' : AgreeOutside base n k l) : AgreeOutside base n m l :=
  fun a ha => ⟨(h' a ha).1.trans (h a ha).1, (h' a ha).2.trans (h a ha).2⟩

end AgreeOutside

theorem setMark_agrees (h : m.wf = true) {base n a : Nat} (ha : base ≤ a ∧ a < base + n) (c : CheckState) :
    AgreeOutside base n m (m.setMark a c) :=
  fun x hx => ⟨rfl, mark_setMark_of_ne h (by omega) c⟩

theorem setByte_agrees (h : m.wf = true) {base n a : Nat} (ha : base ≤ a ∧ a < base + n) (b : Byte) :
    AgreeOutside base n m (m.setByte a b) :=
  fun x hx => ⟨byte_setByte_of_ne h (by omega) b, rfl⟩

theorem setBytes_agrees (bs : List Byte) (m : Memory) (h : m.wf = true) {base n a : Nat}
    (ha : base ≤ a ∧ a + bs.length ≤ base + n) : AgreeOutside base n m (m.setBytes a bs) := by
  induction bs generalizing m a with
  | nil => exact .refl _ _ _
  | cons b bs ih =>
    simp only [List.length_cons] at ha
    exact (setByte_agrees h (by omega) b).trans (ih _ (setByte_wf h a b) (by omega))

theorem leBytes_length (n v : Nat) : (leBytes n v).length = n := by
  induction n generalizing v with
  | zero => rfl
  | succ n ih => simp [leBytes, ih]

theorem storeWord_agrees (h : m.wf = true) {base : Nat} (w : WordIx) (x : CheckedWord) :
    AgreeOutside base 64 m (m.storeWord (wordCell base w) x) := by
  have hw := w.isLt
  have ha : base ≤ wordCell base w ∧ wordCell base w + 8 ≤ base + 64 := by unfold wordCell; omega
  cases x with
  | data d =>
    exact (setBytes_agrees _ _ h (by rw [wordBytes, leBytes_length]; exact ha)).trans
      (setMark_agrees (setBytes_wf _ _ h _) (by omega) _)
  | poisoned =>
    exact (setBytes_agrees _ _ h (by rw [wordBytes, leBytes_length]; exact ha)).trans
      (setMark_agrees (setBytes_wf _ _ h _) (by omega) _)

/-- Bits that go wrong in a line change no cell outside it. -/
theorem flipBits_agrees (ws : List Flip) (m : Memory) (h : m.wf = true) (base : Nat) :
    AgreeOutside base 64 m (m.flipBits base ws) := by
  induction ws generalizing m with
  | nil => exact .refl _ _ _
  | cons w ws ih =>
    have hw := w.word.isLt
    exact (setMark_agrees h (by unfold wordCell; omega) _).trans (ih _ (setMark_wf h _ _))

/-- A line write changes no cell outside its line. -/
theorem storeLine_agrees (ws : List (WordIx × CheckedWord)) (m : Memory) (h : m.wf = true) (base : Nat) :
    AgreeOutside base 64 m (m.storeLine base ws) := by
  induction ws generalizing m with
  | nil => exact .refl _ _ _
  | cons w ws ih => exact (storeWord_agrees h w.1 w.2).trans (ih _ (storeWord_wf h _ _))

/-- The write-back within a read changes no cell outside its line. -/
theorem writeBack_agrees (ws : List (WordIx × WordOutcome)) (m : Memory) (h : m.wf = true) (base : Nat) :
    AgreeOutside base 64 m (m.writeBack base ws) := by
  induction ws generalizing m with
  | nil => exact .refl _ _ _
  | cons w ws ih =>
    obtain ⟨w, o⟩ := w
    cases o with
    | corrected d => exact (storeWord_agrees h w _).trans (ih _ (storeWord_wf h _ _))
    | uncorrectable => exact (storeWord_agrees h w _).trans (ih _ (storeWord_wf h _ _))
    | clean d => exact ih _ h
    | poisoned => exact ih _ h

end Memory

end Sys2Proof.Machine
end

