-- ==== Sys2Proof/Laws/Receiving.lean ====
section
/-! SUPPORT. What reading a packet's bytes gives: the check of a sent run is good, a changed check is not, and the bytes of a REQUEST give its
fields back. -/

namespace Sys2Proof.Machine

/-! ## The check -/

theorem checkBytes_length (c : BitVec 16) : (checkBytes c).length = 2 := rfl

theorem withCheck_length (bs : List Byte) : (withCheck bs).length = bs.length + 2 := by
  simp [withCheck, checkBytes]

/-- The run before the check, of a run with two bytes after it. -/
theorem take_front (bs : List Byte) (x y : Byte) : (bs ++ [x, y]).take ((bs ++ [x, y]).length - 2) = bs := by
  simp

/-- A run sent with its check is read back, if it has its two header bytes. -/
theorem checkedPart_withCheck {bs : List Byte} (h : 2 ≤ bs.length) : checkedPart (withCheck bs) = some bs := by
  have e : (withCheck bs).take ((withCheck bs).length - 2) = bs := take_front bs _ _
  unfold checkedPart
  rw [e]
  exact if_pos ⟨by rw [withCheck_length]; omega, rfl⟩

/-- A run whose last two bytes are not its check is refused. -/
theorem checkedPart_bad {bs : List Byte} {hi lo : Byte} (h : [hi, lo] ≠ checkBytes (packetCheck bs)) :
    checkedPart (bs ++ [hi, lo]) = none := by
  unfold checkedPart
  rw [take_front]
  refine if_neg fun hc => h ?_
  exact List.append_cancel_left hc.2

/-! ## REQUEST packets -/

theorem leNat_leBytes (n k : Nat) : leNat (leBytes n k) = k % 256 ^ n := by
  induction n generalizing k with
  | zero => simp [leBytes, leNat, Nat.mod_one]
  | succ n ih =>
    show (BitVec.ofNat 8 k).toNat + 256 * leNat (leBytes n (k / 256)) = k % 256 ^ (n + 1)
    have hb : (BitVec.ofNat 8 k).toNat = k % 256 := BitVec.toNat_ofNat ..
    rw [ih, hb, Nat.pow_succ', Nat.mod_mul]

/-- Byte 3 of a REQUEST gives its tag and its posted flag. -/
theorem flags_tag (t : Tag) (p : Bool) : (BitVec.ofNat 8 (t.toNat + 128 * p.toNat)).setWidth 6 = t := by
  apply BitVec.eq_of_toNat_eq
  have := t.isLt
  cases p <;> simp only [BitVec.toNat_setWidth, BitVec.toNat_ofNat, Bool.toNat_true, Bool.toNat_false] <;> omega

theorem flags_posted (t : Tag) (p : Bool) : (BitVec.ofNat 8 (t.toNat + 128 * p.toNat)).getLsbD 7 = p := by
  revert t p; decide

/-- The bytes of a REQUEST give its fields back. -/
theorem requestOf_requestBytes (k : Byte) (r : Request) : requestOf (requestBytes k r) = r := by
  have ha : leNat (leBytes 4 r.addr.toNat) = r.addr.toNat := by
    rw [leNat_leBytes]; exact Nat.mod_eq_of_lt r.addr.isLt
  obtain ⟨seq, tag, posted, addr, count, body⟩ := r
  simp only [requestOf, Request.mk.injEq]
  refine ⟨rfl, flags_tag tag posted, flags_posted tag posted, ?_, rfl, rfl⟩
  show BitVec.ofNat 32 (leNat (leBytes 4 addr.toNat)) = addr
  rw [ha, BitVec.ofNat_toNat, BitVec.setWidth_eq]

/-- A REQUEST packet is read as its kind's row, with its fields. -/
theorem packetCommand_requestPacket (dt : Nat) (p : Port) (k : Byte) (r : Request) :
    packetCommand dt p (requestPacket k r) = requestCommand dt p k r := by
  have h : 2 ≤ (requestBytes k r).length := by simp [requestBytes]
  unfold packetCommand requestPacket
  rw [checkedPart_withCheck h]
  have h0 : packetByte (requestBytes k r) 0 = 1 := rfl
  have h2 : packetByte (requestBytes k r) 2 = k := rfl
  dsimp only
  rw [requestOf_requestBytes, h0, h2]
  rfl

end Sys2Proof.Machine
end

