-- ==== Sys2Proof/Laws/Sends.lean ====
section
/-! SUPPORT. What a link sends next (R168, R170) and which response goes first (R50), and the quiet controller's review of the settling
conditions after an event (R150, R151, R153) and the end of a scrub step (R126), in the words of Safety.lean. -/

namespace Sys2Proof.Machine

/-! ## What a link sends next -/

theorem transmitterFree_iff {s : State} {p : Port} : s.transmitterFree p = true ↔ TransmitterFree s p := by
  unfold State.transmitterFree TransmitterFree
  cases (s.link p).transmitter <;> simp

theorem awaitsResponse_iff {r : Record} : r.awaitsResponse = true ↔ r.state = .done ∧ r.posted = false := by
  unfold Record.awaitsResponse Record.isDone
  simp

theorem unsent_iff {s : State} {p : Port} {r : Record} : r ∈ (s.queue p).filter Record.awaitsResponse ↔ Unsent s p r := by
  unfold Unsent
  rw [List.mem_filter, awaitsResponse_iff]

theorem due_nak {s : State} {p : Port} : (s.link p).nakDue = true ↔ Due s p .nak := ⟨.nak, fun h => by cases h; assumption⟩

theorem due_replay {s : State} {p : Port} : (s.link p).replayPacket.isSome = true ↔ Due s p .replay := by
  unfold Link.replayPacket
  constructor
  · intro h
    cases ha : (s.link p).replayAt with
    | none => rw [ha] at h; cases h
    | some i =>
      rw [ha] at h
      refine .replay i ha ?_
      by_contra hc
      simp only at h
      rw [List.getElem?_eq_none (by omega)] at h
      cases h
  · rintro (_ | ⟨i, ha, hi⟩)
    rw [ha]
    simp [hi]

theorem due_init {s : State} {p : Port} : ((s.link p).initPending && (s.link p).room) = true ↔ Due s p .init := by
  unfold Link.room Config.replayDepth
  simp only [Bool.and_eq_true, decide_eq_true_eq]
  exact ⟨fun h => .init h.1 h.2, fun h => by cases h; exact ⟨by assumption, by assumption⟩⟩

theorem due_response {s : State} {p : Port} :
    ((s.link p).room && ((s.queue p).any Record.awaitsResponse || !(s.link p).refusals.isEmpty)) = true ↔ Due s p .response := by
  unfold Link.room Config.replayDepth
  have h : ((s.queue p).any Record.awaitsResponse || !(s.link p).refusals.isEmpty) = true ↔
      (∃ r, Unsent s p r) ∨ (s.link p).refusals ≠ [] := by
    simp only [Bool.or_eq_true, List.any_eq_true, awaitsResponse_iff, Bool.not_eq_true', List.isEmpty_eq_false_iff]
    rfl
  rw [Bool.and_eq_true, h, decide_eq_true_eq]
  exact ⟨fun h => .response h.2 h.1, fun h => by cases h; exact ⟨by assumption, by assumption⟩⟩

theorem due_notice {s : State} {p : Port} : ((s.link p).room && !(s.noticeQ p).queue.isEmpty) = true ↔ Due s p .notice := by
  unfold Link.room Config.replayDepth
  simp only [Bool.and_eq_true, decide_eq_true_eq, Bool.not_eq_true', List.isEmpty_eq_false_iff]
  exact ⟨fun h => .notice h.2 h.1, fun h => by cases h; exact ⟨by assumption, by assumption⟩⟩

theorem due_ack {s : State} {p : Port} : (s.link p).ackTimer = .expired ↔ Due s p .ack := ⟨.ack, fun h => by cases h; assumption⟩

theorem due_idle {s : State} {p : Port} : (s.link p).keepalive = .expired ↔ Due s p .idle := ⟨.idle, fun h => by cases h; assumption⟩

open Classical in
/-- The first packet of R170's list that is due, in the words of `Due`. -/
theorem firstDue_eq (s : State) (p : Port) : s.firstDue p =
    if Due s p .nak then some .nak else if Due s p .replay then some .replay else if Due s p .init then some .init
    else if Due s p .response then some .response else if Due s p .notice then some .notice
    else if Due s p .ack then some .ack else if Due s p .idle then some .idle else none := by
  unfold State.firstDue
  exact ite_congr (propext due_nak) (fun _ => rfl) fun _ => ite_congr (propext due_replay) (fun _ => rfl) fun _ =>
    ite_congr (propext due_init) (fun _ => rfl) fun _ => ite_congr (propext due_response) (fun _ => rfl) fun _ =>
    ite_congr (propext due_notice) (fun _ => rfl) fun _ => ite_congr (propext due_ack) (fun _ => rfl) fun _ =>
    ite_congr (propext due_idle) (fun _ => rfl) fun _ => rfl

theorem firstDue_iff {s : State} {p : Port} {k : SendKind} :
    s.firstDue p = some k ↔ Due s p k ∧ ∀ j : SendKind, j.place < k.place → ¬ Due s p j := by
  rw [firstDue_eq]
  constructor
  · intro h
    repeat' split at h
    all_goals first
      | (cases h
         refine ⟨by assumption, fun j hj => ?_⟩
         cases j <;> simp only [SendKind.place] at hj <;> first | assumption | omega)
      | cases h
  · rintro ⟨h, hn⟩
    have h1 := hn .nak; have h2 := hn .replay; have h3 := hn .init; have h4 := hn .response; have h5 := hn .notice
    have h6 := hn .ack
    cases k <;> simp only [SendKind.place] at h1 h2 h3 h4 h5 h6 <;> simp_all

theorem sendsFirst_iff {s : State} {p : Port} {k : SendKind} : s.nextToSend p = some k ↔ SendsFirst s p k := by
  unfold State.nextToSend
  constructor
  · intro h
    split at h
    · next hc =>
      obtain ⟨hu, hf⟩ := Bool.and_eq_true_iff.mp hc
      obtain ⟨hd, hn⟩ := firstDue_iff.mp h
      exact ⟨hu, transmitterFree_iff.mp hf, hd, hn⟩
    · cases h
  · rintro ⟨hu, hf, hd, hn⟩
    rw [hu, transmitterFree_iff.mpr hf]
    exact firstDue_iff.mpr ⟨hd, hn⟩

theorem pick_of {α : Type} {before : α → α → Bool} {r : α} {l : List α} (hr : r ∈ l)
    (first : ∀ q ∈ l, q ≠ r → before r q = true) (anti : ∀ q ∈ l, before q r = false) : pick before l = some r := by
  induction l with
  | nil => cases hr
  | cons x t ih =>
    unfold pick
    by_cases ht : r ∈ t
    · rw [ih ht (fun q hq => first q (List.mem_cons_of_mem _ hq)) (fun q hq => anti q (List.mem_cons_of_mem _ hq))]
      show (if before r x then some r else some x) = some r
      by_cases hx : x = r
      · rw [hx]; split <;> rfl
      · simp only [first x List.mem_cons_self hx, if_true]
    · obtain rfl : r = x := (List.mem_cons.mp hr).resolve_right ht
      cases hp : pick before t with
      | none => rfl
      | some y =>
        have hy : y ∈ t := pick_mem hp
        simp only [anti y (List.mem_cons_of_mem _ hy)]
        rfl

theorem firstAnswer_of {s : State} {p : Port} {r : Record} {d : Instant} (h : AnswersFirst s p r d) : s.firstAnswer p = some r := by
  refine pick_of (unsent_iff.mpr h.unsent) (fun q hq hne => ?_) (fun q hq => ?_)
  · obtain ⟨e, he, hc⟩ := h.first q (unsent_iff.mp hq) hne
    unfold Record.answersBefore
    rw [h.instant, he]
    exact decide_eq_true hc
  · unfold Record.answersBefore
    by_cases hne : q = r
    · subst hne; simp
    · obtain ⟨e, he, hc⟩ := h.first q (unsent_iff.mp hq) hne
      rw [h.instant, he]
      simp only [Option.getD_some, decide_eq_false_iff_not, not_or, not_and]
      rcases hc with hc | ⟨rfl, hc⟩
      · exact ⟨by simpa using Nat.le_of_lt hc, fun hh => absurd hh (Nat.ne_of_gt hc)⟩
      · exact ⟨by simp, fun _ => by simpa using BitVec.le_of_lt hc⟩

theorem firstAnswer_none {s : State} {p : Port} : s.firstAnswer p = none ↔ ∀ r, ¬ Unsent s p r := by
  unfold State.firstAnswer
  rw [pick_none, List.eq_nil_iff_forall_not_mem]
  exact forall_congr' fun r => not_congr unsent_iff

/-! ## The quiet controller after an event -/

theorem settled_congr {s t : State} (hq : t.queues = s.queues) (hd : t.detached = s.detached) (hh : t.holds = s.holds)
    (hr : t.repairQueue = s.repairQueue) (hc : t.currentJob = s.currentJob) (hg : t.regions = s.regions) (hs : t.scrub = s.scrub)
    (hp : t.resetN = s.resetN) (hl : t.links = s.links) (hv : t.quiet.votes = s.quiet.votes) : Settles t ↔ Settles s := by
  constructor
  · rintro ⟨a, b, c, d, e, f, g⟩
    unfold State.online State.vote State.link at a
    unfold State.queue at b
    unfold State.region at e
    rw [hl, hv] at a; rw [hq, hd] at b; rw [hh] at c; rw [hr, hc] at d; rw [hg] at e; rw [hs] at f; rw [hp] at g
    exact ⟨a, b, c, d, e, f, g⟩
  · rintro ⟨a, b, c, d, e, f, g⟩
    unfold State.online State.vote State.link at a
    unfold State.queue at b
    unfold State.region at e
    rw [← hl, ← hv] at a; rw [← hq, ← hd] at b; rw [← hh] at c; rw [← hr, ← hc] at d; rw [← hg] at e; rw [← hs] at f
    rw [← hp] at g
    exact ⟨a, b, c, d, e, f, g⟩

theorem settles_reviewQuiet (s : State) : Settles s.reviewQuiet ↔ Settles s := by
  have hb : ∀ u : State, Settles u.quietBreak ↔ Settles u := fun u => by
    unfold State.quietBreak
    split <;> exact settled_congr rfl rfl rfl rfl rfl rfl rfl rfl rfl rfl
  have hg : ∀ u : State, Settles u.beginSettling ↔ Settles u := fun u => by
    unfold State.beginSettling State.enterEntering
    split <;> exact settled_congr rfl rfl rfl rfl rfl rfl rfl rfl rfl rfl
  unfold State.reviewQuiet
  dsimp only
  split <;> split
  · exact hg _
  · exact Iff.rfl
  · exact (hg _).trans (hb _)
  · exact hb _

theorem quietBreak_settling {s : State} (h : s.quiet.part = .settling) :
    s.quietBreak = s.setQuiet { s.quiet with part := .active, holdTimer := none } := by unfold State.quietBreak; rw [h]

theorem quietBreak_entering {s : State} (h : s.quiet.part = .entering) :
    s.quietBreak = (s.setQuiet { s.quiet with part := .active }).withdrawRetention := by unfold State.quietBreak; rw [h]

theorem quietBreak_else {s : State} (h1 : s.quiet.part ≠ .settling) (h2 : s.quiet.part ≠ .entering) : s.quietBreak = s := by
  unfold State.quietBreak
  split <;> first | rfl | contradiction

/-- The review of the settling conditions, in the words of R150, R151 and R153. -/
theorem quietReviewed_reviewQuiet (s : State) : QuietReviewed s s.reviewQuiet := by
  have hs := settles_reviewQuiet s
  by_cases h : Settles s
  · have hb : s.settled = true := settles_iff.mpr h
    have e : s.reviewQuiet = if s.quiet.part = .active then s.beginSettling else s := by
      unfold State.reviewQuiet
      simp only [hb, if_true, and_true]
    have no : ¬ ¬ Settles s.reviewQuiet := fun hn => hn (hs.mpr h)
    refine ⟨fun _ hp hq => ?_, fun _ hp hq => ?_, fun _ hp => ?_, fun hn => absurd hn no, fun hn => absurd hn no, fun hn => absurd hn no⟩
    · rw [e, if_pos hp] at hq ⊢
      unfold State.beginSettling State.enterEntering at hq ⊢
      split at hq
      · next h0 => exact absurd h0 hq
      · next h0 => rw [if_neg h0]; rfl
    · rw [e, if_pos hp] at hq ⊢
      unfold State.beginSettling State.enterEntering at hq ⊢
      split at hq
      · next h0 =>
        rw [if_pos h0]
        refine ⟨rfl, fun b hb => ?_⟩
        rw [State.bank_mapBanks]
        exact (congrArg (fun x : Bank => x.marks.retention) (if_pos hb)).trans rfl
      · next h0 => exact absurd hq h0
    · rw [e, if_neg hp]
  · have hb : s.settled = false := by
      cases hc : s.settled with
      | false => rfl
      | true => exact absurd (settles_iff.mp hc) h
    have hbr : s.quietBreak.settled = false := by
      cases hc : s.quietBreak.settled with
      | false => rfl
      | true =>
        refine absurd ((?_ : Settles s.quietBreak ↔ Settles s).mp (settles_iff.mp hc)) h
        unfold State.quietBreak
        split <;> exact settled_congr rfl rfl rfl rfl rfl rfl rfl rfl rfl rfl
    have e : s.reviewQuiet = s.quietBreak := by
      unfold State.reviewQuiet
      simp [hb, hbr]
    have no : ∀ {P : Prop}, Settles s.reviewQuiet → P := fun hh => absurd (hs.mp hh) h
    refine ⟨no, no, no, fun _ ha hb => ?_, fun _ ha => ?_, fun _ ha => ?_⟩
    · rw [e, quietBreak_else ha hb]
    · rw [e, quietBreak_settling ha]; rfl
    · rw [e, quietBreak_entering ha]
      exact ⟨rfl, fun b => by simp only [State.withdrawRetention, State.bank_mapBanks]⟩

/-- An admission ends SETTLING and abandons ENTERING. -/
theorem admissionEnds_quietBreak (s : State) : AdmissionEnds s s.quietBreak := by
  refine ⟨fun h => ?_, fun h => ?_, fun h => ?_⟩
  · rw [quietBreak_settling h]; exact ⟨rfl, rfl⟩
  · rw [quietBreak_entering h]
    exact ⟨rfl, fun b => by simp only [State.withdrawRetention, State.bank_mapBanks]⟩
  · rw [quietBreak_else (by rw [h]; decide) (by rw [h]; decide)]; exact h

/-! ## The end of a scrub step -/

theorem stepEnded_scrubStepEnd (s : State) : StepEnded s s.scrubStepEnd s.now := by
  refine ⟨rfl, rfl, rfl, ?_, rfl⟩
  show (if s.scrub.pointer.val + 1 = 33554432 then countUp top16 s.scrub.passes else s.scrub.passes) = _
  unfold countUp top16
  split
  · next h => split <;> simp_all
  · next h => rw [if_neg (fun hh => h (by omega))]

end Sys2Proof.Machine
end

