-- ==== Sys2Proof/Laws/Step.lean ====
section
/-! SUPPORT. How an invariant of every step is proved: it holds whatever waits and whatever the instant, and every way of `After` keeps it. -/

namespace Sys2Proof.Machine

theorem step_keeps (inv : State → Prop) (hq : ∀ s q, inv s → inv { s with pending := q })
    (hn : ∀ s n, inv s → inv (s.atInstant n)) (ha : ∀ s c t, inv s → After s c t → inv t) (s t : State) (hs : inv s)
    (h : step s = .next t) : inv t := by
  unfold step at h
  split at h
  · rw [next_inj h]; exact hs
  · rename_i i rest _
    obtain ⟨dt, hd⟩ := exec_after h
    obtain ⟨n, e⟩ := State.passTime_exists { s with pending := rest } dt
    rw [e] at hd
    exact ha _ _ _ (hn _ _ (hq _ _ hs)) hd

end Sys2Proof.Machine
end

