-- ==== Sys2Proof/Laws/Waiting.lean ====
section
/-! SUPPORT. What settling does where no control record is to be carried out (R27, R57, R150), what the admission of a record that waits
changes (R27, R34), and what a teardown leaves to the quiet controller (R150, R153), in the words of Safety.lean. -/

namespace Sys2Proof.Machine

/-! ## Settling with no control record to carry out -/

theorem review_state_not_ready {s : State} {q : Record} (h : s.blockReason q ≠ none) (ha : q.state ≠ .active) (hd : q.state ≠ .done) :
    (s.review q).state ≠ .ready := by
  unfold State.review
  split
  · split <;> simp_all
  · split <;> simp_all
  · contradiction
  · contradiction

/-- The records are evaluated anew, and that is all. -/
theorem drive_noneToCarryOut {s : State} (h : NoneToCarryOut s) (n : Nat) : State.drive n s = s.reviewRecords := by
  cases n with
  | zero => rfl
  | succ n =>
    have hn : ∀ p, s.reviewRecords.nextOfPort p = none := by
      intro p
      unfold State.nextOfPort
      rw [List.find?_eq_none, reviewRecords_queue]
      intro x hx hc
      obtain ⟨q, hq, rfl⟩ := List.mem_map.mp hx
      have hr := reviewed_review (s := s) q
      simp only [Bool.and_eq_true, Record.isReady, decide_eq_true_eq, ReqOp.isControl, Bool.not_eq_true', ReqOp.usesLines] at hc
      have hop : (s.review q).op = q.op := by rw [hr.same]
      rw [hop] at hc
      by_cases h1 : q.state = .active
      · rw [hr.fixed (Or.inl h1), h1] at hc; exact absurd hc.1 (by simp)
      · by_cases h2 : q.state = .done
        · rw [hr.fixed (Or.inr h2), h2] at hc; exact absurd hc.1 (by simp)
        · rcases h p q hq (by simpa using hc.2) with h3 | h3 | ⟨c, h3⟩
          · exact absurd h3 h1
          · exact absurd h3 h2
          · exact review_state_not_ready (blockReason_heldBack h3) h1 h2 hc.1
    unfold State.drive
    dsimp only
    have : s.reviewRecords.nextControl = none := by
      unfold State.nextControl
      simp [hn]
    rw [this]

theorem settle_noneToCarryOut {s : State} (h : NoneToCarryOut s) :
    s.settle = s.reviewRecords.reviewScrub.reviewIdle.reviewQuiet := by
  unfold State.settle
  rw [drive_noneToCarryOut h]

/-- The review of the settling conditions leaves everything but the quiet controller and the close marks. -/
theorem reviewQuiet_frame (t : State) : t.reviewQuiet = { t with quiet := t.reviewQuiet.quiet, banks := t.reviewQuiet.banks } := by
  have hb : ∀ t : State, t.quietBreak = { t with quiet := t.quietBreak.quiet, banks := t.quietBreak.banks } := by
    intro t
    unfold State.quietBreak
    split <;> rfl
  have hs : ∀ t : State, t.beginSettling = { t with quiet := t.beginSettling.quiet, banks := t.beginSettling.banks } := by
    intro t
    unfold State.beginSettling State.enterEntering
    split <;> rfl
  unfold State.reviewQuiet
  dsimp only
  split
  · split
    · exact hs _
    · rfl
  · split
    · rw [hs _, hb t]
    · exact hb _

theorem held_iff {s : State} {l : LineId} : s.held l = true ↔ ∃ e ∈ s.holds, e.line = l := by
  unfold State.held
  simp

/-- A STARTED or PENDING step whose line is held is skipped, and any other stands (R57, R125). -/
theorem settle_scrub {s : State} (h : NoneToCarryOut s) :
    s.settle.scrub = if (s.scrub.step = .started ∨ s.scrub.step = .pending) ∧ s.held s.scrub.pointer = true then s.scrubStepEnd.scrub
      else s.scrub := by
  have e : s.settle.scrub = s.reviewRecords.reviewScrub.scrub := by
    rw [settle_noneToCarryOut h, reviewQuiet_frame]
    rfl
  rw [e]
  unfold State.reviewScrub
  have hc : ((s.reviewRecords.scrub.step = .started ∨ s.reviewRecords.scrub.step = .pending) ∧
      s.reviewRecords.held s.reviewRecords.scrub.pointer = true) =
      ((s.scrub.step = .started ∨ s.scrub.step = .pending) ∧ s.held s.scrub.pointer = true) := rfl
  simp only [hc]
  split <;> rfl

theorem StepEnded.of_scrub {s t u : State} {now : Instant} (h : StepEnded s t now) (e : u.scrub = t.scrub) : StepEnded s u now :=
  ⟨by rw [e]; exact h.step, by rw [e]; exact h.kept, by rw [e]; exact h.pointer, by rw [e]; exact h.passes, by rw [e]; exact h.timer⟩

theorem stepEnded_settle {s : State} (h : NoneToCarryOut s) (hs : s.scrub.step = .started ∨ s.scrub.step = .pending)
    (hl : s.held s.scrub.pointer = true) : StepEnded s s.settle s.now :=
  (stepEnded_scrubStepEnd s).of_scrub (by rw [settle_scrub h, if_pos ⟨hs, hl⟩])

/-- What the review before the quiet controller's changes is nothing it looks at. -/
theorem quietReviewed_settle {s : State} (h : NoneToCarryOut s) : QuietReviewed s s.settle := by
  have hq := quietReviewed_reviewQuiet s.reviewRecords.reviewScrub.reviewIdle
  rw [← settle_noneToCarryOut h] at hq
  have e : s.reviewRecords.reviewScrub = { s.reviewRecords with scrub := s.reviewRecords.reviewScrub.scrub } := by
    unfold State.reviewScrub; split <;> rfl
  have e1 : s.reviewRecords.reviewScrub.reviewIdle.quiet = s.quiet := by rw [e]; rfl
  have e2 : ∀ b, (s.reviewRecords.reviewScrub.reviewIdle.bank b).state = (s.bank b).state := by
    intro b
    unfold State.reviewIdle
    rw [State.bank_mapBanks]
    have hb : s.reviewRecords.reviewScrub.bank b = s.bank b := by rw [e]; rfl
    rw [hb]
    exact (idleNext_core _ b (s.bank b)).2.1
  exact ⟨fun a b c => e1 ▸ hq.begins a (e1 ▸ b) c,
    fun a b c => ⟨e1 ▸ (hq.enters a (e1 ▸ b) c).1, fun k hk => (hq.enters a (e1 ▸ b) c).2 k (by rw [e2]; exact hk)⟩,
    fun a b => e1 ▸ hq.stands a (e1 ▸ b), fun a b c => e1 ▸ hq.idle a (e1 ▸ b) (e1 ▸ c), fun a b => e1 ▸ hq.ends a (e1 ▸ b),
    fun a b => ⟨e1 ▸ (hq.abandons a (e1 ▸ b)).1, (hq.abandons a (e1 ▸ b)).2⟩⟩

/-! ## A record that waits from its admission on -/

theorem quietBreak_frame (s : State) : s.quietBreak = { s with quiet := s.quietBreak.quiet, banks := s.quietBreak.banks } := by
  unfold State.quietBreak
  split <;> rfl

theorem quietBreak_votes (s : State) : s.quietBreak.quiet.votes = s.quiet.votes := by
  unfold State.quietBreak
  split <;> rfl

/-- What ends SETTLING and ENTERING changes nothing that Table 15 looks at. -/
theorem blockReason_quietBreak (s : State) (x : Record) : s.quietBreak.blockReason x = s.blockReason x := by
  unfold State.quietBreak
  split
  · next h => unfold State.blockReason State.asleep; rw [h]; rfl
  · next h => unfold State.blockReason State.asleep; rw [h]; rfl
  · rfl
  · rfl
  · rfl

/-- The admission of a record of no region that waits: it joins, and a REPAIR wakes a RETAINED part. -/
theorem letIn_waits {s : State} {p : Port} {t : Tag} {o : ReqOp} {c : BlockReason}
    (hc : s.blockReason (s.newRecord p t o false none) = some c) (ha : s.asleep = true → (o.isArray = true ↔ c = .retention)) :
    JoinsWaiting s (s.letIn p t o false none) p t o c := by
  have hr : s.quietBreak.review (s.newRecord p t o false none) = { s.newRecord p t o false none with blocked := some c } := by
    unfold State.review
    rw [blockReason_quietBreak, hc]
    rfl
  have hl : s.letIn p t o false none = s.enqueue p t o false none := by
    unfold State.letIn
    dsimp only
    rw [hr]
    rfl
  have he : s.enqueue p t o false none =
      if o.isArray then (s.quietBreak.joined p { s.newRecord p t o false none with blocked := some c } none).wakeCause .request p
      else s.quietBreak.joined p { s.newRecord p t o false none with blocked := some c } none := by
    rw [enqueue_eq]
    unfold State.firstRecord
    rw [hr]
  obtain ⟨j, hj⟩ : ∃ j, j = s.quietBreak.joined p { s.newRecord p t o false none with blocked := some c } none := ⟨_, rfl⟩
  have jf : j = { s with queues := j.queues, stampCounter := j.stampCounter, quiet := s.quietBreak.quiet, banks := s.quietBreak.banks } := by
    rw [hj]
    unfold State.joined State.countIn
    rw [quietBreak_frame]
    rfl
  have jq : j.quiet = s.quietBreak.quiet := by rw [jf]
  have jb : j.banks = s.quietBreak.banks := by rw [jf]
  have jqueue : j.queue p = s.queue p ++ [{ s.newRecord p t o false none with blocked := some c }] := by
    rw [hj, (joined_eqs ..).2.2.2.2.2.2.2.2.2.2.2.2.2.1, quietBreak_queue]
  have jothers : ∀ q, q ≠ p → j.queue q = s.queue q := fun q hq => by
    rw [hj, (joined_eqs ..).2.2.2.2.2.2.2.2.2.2.2.2.2.2 q hq, quietBreak_queue]
  have jc : j.stampCounter = s.stampCounter + 1 := by
    rw [hj, (joined_eqs ..).2.2.2.2.2.2.2.2.2.2.2.2.1, quietBreak_stampCounter]
  obtain ⟨u, hu⟩ : ∃ u, u = s.letIn p t o false none := ⟨_, rfl⟩
  have uj : u = { j with quiet := u.quiet } := by
    rw [hu, hl, he, ← hj]
    split
    · unfold State.wakeCause; split <;> rfl
    · rfl
  have part : s.quietBreak.quiet.part = .retained → s.quiet.part = .retained := by
    intro h
    by_contra hn
    by_cases h1 : s.quiet.part = .settling
    · rw [quietBreak_settling h1] at h; cases h
    · by_cases h2 : s.quiet.part = .entering
      · rw [quietBreak_entering h2] at h; cases h
      · rw [quietBreak_else h1 h2] at h; exact hn h
  have uq : u.quiet = if c = .retention ∧ j.quiet.part = .retained then
      { j.quiet with part := .waking, wakeRecord := j.quiet.wakeRecord.or (some (.request, p)) } else j.quiet := by
    rw [hu, hl, he, ← hj]
    by_cases h2 : j.quiet.part = .retained
    · have hs : s.asleep = true := by
        unfold State.asleep
        rw [part (jq ▸ h2)]
        rfl
      by_cases h : c = .retention
      · rw [if_pos ((ha hs).mpr h), if_pos ⟨h, h2⟩]
        unfold State.wakeCause
        rw [if_pos h2]
        rfl
      · rw [if_neg (fun hh => h ((ha hs).mp hh)), if_neg (fun hh => h hh.1)]
    · rw [if_neg (c := c = .retention ∧ j.quiet.part = .retained) (fun hh => h2 hh.2)]
      split
      · unfold State.wakeCause; rw [if_neg h2]
      · rfl
  have hend := admissionEnds_quietBreak s
  rw [← hu]
  refine ⟨⟨{ s.newRecord p t o false none with blocked := some c }, ?_, rfl, rfl, rfl, rfl, rfl, rfl, rfl, rfl, rfl, rfl, rfl⟩,
    fun _ => ?_, fun q hq => ⟨?_, ?_⟩, ?_, ?_, ?_, fun h => ?_, ⟨fun h => ?_, fun h => ?_, fun h => ?_⟩, fun h => ?_, fun h => ?_⟩
  · rw [uj]; exact jqueue
  · rw [uj]; exact jc
  · rw [uj]; exact jothers q hq
  · rw [uj, jf]; rfl
  · rw [uj, jf]; rfl
  · rw [uq]; split <;> (rw [jq]; exact quietBreak_votes s)
  · rw [uj, jf]
  · rw [uj]
    show j.banks = s.banks
    rw [jb]
    unfold State.quietBreak
    split <;> first | rfl | contradiction
  · rw [uq, jq, if_neg (fun hh => by rw [part hh.2] at h; cases h)]; exact hend.settling h
  · refine ⟨?_, fun b => ?_⟩
    · rw [uq, jq, if_neg (fun hh => by rw [part hh.2] at h; cases h)]; exact (hend.entering h).1
    · rw [uj]
      show (j.banks.get b).marks.retention = false
      rw [jb]; exact (hend.entering h).2 b
  · rw [uq, jq, if_neg (fun hh => by rw [part hh.2] at h; cases h)]; exact hend.active h
  · have e : s.quietBreak = s := quietBreak_else (by rw [h]; decide) (by rw [h]; decide)
    rw [uq, jq, e]
    by_cases hr : c = .retention
    · rw [if_pos ⟨hr, h⟩, if_pos hr]
    · rw [if_neg (fun hh => hr hh.1), if_neg hr]
  · have e : s.quietBreak = s := quietBreak_else (by rw [h]; decide) (by rw [h]; decide)
    rw [uq, jq, e, if_neg (fun hh => by rw [h] at hh; cases hh.2)]

/-! ## The arrival of a control request -/

/-- A well-formed control request passes the checks of Table 16. -/
theorem verdict_control {s : State} {p : Port} {k : Kind} {r : Request} {o : ReqOp} (h : ControlAdmitted s p r) (hw : WellFormedAs r k o)
    (hs : o.span = none) (hk : k = .repair → s.scrub.sweepDone = true) : s.verdict p k.code r = .accept o false none := by
  have hko := formed_iff.mp hw
  unfold State.verdict
  have h1 : ¬ Config.queueDepth ≤ (s.queue p).length := by have := h.room; unfold Config.queueDepth; omega
  rw [if_neg h1]
  have h2 : (codeIsArray k.code && !s.scrub.sweepDone) = false := by
    cases hw <;> first | contradiction | rfl | (rw [hk rfl]; rfl)
  rw [h2]
  have h3 : requestOp k.code r = some o := by
    unfold requestOp
    rw [show Kind.ofCode k.code = some k by cases k <;> rfl]
    simp [hko, h.plain]
  rw [h3]
  have h4 : o.crossesRow = false := by cases hw <;> first | rfl | contradiction
  simp [h4, h.tag, hs, h.plain]

theorem receive_control {s : State} {p : Port} {k : Kind} {r : Request} {o : ReqOp} (h : ControlAdmitted s p r) (hw : WellFormedAs r k o)
    (hs : o.span = none) (hk : k = .repair → s.scrub.sweepDone = true) :
    s.receive p k.code r = ((s.heard p).acceptPacket p).letIn p r.tag o false none := by
  have hv := verdict_control h hw hs hk
  have hd : s.discards p k.code r = false := by
    unfold State.discards; rw [hv]; simp [h.sequence]
  unfold State.receive
  rw [if_pos h.online, hd]
  unfold State.decideRequest
  rw [show ((s.heard p).acceptPacket p).verdict p k.code r = s.verdict p k.code r from rfl, hv]
  rfl

/-- A row that carries a REQUEST hands it to the link after the time passed. -/
theorem exec_requestRow {i : Instr} {dt : Nat} {p : Port} {b : Byte} {r : Request} (h : requestRow i = some (dt, p, b, r)) (s : State) :
    exec i s = .next ((s.passTime dt).receive p b r) := by
  cases i <;> simp [requestRow, memoryRow, settingRow, getRow] at h <;> (obtain ⟨rfl, rfl, rfl, rfl⟩ := h; rfl)

/-- A control request that meets a condition of Table 15 as it arrives waits for the first of them. -/
theorem receive_waits {s : State} {p : Port} {k : Kind} {r : Request} {o : ReqOp} {c : BlockReason} (h : ControlAdmitted s p r)
    (hw : WellFormedAs r k o) (hs : o.span = none) (hk : k = .repair → s.scrub.sweepDone = true)
    (hc : FirstReason s (s.newRecord p r.tag o false none) c) (ha : s.asleep = true → (o.isArray = true ↔ c = .retention)) :
    JoinsWaiting s (s.receive p k.code r) p r.tag o c := by
  rw [receive_control h hw hs hk]
  have hj := letIn_waits (s := (s.heard p).acceptPacket p) (p := p) (t := r.tag) (o := o) (c := c)
    (by exact blockReason_some hc) ha
  obtain ⟨hr, h1, h2, h3, h4, h5, h6, h7, h8, h9⟩ := hj
  refine ⟨hr, h1, fun q hq => ⟨(h2 q hq).1, (h2 q hq).2.trans ?_⟩, h3.trans ?_, h4, ?_, h6, ⟨h7.1, h7.2, h7.3⟩, h8, h9⟩
  · unfold State.acceptPacket State.heard; simp [hq]
  · unfold State.acceptPacket State.heard; simp
  · rw [h5]; rfl

end Sys2Proof.Machine
end

