-- ==== Sys2Proof/Tests/Slice0.lean ====
section
/-! SUPPORT. The model's own tests: ill-formed commands that are refused, a state and operands that meet the hypotheses of each
statement, and single steps on small states. -/

namespace Sys2Proof.Machine.Test

section

-- One theorem at a time: many that wait for the kernel at once would each take a thread.
set_option Elab.async false

/-! ## Small states -/

/-- The next state of an outcome. -/
def nextOf : Host.Outcome State Fault Refusal → State
  | .next t => t
  | .fault _ => State.reset
  | .refused _ => State.reset

/-- The three links UP, the sweep FINISHED, at instant 1000. -/
def up : State :=
  { State.reset with
    now := 1000
    links := .all { Link.reset with state := .up, keepalive := .running 401000, silence := some 4001000 }
    quiet := { Quiet.reset with votes := .all (some .awake) }
    scrub := { Scrubber.reset with sweepDone := true, sweepAt := 33554432, timer := some 32000 }
    refresh := .reset 4000 }

/-- `up` with the path busy: the arbiter issues nothing. -/
def busy : State := { up with pathBusy := some 1005 }

/-- Port A holds the claim. -/
def claimed : State := { up with claim := ⟨some .a, some 41000⟩ }

/-- A record of port A. -/
def rec0 (op : ReqOp) (st : RecState) : Record :=
  { port := .a, tag := 5, op := op, posted := false, region := some 0, stamp := 0, state := st,
    blocked := if st = .waiting then some .order else none, aged := false, linesDone := 0, readLines := [], result := none, doneAt := none,
    since := 900 }

/-- `up` with that record in port A's queue. -/
def withRec (r : Record) : State :=
  { up with queues := ⟨[r], [], []⟩, stampCounter := 1, regions := regionsReset.set 0 { Region.whole with inFlight := 1 } }

/-- A bank OPEN at a row since instant 0. -/
def openBank (row : RowId) : Bank :=
  { Bank.reset with state := .opened, openRow := some row, lastOpen := some 0, openAge := .running 160000 }

/-- `withRec` with bank 0 OPEN at row 0. -/
def atRow (r : Record) : State := (withRec r).setBank 0 (openBank 0)

def req (body : List Byte) : Request := ⟨0, 9, false, 0, 1, body⟩

def zeros (n : Nat) : List Byte := List.replicate n 0

def word0 : CheckedWord := .data 0

/-! ## Well-formedness: each check refuses an ill-formed command -/

theorem test_wf_body_too_long :
    (Instr.write 0 .a (req (zeros 521))).wellFormed = false ∧ (Instr.write 0 .a (req (zeros 520))).wellFormed = true := by
  decide +kernel

theorem test_wf_item_body_too_long :
    (Instr.setCloseIdle 0 .a (req (zeros 520))).wellFormed = false ∧
      (Instr.setCloseIdle 0 .a (req (zeros 519))).wellFormed = true := by decide +kernel

theorem test_wf_other_kind_of_the_master :
    (Instr.otherKindDiscard 0 .a 5).wellFormed = false ∧ (Instr.otherKindDiscard 0 .a 2).wellFormed = true := by decide +kernel

theorem test_wf_unknown_kind_is_unknown :
    (Instr.unknownRequestKind 0 .a 18 (req [])).wellFormed = false ∧
      (Instr.unknownRequestKind 0 .a 19 (req [])).wellFormed = true ∧
      (Instr.unknownRequestKind 0 .a 0 (req [])).wellFormed = true := by decide +kernel

theorem test_wf_unknown_set_item_is_unknown :
    (Instr.setUnknownItem 0 .a (req [9, 0, 0])).wellFormed = false ∧
      (Instr.setUnknownItem 0 .a (req [10, 0, 0])).wellFormed = true := by decide +kernel

theorem test_wf_unknown_get_item_is_unknown :
    (Instr.getUnknownItem 0 .a (req [23])).wellFormed = false ∧
      (Instr.getUnknownItem 0 .a (req [9])).wellFormed = true ∧ (Instr.getUnknownItem 0 .a (req [24])).wellFormed = true := by
  decide +kernel

/-! ## Sanity of the fields, the bytes and the check -/

/-- Table 7. -/
theorem test_address_fields :
    lineRow (addrLine 0x12345678) = 9320 ∧ lineBank (addrLine 0x12345678) = 10 ∧ lineIx (addrLine 0x12345678) = 25 ∧
      addrWord 0x12345678 = 7 := by decide +kernel

/-- The check of the ASCII digits 1 to 9 with this generator and starting value is 29B1h. -/
theorem test_packet_check : packetCheck [0x31, 0x32, 0x33, 0x34, 0x35, 0x36, 0x37, 0x38, 0x39] = 0x29B1 := by decide +kernel

theorem test_word_bytes : wordBytes 0x0807060504030201 = [1, 2, 3, 4, 5, 6, 7, 8] ∧
    wordOfBytes [1, 2, 3, 4, 5, 6, 7, 8] = 0x0807060504030201 := by decide +kernel

/-- A RESPONSE to a SWAP, but for its check. -/
theorem test_response_bytes :
    (Packet.bodyBytes { seq := 3, ackField := 7, free := 15, content := .response 9 ⟨.ok, .oldWord 0x0102⟩ }) =
      [2, 3, 7, 15, 9, 0, 8, 0, 2, 1, 0, 0, 0, 0, 0, 0] := by decide +kernel

/-- A WATCH_ENDED notice of the line 1000h, written by port B, but for its check. -/
theorem test_notice_bytes :
    (Packet.bodyBytes { seq := 0, ackField := 255, free := 16, content := .notice (.watchEnded 4 64 (.written .b)) }) =
      [3, 0, 255, 16, 1, 7, 0, 4, 0, 16, 0, 0, 0, 1] := by decide +kernel

/-! ## From reset: pull-in refreshes, then the sweep opens its first row; without a command the part idles -/

theorem test_reset_refreshes_first : State.reset.arbiterChoice = some ⟨.refreshGroup 0, .upkeep⟩ := by decide +kernel

theorem test_empty_queue_idles : nextOf (step State.reset) = State.reset := by decide +kernel

theorem test_no_row_has_bits : State.reset.withFetchWord 8 1 = State.reset := by decide +kernel

/-- Reset with every debt at −8, where no refresh may be pulled in (R106). -/
def pulledIn : State := { State.reset with refresh := { Refresh.reset 4000 with debt := .replicate 4 (-8) } }

/-- The first line of the sweep: OPEN, the open delay's end, WRITE_LINE; time waits for the delay. -/
theorem test_sweep_writes_its_first_line :
    (let s1 := nextOf (execOpenRow 0 0 0 pulledIn)
     let s2 := nextOf (execPathOccupancyExpiry 100 s1)
     let s3 := nextOf (execOpenDelayEnd 100 0 s2)
     let s4 := nextOf (execWriteLine 0 0 0 s3)
     (s1.now, s2.now, s3.now, s4.scrub.sweepAt)) = (0, 5, 56, 1) := by decide +kernel

/-! ## Hypotheses met: steps, time, resets and pins -/

theorem test_hyp_StepRunsFrontCommand :
    ({ up with pending := [.coldReset 0, .retain 0] } : State).pending = [.coldReset 0, .retain 0] ∧
      State.reset.pending = [] := by decide +kernel

theorem test_hyp_PathAndIntervalExpiries :
    (busy.passTime 5).reached (busy.passTime 5).pathBusy = true ∧ (busy.passTime 4).reached busy.pathBusy = false ∧
      ((busy.setBank 3 (openBank 0)).passTime 9).now = 1005 := by decide +kernel

theorem test_hyp_WarmResetActsOnEveryBlock :
    (up.passTime 0).resetN = true ∧ (nextOf (execWarmReset 0 (atRow (rec0 (.read 0 1) .ready)))).bank 0 =
      { openBank 0 with openAge := .stopped, resetClose := true, idleReset := true } := by decide +kernel

/-- The pin is low in a part that a warm reset has taken ACTIVE, with its settling conditions held and not held. -/
theorem test_hyp_PinsActOnTheirBlocks :
    (let s : State := { busy with resetN := false, links := .all Link.reset, quiet := Quiet.reset }
     let t : State := { busy with resetN := false }
     (s.passTime 0).resetN = false ∧ (s.passTime 0).quiet.part = .active ∧
       ({ s.passTime 0 with resetN := true } : State).settled = true ∧ s.settings.quietHold ≠ 0 ∧
       (t.passTime 0).resetN = false ∧ (t.passTime 0).quiet.part = .active ∧
       ({ t.passTime 0 with resetN := true } : State).settled = false) := by decide +kernel

/-! ## Hypotheses met: the links -/

theorem test_hyp_LinkTrainingMoves :
    (let s : State := { busy with links := .all { Link.reset with state := .training, training := some 1000 } }
     (State.reset.passTime 0).resetN = true ∧ ((State.reset.passTime 0).link .a).state = .down ∧
       ((s.passTime 0).link .a).state = .training ∧ (s.passTime 0).reached ((s.passTime 0).link .a).training = true ∧
       (s.setQuiet { s.quiet with part := .retained }).quiet.part = .retained ∧
       (s.setQuiet { s.quiet with part := .settling }).quiet.part = .settling ∧
       (s.setQuiet { s.quiet with part := .entering }).quiet.part = .entering) := by decide +kernel

theorem test_ports_consistent : PortsConsistent up where
  own := by intro p; cases p <;> decide
  offline := by intro p h; cases p <;> exact absurd h (by decide)
  votes := by intro p; cases p <;> decide
  holder := by intro p; cases p <;> decide
  timer := by decide

theorem test_hyp_LinkLossTearsDown :
    PortsConsistent up ∧ up.online .b = true ∧
      (let s := up.setLink .b { up.link .b with silence := some 1000 }
       s.online .b = true ∧ (s.passTime 0).reached (s.link .b).silence = true) :=
  ⟨test_ports_consistent, by decide, by decide +kernel⟩

theorem test_hyp_DiscardedPacketsAreCounted :
    up.online .a = true ∧ (⟨1, 0, false, 0, 1, []⟩ : Request).seq ≠ (up.link .a).expected ∧
      ([0, 2, 3, 4, 9, 255] : List Byte).all (fun k => k ≠ 1 ∧ k ≠ 5 ∧ k ≠ 6 ∧ k ≠ 7 ∧ k ≠ 8) = true := by decide +kernel

/-- An ACK packet of sequence n, to fill a buffer with. -/
def packet (n : Byte) : Packet := { seq := n, ackField := 255, free := 16, content := .init }

/-- `up` with three packets in port A's replay buffer, the second at the replay position. -/
def three : State :=
  up.setLink .a { up.link .a with replay := [packet 255, packet 0, packet 1], replayAt := some 1, sendSeq := 2 }

theorem test_hyp_AcksFreePacketsAndNaksReplay :
    three.online .a = true ∧
      (three.link .a).replay = [packet 255] ++ packet 0 :: [packet 1] ∧ (packet 0).seq = 0 ∧
      (∀ x ∈ [packet 255], x.seq ≠ 0) ∧ (three.link .a).replay = [] ++ packet 255 :: [packet 0, packet 1] ∧
      (∀ x ∈ (three.link .a).replay, x.seq ≠ 2) := by decide +kernel

/-- Port A's refusal list is full. -/
def refusalsFull : State := up.setLink .a { up.link .a with refusals := List.replicate 16 ⟨0, .full, 0⟩ }

theorem test_hyp_NakCarriesLastAccepted :
    (let s := up.setLink .a { up.link .a with nakDue := true, nakOutstanding := true }
     s.online .a = true ∧ TransmitterFree (s.passTime 0) .a ∧ (s.link .a).nakDue = true) ∧
    (requestRow (.claim 0 .a (req [])) = some (0, .a, 15, req []) ∧ (req []).seq = (up.link .a).expected ∧
      (up.passTime 0).discards .a 15 (req []) = false) ∧
    (requestRow (.read 0 .a { req [] with count := 9 }) = some (0, .a, 1, { req [] with count := 9 }) ∧
      (req []).seq = (refusalsFull.link .a).expected ∧
      (refusalsFull.passTime 0).discards .a 1 { req [] with count := 9 } = true) :=
  ⟨⟨by decide +kernel, transmitterFree_iff.mp (by decide +kernel), by decide +kernel⟩, by decide +kernel, by decide +kernel⟩

theorem test_hyp_LinkPacketsAreSent :
    (let s := up.setLink .a { up.link .a with ackTimer := .running 1000, keepalive := .running 1000 }
     (s.passTime 0).over (s.link .a).ackTimer = true ∧ (s.passTime 0).over (s.link .a).keepalive = true) ∧
    SendsFirst ((up.setLink .a { up.link .a with ackTimer := .expired }).passTime 0) .a .ack ∧
    SendsFirst ((up.setLink .a { up.link .a with keepalive := .expired }).passTime 0) .a .idle ∧
    SendsFirst ((up.setLink .a { up.link .a with initPending := true }).passTime 0) .a .init ∧
    SendsFirst (three.passTime 0) .a .replay ∧
    (three.link .a).replay = [packet 255] ++ packet 0 :: [packet 1] ∧
    (three.link .a).replayAt = some [packet 255].length := by
  refine ⟨by decide +kernel, ?_, ?_, ?_, ?_, by decide +kernel, by decide +kernel⟩ <;> exact sendsFirst_iff.mp (by decide +kernel)

/-- A DONE record, its result fixed at instant 950. -/
def doneRec : Record := { rec0 (.read 0 1) .done with result := some ⟨.ok, .lines [List.replicate 8 word0]⟩, doneAt := some 950 }

/-- `withRec doneRec` and one refusal of the same instant. -/
def tie : State := (withRec doneRec).setLink .a { up.link .a with refusals := [⟨7, .full, 950⟩] }

theorem test_hyp_ResponseLeavesWithItsRecord :
    SendsFirst (tie.passTime 0) .a .response ∧ AnswersFirst tie .a doneRec 950 ∧
      doneRec.result = some ⟨.ok, .lines [List.replicate 8 word0]⟩ ∧ (tie.link .a).refusals = [⟨7, .full, 950⟩] ∧
      SendsFirst ((withRec doneRec).passTime 0) .a .response ∧ ((withRec doneRec).link .a).refusals = [] ∧
      (nextOf (execSendResponse 0 .a true tie)).queue .a = [doneRec] ∧
      (nextOf (execSendResponse 0 .a false tie)).queue .a = [] ∧
      (let s := up.setLink .a { up.link .a with refusals := [⟨7, .full, 950⟩] }
       SendsFirst (s.passTime 0) .a .response ∧ ∀ r, ¬ Unsent s .a r) := by
  refine ⟨sendsFirst_iff.mp (by decide +kernel), ⟨⟨by decide +kernel, rfl, rfl⟩, rfl, fun q hq hn => absurd ?_ hn⟩, by decide +kernel,
    by decide +kernel, sendsFirst_iff.mp (by decide +kernel), by decide +kernel, by decide +kernel, by decide +kernel,
    sendsFirst_iff.mp (by decide +kernel), firstAnswer_none.mp (by decide +kernel)⟩
  exact List.mem_singleton.mp hq.1

theorem test_hyp_NoticeLeavesItsQueue :
    (let s := up.setNoticeQ .a ⟨[.claimLost], 3, Enables.all⟩
     SendsFirst (s.passTime 0) .a .notice ∧ (s.noticeQ .a).queue = [.claimLost] ∧ 0 < (s.noticeQ .a).lost ∧
       (nextOf (execSendNotice 0 .a s)).noticeQ .a = ⟨[.overflow 3], 0, Enables.all⟩) ∧
    (let s := up.setNoticeQ .a ⟨[.claimLost], 0, Enables.all⟩
     SendsFirst (s.passTime 0) .a .notice ∧ (s.noticeQ .a).lost = 0) :=
  ⟨⟨sendsFirst_iff.mp (by decide +kernel), by decide +kernel, by decide +kernel, by decide +kernel⟩,
    sendsFirst_iff.mp (by decide +kernel), by decide +kernel⟩

/-! ## Hypotheses met: admission -/

/-- One request for each memory kind and WATCH, at line 0. -/
def memoryRequests : List (Instr × Kind × Request) :=
  [(.read 0 .a (req []), .read, req []), (.write 0 .a (req (zeros 64)), .write, req (zeros 64)),
   (.writePart 0 .a (req (1 :: zeros 71)), .writePart, req (1 :: zeros 71)),
   (.fetchAdd 0 .a (req (zeros 8)), .fetchAdd, req (zeros 8)), (.swap 0 .a (req (zeros 8)), .swap, req (zeros 8)),
   (.compareSwap 0 .a (req (zeros 16)), .compareSwap, req (zeros 16)), (.watch 0 .a (req []), .watch, req [])]

theorem test_hyp_MemoryRequestJoinsItsQueue :
    memoryRequests.all (fun x => decide (memoryRow x.1 = some (0, .a, x.2.1, x.2.2)) &&
      match kindOp x.2.1 x.2.2 with
      | some o => !o.crossesRow && decide (o.span = some (0, 1)) && (up.region 0).body.allows .a o
      | none => false) = true ∧
    up.online .a = true ∧ (req []).seq = (up.link .a).expected ∧ (up.queue .a).length < 16 ∧ up.scrub.sweepDone = true ∧
      up.coveringRegion (linePage 0) = some 0 ∧ (up.region 0).state = .active ∧ up.tagBusy .a 9 = false := by
  decide +kernel

/-- A posted WRITE with a busy tag is accepted where posting is allowed; and a part that sleeps wakes. -/
theorem test_hyp_MemoryRequestJoinsItsQueue_posted :
    (let s := withRec { rec0 (.read 0 1) .ready with tag := 9 }
     s.tagBusy .a 9 = true ∧ (s.region 0).body.posting = true ∧ Kind.write.mayPost = true) ∧
    (let s := up.setQuiet { up.quiet with part := .retained }
     s.asleep = true ∧ (nextOf (execRead 0 .a (req []) s)).quiet.wakeRecord = some (.request, .a)) := by decide +kernel

/-- A state like `up` lets a control request of port A through. -/
theorem ready_of (s : State) (body : List Byte) (hq : s.queue .a = []) (hd : s.detached = []) (hr : s.records = [])
    (ho : s.online .a = true) (he : (s.link .a).expected = 0) : ControlReady s .a (req body) where
  online := ho
  sequence := he.symm
  room := by rw [hq]; decide
  plain := rfl
  tag := by unfold State.tagBusy; rw [hq]; rfl
  noFence := by
    intro q h
    rw [hq, hd] at h
    rcases h with h | h
    · exact absurd h List.not_mem_nil
    · exact absurd h.1 List.not_mem_nil
  stamps := by
    intro q h
    rw [hr] at h
    exact absurd h List.not_mem_nil

theorem test_ready_up (body : List Byte) : ControlReady up .a (req body) :=
  ready_of up body rfl rfl rfl (by decide) (by decide)

theorem test_ready_claimed (body : List Byte) : ControlReady claimed .a (req body) :=
  ready_of claimed body rfl rfl rfl (by decide) (by decide)

theorem test_hyp_FenceWaitsForEarlierRecords :
    (let r := req []
     up.online .a = true ∧ r.seq = (up.link .a).expected ∧ (up.queue .a).length < 16 ∧ r.posted = false ∧
       up.tagBusy .a r.tag = false ∧ (∀ q ∈ up.records, q.port = .a → q.isDone = true) ∧
       (∀ q ∈ up.queue .a, q.port = .a) ∧ (∀ q ∈ up.records, q.stamp < up.stampCounter)) ∧
    (let s := withRec (rec0 (.read 0 1) .active)
     s.tagBusy .a 9 = false ∧ (∃ q ∈ s.queue .a, q.isDone = false) ∧ (∀ q ∈ s.records, q.stamp < s.stampCounter)) := by
  decide +kernel

theorem test_hyp_RefusedRequestIsAnswered :
    (up.online .a = true ∧ (req []).seq = (up.link .a).expected ∧ (up.queue .a).length < 16 ∧
      (up.link .a).refusals.length < 16 ∧ isRequestKind 0 = false ∧ isRequestKind 19 = false) ∧
    (up.verdict .a (Kind.code .read) { req [] with count := 9 } = .refuse .malformed ∧
      answeredByResponse (Kind.code .read) { req [] with count := 9 } = true) ∧
    (let r : Request := { req (zeros 63) with posted := true }
     up.verdict .a (Kind.code .write) r = .refuse .malformed ∧ answeredByResponse (Kind.code .write) r = false ∧
       (up.noticeQ .a).queue.length < 8 ∧
       8 ≤ ((up.setNoticeQ .a ⟨List.replicate 8 .claimLost, 0, Enables.all⟩).noticeQ .a).queue.length) := by
  decide +kernel

/-! ## Hypotheses met: control requests -/

/-- `up` with watch 31 of port A. -/
def watching : State := up.setWatch 31 (some ⟨.a, 0⟩)

theorem test_hyp_TableControlsAnswer :
    ControlReady watching .a (req [31]) ∧ watching.watches.get 31 = some ⟨.a, 0⟩ ∧
      ControlReady up .a (req [31]) ∧ up.watches.get 31 = none ∧ ControlReady up .a (req [7]) ∧ ControlReady up .a (req [8]) ∧
      (nextOf (execUnwatch 0 .a (req [31]) watching)).watches.get 31 = none :=
  ⟨ready_of watching [31] rfl rfl rfl (by decide) (by decide), by decide, test_ready_up _, by decide, test_ready_up _,
    test_ready_up _, by decide +kernel⟩

/-- The body of a REGION_SET for region `i`, enabled, with every right. -/
def regionBody (i base limit : Byte) : List Byte := [i, 1, base, 0, 0, 0, limit, 0, 0, 0, 2, 2, 2, 1, 1, 1]

theorem test_hyp_RegionSetReplacesOrDrains :
    ControlReady claimed .a (req (regionBody 1 0 0)) ∧ claimed.claim.holder = some .a ∧ up.claim.holder = none ∧
    (match regionSetParams (regionBody 1 0 0), regionSetParams (regionBody 8 0 0), regionSetParams (regionBody 0 5 9) with
      | some x, some y, some z =>
          (match x.target, z.target with
            | some (g, new), some (k, new') =>
                decide (g = 1) && decide ((claimed.region g).state ≠ .draining) && new.enable &&
                  claimed.rangeTaken g new.body.base new.body.limit && decide (k = 0) &&
                  !claimed.rangeTaken k new'.body.base new'.body.limit && decide ((claimed.region k).inFlight = 0)
            | _, _ => false) && decide (y.target = none)
      | _, _, _ => false) = true :=
  ⟨test_ready_claimed _, by decide, by decide, by decide +kernel⟩

/-- A region with a record in flight drains; and a region that drains already is there too. -/
theorem test_hyp_RegionSetReplacesOrDrains_flight :
    (let s := { withRec (rec0 (.read 0 1) .active) with claim := ⟨some .a, some 41000⟩ }
     let t := nextOf (execRegionSet 0 .a (req (regionBody 0 5 9)) s)
     (s.region 0).inFlight ≠ 0 ∧ s.tagBusy .a 9 = false ∧ (t.region 0).state = .draining ∧
       (t.queue .a).map Record.state = [.active, .active]) := by decide +kernel

theorem test_hyp_RepairStartsItsJob :
    ControlReady claimed .a (req [3, 7, 0, 1]) ∧ kindOp .repair (req [3, 7, 0, 1]) = some (.repair 3 7 .fused) ∧
      claimed.asleep = false ∧ claimed.scrub.sweepDone = true ∧ claimed.claim.holder = some .a ∧
      claimed.repairQueue = [] ∧ claimed.currentJob = none ∧ claimed.freeSpare 3 = some 0 ∧
      (claimed.bank 3).state = .closed ∧ ((claimed.setBank 3 (openBank 9)).bank 3).state = .opened ∧
      ((nextOf (execRepair 0 .a (req [3, 7, 0, 1]) claimed)).bank 3).state = .repairing :=
  ⟨test_ready_claimed _, by decide +kernel⟩

theorem test_hyp_QuietSetsTheVote :
    ControlReady up .a (req [0]) ∧ ControlReady up .a (req [1]) ∧ ControlReady up .a (req [2]) ∧
      ControlReady (up.setQuiet { up.quiet with part := .retained }) .a (req [0]) :=
  ⟨test_ready_up _, test_ready_up _, test_ready_up _, ready_of _ _ rfl rfl rfl (by decide) (by decide)⟩

/-- `up` with the claim at port B. -/
def claimedByB : State := { up with claim := ⟨some .b, some 41000⟩ }

theorem test_hyp_ClaimAndRelease :
    ControlReady up .a (req []) ∧ up.claim.holder = none ∧ ControlReady claimed .a (req []) ∧
      claimed.claim.holder = some .a ∧ ControlReady claimedByB .a (req []) ∧ claimedByB.claim.holder = some .b :=
  ⟨test_ready_up _, by decide, test_ready_claimed _, by decide, ready_of _ _ rfl rfl rfl (by decide) (by decide),
    by decide⟩

theorem test_hyp_SettingChangesUnderTheClaim :
    settingRow (.setCloseIdle 0 .a (req [208, 7])) = some (0, .a, 1, req [208, 7]) ∧
      settingRow (.setAgeLimit 0 .a (req [1, 0])) = some (0, .a, 2, req [1, 0]) ∧ 1 < claimed.settings.ageLimit ∧
      ControlReady claimed .a (req [208, 7]) ∧ ControlReady up .a (req [208, 7]) ∧
      InRange 1 (208 + 256 * 7) ∧ ¬ InRange 1 (218 + 256 * 7) ∧ ¬ InRange 2 0 ∧ InRange 2 16 ∧ InRange 7 1000 ∧
      ¬ InRange 7 1001 :=
  ⟨rfl, rfl, by decide, test_ready_claimed _, test_ready_up _, by simp [InRange], by simp [InRange],
    by simp [InRange], by simp [InRange], by simp [InRange], by simp [InRange]⟩

theorem test_hyp_WriteOnlyItemsAct :
    ControlReady up .a (req [0, 0]) ∧ ControlReady claimed .a (req [0, 0]) ∧ claimed.claim.holder = some .a ∧
      up.claim.holder ≠ some .a ∧ ({ up with refresh := { Refresh.reset 4000 with debt := .replicate 4 8 } } : State).refresh.debt.get 0 = 8 :=
  ⟨test_ready_up _, test_ready_claimed _, by decide, by decide, by decide⟩

theorem test_hyp_GetReturnsItsItem :
    getRow (.getRefreshDebt 0 .a (req [3])) = some (0, .a, 13, req [3]) ∧ ControlReady up .a (req [3]) ∧
      ItemOf up 13 (some 3) (.refreshDebt 0) ∧ ParamOutOfRange 13 4 ∧ ¬ ParamOutOfRange 13 3 ∧ ParamOutOfRange 21 16 ∧
      ¬ ParamOutOfRange 21 15 ∧ ParamOutOfRange 19 3 ∧ ¬ ParamOutOfRange 19 2 ∧
      getRow (.getClaimHolder 0 .a (req [])) = some (0, .a, 10, req []) ∧ ControlReady up .a (req []) ∧
      ItemOf up 10 none (.claimHolder none) :=
  ⟨rfl, test_ready_up _, .refreshDebt 3, by unfold ParamOutOfRange; decide, by unfold ParamOutOfRange; decide,
    by unfold ParamOutOfRange; decide, by unfold ParamOutOfRange; decide, by unfold ParamOutOfRange; decide,
    by unfold ParamOutOfRange; decide, rfl, test_ready_up _, .claimHolder⟩

theorem test_hyp_UnknownItemsAreMalformed :
    ControlReady up .a (req [10, 0, 0]) ∧ isSetCode 10 = false ∧ isSetCode 0 = false ∧ ControlReady up .a (req [8]) ∧
      isGetCode 8 = false ∧ isGetCode 24 = false :=
  ⟨test_ready_up _, by decide, by decide, test_ready_up _, by decide, by decide⟩

/-! ## Hypotheses met: array commands -/

/-- A READY READ of line 0. -/
def readRec : Record := rec0 (.read 0 1) .ready

/-- `withRec readRec` with row 0 of bank 0 served by spare 2. -/
def spared : State := (withRec readRec).setSpare 0 2 ⟨.soft, some 0⟩

theorem test_hyp_OpenStartsTheRow :
    ((withRec readRec).passTime 0).arbiterChoice = some ⟨.openRow 0 0, .upkeep⟩ ∧
      (spared.passTime 0).arbiterChoice = some ⟨.openSpare 0 2 0, .upkeep⟩ ∧
      ((nextOf (execOpenSpare 0 0 2 spared)).bank 0).servedBy = some 2 := by decide +kernel

/-- Bank 3 is OPEN past its row-open limit. -/
def overAge : State :=
  up.setBank 3 { openBank 9 with openAge := .expired, marks := { CloseMarks.empty with openLimit := true } }

/-- The sweep has written its last line: bank 15 is OPEN at row 65535. -/
def sweptLast : State :=
  { up with banks := up.banks.set 15 (openBank 65535), scrub := { Scrubber.reset with sweepAt := 33554432 }
            refresh := { Refresh.reset 4000 with debt := .replicate 4 (-8) } }

theorem test_hyp_CloseEndsTheRow :
    (overAge.passTime 0).arbiterChoice = some ⟨.close 3, .upkeep⟩ ∧
      (sweptLast.passTime 0).arbiterChoice = some ⟨.close 15, .sweep⟩ ∧ sweptLast.scrub.sweepDone = false ∧
      sweptLast.scrub.sweepAt = 33554432 ∧ sweptLast.settings.scrubInterval ≠ 0 ∧
      (nextOf (execClose 0 15 sweptLast)).scrub.sweepDone = true := by decide +kernel

/-- The only record of `atRow r` is `r`. -/
theorem sole_of (s : State) (r : Record) (h : r ∈ s.queue r.port) (o : ∀ q ∈ s.records, q = r) : s.Sole r :=
  ⟨h, fun q hq _ => o q hq⟩

theorem test_hyp_ReadLineServesARead :
    ((atRow readRec).passTime 0).arbiterChoice = some ⟨.readLine 0 0, .request readRec⟩ ∧ readRec.op = .read 0 1 ∧
      (atRow readRec).lineOf 0 0 = some 0 ∧ ((atRow readRec).outcomes 0).all (fun o => !o.bad) = true ∧
      1 ≤ readRec.linesDone + 1 ∧ readRec.posted = false ∧ (atRow readRec).Sole readRec ∧
      (let r := rec0 (.read 0 2) .ready
       ((atRow r).passTime 0).arbiterChoice = some ⟨.readLine 0 0, .request r⟩ ∧ r.linesDone + 1 < 2) :=
  ⟨by decide +kernel, rfl, by decide +kernel, by decide +kernel, by decide, rfl,
    sole_of _ _ (by decide +kernel) (by decide +kernel), by decide +kernel⟩

/-- A bit gone wrong is corrected, counted and written back. -/
theorem test_read_corrects :
    (let t := nextOf (execReadLine 0 0 0 [⟨3, false⟩] (atRow readRec))
     t.checks.corrected = 1 ∧ t.mem = State.reset.mem ∧ (t.checks.faults.get 0).isSome = true ∧
       (t.queue .a).map Record.state = [.done]) := by decide +kernel

/-- Two bits gone wrong leave the poison mark. -/
theorem test_read_poisons :
    (let t := nextOf (execReadLine 0 0 0 [⟨3, false⟩, ⟨3, true⟩] (atRow readRec))
     t.checks.uncorrectable = 1 ∧ t.mem.marks = [(24, .poison)] ∧ (t.noticeQ .b).queue = [.uncorrectable 24]) := by
  decide +kernel

def addRec : Record := rec0 (.fetchAdd 8 5) .ready
def missRec : Record := rec0 (.compareSwap 8 1 2) .ready

theorem test_hyp_ReadLineServesAnAtomic :
    ((atRow addRec).passTime 0).arbiterChoice = some ⟨.readLine 0 0, .request addRec⟩ ∧
      (atRow addRec).lineOf 0 0 = some 0 ∧ addRec.posted = false ∧ (atRow addRec).Sole addRec ∧
      (∀ w, (atRow addRec).mem.mark (wordCell ((atRow addRec).openLine 0) w) = .good) ∧
      addRec.op.newWord (.data 0) = some 5 ∧ addRec.op.newWord .poisoned = none ∧
      ((atRow missRec).passTime 0).arbiterChoice = some ⟨.readLine 0 0, .request missRec⟩ ∧
      (atRow missRec).Sole missRec ∧ missRec.op.newWord (.data 0) = none :=
  ⟨by decide +kernel, by decide +kernel, rfl, sole_of _ _ (by decide +kernel) (by decide +kernel), fun _ => rfl,
    by decide +kernel, by decide +kernel, by decide +kernel, sole_of _ _ (by decide +kernel) (by decide +kernel),
    by decide +kernel⟩

def watchRec : Record := rec0 (.watch 8) .ready

theorem test_hyp_ReadLineArmsAWatch :
    ((atRow watchRec).passTime 0).arbiterChoice = some ⟨.readLine 0 0, .request watchRec⟩ ∧
      (atRow watchRec).lineOf 0 0 = some 0 ∧ (atRow watchRec).Sole watchRec ∧
      (∀ w, (atRow watchRec).mem.mark (wordCell ((atRow watchRec).openLine 0) w) = .good) ∧
      (∀ i, (atRow watchRec).watches.get i ≠ some ⟨.a, 0⟩) ∧ watchesOf (atRow watchRec) .a < 16 ∧
      LowestFree (atRow watchRec) 0 ∧ LowestFree ((atRow watchRec).setWatch 0 (some ⟨.b, 0⟩)) 1 ∧
      (∀ x, ¬ EndsDrain (atRow watchRec) watchRec 0 x) ∧
      OwnsWatch ((atRow watchRec).setWatch 7 (some ⟨.a, 0⟩)) .a 0 7 ∧
      (let s : State := { atRow watchRec with watches := .replicate 32 (some ⟨.a, 3⟩) }
       (∀ i, s.watches.get i ≠ some ⟨.a, 0⟩) ∧ 16 ≤ watchesOf s .a ∧ ∀ i, s.watches.get i ≠ none) :=
  ⟨by decide +kernel, by decide +kernel, sole_of _ _ (by decide +kernel) (by decide +kernel), fun _ => rfl,
    watchOf_none.mp (by decide +kernel), by decide +kernel, freeWatch_some.mp (by decide +kernel),
    freeWatch_some.mp (by decide +kernel), fun _ h => absurd h.draining (by decide +kernel), watchOf_some.mp (by decide +kernel),
    watchOf_none.mp (by decide +kernel), by decide +kernel, freeWatch_none.mp (by decide +kernel)⟩

def writeRec : Record := rec0 (.write 0 1 (List.replicate 8 7)) .ready
def postRec : Record := { writeRec with posted := true }

theorem test_hyp_WriteLineStoresItsWords :
    ((atRow writeRec).passTime 0).arbiterChoice = some ⟨.writeLine 0 0, .request writeRec⟩ ∧
      (atRow writeRec).lineOf 0 0 = some 0 ∧ writeRec.posted = false ∧ (atRow writeRec).Sole writeRec ∧
      writeRec.lastWrite = true ∧ ((atRow postRec).passTime 0).arbiterChoice = some ⟨.writeLine 0 0, .request postRec⟩ ∧
      (atRow postRec).Sole postRec ∧ postRec.lastWrite = true ∧
      (nextOf (execWriteLine 0 0 0 ((atRow writeRec).setWatch 7 (some ⟨.b, 0⟩)))).notices.b.queue =
        [.watchEnded 7 0 (.written .a)] :=
  ⟨by decide +kernel, by decide +kernel, rfl, sole_of _ _ (by decide +kernel) (by decide +kernel), by decide +kernel,
    by decide +kernel, sole_of _ _ (by decide +kernel) (by decide +kernel), by decide +kernel, by decide +kernel⟩

/-- The sweep before its first line, bank 0 OPEN at row 0. -/
def sweepOpen : State := pulledIn.setBank 0 (openBank 0) |>.atInstant 1000

/-- The scrubber holds line 0 and has a word to write back. -/
def scrubHolds : State :=
  { up with banks := up.banks.set 0 (openBank 0), holds := [⟨0, .scrubber⟩]
            scrub := { up.scrub with step := .holding, timer := none, kept := [(3, .poisoned)] }
            refresh := { Refresh.reset 4000 with debt := .replicate 4 (-8) } }

/-- A job on bank 0, row 0, in that phase, its bank with that state. -/
def jobAt (ph : RepairPhase) (n m : Nat) (mode : RepairMode) (b : Bank) : State :=
  { up with
    banks := up.banks.set 0 b
    currentJob := some
      { job := ⟨0, 0, mode, []⟩, phase := ph, chosen := 1, previous := none, linesRead := n, linesWritten := m,
        poisonedWords := 0, programEnds := if ph = .program then some 1000 else none }
    repairBuffer := List.replicate n (List.replicate 8 word0) }

/-- Bank 0 open in a copy-in. -/
def copyIn : State := jobAt .copyIn 32 0 .soft { openBank 0 with servedBy := some 1, marks := { CloseMarks.empty with repair := true } }

theorem test_hyp_BackgroundWritesFireNothing :
    (sweepOpen.passTime 0).arbiterChoice = some ⟨.writeLine 0 0, .sweep⟩ ∧ sweepOpen.lineOf 0 0 = some 0 ∧
      (scrubHolds.passTime 0).arbiterChoice = some ⟨.writeLine 0 0, .scrubber⟩ ∧ scrubHolds.lineOf 0 0 = some 0 ∧
      (copyIn.passTime 0).arbiterChoice = some ⟨.writeLine 0 0, .repair⟩ ∧ copyIn.lineOf 0 0 = some 0 ∧
      copyIn.currentJob.isSome = true := by decide +kernel

theorem test_hyp_RefreshGroupPaysItsDebt :
    (up.passTime 0).arbiterChoice = some ⟨.refreshGroup 0, .upkeep⟩ := by decide +kernel

theorem test_hyp_RetainAndResume :
    (let s := up.setQuiet { up.quiet with part := .entering }
     (s.passTime 0).arbiterChoice = some ⟨.retain, .upkeep⟩) ∧
    (let s : State := { up with
       quiet := { up.quiet with part := .waking }, banks := .replicate 16 { Bank.reset with state := .retained } }
     (s.passTime 0).arbiterChoice = some ⟨.resume, .upkeep⟩) := by decide +kernel

theorem test_hyp_ProgrammingStarts :
    (let s := jobAt .copyOut 32 0 .soft { Bank.reset with state := .repairing }
     (s.passTime 0).arbiterChoice = some ⟨.programSoft 0 1, .repair⟩ ∧ s.currentJob.isSome = true) ∧
    (let s := jobAt .copyOut 32 0 .fused { Bank.reset with state := .repairing }
     (s.passTime 0).arbiterChoice = some ⟨.programFuse 0 1, .repair⟩ ∧ s.currentJob.isSome = true) := by decide +kernel

/-- With the path busy the arbiter chooses nothing, so no command is taken. -/
theorem test_hyp_UntakenCommandsOnlyPassTime :
    (∀ x, (busy.passTime 0).arbiterChoice = some x → x.cmd ≠ .retain) ∧
      (∀ x row, (busy.passTime 0).arbiterChoice = some x → x.cmd ≠ .openSpare 0 0 row) := by
  have h : (busy.passTime 0).arbiterChoice = none := by decide +kernel
  rw [h]
  exact ⟨fun _ e => (nomatch e), fun _ _ e => (nomatch e)⟩

/-! ## Hypotheses met: expiries -/

theorem test_hyp_BankIntervalsEnd :
    (let s := busy.setBank 0 { openBank 4 with state := .opening, lastOpen := some 944 }
     (s.bank 0).state = .opening ∧ (s.passTime 0).since (s.bank 0).lastOpen (ns 14) = true ∧
       (s.bank 0).openRow = some 4 ∧ (s.bank 0).idle = .stopped ∧ s.repairPhase 0 = none ∧ s.rowWanted 0 4 = false ∧
       ((nextOf (execOpenDelayEnd 0 0 s)).bank 0).idle = .running 3000 ∧
       ((nextOf (execOpenDelayEnd 0 0 (s.setSettings { s.settings with closeIdle := 0 }))).bank 0).idle = .expired) ∧
    (let s := busy.setBank 0 { Bank.reset with state := .closing, lastClose := some 944 }
     (s.bank 0).state = .closing ∧ (s.passTime 0).since (s.bank 0).lastClose (ns 14) = true ∧ s.currentJob = none ∧
       s.repairPhase 0 = none) ∧
    (let s := jobAt .wait 0 0 .soft { Bank.reset with state := .closing, lastClose := some 944 }
     (s.bank 0).state = .closing ∧ (s.passTime 0).since (s.bank 0).lastClose (ns 14) = true ∧
       s.repairPhase 0 = some .wait) ∧
    (let s : State := { busy with now := 1200, pathBusy := some 1200, banks := .replicate 16 { Bank.reset with
       state := .refreshing, lastRefresh := some 0 } }
     (s.passTime 0).refreshOver 3 = true ∧ (s.bank 15).state = .refreshing) := by decide +kernel

theorem test_hyp_BankTimersExpire :
    (let s := busy.setBank 0 { openBank 4 with idle := .running 1000, openAge := .running 1000 }
     (s.passTime 0).over (s.bank 0).idle = true ∧ (s.bank 0).state = .opened ∧
       (s.passTime 0).over (s.bank 0).openAge = true) := by decide +kernel

theorem test_hyp_ProgrammingBindsTheSpare :
    (let s := jobAt .program 32 0 .fused { Bank.reset with state := .repairing }
     s.currentJob.map (fun c => (c.phase, (s.passTime 0).reached c.programEnds)) = some (.program, true) ∧
       ((nextOf (execProgrammingEnd 0 s)).spares 0).get 1 = ⟨.fused, some 0⟩) := by decide +kernel

/-- The wake timer of a WAKING part is over. -/
def wakes : State :=
  { up with quiet := { up.quiet with part := .waking, wakeTimer := some 1000 }
            banks := .replicate 16 { Bank.reset with state := .retained } }

theorem test_hyp_WakeEndsRetention :
    wakes.quiet.part = .waking ∧ (wakes.passTime 0).reached wakes.quiet.wakeTimer = true ∧
      ((nextOf (execWakeTimerExpiry 0 wakes)).bank 9).state = .closed ∧
      (nextOf (execWakeTimerExpiry 0 wakes)).scrub.timer = some 33000 ∧
      (nextOf (execWakeTimerExpiry 0 (wakes.setScrub { wakes.scrub with timer := none, step := .pending }))).scrub.timer = none := by
  decide +kernel

/-- `up` at the end of a quarter, the rotation's group at that debt. -/
def quarterOver (d : Int) : State := { up with refresh := { Refresh.reset 1000 with debt := .replicate 4 d } }

theorem test_hyp_GroupExpiryCountsDebt :
    (List.all [-8, 0, 7, 8] (fun d => ((quarterOver d).passTime 0).reached (quarterOver d).refresh.quarter)) = true ∧
      (nextOf (execGroupExpiry 0 (quarterOver 8))).refresh.missed.get 0 = 1 ∧
      (nextOf (execGroupExpiry 0 (quarterOver 7))).refresh.urgentAt.get 0 = some 1000 := by decide +kernel

theorem test_hyp_RecordsAgeAndScrubStepsStart :
    (let s := up.setScrub { up.scrub with timer := some 1000 }
     (s.passTime 0).reached s.scrub.timer = true ∧ s.held s.scrub.pointer = false ∧
       (s.setHolds [⟨0, .request .a 3⟩]).held s.scrub.pointer = true) ∧
    (let s : State := { withRec readRec with now := 16900 }
     (nextOf (execRecordAged 0 .a 0 s)).queues.a.map Record.aged = [true]) := by decide +kernel

theorem test_hyp_IdleHoldAndClaimExpire :
    (let s := overAge.setQuiet { up.quiet with part := .settling, holdTimer := some 1000 }
     s.quiet.part = .settling ∧ (s.passTime 0).reached s.quiet.holdTimer = true ∧ (s.bank 3).state = .opened ∧
       (s.bank 0).state = .closed) ∧
    (let s := up.setClaim ⟨some .c, some 1000⟩
     s.claim.holder = some .c ∧ (s.passTime 0).reached s.claim.timer = true ∧ s.online .c = true ∧
       (s.noticeQ .c).enables.claimLost = true ∧ (s.noticeQ .c).queue.length < 8 ∧
       ((s.setNoticeQ .c ⟨[], 0, ⟨true, true, true, false⟩⟩).noticeQ .c).enables.claimLost = false) := by decide +kernel

/-! ## Hypotheses met: the arbiter, frames and invariants -/

/-- Grants of an OPEN, an OPEN_SPARE, a CLOSE, a READ_LINE, a WRITE_LINE and a REFRESH_GROUP. -/
theorem test_hyp_IssuedCommandsAreLegal :
    (withRec readRec).arbiterChoice = some ⟨.openRow 0 0, .upkeep⟩ ∧
      spared.arbiterChoice = some ⟨.openSpare 0 2 0, .upkeep⟩ ∧ overAge.arbiterChoice = some ⟨.close 3, .upkeep⟩ ∧
      (atRow readRec).arbiterChoice = some ⟨.readLine 0 0, .request readRec⟩ ∧
      (atRow writeRec).arbiterChoice = some ⟨.writeLine 0 0, .request writeRec⟩ ∧
      up.arbiterChoice = some ⟨.refreshGroup 0, .upkeep⟩ ∧
      (let s : State := { withRec readRec with window := [10, 20, 30, 880] }
       4 ≤ s.window.length ∧ s.arbiterChoice = some ⟨.openRow 0 0, .upkeep⟩) := by decide +kernel

theorem test_hyp_ArbiterTakesTheFirstClass : busy.pathBusy ≠ none ∧ up.pathBusy = none := by decide

theorem test_hyp_MostCommandsLeaveTheArray :
    exec (.groupExpiry 0) up = .next (nextOf (exec (.groupExpiry 0) up)) := rfl

theorem test_hyp_LineAccessesStayInTheirLine :
    MemoryCanonical (atRow writeRec) ∧ (atRow writeRec).lineOf 0 0 = some 0 ∧
      exec (.writeLine 0 0 0) (atRow writeRec) = .next (nextOf (exec (.writeLine 0 0 0) (atRow writeRec))) ∧
      (nextOf (exec (.writeLine 0 0 0) (atRow writeRec))).mem.byte 56 = 7 ∧ 0 + 64 ≤ 64 :=
  ⟨by unfold MemoryCanonical; decide, by decide +kernel, rfl, by decide +kernel, by decide⟩

theorem test_hyp_LinkEventsStayOnTheirLink :
    exec (.idleReceived 0 .a) up = .next (nextOf (exec (.idleReceived 0 .a) up)) := rfl

theorem test_hyp_RequestsLeaveTheRest :
    requestRow (.repair 0 .a (req [3, 7, 0, 1])) = some (0, .a, 13, req [3, 7, 0, 1]) ∧
      requestRow (.quiet 0 .a (req [1])) = some (0, .a, 14, req [1]) ∧ StampsBelowCounter (withRec readRec) ∧
      exec (.quiet 0 .a (req [1])) up = .next (nextOf (exec (.quiet 0 .a (req [1])) up)) :=
  ⟨rfl, rfl, by unfold StampsBelowCounter; decide +kernel, rfl⟩

theorem test_hyp_BackgroundCommandsLeaveThePorts :
    quietRow (.groupExpiry 0) = true ∧ quietRow (.recordAged 0 .a 0) = true ∧ quietRow (.claimTimerExpiry 0) = true ∧
      exec (.recordAged 0 .a 0) up = .next (nextOf (exec (.recordAged 0 .a 0) up)) :=
  ⟨rfl, rfl, rfl, rfl⟩

/-- `atRow readRec` with the row's READ_LINE waiting. -/
def aboutToRead : State := { atRow readRec with pending := [.readLine 0 0 0 []] }

theorem test_hyp_step : step aboutToRead = .next (nextOf (step aboutToRead)) := rfl

theorem test_hyp_StepKeepsMemoryCanonical : MemoryCanonical aboutToRead := by unfold MemoryCanonical; decide

theorem test_hyp_StepKeepsDebtsInRange : DebtsInRange aboutToRead := by unfold DebtsInRange; decide +kernel

theorem noWatch : ∀ i, aboutToRead.watches.get i = none := by decide

theorem test_hyp_StepKeepsCapacities : WithinCapacities aboutToRead where
  queues := by intro p; cases p <;> decide
  notices := by intro p; cases p <;> exact ⟨by decide, by decide, by decide⟩
  links := by intro p; cases p <;> exact ⟨by decide, by decide⟩
  holds := by decide
  window := by decide
  repairs := by decide
  apart := by decide
  watches := ⟨by intro p; cases p <;> decide, fun i j w hi _ => absurd (noWatch i) (by rw [hi]; exact nofun)⟩
  first := fun _ => rfl


/-- A table in which only region 0 has a range is apart. -/
theorem apart_of (s : State) (u : ∀ i, (s.regions.get i).state = .disabled → (s.regions.get i).inFlight = 0)
    (h : ∀ i, i ≠ 0 → (s.regions.get i).state = .disabled ∧ (s.regions.get i).replacement = none) : RegionsApart s where
  unused := u
  apart := by
    have no : ∀ i b l, i ≠ 0 → ¬ (s.regions.get i).Range b l := by
      intro i b l hi hr
      rcases hr with ⟨hs, _⟩ | ⟨x, hx, _⟩
      · exact hs (h i hi).1
      · rw [(h i hi).2] at hx; cases hx
    intro i j hij b l b' l' hi hj
    rcases Decidable.em (i = 0) with rfl | h0
    · exact absurd hj (no j _ _ (fun e => hij e.symm))
    · exact absurd hi (no i _ _ h0)

theorem test_hyp_StepKeepsRegionsApart : RegionsApart aboutToRead := apart_of _ (by decide +kernel) (by decide +kernel)

theorem test_hyp_StepKeepsBanksConsistent : BanksConsistent aboutToRead where
  each := by unfold Bank.Consistent; decide +kernel
  asleep := by decide +kernel

theorem test_hyp_StepKeepsPortsConsistent : PortsConsistent aboutToRead where
  own := by intro p; cases p <;> decide
  offline := by intro p h; cases p <;> exact absurd h (by decide)
  votes := by intro p; cases p <;> decide
  holder := by intro p; cases p <;> decide
  timer := by decide

theorem test_hyp_StepKeepsStampsNameRecords :
    StampsNameRecords aboutToRead ∧ aboutToRead.stampCounter ≠ BitVec.allOnes 64 :=
  ⟨⟨by unfold StampsBelowCounter; decide +kernel, by decide +kernel⟩, by decide⟩

/-! ## Hypotheses met, clause by clause: time, resets and links -/

/-- Nothing to do, and a READ of bank 0 that waits for the spacing after an OPEN of bank 1. -/
def spaced : State :=
  { (withRec readRec).setBank 1 { Bank.reset with lastOpen := some 990 } with
    refresh := { Refresh.reset 4000 with debt := .replicate 4 (-8) } }

theorem test_hyp_TimePassesToAnInstant :
    up.busyNow = true ∧ spaced.busyNow = false ∧ (1018 ∈ spaced.intervalEnds ∧ (spaced.atInstant 1018).busyNow = true) ∧
      spaced.deadlines.all (fun d => decide (1018 ≤ d)) = true ∧ spaced.passTime 30 = spaced.atInstant 1018 ∧
      spaced.passTime 9 = spaced.atInstant 1009 ∧ busy.busyNow = false ∧ 1005 ∈ busy.deadlines ∧
      busy.deadlines.all (fun d => decide (1005 ≤ d)) = true ∧ (busy.intervalEnds ++ busy.sendEnds) = [] := by decide +kernel

/-- The interval's end is the first of all; and no interval ends within 9. -/
theorem test_hyp_PathAndIntervalExpiries_stop :
    1010 ∈ spaced.intervalEnds ∧ spaced.intervalEnds.all (fun e => decide (spaced.now < e → 1010 ≤ e)) = true ∧
      spaced.sendEnds = [] ∧ nextOf (execTimingIntervalExpiry 30 spaced) = spaced.atInstant 1010 ∧
      nextOf (execTimingIntervalExpiry 7 spaced) = spaced.atInstant 1007 := by decide +kernel

/-- In retention the part wakes, and no quarter runs. -/
theorem test_hyp_WarmResetActsOnEveryBlock_asleep :
    [PartState.retained, .waking].all (fun x =>
      let s := up.setQuiet { up.quiet with part := x, wakeTimer := some 5000 }
      let t := nextOf (execWarmReset 0 s)
      (s.passTime 0).resetN && decide (t.quiet.part = .waking ∧ t.quiet.wakeTimer = some 5000 ∧ t.refresh.quarter = none ∧
        t.scrub.timer = none)) = true := by decide +kernel

/-- A copy-in and a fused programming go on; any other job ends with its bank CLOSED. -/
theorem test_hyp_WarmResetActsOnEveryBlock_jobs :
    (let kept := fun s : State => (nextOf (execWarmReset 0 s)).currentJob.map CurrentJob.phase
     kept copyIn = some .copyIn ∧ kept (jobAt .program 32 0 .fused { Bank.reset with state := .repairing }) = some .program ∧
       kept (jobAt .program 32 0 .soft { Bank.reset with state := .repairing }) = none ∧
       (let t := nextOf (execWarmReset 0 (jobAt .copyOut 3 0 .fused { Bank.reset with state := .repairing }))
        t.currentJob = none ∧ (t.bank 0).state = .closed)) := by decide +kernel

theorem test_ports_consistent_active : PortsConsistent (withRec (rec0 (.read 0 1) .active)) where
  own := by intro p; cases p <;> decide
  offline := by intro p h; cases p <;> exact absurd h (by decide)
  votes := by intro p; cases p <;> decide
  holder := by intro p; cases p <;> decide
  timer := by decide

/-- The ACTIVE record with a line is detached. -/
theorem test_hyp_LinkLossTearsDown_detaches :
    PortsConsistent (withRec (rec0 (.read 0 1) .active)) ∧ (withRec (rec0 (.read 0 1) .active)).online .a = true ∧
      (let t := nextOf (execSignalLoss 0 .a (withRec (rec0 (.read 0 1) .active)))
       t.detached.map Record.stamp = [0] ∧ t.queue .a = [] ∧ (t.link .a).errors.linkDrops = 1) :=
  ⟨test_ports_consistent_active, by decide, by decide +kernel⟩

/-- One nanosecond a byte: a line with its poison mask, a refusal, an OVERFLOW. -/
theorem test_packets_last_a_nanosecond_a_byte :
    (((nextOf (execSendResponse 0 .a false tie)).link .a).transmitter.map Transmission.ends = some (1000 + 4 * 75) ∧
      ((nextOf (execSendResponse 0 .a true tie)).link .a).transmitter.map Transmission.ends = some 1040 ∧
      ((nextOf (execSendNotice 0 .a (up.setNoticeQ .a ⟨[.overflow 3], 0, Enables.all⟩))).link .a).transmitter.map
        Transmission.ends = some 1040) := by decide +kernel

/-! ## Hypotheses met, clause by clause: admission -/

/-- The later record of port A: a READ of line 0, with stamp 1. -/
def later : Record := { readRec with stamp := 1 }

/-- In a state without records, holds and job that is awake, nothing is against a record. -/
theorem test_hyp_no_reason (c : BlockReason) : ¬ HeldBack up later c := by
  cases c
  · rintro ⟨-, h | h⟩ <;> exact absurd h (by decide)
  · rintro ⟨q, ⟨h | ⟨h, -⟩, -⟩, -⟩ <;> exact absurd h List.not_mem_nil
  · rintro ⟨q, ⟨h | ⟨h, -⟩, -⟩, -⟩ <;> exact absurd h List.not_mem_nil
  · rintro ⟨a, n, -, ⟨e, he, -⟩ | ⟨h, -⟩⟩
    · exact absurd he List.not_mem_nil
    · rcases h with ⟨x, y, h⟩ | ⟨x, y, h⟩ | ⟨x, y, z, h⟩ <;> exact nomatch h
  · rintro ⟨a, n, c, -, h, -⟩
    exact nomatch h

theorem test_hyp_reason_retention : FirstReason (up.setQuiet { up.quiet with part := .waking }) later .retention :=
  ⟨⟨.inl rfl, .inr rfl⟩, fun _ h => absurd h (Nat.not_lt_zero _)⟩

/-- An undone FENCE comes before an undone record of the same line. -/
theorem test_hyp_reason_fence : FirstReason (withRec (rec0 .fence .waiting)) later .fence := by
  refine ⟨⟨rec0 .fence .waiting, ⟨.inl (List.mem_singleton.2 rfl), by decide, nofun⟩, rfl⟩, ?_⟩
  intro d h
  cases d <;> try exact absurd h (by decide)
  rintro ⟨-, h | h⟩ <;> exact absurd h (by decide)

theorem test_hyp_reason_order : FirstReason (withRec readRec) later .order := by
  refine ⟨⟨readRec, ⟨.inl (List.mem_singleton.2 rfl), by decide, nofun⟩,
    .inl ⟨0, 1, 0, 1, rfl, rfl, by decide, by decide⟩⟩, ?_⟩
  intro d h
  cases d <;> try exact absurd h (by decide)
  · rintro ⟨-, h | h⟩ <;> exact absurd h (by decide)
  · rintro ⟨q, ⟨h | ⟨h, -⟩, -⟩, ho⟩
    · rw [List.mem_singleton.1 h] at ho; exact nomatch ho
    · exact absurd h List.not_mem_nil

theorem test_hyp_reason_hold : FirstReason (up.setHolds [⟨0, .scrubber⟩]) later .hold := by
  refine ⟨⟨0, 1, rfl, .inl ⟨⟨0, .scrubber⟩, List.mem_singleton.2 rfl, nofun, by decide, by decide⟩⟩, ?_⟩
  intro d h
  cases d <;> try exact absurd h (by decide)
  · rintro ⟨-, h | h⟩ <;> exact absurd h (by decide)
  · rintro ⟨q, ⟨h | ⟨h, -⟩, -⟩, -⟩ <;> exact absurd h List.not_mem_nil
  · rintro ⟨q, ⟨h | ⟨h, -⟩, -⟩, -⟩ <;> exact absurd h List.not_mem_nil

theorem test_hyp_reason_bank : FirstReason copyIn later .bank := by
  refine ⟨⟨0, 1, _, rfl, rfl, rfl⟩, ?_⟩
  intro d h
  cases d <;> try exact absurd h (by decide)
  · rintro ⟨-, h | h⟩ <;> exact absurd h (by decide)
  · rintro ⟨q, ⟨h | ⟨h, -⟩, -⟩, -⟩ <;> exact absurd h List.not_mem_nil
  · rintro ⟨q, ⟨h | ⟨h, -⟩, -⟩, -⟩ <;> exact absurd h List.not_mem_nil
  · rintro ⟨a, n, -, ⟨e, he, -⟩ | ⟨h, -⟩⟩
    · exact absurd he List.not_mem_nil
    · rcases h with ⟨x, y, h⟩ | ⟨x, y, h⟩ | ⟨x, y, z, h⟩ <;> exact nomatch h

/-- A FENCE that waits, and a CLAIM that waits behind it. -/
def fenceRec : Record := rec0 .fence .waiting
def claimRec : Record := { rec0 .claim .waiting with stamp := 1, tag := 6, blocked := some .fence }
def fenced : State := { withRec fenceRec with queues := ⟨[fenceRec, claimRec], [], []⟩, stampCounter := 2 }

theorem test_hyp_FenceWaitsForEarlierRecords_settle :
    (withRec fenceRec).Sole fenceRec ∧ fenceRec.op = .fence ∧ fenceRec.state = .waiting ∧
      (∀ q, ¬ EarlierUndone (withRec fenceRec) fenceRec q) ∧
      (∀ p, ∀ q ∈ (withRec fenceRec).queue p, q.op.span = none → q = fenceRec ∨ q.state = .active ∨ q.state = .done) := by
  refine ⟨sole_of _ _ (by decide +kernel) (by decide +kernel), rfl, rfl, fun q h => Nat.not_lt_zero _ h.2.1, ?_⟩
  intro p
  cases p <;> decide

theorem test_hyp_FenceWaitsForEarlierRecords_claim :
    fenced.Sole fenceRec ∧ fenced.Sole claimRec ∧ claimRec.port = fenceRec.port ∧ fenced.claim.holder = none ∧
      (∀ q, ¬ EarlierUndone fenced fenceRec q) ∧
      (∀ q, EarlierUndone fenced claimRec q → q = fenceRec ∨ q.op.span.isSome = true) ∧
      (∀ p, ∀ q ∈ fenced.queue p, q.op.span = none → q = fenceRec ∨ q = claimRec ∨ q.state = .active ∨ q.state = .done) ∧
      fenced.settle.claim.holder = some .a := by
  refine ⟨⟨by decide +kernel, by decide +kernel⟩, ⟨by decide +kernel, by decide +kernel⟩, rfl, rfl,
    fun q h => Nat.not_lt_zero _ h.2.1, ?_, ?_, by decide +kernel⟩
  · rintro q ⟨h | ⟨h, -⟩, hs, -⟩
    · rcases List.mem_cons.1 h with h | h
      · exact .inl h
      · rw [List.mem_singleton.1 h] at hs; exact absurd hs (by decide)
    · exact absurd h List.not_mem_nil
  · intro p
    cases p <;> decide

/-- Port A's queue is full. -/
def fullQueue : State := { up with queues := ⟨List.replicate 16 readRec, [], []⟩ }

/-- Every region is DISABLED. -/
def noRegions : State := { up with regions := .replicate 8 Region.off }

theorem shaped_up (s : State) (k : Kind) (r : Request) (o : ReqOp) (hq : (s.queue .a).length < 16) (hs : s.scrub.sweepDone = true)
    (ho : kindOp k r = some o) (hp : r.posted = true → k = .write ∨ k = .writePart) : WellShaped s .a k r o :=
  ⟨hq, fun _ => hs, formed_iff.mpr ho, hp⟩

/-- A request of one line at line 0 reaches the regions. -/
theorem reaches_up (s : State) (k : Kind) (r : Request) (o : ReqOp) (hq : (s.queue .a).length < 16)
    (hs : s.scrub.sweepDone = true) (ho : kindOp k r = some o) (hp : r.posted = true → k = .write ∨ k = .writePart)
    (hl : o.span = some (0, 1)) (ht : r.posted = false → s.tagBusy .a r.tag = false) : ReachesRegion s .a k r 0 := by
  refine ⟨⟨o, 1, shaped_up s k r o hq hs ho hp, hl, ?_⟩, ?_⟩
  · intro l n _ h
    rw [hl] at h
    cases h
    decide
  · rintro h ⟨q, hm, hq1, hq2⟩
    have := ht h
    unfold State.tagBusy at this
    rw [List.any_eq_false] at this
    exact this q hm (by simp [hq1, hq2])

theorem test_hyp_refused_full : Refused fullQueue .a .read (req []) .full := .full (by decide)

theorem test_hyp_refused_notReady : Refused pulledIn .a .read (req []) .notReady := .notReady (by decide) rfl rfl

theorem test_hyp_refused_malformed :
    Refused up .a .read { req [] with count := 9 } .malformed ∧ Refused up .a .regionGet (req []) .malformed :=
  ⟨.malformed (by decide) (fun _ => rfl) (fun o h => nomatch (show none = some o from formed_iff.mp h.1)),
    .malformed (by decide) (fun _ => rfl) (fun o h => nomatch (show none = some o from formed_iff.mp h.1))⟩

/-- That refusal finds the refusal list full, and the packet is discarded. -/
theorem test_hyp_DiscardedPacketsAreCounted_full :
    Refused refusalsFull .a .read { req [] with count := 9 } .malformed ∧ (refusalsFull.link .a).refusals.length = 16 ∧
      ((nextOf (execRequestDiscard 0 .a 1 { req [] with count := 9 } refusalsFull)).link .a).errors.seqDiscards = 1 ∧
      ((nextOf (execRequestDiscard 0 .a 19 (req []) refusalsFull)).link .a).errors.seqDiscards = 1 :=
  ⟨.malformed (by decide) (fun _ => rfl) (fun o h => nomatch (show none = some o from formed_iff.mp h.1)), by decide +kernel⟩

theorem test_hyp_refused_split : Refused up .a .read { req [] with addr := 0x7C0, count := 2 } .split := by
  refine .split (.read 0x7C0 2) (shaped_up _ _ _ _ (by decide) rfl (by decide +kernel) nofun) fun h => ?_
  exact absurd (h 31 2 (.inl rfl) (by decide +kernel)) (by decide)

theorem test_hyp_refused_tagBusy : Refused (withRec readRec) .a .claim { req [] with tag := 5 } .tagBusy :=
  .tagBusy .claim (shaped_up _ _ _ _ (by decide) rfl (by decide +kernel) nofun)
    (fun l n h _ => by rcases h with h | h <;> exact nomatch h) rfl
    ⟨readRec, List.mem_singleton.2 rfl, rfl, rfl⟩

theorem test_hyp_refused_noRegion : Refused noRegions .a .read (req []) .noRegion :=
  .noRegion 0 (reaches_up _ _ _ (.read 0 1) (by decide) rfl (by decide +kernel) nofun (by decide +kernel) (fun _ => by decide))
    (fun g h => h.1 ((by decide : ∀ i, (noRegions.region i).state = .disabled) g))

/-- Only region 0 of such a state covers page 0, with that body. -/
theorem meets_up (s : State) (k : Kind) (r : Request) (h : ReachesRegion s .a k r 0) (h0 : Covering s 0 0)
    (ho : ∀ j, j ≠ 0 → (s.region j).state = .disabled) : Meets s .a k r 0 :=
  ⟨0, h, h0, fun j hj => Decidable.byContradiction fun hn => hj.1 (ho j hn)⟩

/-- `withRec readRec` with region 0 so changed. -/
def withRegion (x : Region) : State := { withRec readRec with regions := regionsReset.set 0 x }

theorem reaches_region (x : Region) (k : Kind) (r : Request) (o : ReqOp) (ho : kindOp k r = some o)
    (hp : r.posted = true → k = .write ∨ k = .writePart) (hl : o.span = some (0, 1))
    (ht : r.posted = false → (withRec readRec).tagBusy .a r.tag = false) (hx : x.state ≠ .disabled) (hb : x.body.base = 0) :
    Meets (withRegion x) .a k r 0 := by
  have e : (withRegion x).region 0 = x := Table.get_set_self ..
  refine meets_up _ k r (reaches_up _ k r o (Nat.le_of_ble_eq_true rfl) rfl ho hp hl ht) ?_ ?_
  · refine ⟨?_, ?_, Nat.zero_le _⟩
    · rw [e]; exact hx
    · rw [e, hb]
  · intro j hj
    show (((regionsReset.set 0 x).get j).state = .disabled)
    rw [Table.get_set_of_ne _ hj]
    revert hj; revert j; decide

theorem test_hyp_refused_changing :
    Refused (withRegion { Region.whole with state := .draining }) .a .read (req []) .changing := by
  refine .changing 0 (reaches_region _ _ _ (.read 0 1) (by decide +kernel) nofun (by decide +kernel) (fun _ => by decide) nofun rfl)
    (by decide +kernel)

theorem test_hyp_refused_denied :
    Refused (withRegion { Region.whole with body := { Region.whole.body with rights := .all .none } }) .a .read (req []) .denied :=
  .denied 0 (reaches_region _ _ _ (.read 0 1) (by decide +kernel) nofun (by decide +kernel) (fun _ => by decide) nofun rfl)
    (by decide +kernel) (fun h => h (by decide +kernel))

/-- A posted WRITE with a busy tag where posting is off. -/
theorem test_hyp_refused_postTagBusy :
    Refused (withRegion { Region.whole with body := { Region.whole.body with posting := false } }) .a .write
      { req (zeros 64) with posted := true, tag := 5 } .tagBusy :=
  .postTagBusy 0 (reaches_region _ _ _ (.write 0 1 (List.replicate 8 0)) (by decide +kernel) (fun _ => .inl rfl)
      (by decide +kernel) nofun nofun rfl)
    (by decide +kernel) (by show _ = _; decide +kernel) rfl (by decide +kernel) ⟨readRec, List.mem_singleton.2 rfl, rfl, rfl⟩

/-! ## Hypotheses met, clause by clause: control requests -/

/-- Port A holds the claim and watch 31, of line 0. -/
def claimedWatch : State := claimed.setWatch 31 (some ⟨.a, 0⟩)

/-- Region 0 moved away from page 0: no region covers it, and its watch is cancelled; moved around it: the watch stays. -/
theorem test_hyp_RegionSetReplacesOrDrains_watches :
    ControlReady claimedWatch .a (req (regionBody 0 5 9)) ∧ (∀ k, k ≠ 31 → claimedWatch.watches.get k = none) ∧
      (let t := nextOf (execRegionSet 0 .a (req (regionBody 0 5 9)) claimedWatch)
       (∀ j, (t.region j).state = .disabled ∨ 0 < (t.region j).body.base) ∧ t.watches.get 31 = none ∧
         (t.noticeQ .a).queue = [.watchEnded 31 0 .cancelled]) ∧
      (let t := nextOf (execRegionSet 0 .a (req (regionBody 0 0 9)) claimedWatch)
       (∀ j, j ≠ 0 → (t.region j).state = .disabled) ∧ (t.region 0).state ≠ .disabled ∧ (t.region 0).body.base = 0 ∧
         (t.region 0).body.rights.get .a ≠ .none ∧ t.watches.get 31 = some ⟨.a, 0⟩) :=
  ⟨ready_of _ _ rfl rfl rfl (by decide) (by decide), by decide, by decide +kernel⟩

/-- `claimed` with a SOFT copy-out of bank 0, row 0, and these jobs queued behind it. -/
def claimedJob (js : List Job) : State :=
  { jobAt .copyOut 3 0 .soft { Bank.reset with state := .repairing } with claim := ⟨some .a, some 41000⟩, repairQueue := js }

theorem test_ready_job (js : List Job) (body : List Byte) : ControlReady (claimedJob js) .a (req body) :=
  ready_of _ body rfl rfl rfl rfl rfl

/-- A job of bank 3, row 7. -/
def job37 : Job := ⟨3, 7, .soft, []⟩

/-- No FREE spare in bank 3. -/
def spent : State := { claimed with remap := claimed.remap.set 3 (.replicate 4 ⟨.retiredSoft, none⟩) }

/-- REPAIR of bank 3, row 7, FUSED: without the claim, merged with a queued job, merged with the current one, queued, TABLE_FULL, NO_SPARE. -/
theorem test_hyp_RepairStartsItsJob_forms :
    kindOp .repair (req [3, 7, 0, 1]) = some (.repair 3 7 .fused) ∧ kindOp .repair (req [0, 0, 0, 1]) = some (.repair 0 0 .fused) ∧
      up.claim.holder ≠ some .a ∧ (claimedJob [job37]).claim.holder = some .a ∧ (claimedJob [job37]).asleep = false ∧
      (claimedJob [job37]).scrub.sweepDone = true ∧ spent.claim.holder = some .a ∧ spent.repairQueue = [] ∧
      spent.currentJob = none ∧ (∀ i, ((spent.spares 3).get i).state ≠ .free) ∧
      (nextOf (execRepair 0 .a (req [3, 7, 0, 1]) (claimedJob [job37]))).repairQueue =
        [{ job37 with mode := .fused, requesters := [⟨.a, 0, 9⟩] }] ∧
      ((nextOf (execRepair 0 .a (req [0, 0, 0, 1]) (claimedJob []))).currentJob.map CurrentJob.job) =
        some ⟨0, 0, .fused, [⟨.a, 0, 9⟩]⟩ ∧
      ((nextOf (execRepair 0 .a (req [3, 7, 0, 1]) (claimedJob []))).repairQueue.map Job.bank) = [3] ∧
      ((nextOf (execRepair 0 .a (req [3, 7, 0, 1]) (claimedJob (List.replicate 4 { job37 with row := 8 })))).queue .a).map
        Record.result = [some ⟨.tableFull, .none⟩] ∧
      ((nextOf (execRepair 0 .a (req [3, 7, 0, 1]) spent)).queue .a).map Record.result = [some ⟨.noSpare, .repair none 0⟩] ∧
      ((nextOf (execRepair 0 .a (req [3, 7, 0, 1]) spent)).noticeQ .b).queue = [.repairDone 3 7 none .noSpare 0] := by
  decide +kernel

theorem test_hyp_JobFirst : JobFirst up ∧ JobFirst spent ∧ ∀ js, JobFirst (claimedJob js) :=
  ⟨fun _ => rfl, fun _ => rfl, fun _ h => nomatch h⟩

/-- SCRUB_INTERVAL set to 0, and from 0. -/
theorem test_hyp_SettingChangesUnderTheClaim_scrub :
    settingRow (.setScrubInterval 0 .a (req [9, 0])) = some (0, .a, 4, req [9, 0]) ∧ InRange 4 0 ∧ InRange 4 255 ∧
      ¬ InRange 4 256 ∧ claimed.scrub.step = .none ∧ claimed.scrub.sweepDone = true ∧
      (let off := nextOf (execSetScrubInterval 0 .a (req [0, 0]) claimed)
       off.scrub.timer = none ∧ off.settings.scrubInterval = 0 ∧
         (nextOf (execSetScrubInterval 0 .a (req [9, 0]) { claimed with settings := off.settings, scrub := off.scrub })).scrub.timer =
           some 37000) :=
  ⟨rfl, by simp [InRange], by simp [InRange], by simp [InRange], by decide, by decide, by decide +kernel⟩

/-! ## Hypotheses met, clause by clause: line accesses -/

/-- A data bit gone wrong leaves a marked word marked; two check bits do not; a bit of either kind makes a good word CORRECTED. -/
theorem test_flips :
    CheckState.poison.flip false = .poison ∧ (CheckState.poison.flip true).flip false = .poisonOne ∧
      (CheckState.poison.flip true).flip true = .manyBad ∧ CheckState.good.flip true = .oneBad ∧
      (CheckState.good.flip false).flip true = .twoBad := by decide

/-- The outcomes that `OutcomesOf` names, of a line with one word of each kind. -/
theorem test_hyp_OutcomesOf :
    (let m := (((State.reset.mem.setMark 8 .oneBad).setMark 16 .twoBad).setMark 24 .poison).setMark 32 .poisonOne
     m.readLine 0 0 = [.clean 0, .corrected 0, .uncorrectable, .poisoned, .poisoned, .clean 0, .clean 0, .clean 0]) := by
  decide +kernel

/-- The fault list of a full part: sixteen rows of bank 9 with count 2, slot 4's stamp the least. -/
def fullFaults : Table 16 (Option FaultEntry) := (Table.replicate 16 (some ⟨9, 1, 2, 8⟩)).set 4 (some ⟨9, 2, 2, 7⟩)

theorem noFault : ∀ j, (Table.replicate 16 (none : Option FaultEntry)).get j = none := by decide

/-- The three ways a corrected word is noted: in an empty list, beside an entry of its row, in a full list. -/
theorem test_hyp_FaultNoted_inserted : FaultNoted (.replicate 16 none) 0 0 1 ((Table.replicate 16 none).set 0 (some ⟨0, 0, 1, 1⟩)) (some 1) :=
  .inserted 0 (by decide) (fun j h => absurd h (Nat.not_lt_zero _))
    (fun j _ h => nomatch (noFault j).symm.trans h)

theorem test_hyp_FaultNoted_listed :
    FaultNoted ((Table.replicate 16 none).set 3 (some ⟨0, 0, 15, 1⟩)) 0 0 2
      (((Table.replicate 16 none).set 3 (some ⟨0, 0, 15, 1⟩)).set 3 (some ⟨0, 0, 15, 2⟩)) none := by
  refine .listed 3 ⟨0, 0, 15, 1⟩ (by decide) ⟨rfl, rfl⟩ fun j g h _ => Decidable.byContradiction fun hn => ?_
  rw [Table.get_set_of_ne _ hn] at h
  exact nomatch (noFault j).symm.trans h

theorem test_hyp_FaultNoted_replaced : FaultNoted fullFaults 0 0 9 (fullFaults.set 4 (some ⟨0, 0, 1, 9⟩)) (some 1) := by
  have h9 : ∀ j, ∃ g, fullFaults.get j = some g ∧ g.bank = 9 ∧ (j ≠ 4 → g.count = 2 ∧ g.stamp = 8) := by
    intro j
    rcases Decidable.em (j = 4) with rfl | h
    · exact ⟨⟨9, 2, 2, 7⟩, by decide, rfl, fun h => absurd rfl h⟩
    · refine ⟨⟨9, 1, 2, 8⟩, ?_, rfl, fun _ => ⟨rfl, rfl⟩⟩
      rw [fullFaults, Table.get_set_of_ne _ h]
      revert j; decide
  refine .replaced 4 ⟨9, 2, 2, 7⟩ (by decide) (fun j hj => ?_) (fun j g h hb => ?_)
  · obtain ⟨g, hg, -, hc⟩ := h9 j
    exact ⟨g, hg, .inr ⟨(hc hj).1.symm, .inl (by rw [(hc hj).2]; decide)⟩⟩
  · obtain ⟨x, hx, hb9, -⟩ := h9 j
    rw [hx] at h
    cases h
    exact absurd (hb9.symm.trans hb.1) (by decide)

/-- The notices of a line with words CORRECTED and UNCORRECTABLE, threshold 1. -/
theorem test_hyp_ReadNoted :
    ReadNoted 0 1 1 [(0, .clean 0), (1, .uncorrectable), (2, .corrected 0)] (.replicate 16 none)
      ((Table.replicate 16 none).set 0 (some ⟨0, 0, 1, 1⟩)) [.uncorrectable 8, .repairAdvised 0 0] :=
  .fine _ _ _ _ _ _ (.inl ⟨0, rfl⟩) (.lost 1 _ _ _ _ (.mended 2 0 [] _ _ _ (some 1) [] test_hyp_FaultNoted_inserted (.done _)))

/-- `s` with AUTO_REPAIR at that value and threshold 1: the first corrected word of a row is advised. -/
def advising (auto : Nat) (s : State) : State := s.setSettings { s.settings with faultThreshold := 1, autoRepair := auto }

/-- A job's record at its start. -/
def waiting (j : Job) : CurrentJob :=
  { job := j, phase := .wait, chosen := 0, previous := none, linesRead := 0, linesWritten := 0, poisonedWords := 0
    programEnds := none }

/-- A job of bank 3 that waits for its bank, and these jobs behind it. -/
def jobBehind (js : List Job) (s : State) : State := { s with repairQueue := js, currentJob := some (waiting job37) }

/-- The second line of a READ, for a row whose job waits. -/
def secondLine : State :=
  (advising 1 (atRow { rec0 (.read 0 2) .active with linesDone := 1, readLines := [List.replicate 8 word0] })).setJob
    (some (waiting ⟨0, 0, .soft, []⟩))

/-- The jobs after a READ_LINE of line 0 with one word gone wrong. -/
def jobsAfter (s : State) : Option (BankId × RowId) × List (BankId × RowId) :=
  let t := nextOf (execReadLine 0 0 0 [⟨3, false⟩] s)
  (t.currentJob.map (fun c => (c.job.bank, c.job.row)), t.repairQueue.map (fun j => (j.bank, j.row)))

/-- A threshold met: advised; with AUTO_REPAIR 1 a job starts, is queued, merges or is dropped, or ends NO_SPARE. -/
theorem test_hyp_ReadLineServesARead_auto :
    (let s := advising 1 (atRow readRec)
     (s.passTime 0).arbiterChoice = some ⟨.readLine 0 0, .request readRec⟩ ∧ s.currentJob = none ∧ s.repairQueue = [] ∧
       s.freeSpare 0 = some 0 ∧ jobsAfter s = (some (0, 0), []) ∧
       ((nextOf (execReadLine 0 0 0 [⟨3, false⟩] (advising 0 (atRow readRec)))).noticeQ .c).queue = [.repairAdvised 0 0] ∧
       (let u := { s with remap := s.remap.set 0 (.replicate 4 ⟨.retiredSoft, none⟩) }
        (u.passTime 0).arbiterChoice = some ⟨.readLine 0 0, .request readRec⟩ ∧ u.freeSpare 0 = none ∧ jobsAfter u = (none, []) ∧
          ((nextOf (execReadLine 0 0 0 [⟨3, false⟩, ⟨5, false⟩, ⟨5, false⟩] u)).noticeQ .c).queue =
            [.repairAdvised 0 0, .repairDone 0 0 none .noSpare 0, .uncorrectable 40])) ∧
    [([], [(0, 0)]), ([⟨0, 0, .fused, []⟩], [(0, 0)]), (List.replicate 4 job37, [(3, 7), (3, 7), (3, 7), (3, 7)])].all
      (fun x =>
        let s := jobBehind x.1 (advising 1 (atRow readRec))
        decide ((s.passTime 0).arbiterChoice = some ⟨.readLine 0 0, .request readRec⟩) &&
          decide (jobsAfter s = (some (3, 7), x.2))) = true ∧
    (secondLine.passTime 0).arbiterChoice.map Grant.cmd = some (.readLine 0 1) := by decide +kernel

theorem test_hyp_ReadLineServesARead_advised :
    correctedIn (((atRow readRec).mem.flipBits 0 [⟨3, false⟩]).readLine 0 0) = 1 ∧
      FaultNoted (atRow readRec).checks.faults (lineBank 0) (lineRow 0) 1 ((Table.replicate 16 none).set 0 (some ⟨0, 0, 1, 1⟩)) (some 1) :=
  ⟨by decide +kernel, test_hyp_FaultNoted_inserted⟩

/-- A WRITE_PART of one byte, and the last read of a detached READ. -/
def partRec : Record := rec0 (.writePart 0 (1 :: List.replicate 7 0) (List.replicate 8 7)) .ready

def detachedRead : State := { up.setBank 0 (openBank 0) with detached := [rec0 (.read 0 1) .active], stampCounter := 1 }

theorem test_hyp_ReadLineServesARead_forms :
    ((atRow partRec).passTime 0).arbiterChoice = some ⟨.readLine 0 0, .request partRec⟩ ∧
      (nextOf (execReadLine 0 0 0 [] (atRow partRec))).queues.a.map Record.linesDone = [1] ∧
      (detachedRead.passTime 0).arbiterChoice = some ⟨.readLine 0 0, .request (rec0 (.read 0 1) .active)⟩ ∧
      detachedRead.queue .a = [] ∧ (nextOf (execReadLine 0 0 0 [] detachedRead)).detached = [] := by decide +kernel

/-- An atomic and a WATCH on a word with a bit gone wrong, and on one that is lost. -/
theorem test_hyp_ReadsAs :
    ((atRow addRec).mem.flipBits 0 [⟨1, true⟩]).mark (wordCell 0 1) = .oneBad ∧
      ((atRow addRec).mem.flipBits 0 [⟨1, true⟩, ⟨1, false⟩]).mark (wordCell 0 1) = .twoBad ∧
      (let t := nextOf (execReadLine 0 0 0 [⟨1, true⟩, ⟨1, false⟩] (atRow addRec))
       (t.queue .a).map Record.result = [some ⟨.poisoned, .none⟩] ∧ t.holds = []) ∧
      ((nextOf (execReadLine 0 0 0 [⟨1, true⟩] (atRow addRec))).holds = [⟨0, .request .a 0⟩]) ∧
      ((nextOf (execReadLine 0 0 0 [] (atRow missRec))).queue .a).map Record.result = [some ⟨.casMiss, .oldWord 0⟩] ∧
      ((nextOf (execReadLine 0 0 0 [⟨1, true⟩, ⟨1, false⟩] (atRow watchRec))).queue .a).map Record.result =
        [some ⟨.poisoned, .watch (some 0) none⟩] := by decide +kernel

/-- Port B's watch of the line that port A writes; and a posted WRITE fires it too. -/
theorem test_hyp_WriteLineStoresItsWords_watch :
    (let s := (atRow postRec).setWatch 7 (some ⟨.b, 0⟩)
     (s.passTime 0).arbiterChoice = some ⟨.writeLine 0 0, .request postRec⟩ ∧ s.watches.get 7 = some ⟨.b, 0⟩ ∧
       s.online .b = true ∧ (s.region 0).state ≠ .draining ∧ (∀ i, s.watches.get i ≠ some ⟨.c, 0⟩) ∧
       (nextOf (execWriteLine 0 0 0 s)).notices.b.queue = [.watchEnded 7 0 (.written .a)]) := by decide +kernel

theorem test_hyp_WatchesBounded : WatchesBounded ((atRow postRec).setWatch 7 (some ⟨.b, 0⟩)) := by
  have h : ∀ i, i ≠ 7 → ((atRow postRec).setWatch 7 (some ⟨.b, 0⟩)).watches.get i = none := by decide
  have only : ∀ i w, ((atRow postRec).setWatch 7 (some ⟨.b, 0⟩)).watches.get i = some w → i = 7 := fun i w hi =>
    Decidable.byContradiction fun hn => nomatch (h i hn).symm.trans hi
  exact ⟨by intro p; cases p <;> decide, fun i j w hi hj => (only i w hi).trans (only j w hj).symm⟩

/-- The scrubber reads line 0, bank 0 OPEN at row 0. -/
def scrubReads : State :=
  { up with banks := up.banks.set 0 (openBank 0), scrub := { up.scrub with step := .started, timer := none }
            refresh := { Refresh.reset 4000 with debt := .replicate 4 (-8) } }

/-- Nothing to correct; a word to correct; the hold table full. -/
theorem test_hyp_BackgroundWritesFireNothing_scrub :
    (scrubReads.passTime 0).arbiterChoice = some ⟨.readLine 0 0, .scrubber⟩ ∧ scrubReads.holds.length < 8 ∧
      scrubReads.records = [] ∧ scrubReads.repairPhase 0 = none ∧ scrubReads.settings.autoRepair ≠ 1 ∧
      (let t := nextOf (execReadLine 0 0 0 [] scrubReads)
       t.scrub.step = .none ∧ t.scrub.pointer = 1) ∧
      (let t := nextOf (execReadLine 0 0 0 [⟨3, false⟩] scrubReads)
       t.scrub.step = .holding ∧ t.holds = [⟨0, .scrubber⟩] ∧ t.scrub.kept = [(3, .data 0)] ∧ t.checks.corrected = 1) ∧
      (let s := scrubReads.setHolds (List.ofFn (fun i : Fin 8 => ⟨Fin.ofNat _ (i.val + 9), .request .b 3⟩))
       (s.passTime 0).arbiterChoice = some ⟨.readLine 0 0, .scrubber⟩ ∧ (∀ e ∈ s.holds, e.line ≠ 0) ∧
         (nextOf (execReadLine 0 0 0 [⟨3, false⟩] s)).scrub.step = .pending) := by decide +kernel

/-- The copy-out reads line 3 of its row. -/
def copyOut : State := jobAt .copyOut 3 0 .soft { openBank 0 with marks := { CloseMarks.empty with repair := true } }

theorem test_hyp_BackgroundWritesFireNothing_copyOut :
    (copyOut.passTime 0).arbiterChoice = some ⟨.readLine 0 3, .repair⟩ ∧ copyOut.lineOf 0 3 = some 3 ∧
      (let t := nextOf (execReadLine 0 0 3 [⟨1, false⟩, ⟨1, false⟩] copyOut)
       t.repairBuffer.length = 4 ∧ (t.currentJob.map CurrentJob.linesRead) = some 4 ∧ t.checks.uncorrectable = 1 ∧
         (t.noticeQ .a).queue = [.uncorrectable 200] ∧ t.checks.faults = copyOut.checks.faults) := by decide +kernel

/-! ## Hypotheses met, clause by clause: expiries, the arbiter and packets -/

/-- A copy-in of bank 0 whose CLOSE began at 944, with so many lines written, and these jobs behind it. -/
def closingIn (m : Nat) (js : List Job) : State :=
  { jobAt .copyIn 32 m .soft { Bank.reset with state := .closing, lastClose := some 944 } with
    repairQueue := js, pathBusy := some 1005
    queues := ⟨[{ rec0 (.repair 0 0 .soft) .active with region := none }], [], []⟩, stampCounter := 1 }

/-- That job with the record's requester. -/
def askedFor (s : State) : State :=
  s.setJob (s.currentJob.map (fun c => { c with job := { c.job with requesters := [⟨.a, 0, 5⟩] } }))

/-- A copy-in cut short keeps its place; a finished one is answered, and the next job starts on its own bank or on another. -/
theorem test_hyp_BankIntervalsEnd_jobs :
    (let s := closingIn 5 []
     (s.bank 0).state = .closing ∧ (s.passTime 0).since (s.bank 0).lastClose (ns 14) = true ∧ s.repairPhase 0 = some .copyIn ∧
       (let t := nextOf (execCloseDelayEnd 0 0 s)
        (t.bank 0).state = .repairing ∧ t.currentJob.map CurrentJob.linesWritten = some 5)) ∧
    (let s := askedFor (closingIn 32 [])
     let t := nextOf (execCloseDelayEnd 0 0 s)
     (s.passTime 0).since (s.bank 0).lastClose (ns 14) = true ∧ t.currentJob = none ∧ (t.bank 0).state = .closed ∧
       (t.queue .a).map Record.result = [some ⟨.ok, .repair (some 1) 0⟩] ∧
       (t.noticeQ .c).queue = [.repairDone 0 0 (some 1) .ok 0]) ∧
    (let s := askedFor (closingIn 32 [⟨0, 4, .soft, []⟩])
     let t := nextOf (execCloseDelayEnd 0 0 s)
     s.freeSpare 0 = some 0 ∧ t.currentJob.map CurrentJob.phase = some .copyOut ∧ (t.bank 0).state = .repairing) ∧
    (let s := closingIn 32 [job37]
     let t := nextOf (execCloseDelayEnd 0 0 s)
     s.freeSpare 3 = some 0 ∧ t.currentJob.map (fun c => c.job.bank) = some 3 ∧ (t.bank 0).state = .closed) ∧
    (let s : State := { closingIn 32 [job37] with remap := spent.remap }
     let t := nextOf (execCloseDelayEnd 0 0 s)
     s.freeSpare 3 = none ∧ t.currentJob = none ∧ t.repairQueue = [] ∧
       (t.noticeQ .c).queue = [.repairDone 0 0 (some 1) .ok 0, .repairDone 3 7 none .noSpare 0]) := by
  decide +kernel

/-- A group refresh ends with a job that waits for a bank of the group. -/
theorem test_hyp_BankIntervalsEnd_refresh :
    (let s : State := { jobAt .wait 0 0 .soft { Bank.reset with state := .refreshing, lastRefresh := some 0 } with
       now := 1200, pathBusy := some 1200 }
     (s.passTime 0).refreshOver 0 = true ∧ (s.bank 0).state = .refreshing ∧
       (let t := nextOf (execGroupRefreshEnd 0 0 s)
        (t.bank 0).state = .repairing ∧ t.currentJob.map CurrentJob.phase = some .copyOut)) := by decide +kernel

/-- The notices go to the online ports that enable them, and to no other. -/
theorem test_hyp_told :
    (let off := fun s : State => s.setNoticeQ .b ⟨[], 0, ⟨false, false, false, false⟩⟩
     let got := fun (s : State) => Port.all.map (fun p => (s.noticeQ p).queue)
     got (nextOf (execRetain 0 (off (up.setQuiet { up.quiet with part := .entering })))) = [[.quietRetained], [], [.quietRetained]] ∧
       got (nextOf (execWakeTimerExpiry 0 (off wakes))) = [[.quietActive], [], [.quietActive]] ∧
       got (nextOf (execGroupExpiry 0 (off (quarterOver 8)))) = [[.refreshMissed 0], [], [.refreshMissed 0]]) := by
  decide +kernel

/-- A full queue loses the notice and counts it. -/
theorem test_hyp_joined :
    NoticeQueue.joined ⟨List.replicate 8 .claimLost, 254, Enables.all⟩ .quietActive = ⟨List.replicate 8 .claimLost, 255, Enables.all⟩ ∧
      NoticeQueue.joined ⟨List.replicate 8 .claimLost, 255, Enables.all⟩ .quietActive =
        ⟨List.replicate 8 .claimLost, 255, Enables.all⟩ := by decide +kernel

/-- The repair job opens its row, and the chosen spare for the copy-in; and it programs. -/
theorem test_hyp_IssuedCommandsAreLegal_repair :
    (jobAt .copyOut 0 0 .soft { Bank.reset with state := .repairing }).arbiterChoice = some ⟨.openRow 0 0, .repair⟩ ∧
      (jobAt .copyIn 32 0 .soft { Bank.reset with state := .repairing }).arbiterChoice = some ⟨.openSpare 0 1 0, .repair⟩ ∧
      (jobAt .copyOut 32 0 .fused { Bank.reset with state := .repairing }).arbiterChoice = some ⟨.programFuse 0 1, .repair⟩ ∧
      sweepOpen.arbiterChoice = some ⟨.writeLine 0 0, .sweep⟩ ∧ scrubReads.arbiterChoice = some ⟨.readLine 0 0, .scrubber⟩ ∧
      copyOut.arbiterChoice = some ⟨.readLine 0 3, .repair⟩ := by decide +kernel

/-- A FETCH_ADD and a SET from their bytes; a check that is not that of its bytes; a packet kind no master sends. -/
theorem test_hyp_AddressFieldsOfTheManual :
    (let c : Instr := .fetchAdd 7 .b { seq := 250, tag := 63, posted := true, addr := 0x12345678, count := 1, body := zeros 8 }
     c.wellFormed = true ∧ (requestRow c).map (fun x => packetCommand x.1 x.2.1 (requestPacket x.2.2.1 x.2.2.2)) = some c) ∧
    (let c : Instr := .setCloseIdle 0 .a (req [208, 7])
     (requestRow c).map (fun x => packetCommand x.1 x.2.1 (requestPacket x.2.2.1 x.2.2.2)) = some c) ∧
    [(0 : Byte), 0] ≠ [(packetCheck [5, 9]).extractLsb' 8 8, (packetCheck [5, 9]).extractLsb' 0 8] ∧
    packetCommand 0 .a [5, 9, 0, 0] = .badCheckPacket 0 .a ∧ packetCommand 0 .a (withCheck [5, 9]) = .ackReceived 0 .a 9 ∧
    isMasterPacketKind 2 = false ∧ packetCommand 0 .a (withCheck [2, 9]) = .otherKindDiscard 0 .a 2 ∧
    ((nextOf (step (up.withPacket 0 .a (withCheck [5, 9])))).link .a).errors.strayAcks = 1 :=
  ⟨by decide +kernel, by decide +kernel, by decide +kernel, by decide +kernel, by decide +kernel, rfl,
    by decide +kernel, by decide +kernel⟩

/-! ## Hypotheses met, clause by clause: ages, the sweep, settling, and the records evaluated anew -/

/-- Two records of one instant, at the age limit: the younger's ageing takes the older with it, and not the other way round. -/
theorem test_hyp_RecordsAgeAndScrubStepsStart_older :
    (let s : State := { withRec readRec with queues := ⟨[readRec, later], [], []⟩, now := 16900 }
     (nextOf (execRecordAged 0 .a 1 s)).queues.a.map Record.aged = [true, true] ∧
       (nextOf (execRecordAged 0 .a 0 s)).queues.a.map Record.aged = [true, false] ∧
       (nextOf (execRecordAged 0 .a 0 { s with now := 16899 })).queues.a.map Record.aged = [false, false] ∧
       (∀ q ∈ s.records, q.stamp ≠ 7)) := by decide +kernel

/-- The sweep with bank 0 written, at the first line of bank 1. -/
def sweepSecond (r : Bool) : State :=
  { sweepOpen.setBank 0 { openBank 0 with lastOpen := some 900, resetClose := r } with scrub := { Scrubber.reset with sweepAt := 32 } }

/-- The sweep waits for a warm-reset close that is still to come; without one it goes on with the next bank. -/
theorem test_sweep_waits_for_reset_closes :
    (sweepSecond true).arbiterChoice = none ∧ (sweepSecond false).arbiterChoice = some ⟨.openRow 1 0, .sweep⟩ := by decide +kernel

/-- A part that settles at the rise of RESET_N, in that state, with QUIET_HOLD as given. -/
def rising (part : PartState) (hold : Nat) : State :=
  { busy with resetN := false, links := .all Link.reset, quiet := { Quiet.reset with part := part }
              settings := { busy.settings with quietHold := hold }, banks := busy.banks.set 3 (openBank 9) }

theorem test_hyp_PinsActOnTheirBlocks_settles :
    (∀ part hold, Settles { (rising part hold).passTime 0 with resetN := true }) ∧
      ¬ Settles { ({ busy with resetN := false } : State).passTime 0 with resetN := true } ∧
      (nextOf (execResetNRise 0 (rising .active 100))).quiet.part = .settling ∧
      (let t := nextOf (execResetNRise 0 (rising .active 0))
       t.quiet.part = .entering ∧ (t.bank 3).marks.retention = true ∧ (t.bank 0).marks.retention = false) ∧
      [PartState.settling, .entering].all (fun x =>
        decide ((nextOf (execResetNRise 0 { busy with resetN := false, quiet := { busy.quiet with part := x } })).quiet.part = .active)) = true := by
  refine ⟨fun part hold => settles_iff.mp rfl, fun h => absurd (settles_iff.mpr h) (by decide +kernel), by decide +kernel,
    by decide +kernel, by decide +kernel⟩

/-- Bank 0 OPEN at a row with its idle timer so, and a READ that waited for a hold that is gone. -/
def heldRead (row : RowId) (idle : Timer) : State :=
  (atRow { readRec with state := .waiting, blocked := some .hold }).setBank 0 { openBank row with idle := idle }

/-- The READ is READY; the idle timer of its row stops, another row's starts or runs on. -/
theorem test_hyp_FenceWaitsForEarlierRecords_reviewed :
    (∀ row idle p, ∀ q ∈ (heldRead row idle).queue p, q.op.span = none → q.state = .active) ∧
      (heldRead 0 .stopped).settle.queues.a.map (fun q => (q.state, q.blocked)) = [(.ready, none)] ∧
      ((heldRead 0 (.running 1500)).settle.bank 0).idle = .stopped ∧ ((heldRead 7 .stopped).settle.bank 0).idle = .running 3000 ∧
      ((heldRead 7 (.running 1500)).settle.bank 0).idle = .running 1500 ∧
      ((heldRead 0 .stopped).setHolds [⟨0, .scrubber⟩]).settle.queues.a.map Record.blocked = [some .hold] := by
  refine ⟨fun row idle p => ?_, by decide +kernel, by decide +kernel, by decide +kernel, by decide +kernel, by decide +kernel⟩
  cases p
  · intro q hq hs
    rw [List.mem_singleton.1 hq] at hs
    exact nomatch hs
  · exact fun q hq => absurd hq List.not_mem_nil
  · exact fun q hq => absurd hq List.not_mem_nil

/-- A REPAIR that waits in retention is held back. -/
theorem test_hyp_FenceWaitsForEarlierRecords_asleep :
    HeldBack (up.setQuiet { up.quiet with part := .waking }) (rec0 (.repair 3 7 .soft) .waiting) .retention :=
  heldBack_retention.mp (by decide +kernel)

/-- A READ for the row of an open bank stops the bank's idle timer as it joins. -/
theorem test_hyp_MemoryRequestJoinsItsQueue_idle :
    (let s := up.setBank 0 { openBank 0 with idle := .running 1500 }
     let t := nextOf (execRead 0 .a (req []) s)
     t.queues.a.map Record.state = [.ready] ∧ (t.bank 0).idle = .stopped) := by decide +kernel

/-! ## Hypotheses met, clause by clause: REGION_SET's ranges -/

/-- Index 7, limit 524,287 and rights 2 name a region; 8, 524,288, a base above the limit and rights 3 are out of range; a page in common. -/
theorem test_hyp_RegionSetReplacesOrDrains_ranges :
    (let ps : RegionSetParams := ⟨7, true, 524287, 524287, 0, 1, 2, true, false, true⟩
     NamesRegion ps 7 ⟨true, ⟨524287, 524287, ⟨.none, .read, .readWrite⟩, true, false, true⟩⟩ ∧ ¬ OutsideRegions ps ∧
       OutsideRegions { ps with index := 8 } ∧ OutsideRegions { ps with limit := 524288 } ∧ OutsideRegions { ps with limit := 524286 } ∧
       OutsideRegions { ps with rightsA := 3 } ∧ OutsideRegions { ps with rightsB := 3 } ∧ OutsideRegions { ps with rightsC := 3 }) ∧
    TakenByAnother claimed 1 ⟨true, ⟨524287, 524287, .all .none, true, true, true⟩⟩ ∧
    ¬ TakenByAnother claimed 0 ⟨true, ⟨5, 9, .all .none, true, true, true⟩⟩ := by
  refine ⟨⟨namesRegion_iff.mpr (by decide +kernel), fun h => absurd (outsideRegions_iff.mp h) (by decide +kernel), ?_, ?_, ?_, ?_, ?_, ?_⟩,
    takenByAnother_iff.mpr (by decide +kernel), fun h => absurd (takenByAnother_iff.mp h) (by decide +kernel)⟩ <;>
  exact outsideRegions_iff.mpr (by decide +kernel)

/-! ## Hypotheses met, clause by clause: line accesses -/

/-- The third start since the OPEN finds the idle timer EXPIRED; one at streak 8 leaves it there; the first start sets no streak. -/
theorem test_hyp_RequestReaches :
    [(2, true, 3), (8, true, 8), (0, false, 0)].all (fun x =>
      let s := (atRow readRec).setBank 0 { openBank 0 with streak := x.1, firstStart := x.2.1, idle := .expired }
      let t := nextOf (execReadLine 0 0 0 [] s)
      decide ((s.passTime 0).arbiterChoice = some ⟨.readLine 0 0, .request readRec⟩) && decide ((t.bank 0).streak = x.2.2) &&
        (t.bank 0).firstStart) = true := by decide +kernel

/-- A WRITE of two lines, and a posted WRITE_PART whose word was lost. -/
def writeTwo : Record := rec0 (.write 0 2 (List.replicate 16 7)) .ready
def lostPart : Record :=
  { rec0 (.writePart 0 (1 :: List.replicate 7 0) (List.replicate 8 7)) .active with
    posted := true, linesDone := 1, readLines := [.poisoned :: List.replicate 7 word0] }

theorem test_hyp_WriteLineStoresItsWords_forms :
    ((atRow writeTwo).passTime 0).arbiterChoice = some ⟨.writeLine 0 0, .request writeTwo⟩ ∧
      (nextOf (execWriteLine 0 0 0 (atRow writeTwo))).queues.a.map (fun q => (q.state, q.linesDone)) = [(.active, 1)] ∧
      ((atRow lostPart).passTime 0).arbiterChoice = some ⟨.writeLine 0 0, .request lostPart⟩ ∧
      (atRow lostPart).records = [lostPart] ∧
      (let t := nextOf (execWriteLine 0 0 0 (atRow lostPart))
       t.queue .a = [] ∧ (t.noticeQ .a).queue = [.error 5 .poisoned] ∧ t.mem.mark (wordCell 0 0) = .poison) := by decide +kernel

/-- A word whole, in part, and in part of a lost one. -/
theorem test_hyp_PartStored :
    PartStored 0xFF 7 .poisoned (.data 7) ∧ PartStored 0x81 0x0202020202020202 (.data 0x0101010101010101) (.data 0x0201010101010102) ∧
      PartStored 0x81 7 .poisoned .poisoned :=
  ⟨.inl ⟨rfl, rfl⟩, .inr ⟨by decide, by decide, .inr ⟨_, _, rfl, rfl, by decide⟩⟩, .inr ⟨by decide, by decide, .inl ⟨rfl, rfl⟩⟩⟩

/-- A scrub read with AUTO_REPAIR 1 whose row reaches the threshold: a job starts and takes the bank, or is queued, merged or dropped, or no
spare is FREE. -/
theorem test_hyp_BackgroundWritesFireNothing_auto :
    (let s := advising 1 scrubReads
     (s.passTime 0).arbiterChoice = some ⟨.readLine 0 0, .scrubber⟩ ∧ s.freeSpare 0 = some 0 ∧ jobsAfter s = (some (0, 0), []) ∧
       (let t := nextOf (execReadLine 0 0 0 [⟨3, false⟩] s)
        t.scrub.step = .none ∧ t.scrub.pointer = 1 ∧ t.holds = [] ∧ (t.bank 0).marks.repair = true) ∧
       (let s := { s with remap := s.remap.set 0 (.replicate 4 ⟨.retiredSoft, none⟩) }
        let t := nextOf (execReadLine 0 0 0 [⟨3, false⟩] s)
        s.freeSpare 0 = none ∧ jobsAfter s = (none, []) ∧ t.scrub.step = .none ∧ t.scrub.pointer = 1 ∧ t.holds = [])) ∧
    [([], [(0, 0)]), ([⟨0, 0, .fused, []⟩], [(0, 0)]), (List.replicate 4 job37, [(3, 7), (3, 7), (3, 7), (3, 7)])].all
      (fun x =>
        let s := jobBehind x.1 (advising 1 scrubReads)
        decide ((s.passTime 0).arbiterChoice = some ⟨.readLine 0 0, .scrubber⟩) && decide (jobsAfter s = (some (3, 7), x.2)) &&
          decide ((nextOf (execReadLine 0 0 0 [⟨3, false⟩] s)).scrub.step = .holding)) = true := by decide +kernel

/-! ## Hypotheses met, clause by clause: job ends, the claim, the arbiter's candidates -/

/-- A job ends with two jobs behind it whose banks have no FREE spare, and one that starts. -/
theorem test_hyp_BankIntervalsEnd_spent :
    (let s : State := { closingIn 32 [job37, ⟨3, 8, .soft, []⟩, ⟨5, 1, .soft, []⟩] with remap := spent.remap }
     let t := nextOf (execCloseDelayEnd 0 0 s)
     s.freeSpare 3 = none ∧ (s.freeSpare 5).isSome = true ∧ t.currentJob.map (fun c => (c.job.bank, c.phase)) = some (5, .copyOut) ∧
       t.repairQueue = [] ∧ (t.noticeQ .c).queue =
         [.repairDone 0 0 (some 1) .ok 0, .repairDone 3 7 none .noSpare 0, .repairDone 3 8 none .noSpare 0]) := by decide +kernel

/-- CLAIM_LOST finds its queue full. -/
theorem test_hyp_IdleHoldAndClaimExpire_full :
    (let s := (up.setClaim ⟨some .c, some 1000⟩).setNoticeQ .c ⟨List.replicate 8 .quietActive, 3, Enables.all⟩
     s.online .c = true ∧ (s.noticeQ .c).enables.claimLost = true ∧ 8 ≤ (s.noticeQ .c).queue.length ∧
       (s.passTime 0).reached s.claim.timer = true ∧ ((nextOf (execClaimTimerExpiry 0 s)).noticeQ .c).lost = 4) := by decide +kernel

/-- A READ for row 1 of bank 0, of stamp 1. -/
def otherRow : Record := { rec0 (.read 0x8000 1) .ready with stamp := 1, tag := 6 }

/-- Bank 0 OPEN at row 1, with an aged or not aged READ for row 0 that is older than one for row 1. -/
def rivals (aged : Bool) : State :=
  { (withRec readRec).setBank 0 (openBank 1) with queues := ⟨[{ readRec with aged := aged }, otherRow], [], []⟩, stampCounter := 2 }

/-- An older aged record bars a hit and its row's bank is closed for it; not aged, it does not. A marked bank withholds the first access. -/
theorem test_hyp_IssuedCommandsAreLegal_barred :
    (rivals true).arbiterChoice = some ⟨.close 0, .upkeep⟩ ∧ (rivals false).arbiterChoice = some ⟨.readLine 0 0, .request otherRow⟩ ∧
      ((atRow readRec).setBank 0 { openBank 0 with marks := { CloseMarks.empty with retention := true } }).arbiterChoice =
        some ⟨.close 0, .upkeep⟩ := by decide +kernel

theorem test_hyp_Barred : Barred (rivals true) otherRow 0 1 :=
  ⟨{ readRec with aged := true }, by decide +kernel, rfl, by decide, .inl rfl, 0, 1, by decide +kernel, by decide, by decide⟩

theorem test_hyp_Candidate :
    Candidate overAge 1 ⟨.close 3, .upkeep⟩ ∧ Candidate (rivals false) 5 ⟨.readLine 0 0, .request otherRow⟩ ∧
      Candidate up 8 ⟨.refreshGroup 0, .upkeep⟩ :=
  ⟨offers_class1.some _ (by decide +kernel), offers_class5.some _ (by decide +kernel), offers_class8.some _ (by decide +kernel)⟩

/-! ## Hypotheses met, clause by clause: the ends of drains -/

/-- The replacement that waits: pages 1 to 100, where B loses its rights and C keeps READ. -/
def narrowed : Replacement := ⟨true, ⟨1, 100, ⟨.readWrite, .none, .read⟩, true, true, true⟩⟩

/-- The ACTIVE REGION_SET of port B that waits for it. -/
def setRec : Record :=
  { rec0 (.regionSet ⟨0, true, 1, 100, 2, 0, 1, true, true, true⟩) .active with port := .b, region := none, stamp := 1, tag := 6 }

/-- `atRow r`, its region DRAINING with that last record; watches of B and C on page 1. -/
def drains (r : Record) : State :=
  { atRow r with
    queues := ⟨[r], [setRec], []⟩, stampCounter := 2
    regions := regionsReset.set 0 { Region.whole with state := .draining, inFlight := 1, replacement := some narrowed }
    watches := (State.reset.watches.set 7 (some ⟨.b, 64⟩)).set 8 (some ⟨.c, 64⟩) }

theorem test_hyp_EndsDrain :
    (∀ r, r.region = some 0 → EndsDrain (drains r) r 0 narrowed) ∧ (drains readRec).Sole setRec ∧ DrainsFor 0 setRec ∧
      (∀ y ∈ (drains readRec).records, DrainsFor 0 y → y = setRec) ∧
      (∀ y ∈ (drains readRec).records, y.stamp = readRec.stamp → y = readRec) :=
  ⟨fun _ h => ⟨h, rfl, Nat.le_refl 1, rfl⟩, ⟨by decide +kernel, by decide +kernel⟩, ⟨rfl, _, rfl, rfl⟩,
    fun y hy hd => by
      have : ∀ y ∈ (drains readRec).records, y.drains 0 = true → y = setRec := by decide +kernel
      exact this y hy (drains_iff.mpr hd),
    by decide +kernel⟩

/-- What a drain leaves: the region, the answer, the watches, B's notices. -/
def afterDrain (t : State) : Region × List (Option Result) × List (Option Watch) × List Notice :=
  (t.region 0, (t.queue .b).map Record.result, [t.watches.get 7, t.watches.get 8], (t.noticeQ .b).queue)

theorem test_drains_end :
    [(exec (.readLine 0 0 0 []) (drains readRec)), (exec (.writeLine 0 0 0) (drains writeRec)),
      (exec (.writeLine 0 0 0) (drains postRec)), (exec (.signalLoss 0 .a) (drains readRec))].all (fun o =>
        decide (afterDrain (nextOf o) = (⟨.active, narrowed.body, 0, none⟩, [some ⟨.ok, .none⟩], [none, some ⟨.c, 64⟩],
          [.watchEnded 7 64 .cancelled]))) = true := by decide +kernel

theorem test_hyp_TeardownEnds :
    TeardownEnds (drains readRec) .a 0 narrowed ∧ (∀ x, ¬ TeardownEnds (drains (rec0 (.read 0 1) .active)) .a 0 x) ∧
      discardedUnder (withRec readRec) .a 0 = 1 ∧ ((nextOf (exec (.signalLoss 0 .a) (withRec readRec))).region 0).inFlight = 0 :=
  ⟨⟨by decide +kernel, by decide +kernel, rfl, rfl⟩, fun _ h => absurd h.some (by decide +kernel), by decide +kernel, by decide +kernel⟩

/-- The premises of the teardown's clauses on watches: C's line is covered with rights before and after, B's without them after. -/
theorem test_hyp_LinkLossTearsDown_drains :
    PortsConsistent (drains readRec) ∧ (drains readRec).online .a = true ∧ RegionsApart (drains readRec) ∧
      Covering (drains readRec) 1 0 ∧ ((drains readRec).region 0).body.rights.get .c ≠ .none ∧
      (let t := nextOf (exec (.signalLoss 0 .a) (drains readRec))
       Covering t 1 0 ∧ (t.region 0).body.rights.get .c ≠ .none ∧ (t.region 0).body.rights.get .b = .none) :=
  ⟨{ own := by intro p; cases p <;> decide
     offline := by intro p h; cases p <;> exact absurd h (by decide)
     votes := by intro p; cases p <;> decide
     holder := by intro p; cases p <;> decide
     timer := by decide },
    by decide, apart_of _ (by decide +kernel) (by decide +kernel), covering_iff.mp (by decide +kernel), by decide +kernel,
    covering_iff.mp (by decide +kernel), by decide +kernel, by decide +kernel⟩

/-- A detached WRITE ends with its last line. -/
theorem test_hyp_WriteLineStoresItsWords_detached :
    (let s : State := { detachedRead with detached := [{ writeRec with state := .active }] }
     (s.passTime 0).arbiterChoice = some ⟨.writeLine 0 0, .request { writeRec with state := .active }⟩ ∧ s.queue .a = [] ∧
       (nextOf (execWriteLine 0 0 0 s)).detached = []) := by decide +kernel

/-! ## Hypotheses met, clause by clause: the quiet controller after an event -/

/-- The last record is DONE, every port votes QUIET, bank 3 is OPEN. -/
def lastLeaves (part : PartState) (hold : Nat) : State :=
  { withRec doneRec with
    quiet := { Quiet.reset with part := part, votes := .all (some .quiet) }
    settings := { up.settings with quietHold := hold }, banks := up.banks.set 3 (openBank 9) }

/-- The RESPONSE of the last record lets SETTLING begin, or with QUIET_HOLD 0 ENTERING. -/
theorem test_hyp_QuietReviewed :
    SendsFirst ((lastLeaves .active 100).passTime 0) .a .response ∧
      (let t := nextOf (execSendResponse 0 .a false (lastLeaves .active 100))
       Settles t ∧ t.quiet.part = .settling ∧ t.quiet.holdTimer = some 401000) ∧
      (let t := nextOf (execSendResponse 0 .a false (lastLeaves .active 0))
       Settles t ∧ t.quiet.part = .entering ∧ (t.bank 3).marks.retention = true ∧ (t.bank 0).marks.retention = false) ∧
      (nextOf (execSendResponse 0 .a false (withRec doneRec))).quiet.part = .active ∧
      (lastLeaves .settling 100).settle.quiet.part = .active :=
  ⟨sendsFirst_iff.mp (by decide +kernel), ⟨settles_iff.mp (by decide +kernel), by decide +kernel⟩,
    ⟨settles_iff.mp (by decide +kernel), by decide +kernel⟩, by decide +kernel, by decide +kernel⟩

/-- A SETTLING part, and an ENTERING one with its mark on bank 3, that a request finds. -/
def quieting (part : PartState) : State :=
  { up with quiet := { up.quiet with part := part, holdTimer := if part = .settling then some 9000 else none }
            banks := up.banks.set 3 { openBank 9 with marks := { CloseMarks.empty with retention := decide (part = .entering) } } }

/-- A READ, a CLAIM, a GET and a REPAIR each end SETTLING, and abandon ENTERING. -/
theorem test_hyp_AdmissionEnds :
    [PartState.settling, .entering].all (fun part =>
      [exec (.read 0 .a (req [])) (quieting part), exec (.claim 0 .a (req [])) (quieting part),
        exec (.getQuietState 0 .a (req [])) (quieting part),
        exec (.repair 0 .a (req [3, 7, 0, 0])) { quieting part with claim := ⟨some .a, some 41000⟩ }].all (fun o =>
          let t := nextOf o
          decide (t.quiet.part = .active ∧ t.quiet.holdTimer = none ∧ (t.bank 3).marks.retention = false ∧
            (t.link .a).silence = some 4001000 ∧ (t.link .a).ackTimer = .running 9000))) = true := by decide +kernel

/-! ## Hypotheses met, clause by clause: replay positions, scrub steps and the copy-in -/

/-- An ACK past, at and before the replay position, one of the newest packet, and with no position. -/
theorem test_ack_moves_the_replay_position :
    (([(some 1, 255), (some 1, 0), (some 0, 0), (some 1, 1), (some 2, 0), (none, 0)] : List (Option Nat × Byte)).map (fun x =>
      ((nextOf (execAckReceived 0 .a x.2 (three.setLink .a { three.link .a with replayAt := x.1 }))).link .a).replayAt)) =
      [some 0, some 0, some 0, none, some 0, none] := by decide +kernel

/-- A skipped step at the last line: the pointer wraps, the pass is counted up to 65,535 and the timer starts. -/
theorem test_hyp_StepEnded :
    [(7, 8), (65535, 65535)].all (fun n =>
      let s := (up.setScrub { up.scrub with pointer := 33554431, passes := n.1, timer := some 1000 }).setHolds [⟨33554431, .request .a 3⟩]
      let t := nextOf (execScrubStepTimerExpiry 0 s)
      decide (t.scrub.step = .none ∧ t.scrub.pointer = 0 ∧ t.scrub.passes = n.2 ∧ t.scrub.timer = some 33000)) = true ∧
      (nextOf (execWriteLine 0 0 0 scrubHolds)).scrub.timer = some 33000 := by decide +kernel

/-- A copy-in counts the poisoned words it stores, and stores eight where the buffer is empty. -/
theorem test_copy_in_counts_poisoned_words :
    [(copyIn, 0), ({ copyIn with repairBuffer := [[.poisoned, word0, .poisoned]] }, 7), ({ copyIn with repairBuffer := [] }, 8)].all
      (fun x => decide ((nextOf (execWriteLine 0 0 0 x.1)).currentJob.map
        (fun c => (c.linesWritten, c.poisonedWords)) = some (1, x.2))) = true := by decide +kernel

/-! ## Hypotheses met, clause by clause: records that wait from their admission on, and links lost in SETTLING and ENTERING -/

theorem admitted_of (s : State) (body : List Byte) (ho : s.online .a = true) (he : (s.link .a).expected = 0)
    (hq : (s.queue .a).length < 16) (ht : s.tagBusy .a 9 = false) : ControlAdmitted s .a (req body) :=
  ⟨ho, he.symm, hq, rfl, ht⟩

/-- A CLAIM, a QUIET, a SET, a REPAIR and a FENCE behind an undone FENCE wait, and nothing of them is carried out. -/
theorem test_hyp_JoinsWaiting_fence :
    ControlAdmitted (withRec fenceRec) .a (req [1, 208, 7]) ∧ StampsBelowCounter (withRec fenceRec) ∧
      requestRow (.quiet 0 .a (req [1])) = some (0, .a, Kind.quiet.code, req [1]) ∧
      WellFormedAs (req [1]) .quiet (.quiet 1) ∧
      (∃ q, (q ∈ (withRec fenceRec).queue .a ∨ q ∈ (withRec fenceRec).detached ∧ q.port = .a) ∧ q.op = .fence ∧ q.state ≠ .done) ∧
      [exec (.claim 0 .a (req [])) (withRec fenceRec), exec (.quiet 0 .a (req [1])) (withRec fenceRec),
        exec (.setCloseIdle 0 .a (req [208, 7])) (withRec fenceRec), exec (.repair 0 .a (req [3, 7, 0, 0])) (withRec fenceRec),
        exec (.fence 0 .a (req [])) (withRec fenceRec)].all (fun o =>
          let t := nextOf o
          decide ((t.queue .a).map (fun q => (q.state, q.blocked)) = [(.waiting, some .order), (.waiting, some .fence)] ∧
            t.claim = up.claim ∧ t.settings = up.settings ∧ t.quiet = up.quiet ∧ t.currentJob = none ∧ t.stampCounter = 2)) = true :=
  ⟨admitted_of _ _ (by decide) (by decide) (by decide) (by decide),
    (by decide +kernel : ∀ r ∈ (withRec fenceRec).records, r.stamp < (withRec fenceRec).stampCounter), rfl, .quiet 1 [] rfl,
    ⟨fenceRec, .inl (by decide +kernel), rfl, by decide⟩, by decide +kernel⟩

/-- A REPAIR in RETAINED and in WAKING waits for RETENTION; the first wakes the part. -/
theorem test_hyp_JoinsWaiting_retention :
    [(PartState.retained, some (WakeCause.request, Port.a)), (.waking, none)].all (fun x =>
      let s := claimed.setQuiet { claimed.quiet with part := x.1 }
      let t := nextOf (exec (.repair 0 .a (req [3, 7, 0, 1])) s)
      s.asleep && s.scrub.sweepDone &&
        decide ((t.queue .a).map (fun q => (q.state, q.blocked)) = [(.waiting, some .retention)] ∧ t.quiet.part = .waking ∧
          t.quiet.wakeRecord = x.2 ∧ t.currentJob = none ∧ t.repairQueue = [])) = true ∧
    (∀ part, ControlAdmitted (claimed.setQuiet { claimed.quiet with part := part }) .a (req [3, 7, 0, 1])) ∧
    kindOp .repair (req [3, 7, 0, 1]) = some (.repair 3 7 .fused) :=
  ⟨by decide +kernel, fun _ => admitted_of _ _ rfl rfl (by show (0 : Nat) < 16; decide) rfl, by decide +kernel⟩

/-- The loss of port B's link begins SETTLING anew where the other ports vote QUIET, and ends it where one votes AWAKE; RETENTION goes. -/
theorem test_hyp_LinkLossTearsDown_quiet :
    [(PartState.settling, Vote.quiet, PartState.settling), (.entering, .quiet, .settling), (.active, .quiet, .settling),
      (.settling, .awake, .active), (.entering, .awake, .active), (.retained, .quiet, .retained)].all (fun x =>
      let s := quieting x.1
      let t := nextOf (exec (.signalLoss 0 .b) { s with quiet := { s.quiet with votes := ⟨some .quiet, some .awake, some x.2.1⟩ } })
      decide (t.quiet.part = x.2.2 ∧ t.quiet.votes = ⟨some .quiet, none, some x.2.1⟩ ∧ (t.bank 3).marks.retention = false ∧
        (t.quiet.part = .settling → t.quiet.holdTimer = some 401000))) = true ∧
    (∀ part q, (quieting part).queue q = []) := by
  refine ⟨by decide +kernel, fun part q => ?_⟩
  cases q <;> rfl

theorem noneToCarryOut_of (s : State) (h : ∀ q ∈ s.records, q.op.span.isSome = true) : NoneToCarryOut s := fun p q hq hs => by
  have hm := h q (mem_records hq)
  rw [hs] at hm
  exact nomatch hm

/-- A STARTED and a PENDING step at line 0, which an atomic holds or comes to hold. -/
def scrubAt (x : StepState) (s : State) : State := s.setScrub { s.scrub with step := x, pointer := 0 }

/-- The steps are skipped; one of another line stands. -/
theorem test_hyp_scrub_step_skipped :
    NoneToCarryOut (up.setHolds [⟨0, .request .b 3⟩]) ∧ NoneToCarryOut (atRow addRec) ∧
      [StepState.started, .pending].all (fun x =>
        [(scrubAt x (up.setHolds [⟨0, .request .b 3⟩])).settle, nextOf (execReadLine 0 0 0 [] (scrubAt x (atRow addRec)))].all (fun t =>
          decide (t.scrub.step = .none ∧ t.scrub.pointer = 1 ∧ t.scrub.timer = some 33000)) &&
        decide (((scrubAt x (atRow addRec)).passTime 0).arbiterChoice = some ⟨.readLine 0 0, .request addRec⟩) &&
        decide ((scrubAt x (up.setHolds [⟨7, .request .b 3⟩])).settle.scrub.step = x)) = true :=
  ⟨noneToCarryOut_of _ (by decide +kernel), noneToCarryOut_of _ (by decide +kernel), by decide +kernel⟩

/-- GETs of no readable item, in a part awake and asleep. -/
theorem test_hyp_GetReturnsItsItem_unknown :
    (∀ part, ControlReady (up.setQuiet { up.quiet with part := part }) .a (req [8])) ∧
      [PartState.active, .retained, .waking].all (fun part => ([0, 8, 9, 24, 255] : List Byte).all (fun c =>
        let t := nextOf (exec (.getUnknownItem 0 .a (req [c])) (up.setQuiet { up.quiet with part := part }))
        decide ((t.queue .a).map Record.result = [some ⟨.malformed, .none⟩] ∧ t.quiet = { up.quiet with part := part }))) = true :=
  ⟨fun _ => ready_of _ _ rfl rfl rfl rfl rfl, by decide +kernel⟩

/-- An accepted CLAIM moves the stamp counter, a refused READ does not. -/
theorem test_stamp_counter :
    (nextOf (exec (.claim 0 .a (req [])) up)).stampCounter = 1 ∧
      (nextOf (exec (.read 0 .a { req [] with count := 9 }) up)).stampCounter = 0 := by decide +kernel

end

end Sys2Proof.Machine.Test
end

section
/-! PROOFS. The admission of a control request that is carried out at once (R27, R34, R38, R42), which every statement with `ControlReady`
and `Answered` goes through: the state in which its READY record stands, and what fixing that record's result changes. -/

namespace Sys2Proof.Machine

/-! ## From `ControlReady` to a READY record -/

variable {s : State} {p : Port} {t : Tag} {o : ReqOp} {r : Request}

theorem ControlReady.admitted (h : ControlReady s p r) : ControlAdmitted s p r :=
  ⟨h.online, h.sequence, h.room, h.plain, h.tag⟩

/-- What is asked of the request does not concern its body. -/
theorem ControlReady.withCode (h : ControlReady s p r) (c : Byte) : ControlReady s p (withCode r c) :=
  ⟨h.online, h.sequence, h.room, h.plain, h.tag, h.noFence, h.stamps⟩

theorem ControlReady.passTime (h : ControlReady s p r) (dt : Nat) : ControlReady (s.passTime dt) p r :=
  ⟨by simpa using h.online, by simpa using h.sequence, by simpa using h.room, h.plain, by simpa using h.tag,
    by simpa using h.noFence, by simpa [StampsBelowCounter] using h.stamps⟩

theorem isArray_eq_false {o : ReqOp} : o.isArray = false ↔ o.span = none ∧ o.isRepair = false := by
  simp [ReqOp.isArray, ReqOp.usesLines]

/-- No condition of Table 15 holds against a control request that no FENCE precedes. -/
theorem ControlReady.not_heldBack (h : ControlReady s p r) (ha : o.isArray = false) (hf : o ≠ .fence) (c : BlockReason) :
    ¬ HeldBack s (s.newRecord p t o false none) c := by
  have hs : o.span = none := (isArray_eq_false.mp ha).1
  intro hc
  cases c with
  | retention =>
    have := heldBack_retention.mpr hc
    rw [show (s.newRecord p t o false none).op.isArray = false from ha] at this
    cases this
  | fence =>
    obtain ⟨q, ⟨hq, -, hd⟩, he⟩ := hc
    exact hd (of_decide_eq_true (h.noFence q hq (isFence_iff.mpr he)))
  | order =>
    obtain ⟨q, -, ⟨a, n, b, m, hspan, -⟩ | he⟩ := hc
    · cases hs.symm.trans hspan
    · exact hf he
  | hold =>
    obtain ⟨a, n, hspan, -⟩ := hc
    cases hs.symm.trans hspan
  | bank =>
    obtain ⟨a, n, c, hspan, -⟩ := hc
    cases hs.symm.trans hspan

theorem review_unblocked {x : Record} (hw : x.state = .waiting) (h : s.blockReason x = none) :
    s.review x = { x with state := .ready, blocked := none } := by
  unfold State.review
  rw [hw, h]

/-- The record of a control request as it joins, READY. -/
def State.readyRecord (s : State) (p : Port) (t : Tag) (o : ReqOp) : Record :=
  { s.newRecord p t o false none with state := .ready }

/-- The state in which an accepted control request stands READY, with nothing of it carried out: its record has joined and taken the stamp,
the link has taken the packet, and SETTLING or ENTERING has ended. -/
def State.readied (s : State) (p : Port) (t : Tag) (o : ReqOp) : State :=
  { s with
    queues := s.queues.set p (s.queue p ++ [s.readyRecord p t o])
    stampCounter := s.stampCounter + 1
    links := (s.accepted p).links
    quiet := s.quietBreak.quiet
    banks := s.quietBreak.banks }

theorem quietBreak_setLink (s : State) (p : Port) (l : Link) : (s.setLink p l).quietBreak = s.quietBreak.setLink p l := by
  unfold State.quietBreak
  cases h : s.quiet.part <;> simp only [State.setLink_quiet, h] <;> rfl

theorem quietBreak_accepted (s : State) (p : Port) :
    (s.accepted p).quietBreak = { s.quietBreak with links := (s.accepted p).links } := by
  unfold State.accepted State.acceptPacket State.heard
  rw [quietBreak_setLink, quietBreak_setLink, quietBreak_frame s]
  rfl

theorem enqueue_accepted (ha : o.isArray = false) (hb : s.blockReason (s.newRecord p t o false none) = none) :
    (s.accepted p).enqueue p t o false none = s.readied p t o := by
  have hr : (s.accepted p).firstRecord p t o false none = s.readyRecord p t o := by
    unfold State.firstRecord
    exact review_unblocked rfl ((blockReason_quietBreak ..).trans hb)
  rw [enqueue_eq, ha, hr, quietBreak_accepted, quietBreak_frame s]
  rfl

/-- A control request of any kind but FENCE and REPAIR is carried out as it arrives. -/
theorem receive_readied {k : Kind} (h : ControlReady s p r) (hw : WellFormedAs r k o) (ha : o.isArray = false) (hf : o ≠ .fence) :
    s.receive p k.code r = (s.readied p r.tag o).carryOut (s.readyRecord p r.tag o) := by
  obtain ⟨hs, hrep⟩ := isArray_eq_false.mp ha
  have hk : k = .repair → s.scrub.sweepDone = true := by
    rintro rfl
    cases hw
    exact nomatch hrep
  have hb : s.blockReason (s.newRecord p r.tag o false none) = none := blockReason_none (h.not_heldBack ha hf)
  have hr : (s.accepted p).quietBreak.review ((s.accepted p).newRecord p r.tag o false none) = s.readyRecord p r.tag o :=
    review_unblocked rfl ((blockReason_quietBreak ..).trans hb)
  rw [receive_control h.admitted hw hs hk]
  show (s.accepted p).letIn p r.tag o false none = _
  unfold State.letIn
  dsimp only
  rw [enqueue_accepted ha hb, hr, hs, hrep]
  rfl

/-! ## What the READY record's state is -/

theorem AdmissionEnds.congr {u v : State} (h : AdmissionEnds s u) (hq : v.quiet = u.quiet) (hb : v.banks = u.banks) :
    AdmissionEnds s v := by
  have bank : ∀ b, v.bank b = u.bank b := fun b => congrArg (Table.get · b) hb
  exact ⟨hq ▸ h.settling, fun he => ⟨hq ▸ (h.entering he).1, fun b => bank b ▸ (h.entering he).2 b⟩, hq ▸ h.active⟩

theorem admissionEnds_readied (s : State) (p : Port) (t : Tag) (o : ReqOp) : AdmissionEnds s (s.readied p t o) :=
  (admissionEnds_quietBreak s).congr rfl rfl

theorem accepted_errors (s : State) (p q : Port) : ((s.accepted p).link q).errors = (s.link q).errors := by
  unfold State.accepted State.acceptPacket State.heard
  by_cases h : q = p
  · subst h; simp
  · simp [h]

theorem quietBreak_wakeRecord (s : State) : s.quietBreak.quiet.wakeRecord = s.quiet.wakeRecord := by
  unfold State.quietBreak
  split <;> rfl

/-- An admission changes no item but the part state. -/
theorem itemsKept_readied (s : State) (p : Port) (t : Tag) (o : ReqOp) : ItemsKept s (s.readied p t o) where
  settings := rfl
  claim := rfl
  votes := quietBreak_votes s
  wakeRecord := quietBreak_wakeRecord s
  refresh := rfl
  checks := rfl
  scrub := rfl
  errors := accepted_errors s p
  notices := rfl
  remap := rfl
  repairQueue := rfl
  currentJob := rfl
  regions := rfl
  watches := rfl

/-- A RETAINED or WAKING part stays so. -/
theorem readied_quiet_of_asleep (h : s.asleep = true) (p : Port) (t : Tag) (o : ReqOp) : (s.readied p t o).quiet = s.quiet := by
  have hp : s.quiet.part = .retained ∨ s.quiet.part = .waking := of_decide_eq_true h
  have hb : s.quietBreak = s := quietBreak_else (by rcases hp with e | e <;> simp [e]) (by rcases hp with e | e <;> simp [e])
  show s.quietBreak.quiet = s.quiet
  rw [hb]

/-! ## The record's result -/

/-- Fixing the result of the record that has just joined changes that record alone: no other has its stamp. -/
theorem answered_finishControl {v : State} {res : Result} (hs : StampsBelowCounter s) (hq : v.queues = (s.readied p t o).queues)
    (hn : v.now = s.now) (hc : v.stampCounter = s.stampCounter + 1) (hm : v.mem = s.mem) (he : AdmissionEnds s v) :
    Answered s (v.finishControl s.stampCounter res) p t o res := by
  have old : ∀ q, (s.queue q).map (fun x => if x.stamp = s.stampCounter then x.finished s.now res else x) = s.queue q := by
    intro q
    rw [List.map_congr_left (g := id), List.map_id]
    intro x hx
    have hlt := hs x (mem_records hx)
    exact if_neg fun e => absurd (e ▸ hlt) (BitVec.lt_irrefl _)
  have queue : ∀ q, (v.finishControl s.stampCounter res).queue q =
      ((s.queues.set p (s.queue p ++ [s.readyRecord p t o])).get q).map
        (fun x => if x.stamp = s.stampCounter then x.finished s.now res else x) := fun q => by
    unfold State.finishControl State.modRecord
    rw [State.queue_mapRecords, hn]
    unfold State.queue
    rw [hq]
    rfl
  refine ⟨⟨(s.readyRecord p t o).finished s.now res, ?_, rfl, rfl, rfl, rfl, rfl, rfl, rfl, rfl⟩, fun _ => hc, fun q hne => ?_, hm,
    he.congr rfl rfl⟩
  · rw [queue, PerPort.get_set_self, List.map_append, old]
    exact congrArg (fun x => s.queue p ++ [x]) (if_pos rfl)
  · rw [queue, PerPort.get_set_of_ne _ hne]
    exact old q

end Sys2Proof.Machine
end

section
/-! PROOFS. The claim (R177) and GET (R182): what CLAIM, RELEASE and GET answer, case by case. -/

namespace Sys2Proof.Machine

variable {s : State} {p : Port} {r : Request}

/-! ## CLAIM and RELEASE (R177) -/

theorem doClaim_granted (h : s.claim.holder = none ∨ s.claim.holder = some p) :
    s.doClaim p = (s.setClaim ⟨some p, some (s.now + ms 10)⟩, ⟨.ok, .none⟩) := by
  have restart : s.claim.holder = some p → s.restartClaim = s.setClaim ⟨some p, some (s.now + ms 10)⟩ := fun h => by
    rw [← h]; rfl
  unfold State.doClaim
  rcases h with h | h
  · rw [h]; rfl
  · rw [restart h, h]
    exact if_pos rfl

theorem doClaim_refused {q : Port} (hq : s.claim.holder = some q) (hne : q ≠ p) :
    s.doClaim p = (s.setClaim s.claim, ⟨.claimed, .holder q⟩) := by
  unfold State.doClaim
  rw [hq]
  exact if_neg hne

theorem doRelease_held (h : s.claim.holder = some p) : s.doRelease p = (s.setClaim ⟨none, none⟩, ⟨.ok, .none⟩) := if_pos h

theorem doRelease_not_held (h : s.claim.holder ≠ some p) : s.doRelease p = (s.setClaim s.claim, ⟨.notClaimed, .none⟩) := if_neg h

/-- A control request whose carrying out sets the claim, and at most the claim, is answered with its result. -/
theorem answered_setClaim {k : Kind} {o : ReqOp} {c : Claim} {res : Result} (h : ControlReady s p r) (hw : WellFormedAs r k o)
    (ha : o.isArray = false) (hf : o ≠ .fence)
    (hc : (s.readied p r.tag o).carryOut (s.readyRecord p r.tag o) =
      ((s.readied p r.tag o).setClaim c).finishControl s.stampCounter res) :
    Answered s (s.receive p k.code r) p r.tag o res ∧ (s.receive p k.code r).claim = c ∧
      (s.receive p k.code r).notices = s.notices := by
  rw [receive_readied h hw ha hf, hc]
  exact ⟨answered_finishControl h.stamps rfl rfl rfl rfl ((admissionEnds_readied s p r.tag o).congr rfl rfl), rfl, rfl⟩

/-- A CLAIM that arrives has the outcome of `State.doClaim` in the state it finds. -/
theorem claim_answered {c : Claim} {res : Result} (h : ControlReady s p r)
    (hd : (s.readied p r.tag .claim).doClaim p = ((s.readied p r.tag .claim).setClaim c, res)) :
    Answered s (s.receive p Kind.claim.code r) p r.tag .claim res ∧ (s.receive p Kind.claim.code r).claim = c :=
  have ⟨ha, hc, _⟩ := answered_setClaim h .claim rfl nofun (c := c) (res := res) (by
    show ((s.readied p r.tag .claim).doClaim p).1.finishControl _ ((s.readied p r.tag .claim).doClaim p).2 = _
    rw [hd]; rfl)
  ⟨ha, hc⟩

/-- A RELEASE that arrives has the outcome of `State.doRelease` in the state it finds. -/
theorem release_answered {c : Claim} {res : Result} (h : ControlReady s p r)
    (hd : (s.readied p r.tag .release).doRelease p = ((s.readied p r.tag .release).setClaim c, res)) :
    Answered s (s.receive p Kind.release.code r) p r.tag .release res ∧ (s.receive p Kind.release.code r).claim = c ∧
      (s.receive p Kind.release.code r).notices = s.notices :=
  answered_setClaim h .release rfl nofun (by
    show ((s.readied p r.tag .release).doRelease p).1.finishControl _ ((s.readied p r.tag .release).doRelease p).2 = _
    rw [hd]; rfl)

/-- Settles O22: the five outcomes of `State.doClaim` and `State.doRelease`, carried through the admission, and the two orders of one
instant. -/
theorem claimAndRelease : Obligations.ClaimAndRelease := by
  refine ⟨fun dt p r s h => ?_, fun dt p r s h => ?_, fun p h s hh hne => ?_⟩
  · have hr := h.passTime dt
    have e : (s.passTime dt).claim = s.claim := State.passTime_claim s dt
    refine ⟨fun hg => ⟨_, rfl, claim_answered hr (doClaim_granted (e ▸ hg))⟩, fun q hq hne => ⟨_, rfl, ?_⟩⟩
    rw [← e] at hq ⊢
    exact claim_answered hr (doClaim_refused hq hne)
  · have hr := h.passTime dt
    have e : (s.passTime dt).claim = s.claim := State.passTime_claim s dt
    refine ⟨fun hg => ⟨_, rfl, ?_⟩, fun hg => ⟨_, rfl, ?_⟩⟩
    · rw [← e] at hg
      rw [← State.passTime_notices s dt]
      exact release_answered hr (doRelease_held hg)
    · rw [← e] at hg ⊢
      obtain ⟨ha, hc, -⟩ := release_answered hr (doRelease_not_held hg)
      exact ⟨ha, hc⟩
  · rw [doRelease_held hh, doClaim_granted (.inl rfl), doClaim_refused hh hne.symm]
    exact ⟨rfl, rfl, rfl, congrArg (fun x : State × Result => x.1.claim.holder) (doRelease_held hh)⟩

/-! ## GET (R182) -/

theorem portOf_eq_some {y : Nat} {q : Port} : portOf y = some q ↔ y = portCode q := by
  match y with
  | 0 | 1 | 2 => cases q <;> simp [portOf, portCode]
  | y + 3 => cases q <;> simp [portOf, portCode]

theorem portOf_eq_none {y : Nat} : portOf y = none ↔ 3 ≤ y := by
  match y with
  | 0 | 1 | 2 => simp [portOf]
  | y + 3 => simp [portOf]

/-- Tables 58 and 59 as Safety.lean spells them are what the configuration unit reads. -/
theorem itemOf_iff {c : Nat} {x : Option Nat} {v : Item} : ItemOf s c x v ↔ s.readItem c x = some v := by
  constructor
  · intro h
    cases h with
    | refreshDebt g | missedCount g | faultSlot g | spares g => exact dif_pos g.isLt
    | linkErrors q | lostCount q | enables q => cases q <;> rfl
    | _ => rfl
  · intro h
    unfold State.readItem at h
    split at h
    · unfold State.readWith at h
      split at h
      all_goals simp only [Option.dite_none_right_eq_some, Option.map_eq_some_iff, portOf_eq_some, reduceCtorEq] at h
      · obtain ⟨hx, h⟩ := h; cases h; exact .refreshDebt ⟨_, hx⟩
      · obtain ⟨hx, h⟩ := h; cases h; exact .missedCount ⟨_, hx⟩
      · obtain ⟨q, rfl, h⟩ := h; cases h; exact .linkErrors q
      · obtain ⟨q, rfl, h⟩ := h; cases h; exact .lostCount q
      · obtain ⟨q, rfl, h⟩ := h; cases h; exact .enables q
      · obtain ⟨hx, h⟩ := h; cases h; exact .faultSlot ⟨_, hx⟩
      · obtain ⟨hx, h⟩ := h; cases h; exact .spares ⟨_, hx⟩
    · unfold State.readPlain at h
      split at h
      · cases h; exact .claimHolder
      · cases h; exact .quietState
      · cases h; exact .wakeRecord
      · cases h; exact .counts
      · cases h; exact .scrubPointer
      · cases h; exact .repairQueue
      · cases h; exact .currentJob
      · split at h
        · next hc =>
          obtain rfl | rfl | rfl | rfl | rfl | rfl | rfl : c = 1 ∨ c = 2 ∨ c = 3 ∨ c = 4 ∨ c = 5 ∨ c = 6 ∨ c = 7 := by omega
          all_goals cases h; constructor
        · cases h

theorem readWith_eq_none {c y : Nat} (hc : c = 13 ∨ c = 14 ∨ 17 ≤ c ∧ c ≤ 21) : s.readWith c y = none ↔ ParamOutOfRange c y := by
  obtain rfl | rfl | rfl | rfl | rfl | rfl | rfl : c = 13 ∨ c = 14 ∨ c = 17 ∨ c = 18 ∨ c = 19 ∨ c = 20 ∨ c = 21 := by omega
  all_goals simp [State.readWith, ParamOutOfRange, portOf_eq_none]

theorem readPlain_eq_none {c : Nat} :
    s.readPlain c = none ↔ ¬ (1 ≤ c ∧ c ≤ 7 ∨ c = 10 ∨ c = 11 ∨ c = 12 ∨ c = 15 ∨ c = 16 ∨ c = 22 ∨ c = 23) := by
  unfold State.readPlain
  split
  case h_8 h10 h11 h12 h15 h16 h22 h23 =>
    simp only [ite_eq_right_iff, reduceCtorEq, imp_false, not_or]
    exact ⟨fun hs => ⟨hs, h10, h11, h12, h15, h16, h22, h23⟩, fun hs => hs.1⟩
  all_goals simp

/-- A GET's result fixed in the queues changes no item. -/
theorem getResult_finishControl (st : Stamp) (res : Result) (c : Nat) (x : Option Nat) :
    (s.finishControl st res).getResult c x = s.getResult c x := rfl

theorem getResult_of_item {c : Nat} {x : Option Nat} {v : Item} (h : ItemOf s c x v) : s.getResult c x = ⟨.ok, .item v⟩ := by
  unfold State.getResult
  rw [itemOf_iff.mp h]

theorem getResult_malformed {c : Nat} {x : Option Nat} (h : s.readItem c x = none) : s.getResult c x = ⟨.malformed, .none⟩ := by
  unfold State.getResult
  rw [h]

theorem ItemsKept.finishControl {t : State} (h : ItemsKept s t) (st : Stamp) (res : Result) : ItemsKept s (t.finishControl st res) :=
  { h with }

/-- The passing of time is no change of an item. -/
theorem ItemsKept.of_passTime {dt : Nat} {t : State} (h : ItemsKept (s.passTime dt) t) : ItemsKept s t := by
  obtain ⟨n, hn⟩ := s.passTime_exists dt
  rw [hn] at h
  exact { h with }

theorem receive_get {c : Nat} {x : Option Nat} (h : ControlReady s p r) (hw : WellFormedAs r .get (.get c x)) :
    s.receive p Kind.get.code r =
      (s.readied p r.tag (.get c x)).finishControl s.stampCounter ((s.readied p r.tag (.get c x)).getResult c x) :=
  receive_readied h hw rfl nofun

/-- A GET that arrives is answered with what the configuration unit reads, changes no item and wakes nothing. -/
theorem get_answered {c : Nat} {x : Option Nat} (dt : Nat) (h : ControlReady s p r) (hw : WellFormedAs r .get (.get c x)) :
    ∃ t, (s.passTime dt).receive p Kind.get.code r = t ∧
      Answered (s.passTime dt) t p r.tag (.get c x) (t.getResult c x) ∧ ItemsKept s t ∧ (s.asleep = true → t.quiet = s.quiet) := by
  have hr := h.passTime dt
  refine ⟨_, receive_get hr hw, ?_, ?_, fun hz => ?_⟩
  · rw [getResult_finishControl]
    exact answered_finishControl hr.stamps rfl rfl rfl rfl (admissionEnds_readied ..)
  · exact ((itemsKept_readied ..).finishControl ..).of_passTime
  · have stays := readied_quiet_of_asleep (s := s.passTime dt) (by simpa using hz) p r.tag (.get c x)
    exact stays.trans (s.passTime_quiet dt)

/-- A GET row hands its request, the item code in front, to the link after the time passed; its code names a readable item. -/
theorem exec_getRow {i : Instr} {dt : Nat} {c : Byte} (h : getRow i = some (dt, p, c, r)) (s : State) :
    exec i s = .next ((s.passTime dt).receive p Kind.get.code (withCode r c)) ∧
      (1 ≤ c.toNat ∧ c.toNat ≤ 7 ∨ 10 ≤ c.toNat ∧ c.toNat ≤ 23) := by
  unfold getRow at h
  split at h <;> cases h <;> exact ⟨rfl, by decide⟩

/-- Settles O25: the record's result is the item read in the state after, `itemOf_iff`; a code without an item or a parameter out of
range reads none. -/
theorem getReturnsItsItem : Obligations.GetReturnsItsItem := by
  refine ⟨fun i dt p c r x s hi h hparam hplain => ?_, fun dt p r c rest s h hb hc => ?_⟩
  · obtain ⟨he, hcode⟩ := exec_getRow hi s
    have hw : WellFormedAs (withCode r c) .get (.get c.toNat x) := by
      by_cases hp : c.toNat = 13 ∨ c.toNat = 14 ∨ 17 ≤ c.toNat ∧ c.toNat ≤ 21
      · obtain ⟨y, rest, hy, rfl⟩ := hparam hp
        exact .getOf c y rest (congrArg (c :: ·) hy) hp
      · rw [hplain hp]
        exact .get c r.body rfl hp
    obtain ⟨t, ht, ha, hk, hq⟩ := get_answered dt (h.withCode c) hw
    have hout : ∀ y, x = some y → ParamOutOfRange c.toNat y → t.readItem c.toNat x = none := by
      rintro y rfl hy
      exact (readWith_eq_none (by unfold ParamOutOfRange at hy; omega)).mpr hy
    refine ⟨t, he.trans (congrArg _ ht), fun v hv => getResult_of_item hv ▸ ha,
      fun y hx hy => getResult_malformed (hout y hx hy) ▸ ha, ?item, hk.claim, hk.settings, hk.refresh, hk.checks,
      hk.scrub, hk.remap, hk.repairQueue, hk.currentJob, hk.notices, hk.votes, hk.wakeRecord, hk.regions, hk.errors, hq⟩
    cases hr : t.readItem c.toNat x with
    | some v => exact .inl ⟨v, itemOf_iff.mpr hr⟩
    | none =>
      by_cases hp : c.toNat = 13 ∨ c.toNat = 14 ∨ 17 ≤ c.toNat ∧ c.toNat ≤ 21
      · obtain ⟨y, rest, -, rfl⟩ := hparam hp
        exact .inr ⟨y.toNat, rfl, (readWith_eq_none hp).mp hr⟩
      · rw [hplain hp] at hr
        exact absurd (readPlain_eq_none.mp hr) (by omega)
  · obtain ⟨t, ht, ha, hk, hq⟩ := get_answered dt h (.get c rest hb (by omega))
    have hr : t.readItem c.toNat none = none := readPlain_eq_none.mpr (by omega)
    exact ⟨t, congrArg Host.Outcome.next ht, getResult_malformed hr ▸ ha, hk, hq⟩

end Sys2Proof.Machine
end

section
/-! PROOFS. What every step keeps. `Mild s t` says what a move that is neither a reset, nor a port's coming or going, nor an admission leaves
of the seven invariants' subjects; every move of `After` but those is mild, and those are taken one by one. -/

namespace Sys2Proof.Machine

/-! ## Mild moves -/

/-- A move that lets no record join and no link go UP or leave UP, seen by what the invariants of Safety.lean speak of. -/
structure Mild (s t : State) : Prop where
  memory : s.mem.wf = true → t.mem.wf = true
  debts : DebtsInRange s → DebtsInRange t
  queues : ∀ p, ((t.queue p).map Record.key).Sublist ((s.queue p).map Record.key)
  detached : (t.detached.map Record.key).Sublist (s.detached.map Record.key)
  counter : t.stampCounter = s.stampCounter
  holds : s.holds.length ≤ 8 → (s.holds.map Hold.line).Nodup → t.holds.length ≤ 8 ∧ (t.holds.map Hold.line).Nodup
  window : s.window.length ≤ 4 → t.window.length ≤ 4
  bounded : ∀ p, (s.noticeQ p).Bounded → (t.noticeQ p).Bounded
  links : ∀ p, (s.link p).Bounded → (t.link p).Bounded
  repairs : s.repairQueue.length ≤ 4 → t.repairQueue.length ≤ 4
  watches : WatchesBounded s → WatchesBounded t
  first : JobFirst s → JobFirst t
  regions : RegionsApart s → RegionsApart t
  banks : BanksConsistent s → ∀ b, (t.bank b).Consistent
  asleep : BanksConsistent s → t.asleep = true → ∀ b, (t.bank b).state = .retained
  online : ∀ p, t.online p = s.online p
  silent : ∀ p, s.online p = false → (s.link p).replay = [] → (s.link p).refusals = [] →
    (t.link p).replay = [] ∧ (t.link p).refusals = []
  notices : PortsConsistent s → ∀ p, s.online p = false → t.noticeQ p = s.noticeQ p
  votes : PortsConsistent s → ∀ p, t.vote p = s.vote p ∨ (s.online p = true ∧ (t.vote p).isSome = true)
  holder : PortsConsistent s →
    t.claim.holder = s.claim.holder ∨ t.claim.holder = none ∨ ∃ p, s.online p = true ∧ t.claim.holder = some p
  timer : PortsConsistent s → t.claim.timer.isSome = t.claim.holder.isSome

theorem mem_key_of_sublist {l k : List Record} (h : (l.map Record.key).Sublist (k.map Record.key)) {r : Record} (hr : r ∈ l) :
    ∃ q ∈ k, q.key = r.key :=
  List.mem_map.mp (h.subset (List.mem_map_of_mem hr))

namespace Mild

theorem refl (s : State) : Mild s s where
  memory h := h
  debts h := h
  queues _ := List.Sublist.refl _
  detached := List.Sublist.refl _
  counter := rfl
  holds h k := ⟨h, k⟩
  window h := h
  bounded _ h := h
  links _ h := h
  repairs h := h
  watches h := h
  first h := h
  regions h := h
  banks h := h.each
  asleep h := h.asleep
  online _ := rfl
  silent _ _ h k := ⟨h, k⟩
  notices _ _ _ := rfl
  votes _ _ := .inl rfl
  holder _ := .inl rfl
  timer h := h.timer

/-- The ports stay consistent. -/
theorem ports {s t : State} (h : Mild s t) (hs : PortsConsistent s) : PortsConsistent t where
  own p r hr := by
    obtain ⟨q, hq, e⟩ := mem_key_of_sublist (h.queues p) hr
    exact (congrArg Prod.fst e).symm.trans (hs.own p q hq)
  offline p hp := by
    have hp' : s.online p = false := (h.online p) ▸ hp
    have hi := hs.offline p hp'
    obtain ⟨hr, hf⟩ := h.silent p hp' hi.replay hi.refusals
    refine ⟨?_, (h.notices hs p hp').trans hi.notices, hr, hf, ?_⟩
    · have := h.queues p
      rw [hi.queue] at this
      simpa using this
    · rcases h.votes hs p with e | ⟨ho, _⟩
      · exact e.trans hi.vote
      · exact absurd (hp'.symm.trans ho) (by decide)
  votes p hp := by
    rcases h.votes hs p with e | ⟨_, hv⟩
    · rw [e]; exact hs.votes p ((h.online p) ▸ hp)
    · exact hv
  holder p hp := by
    rw [h.online p]
    rcases h.holder hs with e | e | ⟨k, hk, e⟩
    · exact hs.holder p (e ▸ hp)
    · exact absurd (e.symm.trans hp) nofun
    · exact Option.some.inj (e.symm.trans hp) ▸ hk
  timer := h.timer hs

theorem trans {s t u : State} (h : Mild s t) (k : Mild t u) : Mild s u where
  memory x := k.memory (h.memory x)
  debts x := k.debts (h.debts x)
  queues p := (k.queues p).trans (h.queues p)
  detached := k.detached.trans h.detached
  counter := k.counter.trans h.counter
  holds x y := k.holds (h.holds x y).1 (h.holds x y).2
  window x := k.window (h.window x)
  bounded p x := k.bounded p (h.bounded p x)
  links p x := k.links p (h.links p x)
  repairs x := k.repairs (h.repairs x)
  watches x := k.watches (h.watches x)
  first x := k.first (h.first x)
  regions x := k.regions (h.regions x)
  banks x := k.banks ⟨h.banks x, h.asleep x⟩
  asleep x := k.asleep ⟨h.banks x, h.asleep x⟩
  online p := (k.online p).trans (h.online p)
  silent p ho hr hf :=
    have ⟨hr', hf'⟩ := h.silent p ho hr hf
    k.silent p ((h.online p).trans ho) hr' hf'
  notices hs p hp := (k.notices (h.ports hs) p ((h.online p).trans hp)).trans (h.notices hs p hp)
  votes hs p := by
    rcases k.votes (h.ports hs) p with e | ⟨ho, hv⟩
    · rw [e]; exact h.votes hs p
    · exact .inr ⟨(h.online p) ▸ ho, hv⟩
  holder hs := by
    rcases k.holder (h.ports hs) with e | e | ⟨p, hp, e⟩
    · rw [e]; exact h.holder hs
    · exact .inr (.inl e)
    · exact .inr (.inr ⟨p, (h.online p) ▸ hp, e⟩)
  timer hs := k.timer (h.ports hs)

end Mild

/-! ### The control side -/

theorem Bank.Consistent.of_core {x y : Bank} (h : x.Consistent) (hc : y.core = x.core) (hr : x.state.Rests y.state) : y.Consistent := by
  have ho : y.core.openRow = x.core.openRow := congrArg Bank.openRow hc
  have hs : y.core.servedBy = x.core.servedBy := congrArg Bank.servedBy hc
  simp only [Bank.core] at ho hs
  have hst : (y.state = .opening ∨ y.state = .opened) ↔ (x.state = .opening ∨ x.state = .opened) := by
    rcases hr with e | ⟨hx, hy⟩
    · rw [e]
    · rcases hx with hx | hx <;> rcases hy with hy | hy <;> simp [hx, hy]
  unfold Bank.Consistent
  rw [ho, hs, hst]
  exact h

/-- The control side touches no replay buffer and no refusal list. -/
theorem Control.buffers {s t : State} (c : Control s t) (p : Port) :
    (t.link p).replay = (s.link p).replay ∧ (t.link p).refusals = (s.link p).refusals := by
  have hr := congrArg Link.replay (c.link p)
  have hf := congrArg Link.refusals (c.link p)
  simp only [Link.core] at hr hf
  exact ⟨hr, hf⟩

/-- What the control side does is mild. -/
theorem mild_of_control {s t : State} (c : Control s t) (h : PortsConsistent s → Ports s t) : Mild s t where
  memory := by rw [c.mem]; exact id
  debts x g := by
    have : t.refresh.debt = s.refresh.debt := congrArg Fixed.debt c.fixed
    rw [this]
    exact x g
  queues := c.queues
  detached := c.detached
  counter := c.stampCounter
  holds x y := ⟨(c.holds.length_le).trans x, y.sublist (c.holds.map _)⟩
  window := by rw [c.window]; exact id
  bounded := c.notices
  links p x := by
    obtain ⟨hr, hf⟩ := c.buffers p
    unfold Link.Bounded
    rw [hr, hf]
    exact x
  repairs := c.repairs
  watches := c.watches
  first := c.first
  regions := c.regions
  banks x b := (x.each b).of_core (c.bank b) (c.banks b)
  asleep x ha b := by
    have hb := x.asleep (c.asleep ▸ ha) b
    rcases c.banks b with e | ⟨e, _⟩
    · exact e ▸ hb
    · rw [hb] at e; rcases e with e | e <;> cases e
  online := c.online
  silent p _ hr hf := ⟨(c.buffers p).1.trans hr, (c.buffers p).2.trans hf⟩
  notices hs := (h hs).notices
  votes hs := (h hs).votes
  holder hs := (h hs).holder
  timer hs := (h hs).timer hs.timer

theorem mild_settle (s : State) : Mild s s.settle := mild_of_control (control_settle s) (ports_settle s)
theorem mild_reviewQuiet (s : State) : Mild s s.reviewQuiet := mild_of_control (control_reviewQuiet s) fun _ => ports_reviewQuiet s
theorem mild_quietBreak (s : State) : Mild s s.quietBreak := mild_of_control (control_quietBreak s) fun _ => ports_quietBreak s
theorem mild_placeNotice (s : State) (p : Port) (n : Notice) : Mild s (s.placeNotice p n) :=
  mild_of_control (control_placeNotice s p n) fun _ => ports_placeNotice s p n
theorem mild_broadcast (s : State) (w : Enables → Bool) (n : Notice) : Mild s (s.broadcast w n) :=
  mild_of_control (control_broadcast s w n) fun _ => ports_broadcast s w n

/-! ### Links -/

/-- A change of one link that leaves it UP or not UP as it was. -/
theorem mild_setLink (s : State) (p : Port) (l : Link) (hu : l.state = .up ↔ (s.link p).state = .up)
    (hb : (s.link p).Bounded → l.Bounded)
    (hn : s.online p = false → (s.link p).replay = [] → (s.link p).refusals = [] → l.replay = [] ∧ l.refusals = []) :
    Mild s (s.setLink p l) :=
  { Mild.refl s with
    links := fun q => by
      by_cases h : q = p
      · subst h; simpa using hb
      · simp [h]
    online := fun q => by
      by_cases h : q = p
      · subst h; simp [State.online, hu]
      · simp [State.online, h]
    silent := fun q => by
      by_cases h : q = p
      · subst h; simpa using hn
      · simpa [h] using fun _ a b => ⟨a, b⟩ }

/-- A change of one link that keeps its state, its replay buffer and its refusal list. -/
theorem mild_setLink_of_eq (s : State) (p : Port) (l : Link) (hs : l.state = (s.link p).state) (hr : l.replay = (s.link p).replay)
    (hf : l.refusals = (s.link p).refusals) : Mild s (s.setLink p l) :=
  mild_setLink s p l (by rw [hs]) (by unfold Link.Bounded; rw [hr, hf]; exact id) fun _ a b => ⟨hr.trans a, hf.trans b⟩

theorem decideNak_keeps (l : Link) :
    l.decideNak.state = l.state ∧ l.decideNak.replay = l.replay ∧ l.decideNak.refusals = l.refusals := by
  unfold Link.decideNak; split <;> exact ⟨rfl, rfl, rfl⟩

theorem mild_heard (s : State) (p : Port) : Mild s (s.heard p) := mild_setLink_of_eq s p _ rfl rfl rfl

theorem mild_badPacket (s : State) (p : Port) : Mild s (s.badPacket p) := by
  obtain ⟨hs, hr, hf⟩ := decideNak_keeps
    { s.link p with errors := { (s.link p).errors with checkFailures := countUp top16 (s.link p).errors.checkFailures } }
  exact mild_setLink_of_eq s p _ hs hr hf

theorem mild_discardPacket (s : State) (p : Port) : Mild s (s.discardPacket p) := by
  obtain ⟨hs, hr, hf⟩ := decideNak_keeps
    { s.link p with errors := { (s.link p).errors with seqDiscards := countUp top16 (s.link p).errors.seqDiscards } }
  exact mild_setLink_of_eq s p _ hs hr hf

theorem mild_accepted (s : State) (p : Port) : Mild s (s.accepted p) :=
  (mild_heard s p).trans (mild_setLink_of_eq _ p _ rfl rfl rfl)

/-- An ACK or a NAK takes packets out of the replay buffer and changes no other part that is counted. -/
theorem mild_replayDrop (s : State) (p : Port) (l : Link) (i : Nat) (hs : l.state = (s.link p).state)
    (hr : l.replay = (s.link p).replay.drop i) (hf : l.refusals = (s.link p).refusals) : Mild s (s.setLink p l) := by
  refine mild_setLink s p l (by rw [hs]) ?_ fun _ a b => ⟨by rw [hr, a, List.drop_nil], hf.trans b⟩
  unfold Link.Bounded
  rw [hr, hf, List.length_drop]
  exact fun ⟨h, k⟩ => ⟨(Nat.sub_le ..).trans h, k⟩

theorem mild_takeAck (s : State) (p : Port) (n : Byte) : Mild s (s.setLink p ((s.link p).takeAck n)) := by
  unfold Link.takeAck
  split
  · exact mild_replayDrop s p _ _ rfl rfl rfl
  · exact mild_setLink_of_eq s p _ rfl rfl rfl

theorem mild_takeNak (s : State) (p : Port) (n : Byte) : Mild s (s.setLink p ((s.link p).takeNak n)) := by
  unfold Link.takeNak
  split
  · exact mild_replayDrop s p _ _ rfl rfl rfl
  · exact mild_setLink_of_eq s p _ rfl rfl rfl

/-- A refusal finds room in the list. -/
theorem mild_addRefusal (s : State) (p : Port) (t : Tag) (st : Status) (ho : s.online p = true)
    (h : (s.link p).refusals.length < 16) : Mild s (s.addRefusal p t st) := by
  refine mild_setLink s p _ Iff.rfl ?_ fun hn => absurd (ho.symm.trans hn) (by decide)
  rintro ⟨hr, -⟩
  refine ⟨hr, ?_⟩
  rw [List.length_append]
  exact h

/-! ### Packets sent -/

theorem mild_sendPlain (s : State) (p : Port) (c : Content) : Mild s (s.sendPlain p c) := mild_setLink_of_eq s p _ rfl rfl rfl

/-- A sequenced packet joins a replay buffer that has room. -/
theorem mild_sendSequenced (s : State) (p : Port) (c : Content) (ho : s.online p = true) (h : (s.link p).replay.length < 32) :
    Mild s (s.sendSequenced p c) := by
  refine mild_setLink s p _ Iff.rfl ?_ fun hn => absurd (ho.symm.trans hn) (by decide)
  rintro ⟨-, hf⟩
  refine ⟨?_, hf⟩
  show ((s.link p).replay ++ [_]).length ≤ 32
  rw [List.length_append]
  exact h

theorem mild_sendReplayed (s : State) (p : Port) : Mild s (s.sendReplayed p) := by
  unfold State.sendReplayed
  dsimp only
  split
  · exact .refl s
  · split
    · exact .refl s
    · exact mild_setLink_of_eq s p _ rfl rfl rfl

theorem mild_dropRecord (s : State) (p : Port) (st : Stamp) : Mild s (s.dropRecord p st) :=
  mild_of_control (control_dropRecord s p st) fun _ => .of_eq rfl rfl rfl rfl

theorem mild_sendAnswer (s : State) (p : Port) (first : Bool) (ho : s.online p = true) (h : (s.link p).replay.length < 32) :
    Mild s (s.sendAnswer p first) := by
  have record : ∀ r, Mild s (s.answerRecord p r) := fun r => (mild_dropRecord s p r.stamp).trans (mild_sendSequenced _ p _ ho h)
  have refusal : ∀ x, Mild s (s.answerRefusal p x) := fun x => by
    have h1 : Mild s (s.setLink p { s.link p with refusals := (s.link p).refusals.tail }) := by
      refine mild_setLink s p _ Iff.rfl ?_ fun _ a b => ⟨a, by simp [b]⟩
      rintro ⟨hr, hf⟩
      refine ⟨hr, ?_⟩
      rw [List.length_tail]
      exact (Nat.sub_le ..).trans hf
    exact h1.trans (mild_sendSequenced _ p _ ((h1.online p).trans ho) (by simpa using h))
  unfold State.sendAnswer
  split
  · exact record _
  · exact refusal _
  · dsimp only
    split
    · exact record _
    · exact refusal _
  · exact .refl s

theorem NoticeQueue.Bounded.afterHead {q : NoticeQueue} (h : q.Bounded) (hn : q.queue ≠ []) : q.afterHead.Bounded := by
  obtain ⟨hq, -, hf⟩ := h
  have hl : 0 < q.queue.length := List.length_pos_iff.mpr hn
  unfold NoticeQueue.afterHead
  split
  · refine ⟨?_, Nat.zero_le _, fun h0 => absurd h0 (Nat.lt_irrefl 0)⟩
    simp only [List.length_append, List.length_tail, List.length_singleton]
    omega
  · rename_i h0
    refine ⟨?_, by simp only; omega, fun h1 => absurd h1 h0⟩
    simp only [List.length_tail]
    omega

theorem mild_sendHeadNotice (s : State) (p : Port) (ho : s.online p = true) (h : (s.link p).replay.length < 32) :
    Mild s (s.sendHeadNotice p) := by
  unfold State.sendHeadNotice
  split
  · exact .refl s
  · rename_i n hn
    have hne : (s.noticeQ p).queue ≠ [] := fun e => by rw [e] at hn; cases hn
    refine (mild_of_control (control_setNoticeQ s p (s.noticeQ p).afterHead fun hb => hb.afterHead hne)
      fun _ => .of_setNoticeQ s p _ ho).trans (mild_sendSequenced _ p _ ho h)

end Sys2Proof.Machine
end

section
/-! PROOFS. What every step keeps: the array commands and expiries are mild moves. -/

namespace Sys2Proof.Machine

/-! ### Line accesses -/

theorem Bank.Consistent.of_eq {x y : Bank} (h : x.Consistent)
    (hxy : y.state = x.state ∧ y.openRow = x.openRow ∧ y.servedBy = x.servedBy) : y.Consistent := by
  obtain ⟨hs, ho, hb⟩ := hxy
  unfold Bank.Consistent
  rw [hs, ho, hb]
  exact h

/-- A line access: its bank keeps its state, its row and its spare, the array its form, the records what names them. -/
theorem mild_lineAccess (s : State) (n : Nat) (pb : Option Instant) (b : BankId) (x : Bank) (m : Memory) (hs : List Hold)
    (qs : PerPort (List Record)) (ds : List Record) (sc : Scrubber) (j : Option CurrentJob) (rb : List (List CheckedWord))
    (hx : x.state = (s.bank b).state ∧ x.openRow = (s.bank b).openRow ∧ x.servedBy = (s.bank b).servedBy)
    (hm : s.mem.wf = true → m.wf = true)
    (hh : s.holds.length ≤ 8 → (s.holds.map Hold.line).Nodup → hs.length ≤ 8 ∧ (hs.map Hold.line).Nodup)
    (hq : ∀ p, (qs.get p).map Record.key = (s.queue p).map Record.key) (hd : ds.map Record.key = s.detached.map Record.key)
    (hj : j = none → s.currentJob = none) :
    Mild s { s with freeCount := n, pathBusy := pb, banks := s.banks.set b x, mem := m, holds := hs, queues := qs, detached := ds
                    scrub := sc, currentJob := j, repairBuffer := rb } :=
  { Mild.refl s with
    memory := hm
    holds := hh
    queues := fun p => by
      show ((qs.get p).map Record.key).Sublist _
      rw [hq]
    detached := by
      show (ds.map Record.key).Sublist _
      rw [hd]
    first := fun h e => h (hj e)
    banks := fun h k => by
      show ((s.banks.set b x).get k).Consistent
      by_cases e : k = b
      · subst e; rw [Table.get_set_self]; exact (h.each k).of_eq hx
      · rw [Table.get_set_of_ne _ e]; exact h.each k
    asleep := fun h ha k => by
      show ((s.banks.set b x).get k).state = _
      by_cases e : k = b
      · subst e; rw [Table.get_set_self, hx.1]; exact h.asleep ha k
      · rw [Table.get_set_of_ne _ e]; exact h.asleep ha k }

theorem mild_decay (s : State) (l : LineId) (flips : List Flip) : Mild s (s.decay l flips) :=
  { Mild.refl s with memory := fun h => Memory.flipBits_wf flips s.mem h _ }

/-- One more hold of a line that nobody holds, where there is room. -/
theorem holds_append {hs : List Hold} {l : LineId} (h : Holder) (hr : hs.length < 8) (hl : ∀ e ∈ hs, e.line ≠ l)
    (hn : (hs.map Hold.line).Nodup) :
    (hs ++ [(⟨l, h⟩ : Hold)]).length ≤ 8 ∧ ((hs ++ [(⟨l, h⟩ : Hold)]).map Hold.line).Nodup := by
  constructor
  · rw [List.length_append]; exact hr
  · rw [List.map_append, List.map_cons, List.map_nil, List.nodup_append]
    refine ⟨hn, List.nodup_singleton _, fun a ha b hb => ?_⟩
    obtain ⟨e, he, rfl⟩ := List.mem_map.mp ha
    rw [List.mem_singleton.mp hb]
    exact hl e he

theorem not_held {s : State} {l : LineId} (h : s.held l = false) : ∀ e ∈ s.holds, e.line ≠ l :=
  fun e he hl => by rw [held_iff.mpr ⟨e, he, hl⟩] at h; cases h

theorem issued_key (q : Record) (st : Stamp) (ws : List (List CheckedWord)) (n : Nat) :
    (if q.stamp = st then q.issued ws n else q).key = q.key := by split <;> rfl

theorem mild_readTaken (s : State) (r : Record) (l : LineId)
    (ha : r.op.isAtomic = true → s.holds.length < 8 ∧ s.held l = false) : Mild s (s.readTaken r l) := by
  have holds : s.holds.length ≤ 8 → (s.holds.map Hold.line).Nodup →
      (s.readTaken r l).holds.length ≤ 8 ∧ ((s.readTaken r l).holds.map Hold.line).Nodup := fun h8 hn => by
    rcases readTaken_holds s r l with e | ⟨hr, e⟩
    · rw [e]; exact ⟨h8, hn⟩
    · rw [e]; exact holds_append _ (ha hr).1 (not_held (ha hr).2) hn
  rw [readTaken_eq]
  refine mild_lineAccess s _ _ _ _ _ _ _ _ _ _ _ (requestAccess_keeps ..) ?_ holds (fun p => ?_) ?_ id
  · rw [readTaken_mem]; exact fun h => Memory.writeBack_wf _ _ h _
  · rw [PerPort.get_map]; exact map_key_of (fun q => issued_key ..) _
  · exact map_key_of (fun q => issued_key ..) _

theorem mild_requestRead (s : State) (r : Record) (l : LineId)
    (ha : r.op.isAtomic = true → s.holds.length < 8 ∧ s.held l = false) : Mild s (s.requestRead r l) :=
  (mild_readTaken s r l ha).trans (mild_of_control (control_requestRead ..) (ports_requestRead s r l))

theorem mild_scrubRead (s : State) (l : LineId) : Mild s (s.scrubRead l) := by
  have holds : s.holds.length ≤ 8 → (s.holds.map Hold.line).Nodup →
      (s.scrubReadTaken l).holds.length ≤ 8 ∧ ((s.scrubReadTaken l).holds.map Hold.line).Nodup := fun h8 hn => by
    rcases scrubReadTaken_holds s l with e | ⟨hr, hl, e⟩
    · rw [e]; exact ⟨h8, hn⟩
    · rw [e]; exact holds_append _ hr (not_held hl) hn
  refine Mild.trans ?_ (mild_of_control (control_scrubRead s l) (ports_scrubRead s l))
  rw [scrubReadTaken_eq]
  exact mild_lineAccess s _ _ _ _ _ _ _ _ _ _ _ (issueAccess_keeps ..) id holds (fun _ => rfl) rfl id

theorem mild_countLine (s : State) (f : ReadFor) (l : LineId) (os : List WordOutcome) : Mild s (s.countLine f l os) :=
  mild_of_control (control_countLine ..) fun _ => ports_countLine ..

theorem bufferLine_currentJob (s : State) (ws : List CheckedWord) (h : (s.bufferLine ws).currentJob = none) : s.currentJob = none := by
  unfold State.bufferLine at h
  split at h
  · cases h
  · exact h

theorem mild_repairRead (s : State) (l : LineId) : Mild s (s.repairRead l) := by
  rw [repairRead_eq]
  refine Mild.trans ?_ (mild_countLine ..)
  rw [repairReadTaken_eq]
  exact mild_lineAccess s _ _ _ _ _ _ _ _ _ _ _ (issueAccess_keeps ..) id (fun h k => ⟨h, k⟩) (fun _ => rfl) rfl
    fun e => bufferLine_currentJob (s.useFree.occupyPath.touchBank l (fun x => x.issueAccess s.now true false)) _ e

theorem mild_requestWrite (s : State) (r : Record) (l : LineId) : Mild s (s.requestWrite r l) := by
  refine Mild.trans ?_ (mild_of_control (control_requestWrite s r l) (ports_requestWrite s r l))
  rw [writeStored_eq]
  refine mild_lineAccess s _ _ _ _ _ _ _ _ _ _ _ (requestAccess_keeps ..) (fun h => Memory.storeLine_wf _ _ h _)
    (fun h k => ⟨h, k⟩) (fun p => ?_) ?_ id
  · rw [PerPort.get_map]; exact map_key_of (fun q => issued_key ..) _
  · exact map_key_of (fun q => issued_key ..) _

theorem mild_scrubWrite (s : State) (l : LineId) : Mild s (s.scrubWrite l) := by
  refine Mild.trans ?_ (mild_of_control (control_scrubWrite s l) (ports_scrubWrite s l))
  rw [scrubStored_eq]
  exact mild_lineAccess s _ _ _ _ _ _ _ _ _ _ _ (issueAccess_keeps ..) (fun h => Memory.storeLine_wf _ _ h _)
    (fun h k => ⟨h, k⟩) (fun _ => rfl) rfl id

theorem mild_sweepWrite (s : State) (l : LineId) : Mild s (s.sweepWrite l) := by
  rw [sweepWrite_eq]
  exact mild_lineAccess s _ _ _ _ _ _ _ _ _ _ _ (issueAccess_keeps ..) (fun h => Memory.storeLine_wf _ _ h _)
    (fun h k => ⟨h, k⟩) (fun _ => rfl) rfl id

theorem mild_repairWrite (s : State) (l : LineId) : Mild s (s.repairWrite l) := by
  rw [repairWrite_eq]
  split
  · exact .refl s
  · exact mild_lineAccess s _ _ _ _ _ _ _ _ _ _ _ (issueAccess_keeps ..) (fun h => Memory.storeLine_wf _ _ h _)
      (fun h k => ⟨h, k⟩) (fun _ => rfl) rfl nofun

/-- A READ_LINE that the arbiter issues: an atomic's finds its hold (R55). -/
theorem mild_issueRead {s : State} {g : Grant} {b : BankId} {line : LineIx} {l : LineId} (flips : List Flip)
    (h : s.arbiterChoice = some g) (hg : g.cmd = .readLine b line) (hl : s.lineOf b line = some l) :
    Mild s ((s.decay l flips).issueRead g.source l) := by
  refine (mild_decay s l flips).trans ?_
  obtain ⟨cmd, src⟩ := g
  cases hg
  obtain ⟨-, hlegal⟩ := choice_legal h
  cases src with
  | request r =>
    cases hlegal with
    | read k _ hacc hclear hr hx =>
      have e : k = l := Option.some.inj ((lineOf_accessLegal hacc).symm.trans hl)
      subst e
      refine mild_requestRead _ r k fun ha => ?_
      have hgive := (hr r rfl).2.2 ha
      simp only [State.holdMayBeGiven, State.holdFree, Bool.and_eq_true, decide_eq_true_eq, Bool.not_eq_true'] at hgive
      obtain ⟨⟨⟨hroom, hheld⟩, -⟩, -⟩ := hgive
      exact ⟨hroom, hheld⟩
  | scrubber => exact mild_scrubRead ..
  | repair => exact mild_repairRead ..
  | sweep => exact .refl _
  | upkeep => exact .refl _

theorem mild_issueWrite (s : State) (src : Source) (l : LineId) : Mild s (s.issueWrite src l) := by
  cases src with
  | request r => exact mild_requestWrite ..
  | scrubber => exact mild_scrubWrite ..
  | sweep => exact mild_sweepWrite ..
  | repair => exact mild_repairWrite ..
  | upkeep => exact .refl _

/-! ### Banks -/

/-- One bank changes, with what the invariants do not look at: it was not RETAINED, so the part is awake. -/
theorem mild_bank (s : State) (n : Nat) (pb : Option Instant) (w : List Instant) (sc : Scrubber) (b : BankId) (x : Bank)
    (hw : s.window.length ≤ 4 → w.length ≤ 4) (hx : (s.bank b).Consistent → x.Consistent) (hb : (s.bank b).state ≠ .retained) :
    Mild s { s with now := n, window := w, pathBusy := pb, scrub := sc, banks := s.banks.set b x } :=
  { Mild.refl s with
    window := hw
    banks := fun h k => by
      show ((s.banks.set b x).get k).Consistent
      by_cases e : k = b
      · subst e; rw [Table.get_set_self]; exact hx (h.each k)
      · rw [Table.get_set_of_ne _ e]; exact h.each k
    asleep := fun h ha => absurd (h.asleep ha b) hb }

theorem pushWindow_length {w : List Instant} (t : Instant) (h : w.length ≤ 4) : (pushWindow w t).length ≤ 4 := by
  unfold pushWindow
  split
  · rw [List.length_append, List.length_singleton]; omega
  · rw [List.length_append, List.length_tail, List.length_singleton]; omega

theorem mild_issueOpen {s : State} {b : BankId} {row : RowId} {sp : Option SpareId}
    (h : (s.bank b).state = .closed ∨ (s.bank b).state = .repairing) : Mild s (s.issueOpen b row sp) :=
  mild_bank s _ _ _ _ b _ (pushWindow_length _) (fun _ => ⟨by simp [Bank.issueOpen], fun _ => rfl⟩)
    (by rcases h with h | h <;> rw [h] <;> decide)

theorem closeLegal_opened {s : State} {b : BankId} (h : s.closeLegal b = true) : (s.bank b).state = .opened := by
  unfold State.closeLegal at h
  simp only [Bool.and_eq_true, decide_eq_true_eq] at h
  exact h.1.1.1

theorem mild_issueClose {s : State} {b : BankId} (h : s.closeLegal b = true) : Mild s (s.issueClose b) := by
  have hb : (s.bank b).state ≠ .retained := by rw [closeLegal_opened h]; decide
  have hc : ((s.bank b).issueClose s.now).Consistent := ⟨by simp [Bank.issueClose], nofun⟩
  unfold State.issueClose
  dsimp only
  split
  · exact (mild_bank s _ _ _ _ b _ id (fun _ => hc) hb).trans (mild_reviewQuiet _)
  · exact mild_bank s _ _ _ _ b _ id (fun _ => hc) hb

theorem mild_openDelayEnd {s : State} {b : BankId} (h : (s.bank b).state = .opening) :
    Mild s (s.setBank b (s.idleNext b { s.bank b with state := .opened, idleReset := false })) := by
  obtain ⟨hcore, hstate, -⟩ := idleNext_core s b { s.bank b with state := .opened, idleReset := false }
  refine mild_bank s _ _ _ _ b _ id (fun hc => ?_) (by rw [h]; decide)
  have hc' : Bank.Consistent { s.bank b with state := .opened, idleReset := false } :=
    ⟨hc.1.trans (by simp [h]), hc.2⟩
  exact hc'.of_core hcore (.inl hstate.symm)

theorem mild_rowLimit {s : State} {b : BankId} (h : (s.bank b).state = .opening ∨ (s.bank b).state = .opened) :
    Mild s (s.setBank b (s.bank b).limitReached) :=
  mild_bank s _ _ _ _ b _ id (fun hc => hc.of_eq ⟨rfl, rfl, rfl⟩) (by rcases h with h | h <;> rw [h] <;> decide)

theorem restState_cases (s : State) (b : BankId) : s.restState b = .repairing ∨ s.restState b = .closed := by
  unfold State.restState; split
  · exact .inl rfl
  · exact .inr rfl

/-- A bank without an open row that comes to rest has none. -/
theorem Bank.Consistent.rested {x : Bank} (h : x.Consistent) (hx : x.state = .closing ∨ x.state = .refreshing) {st : BankState}
    (hs : st = .repairing ∨ st = .closed) : Bank.Consistent { x with state := st } := by
  refine ⟨h.1.trans ?_, h.2⟩
  rcases hx with hx | hx <;> rcases hs with hs | hs <;> simp [hx, hs]

theorem mild_endClose {s : State} {b : BankId} (h : (s.bank b).state = .closing) : Mild s (s.endClose b) :=
  (mild_bank s _ _ _ _ b _ id (fun hc => hc.rested (.inl h) (restState_cases s b)) (by rw [h]; decide)).trans
    (mild_of_control (control_endClose s b) (ports_endClose s b))

/-- Every bank changes, and none that is RETAINED changes its state. -/
theorem mild_mapBanks (s : State) (f : BankId → Bank → Bank) (hc : ∀ b, (s.bank b).Consistent → (f b (s.bank b)).Consistent)
    (hr : ∀ b, (s.bank b).state = .retained → (f b (s.bank b)).state = .retained) : Mild s (s.mapBanks f) :=
  { Mild.refl s with
    banks := fun h b => by rw [State.bank_mapBanks]; exact hc b (h.each b)
    asleep := fun h ha b => by rw [State.bank_mapBanks]; exact hr b (h.asleep ha b) }

theorem mild_refreshEnd (s : State) (g : GroupId) : Mild s (s.mapBanks (s.endRefreshBank g)).leaveWaitAny := by
  refine Mild.trans ?_ (mild_of_control (control_leaveWaitAny _) fun _ => ports_leaveWaitAny _)
  refine mild_mapBanks s _ (fun b hc => ?_) fun b hb => ?_ <;> unfold State.endRefreshBank <;> split
  · rename_i h; exact hc.rested (.inr h.2) (restState_cases s b)
  · exact hc
  · rename_i h; rw [h.2] at hb; cases hb
  · exact hb

/-! ### Refresh -/

/-- The refresh controller changes, every debt staying in its range. -/
theorem mild_setRefresh (s : State) (f : Refresh) (h : DebtsInRange s → ∀ g, -8 ≤ f.debt.get g ∧ f.debt.get g ≤ 8) :
    Mild s (s.setRefresh f) :=
  { Mild.refl s with debts := h }

theorem mild_issueRefresh {s : State} {g : GroupId} (h : -8 < s.refresh.debt.get g) : Mild s (s.issueRefresh g) := by
  have h1 : Mild s s.occupyPath := { Mild.refl s with }
  refine (h1.trans (mild_setRefresh _ (s.refresh.paid g) fun hd k => ?_)).trans (mild_mapBanks _ _ (fun b hc => ?_) fun b hb => ?_)
  · show -8 ≤ (s.refresh.debt.set g (s.refresh.debt.get g - 1)).get k ∧ (s.refresh.debt.set g (s.refresh.debt.get g - 1)).get k ≤ 8
    by_cases e : k = g
    · subst e
      have : s.refresh.debt.get k ≤ 8 := (hd k).2
      rw [Table.get_set_self]
      omega
    · rw [Table.get_set_of_ne _ e]; exact hd k
  · split
    · refine ⟨hc.1.trans ?_, hc.2⟩
      unfold Bank.issueRefresh
      dsimp only
      split
      · rename_i e; simp [e]
      · exact Iff.rfl
    · exact hc
  · split
    · unfold Bank.issueRefresh; dsimp only; rw [hb]; rfl
    · exact hb

theorem mild_markUrgent (s : State) (g : GroupId) : Mild s (s.markUrgent g) := by
  refine mild_mapBanks s _ (fun b hc => ?_) fun b hb => ?_ <;> split
  · exact hc.of_eq ⟨rfl, rfl, rfl⟩
  · exact hc
  · exact hb
  · exact hb

theorem mild_setUrgentAt (s : State) (x : Table 4 (Option Instant)) : Mild s (s.setRefresh { s.refresh with urgentAt := x }) :=
  mild_setRefresh s _ fun hd => hd

theorem mild_setMissed (s : State) (x : Table 4 Nat) : Mild s (s.setRefresh { s.refresh with missed := x }) :=
  mild_setRefresh s _ fun hd => hd

theorem mild_groupExpires (s : State) (g : GroupId) : Mild s (s.groupExpires g) := by
  unfold State.groupExpires
  dsimp only
  split
  · rename_i hlt
    have h1 : Mild s (s.setRefresh { s.refresh with debt := s.refresh.debt.set g (s.refresh.debt.get g + 1) }) := by
      refine mild_setRefresh s _ fun hd k => ?_
      dsimp only
      by_cases e : k = g
      · subst e
        have := (hd k).1
        rw [Table.get_set_self]
        omega
      · rw [Table.get_set_of_ne _ e]; exact hd k
    split
    · exact h1.trans ((mild_setUrgentAt _ _).trans (mild_markUrgent _ _))
    · exact h1
  · exact (mild_setMissed s _).trans (mild_broadcast ..)

theorem mild_nextQuarter (s : State) : Mild s s.nextQuarter := mild_setRefresh s _ fun hd => hd

/-! ### Retention -/

theorem mild_issueRetain {s : State} (h : ∀ b, (s.bank b).state = .closed) : Mild s s.issueRetain := by
  refine Mild.trans ?_ (mild_broadcast ..)
  exact { Mild.refl s with
    banks := fun hc b => by
      show Bank.Consistent ((Table.ofFn fun k => { s.bank k with state := .retained }).get b)
      rw [Table.get_ofFn]
      exact ⟨(hc.each b).1.trans (by simp [h b]), (hc.each b).2⟩
    asleep := fun _ _ b => by
      show ((Table.ofFn fun k => { s.bank k with state := BankState.retained }).get b).state = _
      rw [Table.get_ofFn] }

theorem mild_endWake {s : State} (h : s.quiet.part = .waking) : Mild s s.endWake := by
  rw [endWake_eq]
  refine Mild.trans ?_ (mild_settle _)
  refine Mild.trans ?_ (mild_broadcast ..)
  exact { Mild.refl s with
    debts := fun _ g => by
      show -8 ≤ (Table.replicate 4 (0 : Int)).get g ∧ (Table.replicate 4 (0 : Int)).get g ≤ 8
      rw [Table.get_replicate]
      decide
    banks := fun hc b => by
      have hb : (s.bank b).state = .retained := hc.asleep (by simp [State.asleep, h]) b
      show ((Table.ofFn fun k => (s.bank k).woken).get b).Consistent
      rw [Table.get_ofFn]
      exact ⟨(hc.each b).1.trans (by simp [hb, Bank.woken]), (hc.each b).2⟩
    asleep := fun _ ha => by cases ha }

/-! ### Jobs -/

theorem mild_issueProgram (s : State) (n : Nat) : Mild s (s.issueProgram n) := by
  unfold State.issueProgram
  split
  · exact { Mild.refl s with first := fun _ => nofun }
  · exact .refl s

theorem retire_eq (s : State) (b : BankId) (sp : Option SpareId) : s.retire b sp = { s with remap := (s.retire b sp).remap } := by
  cases sp <;> rfl

theorem mild_bindSpare (s : State) (c : CurrentJob) : Mild s (s.bindSpare c) := by
  unfold State.bindSpare
  rw [retire_eq]
  exact { Mild.refl s with first := fun _ => nofun }

/-! ### The others -/

theorem mild_ageThrough (s : State) (st : Stamp) : Mild s (s.ageThrough st) := by
  refine mild_of_control (control_mapRecords s fun r => ?_) fun _ => .of_eq rfl rfl rfl rfl
  split
  · exact ageAt_key ..
  · rfl

theorem mild_startStep (s : State) : Mild s s.startStep := by
  have h1 : Mild s (s.setScrub { s.scrub with timer := none, step := .started }) := { Mild.refl s with }
  exact h1.trans (mild_of_control (control_reviewScrub _) fun _ => ports_reviewScrub _)

theorem mild_enterEntering {s : State} (h : s.quiet.part = .settling) : Mild s s.enterEntering :=
  mild_of_control (control_enterEntering s (by simp [State.asleep, h])) fun _ => .of_eq rfl rfl rfl rfl

theorem mild_claimLapses (s : State) (p : Port) : Mild s (s.claimLapses p) :=
  mild_of_control ((control_setClaim s _).trans (control_placeIf ..)) fun _ => (ports_freeClaim s).trans (ports_placeIf ..)

theorem mild_idleTimer (s : State) (b : BankId) : Mild s (s.setBank b { s.bank b with idle := .expired }) :=
  mild_of_control (control_setBank s b _ rfl (.rfl' _)) fun _ => .of_eq rfl rfl rfl rfl

end Sys2Proof.Machine
end

section
/-! PROOFS. What every step keeps: resets, a port that comes or goes, and an admission; then every move of `After`, and the invariants
of Safety.lean. -/

namespace Sys2Proof.Machine

/-- Every invariant of Safety.lean that holds of `s` holds of `t`; that of the stamps unless the counter has given its last value. -/
structure Keeps (s t : State) : Prop where
  memory : MemoryCanonical s → MemoryCanonical t
  debts : DebtsInRange s → DebtsInRange t
  capacities : WithinCapacities s → WithinCapacities t
  regions : RegionsApart s → RegionsApart t
  banks : BanksConsistent s → BanksConsistent t
  ports : PortsConsistent s → PortsConsistent t
  stamps : s.stampCounter ≠ BitVec.allOnes 64 → StampsNameRecords s → StampsNameRecords t

/-! ## Mild moves keep every invariant -/

namespace Mild

variable {s t : State} (h : Mild s t)

include h

theorem records : (t.records.map Record.key).Sublist (s.records.map Record.key) := by
  unfold State.records
  simp only [List.map_append]
  exact (((h.queues .a).append (h.queues .b)).append (h.queues .c)).append h.detached

theorem capacities (c : WithinCapacities s) : WithinCapacities t where
  queues p := by simpa using ((h.queues p).length_le).trans (by simpa using c.queues p)
  notices p := h.bounded p (c.notices p)
  links p := h.links p (c.links p)
  holds := (h.holds c.holds c.apart).1
  window := h.window c.window
  repairs := h.repairs c.repairs
  apart := (h.holds c.holds c.apart).2
  watches := h.watches c.watches
  first := h.first c.first

theorem stamps (c : StampsNameRecords s) : StampsNameRecords t where
  below r hr := by
    obtain ⟨q, hq, e⟩ := mem_key_of_sublist h.records hr
    have hst : q.stamp = r.stamp := congrArg (fun k => k.2.2.2.2.2) e
    rw [h.counter, ← hst]
    exact c.below q hq
  distinct := by
    have hs := h.records.map (fun k => k.2.2.2.2.2)
    simp only [List.map_map] at hs
    exact c.distinct.sublist hs

theorem keeps : Keeps s t where
  memory := h.memory
  debts := h.debts
  capacities := h.capacities
  regions := h.regions
  banks hb := ⟨h.banks hb, h.asleep hb⟩
  ports := h.ports
  stamps _ := h.stamps

/-- A mild move before a move that keeps the invariants. -/
theorem before {u : State} (k : Keeps t u) : Keeps s u where
  memory x := k.memory (h.keeps.memory x)
  debts x := k.debts (h.keeps.debts x)
  capacities x := k.capacities (h.keeps.capacities x)
  regions x := k.regions (h.keeps.regions x)
  banks x := k.banks (h.keeps.banks x)
  ports x := k.ports (h.keeps.ports x)
  stamps hc x := k.stamps (h.counter ▸ hc) (h.stamps x)

/-- A mild move after a move that keeps the invariants. -/
theorem after {r : State} (k : Keeps r s) : Keeps r t where
  memory x := h.keeps.memory (k.memory x)
  debts x := h.keeps.debts (k.debts x)
  capacities x := h.keeps.capacities (k.capacities x)
  regions x := h.keeps.regions (k.regions x)
  banks x := h.keeps.banks (k.banks x)
  ports x := h.keeps.ports (k.ports x)
  stamps hc x := h.stamps (k.stamps hc x)

end Mild

/-! ## Resets -/

theorem noticeQueue_reset_bounded : NoticeQueue.reset.Bounded := ⟨Nat.zero_le _, Nat.zero_le _, fun h => absurd h (Nat.lt_irrefl 0)⟩

theorem watchTableBounded_empty : WatchTableBounded (Table.replicate 32 none) where
  owned p := Nat.zero_le _
  apart i j w hi := by rw [Table.get_replicate] at hi; cases hi

theorem region_off_range {b l : Nat} : ¬ Region.off.Range b l := by
  rintro (⟨h, -⟩ | ⟨x, h, -⟩)
  · exact h rfl
  · cases h

theorem regionTableApart_reset : RegionTableApart regionsReset where
  apart i j hij b l b' l' hi hj := by
    unfold regionsReset at hi hj
    by_cases h : i = 0
    · rw [Table.get_set_of_ne _ (fun e => hij (h.trans e.symm)), Table.get_replicate] at hj
      exact absurd hj region_off_range
    · rw [Table.get_set_of_ne _ h, Table.get_replicate] at hi
      exact absurd hi region_off_range
  unused i hi := by
    unfold regionsReset at hi ⊢
    by_cases h : i = 0
    · subst h; rw [Table.get_set_self]; rfl
    · rw [Table.get_set_of_ne _ h, Table.get_replicate]; rfl

theorem banks_reset_consistent {s : State} (h : s.banks = .replicate 16 Bank.reset) (b : BankId) : (s.bank b).Consistent := by
  unfold State.bank
  rw [h, Table.get_replicate]
  exact ⟨by simp [Bank.reset], nofun⟩

/-- The queues, tables and buffers of a part that has just been reset. -/
theorem capacities_empty {t : State} (hq : t.queues = .all []) (hn : t.notices = .all NoticeQueue.reset)
    (hl : ∀ p, (t.link p).replay = [] ∧ (t.link p).refusals = []) (hh : t.holds = []) (hw : t.window.length ≤ 4)
    (hr : t.repairQueue = []) (ha : t.watches = .replicate 32 none) : WithinCapacities t where
  queues p := by unfold State.queue; rw [hq, PerPort.get_all]; exact Nat.zero_le _
  notices p := by unfold State.noticeQ; rw [hn, PerPort.get_all]; exact noticeQueue_reset_bounded
  links p := by unfold Link.Bounded; rw [(hl p).1, (hl p).2]; exact ⟨Nat.zero_le _, Nat.zero_le _⟩
  holds := by rw [hh]; exact Nat.zero_le _
  window := hw
  repairs := by rw [hr]; exact Nat.zero_le _
  apart := by rw [hh]; exact List.nodup_nil
  watches := by unfold WatchesBounded; rw [ha]; exact watchTableBounded_empty
  first _ := hr

/-- The ports of a part that has just been reset, every link DOWN. -/
theorem ports_empty {t : State} (hq : t.queues = .all []) (hn : t.notices = .all NoticeQueue.reset)
    (hl : ∀ p, (t.link p).state = .down ∧ (t.link p).replay = [] ∧ (t.link p).refusals = []) (hv : t.quiet.votes = .all none)
    (hc : t.claim = ⟨none, none⟩) : PortsConsistent t := by
  have off : ∀ p, t.online p = false := fun p => by unfold State.online; rw [(hl p).1]; rfl
  have queue : ∀ p, t.queue p = [] := fun p => by unfold State.queue; rw [hq, PerPort.get_all]
  refine ⟨fun p r hr => ?_, fun p _ => ⟨queue p, ?_, (hl p).2.1, (hl p).2.2, ?_⟩, fun p hp => ?_, fun p hp => ?_, ?_⟩
  · rw [queue p] at hr; cases hr
  · unfold State.noticeQ; rw [hn, PerPort.get_all]
  · unfold State.vote; rw [hv, PerPort.get_all]
  · rw [off p] at hp; cases hp
  · rw [hc] at hp; cases hp
  · rw [hc]; rfl

theorem stamps_empty {t : State} (hq : t.queues = .all []) (hd : t.detached = []) : StampsNameRecords t := by
  have : t.records = [] := by unfold State.records State.queue; rw [hq, hd]; rfl
  refine ⟨fun r hr => ?_, ?_⟩
  · rw [this] at hr; cases hr
  · rw [this]; exact List.nodup_nil

theorem debts_zero {t : State} (h : t.refresh.debt = .replicate 4 0) : DebtsInRange t := fun g => by
  rw [h, Table.get_replicate]; decide

theorem keeps_coldReset (s : State) : Keeps s s.coldReset where
  memory _ := rfl
  debts _ := debts_zero rfl
  capacities _ := capacities_empty rfl rfl (fun p => by cases p <;> exact ⟨rfl, rfl⟩) rfl (Nat.zero_le _) rfl rfl
  regions _ := regionTableApart_reset
  banks _ := ⟨banks_reset_consistent rfl, nofun⟩
  ports _ := ports_empty rfl rfl (fun p => by cases p <;> exact ⟨rfl, rfl, rfl⟩) rfl rfl
  stamps _ _ := stamps_empty rfl rfl

/-- Settles O53: the reset state is that of a cold reset, of a part with no spare ever fused. -/
theorem resetMeetsTheInvariants : Obligations.ResetMeetsTheInvariants :=
  ⟨rfl, debts_zero rfl, capacities_empty rfl rfl (fun p => by cases p <;> exact ⟨rfl, rfl⟩) rfl (Nat.zero_le _) rfl rfl,
    regionTableApart_reset, ⟨banks_reset_consistent rfl, nofun⟩,
    ports_empty rfl rfl (fun p => by cases p <;> exact ⟨rfl, rfl, rfl⟩) rfl rfl, stamps_empty rfl rfl⟩

theorem link_warmReset (s : State) (p : Port) : s.warmReset.link p = (s.link p).warmReset := PerPort.get_map ..

theorem bank_warmReset (s : State) (b : BankId) : s.warmReset.bank b = (s.bank b).warmReset (s.abandons b) := Table.get_ofFn ..

theorem asleep_warmReset (s : State) : s.warmReset.asleep = s.asleep := by
  show decide ((PartState.warmReset s.quiet.part) = .retained ∨ (PartState.warmReset s.quiet.part) = .waking) =
    decide (s.quiet.part = .retained ∨ s.quiet.part = .waking)
  cases s.quiet.part <;> rfl

theorem Bank.Consistent.warmReset {x : Bank} (h : x.Consistent) (d : Bool) : (x.warmReset d).Consistent := by
  refine ⟨h.1.trans ?_, h.2⟩
  unfold Bank.warmReset
  dsimp only
  split
  · rename_i e; simp [e.2]
  · exact Iff.rfl

theorem keeps_warmReset (s : State) : Keeps s s.warmReset where
  memory h := h
  debts _ := debts_zero rfl
  capacities c := capacities_empty rfl rfl (fun p => by rw [link_warmReset]; exact ⟨rfl, rfl⟩) rfl c.window rfl rfl
  regions _ := regionTableApart_reset
  banks h :=
    { each := fun b => by rw [bank_warmReset]; exact (h.each b).warmReset _
      asleep := fun ha b => by
        have hb := h.asleep (asleep_warmReset s ▸ ha) b
        rw [bank_warmReset]
        unfold Bank.warmReset
        dsimp only
        rw [hb]
        simp }
  ports _ := ports_empty rfl rfl (fun p => by rw [link_warmReset]; exact ⟨rfl, rfl, rfl⟩) rfl rfl
  stamps _ _ := stamps_empty rfl rfl

/-! ## A port comes or goes -/

theorem online_setLink (s : State) (p q : Port) (l : Link) :
    (s.setLink p l).online q = if q = p then decide (l.state = .up) else s.online q := by
  unfold State.online
  by_cases h : q = p
  · subst h; simp
  · simp [h]

theorem capacities_setLink {s : State} (h : WithinCapacities s) (p : Port) (l : Link) (hl : l.Bounded) :
    WithinCapacities (s.setLink p l) :=
  { queues := h.queues, notices := h.notices, holds := h.holds, window := h.window, repairs := h.repairs, apart := h.apart
    watches := h.watches, first := h.first
    links := fun q => by
      by_cases e : q = p
      · subst e; simpa using hl
      · simpa [e] using h.links q }

/-- The state in which a link has gone UP with its vote AWAKE, with nothing of the quiet controller's done. -/
def State.upped (s : State) (p : Port) : State := (s.setLink p ((s.link p).upped s.now)).setVote p (some .awake)

theorem online_upped (s : State) (p q : Port) : (s.upped p).online q = if q = p then true else s.online q :=
  online_setLink s p q _

theorem ports_upped {s : State} {p : Port} (h : PortsConsistent s) (hp : s.online p = false) : PortsConsistent (s.upped p) where
  own := h.own
  offline q hq := by
    rw [online_upped] at hq
    have hqp : q ≠ p := fun e => by rw [if_pos e] at hq; cases hq
    rw [if_neg hqp] at hq
    obtain ⟨hqueue, hnotices, hreplay, hrefusals, hvote⟩ := h.offline q hq
    have hlink : (s.upped p).link q = s.link q := State.link_setLink_of_ne s hqp _
    exact ⟨hqueue, hnotices, hlink ▸ hreplay, hlink ▸ hrefusals, (State.vote_setVote_of_ne _ hqp _).trans hvote⟩
  votes q hq := by
    by_cases e : q = p
    · subst e; exact congrArg Option.isSome (State.vote_setVote_self ..)
    · rw [online_upped, if_neg e] at hq
      exact (congrArg Option.isSome (State.vote_setVote_of_ne _ e _)).trans (h.votes q hq)
  holder q hq := by
    have hqp : q ≠ p := fun e => by have := h.holder q hq; rw [e, hp] at this; cases this
    rw [online_upped, if_neg hqp]
    exact h.holder q hq
  timer := h.timer

/-- A link goes UP, and its port votes AWAKE. -/
theorem keeps_goUp {s : State} {p : Port} (hl : (s.link p).state = .training) : Keeps s (s.goUp p) := by
  have quiet : Mild (s.upped p) (s.goUp p) :=
    (mild_quietBreak _).trans (mild_of_control (control_wakeCause ..) fun _ => ports_wakeCause ..)
  refine quiet.after
    { memory := id, debts := id, regions := id, banks := fun h => ⟨h.each, h.asleep⟩
      capacities := fun h => ?_
      stamps := fun _ h => ⟨h.below, h.distinct⟩
      ports := fun h => ports_upped h (by unfold State.online; rw [hl]; rfl) }
  obtain ⟨hq, hn, hlk, hh, hw, hr, ha, hwt, hf⟩ := capacities_setLink h p ((s.link p).upped s.now) ⟨Nat.zero_le _, Nat.zero_le _⟩
  exact ⟨hq, hn, hlk, hh, hw, hr, ha, hwt, hf⟩

theorem queue_leavePort (s : State) (p q : Port) : (s.leavePort p).queue q = if q = p then [] else s.queue q := PerPort.get_set ..

theorem link_leavePort (s : State) (p q : Port) :
    (s.leavePort p).link q = if q = p then (s.link p).downed.dropped else s.link q := PerPort.get_set ..

theorem noticeQ_leavePort (s : State) (p q : Port) :
    (s.leavePort p).noticeQ q = if q = p then NoticeQueue.reset else s.noticeQ q := PerPort.get_set ..

theorem vote_leavePort (s : State) (p q : Port) : (s.leavePort p).vote q = if q = p then none else s.vote q := PerPort.get_set ..

theorem online_leavePort (s : State) (p q : Port) : (s.leavePort p).online q = if q = p then false else s.online q := by
  unfold State.online
  rw [link_leavePort]
  split <;> rfl

theorem portIdle_leavePort (s : State) (p : Port) : PortIdle (s.leavePort p) p where
  queue := by rw [queue_leavePort, if_pos rfl]
  notices := by rw [noticeQ_leavePort, if_pos rfl]
  replay := by rw [link_leavePort, if_pos rfl]; rfl
  refusals := by rw [link_leavePort, if_pos rfl]; rfl
  vote := by rw [vote_leavePort, if_pos rfl]

theorem ports_leavePort {s : State} (h : PortsConsistent s) (p : Port) : PortsConsistent (s.leavePort p) where
  own q r hr := by
    rw [queue_leavePort] at hr
    split at hr
    · cases hr
    · exact h.own q r hr
  offline q hq := by
    by_cases e : q = p
    · subst e; exact portIdle_leavePort s q
    · rw [online_leavePort, if_neg e] at hq
      obtain ⟨hqueue, hnotices, hreplay, hrefusals, hvote⟩ := h.offline q hq
      refine ⟨?_, ?_, ?_, ?_, ?_⟩
      · rw [queue_leavePort, if_neg e]; exact hqueue
      · rw [noticeQ_leavePort, if_neg e]; exact hnotices
      · rw [link_leavePort, if_neg e]; exact hreplay
      · rw [link_leavePort, if_neg e]; exact hrefusals
      · rw [vote_leavePort, if_neg e]; exact hvote
  votes q hq := by
    rw [online_leavePort] at hq
    by_cases e : q = p
    · rw [if_pos e] at hq; cases hq
    · rw [if_neg e] at hq
      rw [vote_leavePort, if_neg e]; exact h.votes q hq
  holder q hq := by
    have hc : (s.leavePort p).claim = s.claim.without p := rfl
    rw [hc] at hq
    unfold Claim.without at hq
    split at hq
    · cases hq
    · rename_i hne
      rw [online_leavePort, if_neg fun e : q = p => hne (e ▸ hq)]
      exact h.holder q hq
  timer := by
    show (s.claim.without p).timer.isSome = (s.claim.without p).holder.isSome
    unfold Claim.without
    split
    · rfl
    · exact h.timer

theorem capacities_leavePort {s : State} (h : WithinCapacities s) (p : Port) : WithinCapacities (s.leavePort p) where
  queues q := by rw [queue_leavePort]; split; exacts [Nat.zero_le _, h.queues q]
  notices q := by rw [noticeQ_leavePort]; split; exacts [noticeQueue_reset_bounded, h.notices q]
  links q := by rw [link_leavePort]; split; exacts [⟨Nat.zero_le _, Nat.zero_le _⟩, h.links q]
  holds := h.holds
  window := h.window
  repairs := by
    show (s.repairQueue.map _).length ≤ _
    rw [List.length_map]
    exact h.repairs
  apart := h.apart
  watches := watchesBounded_leavePort h.watches p
  first hj := by
    have : s.currentJob = none := Option.map_eq_none_iff.mp hj
    show s.repairQueue.map _ = []
    rw [h.first this]
    rfl

/-- The records that a port leaves behind were the part's before. -/
theorem records_leavePort (s : State) (p : Port) : (s.leavePort p).records.Subperm s.records := by
  have hf : ((s.queue p).filter (fun r : Record => r.isActive && r.op.usesLines)).Sublist (s.queue p) := List.filter_sublist
  have hd : (s.leavePort p).detached = s.detached ++ (s.queue p).filter (fun r : Record => r.isActive && r.op.usesLines) := rfl
  refine List.subperm_ext_iff.mpr fun x _ => ?_
  have hc := hf.count_le x
  unfold State.records
  rw [hd]
  cases p <;> simp only [queue_leavePort, reduceCtorEq, if_true, if_false, List.count_append, List.count_nil] <;> omega

theorem stamps_leavePort {s : State} (h : StampsNameRecords s) (p : Port) : StampsNameRecords (s.leavePort p) where
  below r hr := h.below r ((records_leavePort s p).subset hr)
  distinct := by
    obtain ⟨l, hl, hs⟩ := records_leavePort s p
    exact ((hl.map Record.stamp).nodup_iff).mp (h.distinct.sublist (hs.map _))

/-- A link that is UP goes DOWN, and its port is torn down. -/
theorem keeps_teardown (s : State) (p : Port) : Keeps s (s.teardown p) :=
  (mild_of_control (control_teardown s p) (ports_teardown s p)).after
    { memory := id, debts := id, regions := id
      banks := fun h => ⟨h.each, h.asleep⟩
      capacities := fun h => capacities_leavePort h p
      ports := fun h => ports_leavePort h p
      stamps := fun _ h => stamps_leavePort h p }

/-! ## Admission -/

/-- The state in which a record has joined its queue and taken the stamp, with no region counted. -/
def State.queuedUp (s : State) (p : Port) (x : Record) : State :=
  ({ s with stampCounter := s.stampCounter + 1 }).setQueue p (s.queue p ++ [x])

theorem queue_queuedUp (s : State) (p q : Port) (x : Record) :
    (s.queuedUp p x).queue q = if q = p then s.queue p ++ [x] else s.queue q := PerPort.get_set ..

theorem records_queuedUp (s : State) (p : Port) (x : Record) : (s.queuedUp p x).records.Perm (x :: s.records) := by
  have hd : (s.queuedUp p x).detached = s.detached := rfl
  refine List.perm_iff_count.mpr fun y => ?_
  unfold State.records
  rw [hd]
  cases p <;>
    simp only [queue_queuedUp, reduceCtorEq, if_true, if_false, List.count_append, List.count_cons, List.count_nil] <;> omega

theorem lt_succ_of_lt {a c : Stamp} (hc : c ≠ BitVec.allOnes 64) (h : a ≤ c) : a < c + 1 := by
  have hc' : c.toNat ≠ 2 ^ 64 - 1 := fun e => hc (BitVec.eq_of_toNat_eq (by rw [e]; rfl))
  have hlt := c.isLt
  have : (c + 1).toNat = c.toNat + 1 := by rw [BitVec.toNat_add]; exact Nat.mod_eq_of_lt (by show c.toNat + 1 < _; omega)
  rw [BitVec.lt_def, this]
  exact Nat.lt_succ_of_le h

theorem stamps_queuedUp {s : State} {p : Port} {x : Record} (hc : s.stampCounter ≠ BitVec.allOnes 64)
    (hx : x.stamp = s.stampCounter) (h : StampsNameRecords s) : StampsNameRecords (s.queuedUp p x) where
  below r hr := by
    show r.stamp < s.stampCounter + 1
    rcases List.mem_cons.mp ((records_queuedUp s p x).subset hr) with rfl | hr
    · exact lt_succ_of_lt hc (by rw [hx]; exact BitVec.le_refl _)
    · exact lt_succ_of_lt hc (BitVec.le_of_lt (h.below r hr))
  distinct := by
    rw [((records_queuedUp s p x).map Record.stamp).nodup_iff, List.map_cons, List.nodup_cons]
    refine ⟨fun hm => ?_, h.distinct⟩
    obtain ⟨r, hr, e⟩ := List.mem_map.mp hm
    have := h.below r hr
    rw [e, hx] at this
    exact absurd this (BitVec.lt_irrefl _)

theorem ports_queuedUp {s : State} {p : Port} {x : Record} (hp : s.online p = true) (hx : x.port = p) (h : PortsConsistent s) :
    PortsConsistent (s.queuedUp p x) where
  own q r hr := by
    rw [queue_queuedUp] at hr
    split at hr
    · rename_i e
      rcases List.mem_append.mp hr with hr | hr
      · exact e ▸ h.own p r hr
      · rw [List.mem_singleton.mp hr, e]; exact hx
    · exact h.own q r hr
  offline q hq := by
    have hqp : q ≠ p := fun e => by rw [e] at hq; exact absurd (hp.symm.trans hq) (by decide)
    obtain ⟨hqueue, hnotices, hreplay, hrefusals, hvote⟩ := h.offline q hq
    exact ⟨by rw [queue_queuedUp, if_neg hqp]; exact hqueue, hnotices, hreplay, hrefusals, hvote⟩
  votes := h.votes
  holder := h.holder
  timer := h.timer

theorem keeps_queuedUp {s : State} {p : Port} {x : Record} (hp : s.online p = true) (hr : (s.queue p).length < 16)
    (hx : x.port = p) (hs : x.stamp = s.stampCounter) : Keeps s (s.queuedUp p x) where
  memory := id
  debts := id
  regions := id
  banks h := ⟨h.each, h.asleep⟩
  capacities h :=
    { notices := h.notices, links := h.links, holds := h.holds, window := h.window, repairs := h.repairs, apart := h.apart
      watches := h.watches, first := h.first
      queues := fun q => by
        rw [queue_queuedUp]
        split
        · rw [List.length_append]; exact hr
        · exact h.queues q }
  ports := ports_queuedUp hp hx
  stamps hc h := stamps_queuedUp hc hs h

theorem keeps_joined {s : State} {p : Port} {x : Record} {region : Option RegionIx} (hp : s.online p = true)
    (hr : (s.queue p).length < 16) (hx : x.port = p) (hs : x.stamp = s.stampCounter)
    (hg : ∀ i, region = some i → (s.region i).state = .active) : Keeps s (s.joined p x region) := by
  refine Mild.after ?_ (keeps_queuedUp hp hr hx hs)
  cases region with
  | none => exact .refl _
  | some i =>
    refine mild_of_control (control_setRegion_same _ i _ fun hd => ?_) fun _ => .of_eq rfl rfl rfl rfl
    exact absurd ((hg i rfl).symm.trans hd) nofun

/-- After the joining, admission leaves the ports as the control side does. -/
theorem ports_letIn (s : State) (p : Port) (t : Tag) (o : ReqOp) (posted : Bool) (region : Option RegionIx) (hp : s.online p = true)
    (h : PortsConsistent (s.quietBreak.joined p (s.firstRecord p t o posted region) region)) :
    Ports (s.quietBreak.joined p (s.firstRecord p t o posted region) region) (s.letIn p t o posted region) := by
  have he := ports_enqueue s p t o posted region
  have hport : (s.firstRecord p t o posted region).port = p := congrArg Prod.fst (firstRecord_key s p t o posted region)
  have hon : (s.enqueue p t o posted region).online (s.firstRecord p t o posted region).port = true := by
    rw [hport, (control_enqueue ..).online, State.online, State.link, (joined_eqs ..).1]
    exact ((mild_quietBreak s).online p).trans hp
  have hc := ports_carryOut _ _ hon
  unfold State.letIn
  dsimp only
  split
  · split
    · exact he.trans (.of_eq rfl rfl rfl rfl)
    · split
      · exact he.trans (hc.trans (ports_settle _ (hc.consistent (control_carryOut ..) (he.consistent (control_enqueue ..) h))))
      · exact he.trans hc
  · exact he

/-- A REQUEST that is admitted: its record joins, and what it does at once is the control side's. -/
theorem keeps_letIn {s : State} {p : Port} {t : Tag} {o : ReqOp} {posted : Bool} {region : Option RegionIx} (hp : s.online p = true)
    (hr : (s.queue p).length < 16) (hg : ∀ i, region = some i → (s.region i).state = .active) :
    Keeps s (s.letIn p t o posted region) := by
  have hk := firstRecord_key s p t o posted region
  have hport : (s.firstRecord p t o posted region).port = p := congrArg Prod.fst hk
  have hstamp : (s.firstRecord p t o posted region).stamp = s.stampCounter := congrArg (fun k => k.2.2.2.2.2) hk
  have joined : Keeps s.quietBreak (s.quietBreak.joined p (s.firstRecord p t o posted region) region) :=
    keeps_joined (((mild_quietBreak s).online p).trans hp) (by rw [quietBreak_queue]; exact hr) hport
      (hstamp.trans (quietBreak_stampCounter s).symm) fun i hi => by rw [quietBreak_region]; exact hg i hi
  exact (mild_quietBreak s).before ((mild_of_control (control_letIn ..) (ports_letIn s p t o posted region hp)).after joined)

theorem discards_eq_false {s : State} {p : Port} {code : Byte} {r : Request} {st : Status} (h : s.discards p code r = false)
    (hv : s.verdict p code r = .refuse st) (ha : answeredByResponse code r = true) : (s.link p).refusals.length < 16 := by
  unfold State.discards at h
  rw [hv, ha] at h
  simp only [Bool.or_eq_false_iff, Bool.true_and, decide_eq_false_iff_not] at h
  exact Nat.not_le.mp h.2

theorem refusals_accepted (s : State) (p : Port) : ((s.accepted p).link p).refusals = (s.link p).refusals := by
  simp [State.accepted, State.acceptPacket, State.heard]

theorem keeps_received {s t : State} {p : Port} {code : Byte} {r : Request} (h : Received s p code r t) : Keeps s t := by
  have hacc : ∀ ho : s.online p = true, (s.accepted p).online p = true := fun ho => ((mild_accepted s p).online p).trans ho
  cases h with
  | offline => exact (Mild.refl s).keeps
  | discarded => exact ((mild_heard s p).trans (mild_discardPacket _ p)).keeps
  | refused st ho hd hv ha =>
    have hroom : ((s.accepted p).link p).refusals.length < 16 := by rw [refusals_accepted]; exact discards_eq_false hd hv ha
    exact ((mild_accepted s p).trans (mild_addRefusal _ p _ _ (hacc ho) hroom)).keeps
  | noticed => exact ((mild_accepted s p).trans (mild_placeNotice _ p _)).keeps
  | admitted o posted region ho hd hv =>
    obtain ⟨hroom, hactive⟩ := verdict_accept hv
    exact (mild_accepted s p).before (keeps_letIn (hacc ho) hroom hactive)

/-! ## Every step -/

theorem sendsFirst_room {s : State} {p : Port} {k : SendKind} (h : s.nextToSend p = some k)
    (hk : k = .init ∨ k = .response ∨ k = .notice) : s.online p = true ∧ (s.link p).replay.length < 32 := by
  obtain ⟨hup, -, hdue, -⟩ := sendsFirst_iff.mp h
  refine ⟨hup, ?_⟩
  rcases hk with rfl | rfl | rfl <;> cases hdue <;> assumption

/-- A link that is not UP, before and after, with nothing left in its buffers that was not there. -/
theorem mild_setLink_off (s : State) (p : Port) (l : Link) (h : (s.link p).state ≠ .up) (hl : l.state ≠ .up)
    (hr : l.replay = (s.link p).replay ∨ l.replay = []) (hf : l.refusals = (s.link p).refusals ∨ l.refusals = []) :
    Mild s (s.setLink p l) := by
  refine mild_setLink s p l (iff_of_false hl h) (fun hb => ⟨?_, ?_⟩) fun _ a b => ⟨?_, ?_⟩
  · rcases hr with e | e <;> rw [e]; exacts [hb.1, Nat.zero_le _]
  · rcases hf with e | e <;> rw [e]; exacts [hb.2, Nat.zero_le _]
  · rcases hr with e | e <;> rw [e]; exact a
  · rcases hf with e | e <;> rw [e]; exact b

theorem mild_clearNakDue (s : State) (p : Port) : Mild s (s.clearNakDue p) :=
  mild_setLink_of_eq s p { s.link p with nakDue := false } rfl rfl rfl

theorem mild_clearInit (s : State) (p : Port) : Mild s (s.clearInit p) :=
  mild_setLink_of_eq s p { s.link p with initPending := false } rfl rfl rfl

/-- Every way of a command keeps the invariants. -/
theorem after_keeps {s t : State} {c : Instr} (h : After s c t) : Keeps s t := by
  cases h with
  | timeOnly => exact (Mild.refl s).keeps
  | instant dt n => exact Mild.keeps { Mild.refl s with }
  | cold => exact keeps_coldReset s
  | warm => exact keeps_warmReset s
  | rise =>
    have h1 : Mild s { s with resetN := true } := { Mild.refl s with }
    exact (h1.trans (mild_reviewQuiet _)).keeps
  | pin dt level => exact Mild.keeps { Mild.refl s with }
  | training dt p h =>
    exact (mild_setLink_off s p { s.link p with state := .training, training := some (s.now + trainingLength) } (by rw [h]; decide)
      (fun e => nomatch e) (.inl rfl) (.inl rfl)).keeps
  | up dt p h => exact keeps_goUp h
  | down _ dt p h => exact (mild_setLink_off s p (s.link p).downed (by rw [h]; decide) (fun e => nomatch e) (.inr rfl) (.inr rfl)).keeps
  | teardown _ dt p => exact keeps_teardown s p
  | badPacket dt p => exact (mild_badPacket s p).keeps
  | discard _ dt p => exact ((mild_heard s p).trans (mild_discardPacket _ p)).keeps
  | ack dt p n => exact ((mild_heard s p).trans (mild_takeAck _ p n)).keeps
  | nak dt p n => exact ((mild_heard s p).trans (mild_takeNak _ p n)).keeps
  | idle dt p => exact (mild_heard s p).keeps
  | ackTimer dt p => exact (mild_setLink_of_eq s p { s.link p with ackTimer := .expired } rfl rfl rfl).keeps
  | keepalive dt p => exact (mild_setLink_of_eq s p { s.link p with keepalive := .expired } rfl rfl rfl).keeps
  | sendNak dt p => exact ((mild_sendPlain s p _).trans (mild_clearNakDue _ p)).keeps
  | sendReplay dt p => exact (mild_sendReplayed s p).keeps
  | sendInit dt p h =>
    obtain ⟨hup, hroom⟩ := sendsFirst_room h (.inl rfl)
    exact ((mild_sendSequenced s p _ hup hroom).trans (mild_clearInit _ p)).keeps
  | sendResponse dt p first h =>
    obtain ⟨hup, hroom⟩ := sendsFirst_room h (.inr (.inl rfl))
    exact ((mild_sendAnswer s p first hup hroom).trans (mild_reviewQuiet _)).keeps
  | sendNotice dt p h =>
    obtain ⟨hup, hroom⟩ := sendsFirst_room h (.inr (.inr rfl))
    exact (mild_sendHeadNotice s p hup hroom).keeps
  | sendAck dt p => exact (mild_sendPlain s p _).keeps
  | sendIdle dt p => exact (mild_sendPlain s p _).keeps
  | request _ dt p k r => exact keeps_received (received s p k r)
  | openRow dt b row g h hg =>
    have hlegal := (choice_legal h).2
    obtain ⟨cmd, src⟩ := g
    cases hg
    cases hlegal with
    | openRow _ _ _ ho => exact (mild_issueOpen ho.timing.1).keeps
  | openSpare dt b sp row g h hg =>
    have hlegal := (choice_legal h).2
    obtain ⟨cmd, src⟩ := g
    cases hg
    cases hlegal with
    | openSpare _ _ _ _ ho => exact (mild_issueOpen ho.timing.1).keeps
  | close dt b g h hg =>
    have hlegal := (choice_legal h).2
    obtain ⟨cmd, src⟩ := g
    cases hg
    cases hlegal with
    | close _ _ hc => exact (mild_issueClose hc).keeps
  | readLine dt b line flips l g h hg hl => exact (mild_issueRead flips h hg hl).keeps
  | writeLine dt b line l g => exact (mild_issueWrite s g.source l).keeps
  | refreshGroup dt k g h hg =>
    have hlegal := (choice_legal h).2
    obtain ⟨cmd, src⟩ := g
    cases hg
    cases hlegal with
    | refresh _ _ _ hd => exact (mild_issueRefresh hd).keeps
  | retain dt g h hg =>
    have hlegal := (choice_legal h).2
    obtain ⟨cmd, src⟩ := g
    cases hg
    cases hlegal with
    | retain _ _ hb => exact (mild_issueRetain hb).keeps
  | resume => exact Mild.keeps { Mild.refl s with }
  | programSoft => exact (mild_issueProgram s _).keeps
  | programFuse =>
    have h2 : ∀ (u : State) b sp x, Mild u (u.setSpare b sp x) := fun u b sp x => { Mild.refl u with }
    exact ((mild_issueProgram s _).trans (h2 ..)).keeps
  | pathFree => exact Mild.keeps { Mild.refl s with }
  | opened dt b h => exact (mild_openDelayEnd h).keeps
  | closed dt b h => exact (mild_endClose h).keeps
  | refreshed dt g => exact (mild_refreshEnd s g).keeps
  | programmed dt c => exact (mild_bindSpare s c).keeps
  | woken dt h => exact (mild_endWake h).keeps
  | idleTimer dt b => exact (mild_idleTimer s b).keeps
  | rowLimit dt b h => exact (mild_rowLimit h).keeps
  | quarter => exact ((mild_groupExpires s _).trans (mild_nextQuarter _)).keeps
  | aged dt p st => exact (mild_ageThrough s st).keeps
  | scrubStep => exact (mild_startStep s).keeps
  | idleHold dt h => exact (mild_enterEntering h).keeps
  | claimTimer dt p => exact (mild_claimLapses s p).keeps

/-- What waits and what instant it is are none of the invariants' subjects. -/
theorem mild_waiting (s : State) (q : List Instr) (n : Nat) : Mild s ({ s with pending := q }.atInstant n) := { Mild.refl s with }

theorem step_keeps_all {s t : State} (h : step s = .next t) : Keeps s t := by
  unfold step at h
  split at h
  · rw [next_inj h]; exact (Mild.refl s).keeps
  · rename_i i rest _
    obtain ⟨dt, hd⟩ := exec_after h
    obtain ⟨n, e⟩ := State.passTime_exists { s with pending := rest } dt
    rw [e] at hd
    exact (mild_waiting s rest n).before (after_keeps hd)

/-- Settles O54. -/
theorem stepKeepsMemoryCanonical : Obligations.StepKeepsMemoryCanonical := fun _ _ hs h => (step_keeps_all h).memory hs

/-- Settles O55. -/
theorem stepKeepsDebtsInRange : Obligations.StepKeepsDebtsInRange := fun _ _ hs h => (step_keeps_all h).debts hs

/-- Settles O56. -/
theorem stepKeepsCapacities : Obligations.StepKeepsCapacities := fun _ _ hs h => (step_keeps_all h).capacities hs

/-- Settles O57. -/
theorem stepKeepsRegionsApart : Obligations.StepKeepsRegionsApart := fun _ _ hs h => (step_keeps_all h).regions hs

/-- Settles O58. -/
theorem stepKeepsBanksConsistent : Obligations.StepKeepsBanksConsistent := fun _ _ hs h => (step_keeps_all h).banks hs

/-- Settles O59. -/
theorem stepKeepsPortsConsistent : Obligations.StepKeepsPortsConsistent := fun _ _ hs h => (step_keeps_all h).ports hs

/-- Settles O60: an admission alone moves the counter, by one, and its record takes the value it had. -/
theorem stepKeepsStampsNameRecords : Obligations.StepKeepsStampsNameRecords := fun _ _ hs hc h => (step_keeps_all h).stamps hc hs

end Sys2Proof.Machine
end

section
/-! PROOFS. What the quiet controller's moves leave of a bank, and what a choice to tell a port leaves of its notice queue. -/

namespace Sys2Proof.Machine

/-! ## The quiet controller and the banks -/

/-- A bank with its mark RETENTION as given. -/
def Bank.withRetention (x : Bank) (m : Bool) : Bank := { x with marks := { x.marks with retention := m } }

theorem Bank.withRetention_same (x : Bank) : x.withRetention x.marks.retention = x := rfl

theorem quietBreak_bank (s : State) (b : BankId) : ∃ m, s.quietBreak.bank b = (s.bank b).withRetention m := by
  unfold State.quietBreak
  split
  · exact ⟨_, rfl⟩
  · exact ⟨false, State.bank_mapBanks ..⟩
  · exact ⟨_, rfl⟩
  · exact ⟨_, rfl⟩
  · exact ⟨_, rfl⟩

theorem enterEntering_bank (s : State) (b : BankId) :
    s.enterEntering.bank b = if (s.bank b).state = .opening ∨ (s.bank b).state = .opened then (s.bank b).withRetention true
      else s.bank b := State.bank_mapBanks ..

theorem beginSettling_bank (s : State) (b : BankId) : ∃ m, s.beginSettling.bank b = (s.bank b).withRetention m := by
  unfold State.beginSettling
  split
  · rw [enterEntering_bank]
    split
    · exact ⟨true, rfl⟩
    · exact ⟨_, rfl⟩
  · exact ⟨_, rfl⟩

theorem settlingBegun_bank (s : State) (b : BankId) :
    ∃ m, (if s.quiet.part = .active ∧ s.settled = true then s.beginSettling else s).bank b = (s.bank b).withRetention m := by
  split
  · exact beginSettling_bank s b
  · exact ⟨_, rfl⟩

theorem reviewQuiet_bank (s : State) (b : BankId) : ∃ m, s.reviewQuiet.bank b = (s.bank b).withRetention m := by
  unfold State.reviewQuiet
  dsimp only
  split
  · exact settlingBegun_bank s b
  · obtain ⟨m, hm⟩ := quietBreak_bank s b
    obtain ⟨k, hk⟩ := settlingBegun_bank s.quietBreak b
    exact ⟨k, by rw [hk, hm]; rfl⟩

section

variable (s : State)

theorem reviewQuiet_scrub : s.reviewQuiet.scrub = s.scrub := by rw [reviewQuiet_frame]
theorem reviewQuiet_mem : s.reviewQuiet.mem = s.mem := by rw [reviewQuiet_frame]
theorem reviewQuiet_queues : s.reviewQuiet.queues = s.queues := by rw [reviewQuiet_frame]
theorem reviewQuiet_links : s.reviewQuiet.links = s.links := by rw [reviewQuiet_frame]

theorem reviewQuiet_state (b : BankId) : (s.reviewQuiet.bank b).state = (s.bank b).state := by
  obtain ⟨m, hm⟩ := reviewQuiet_bank s b
  rw [hm]
  rfl

end

/-! ## Notices -/

/-- What a port that wants a notice and can be told has in its queue after it. -/
def State.toldOne (s : State) (want : Enables → Bool) (n : Notice) (p : Port) : NoticeQueue :=
  if s.online p = true ∧ want (s.noticeQ p).enables = true then (s.noticeQ p).joined n else s.noticeQ p

theorem noticeQ_placeNotice (s : State) (p q : Port) (n : Notice) :
    (s.placeNotice p n).noticeQ q = if q = p ∧ s.online p = true then (s.noticeQ p).joined n else s.noticeQ q := by
  rw [placeNotice_eq]
  by_cases hq : q = p
  · subst hq
    split <;> simp_all
  · split <;> simp [hq]

theorem noticeQ_placeIf (s : State) (want : Enables → Bool) (n : Notice) (p q : Port) :
    (s.placeIf want n p).noticeQ q = if q = p then s.toldOne want n p else s.noticeQ q := by
  unfold State.placeIf State.toldOne
  by_cases hw : want (s.noticeQ p).enables = true
  · rw [if_pos hw, noticeQ_placeNotice]
    by_cases hq : q = p
    · subst hq; simp [hw]
    · simp [hq]
  · rw [if_neg hw, if_neg (c := s.online p = true ∧ _) (fun h => hw h.2)]
    split
    · rename_i hq; rw [hq]
    · rfl

theorem placeNotice_frame (s : State) (p : Port) (n : Notice) :
    s.placeNotice p n = { s with notices := (s.placeNotice p n).notices } := by
  rw [placeNotice_eq]
  split <;> rfl

theorem placeIf_frame (s : State) (want : Enables → Bool) (n : Notice) (p : Port) :
    s.placeIf want n p = { s with notices := (s.placeIf want n p).notices } := by
  unfold State.placeIf
  split
  · exact placeNotice_frame s p n
  · rfl

theorem broadcast_frame (s : State) (want : Enables → Bool) (n : Notice) :
    s.broadcast want n = { s with notices := (s.broadcast want n).notices } := by
  unfold State.broadcast
  rw [placeIf_frame _ want n .c, placeIf_frame _ want n .b, placeIf_frame s want n .a]

theorem online_placeIf (s : State) (want : Enables → Bool) (n : Notice) (p q : Port) :
    (s.placeIf want n p).online q = s.online q := by
  rw [placeIf_frame]; rfl

/-- A copy goes to each port that wants it. -/
theorem noticeQ_broadcast (s : State) (want : Enables → Bool) (n : Notice) (q : Port) :
    (s.broadcast want n).noticeQ q = s.toldOne want n q := by
  unfold State.broadcast
  cases q <;> simp [noticeQ_placeIf, online_placeIf, State.toldOne]

theorem told_one (s : State) (want : Enables → Bool) (n : Notice) (p : Port) : s.told want [n] p = s.toldOne want n p := by
  unfold State.told State.toldOne
  simp

end Sys2Proof.Machine
end

section
/-! PROOFS. One command at a time: steps, time, timers and the array commands, each as what it does where the arbiter has chosen it or
its interval is over. -/

namespace Sys2Proof.Machine

/-! ## Steps and time -/

/-- Settles O1. -/
theorem stepRunsFrontCommand : Obligations.StepRunsFrontCommand :=
  ⟨fun c rest s h => by unfold step; rw [h], fun s h => by unfold step; rw [h]⟩


/-! ## Timers of a bank -/

/-- Settles O39. -/
theorem bankTimersExpire : Obligations.BankTimersExpire := by
  refine ⟨fun dt b s h => ?_, fun dt b s hb h => ?_⟩
  · simp only [exec, execIdleTimerExpiry, State.passTime_bank, h, if_true]
  · simp only [exec, execRowOpenLimit, State.passTime_bank, h, hb, and_self, if_true]
    rfl

/-! ## Array commands that the arbiter has chosen -/

section

variable {s : State} {dt : Nat} {g : Grant} (h : (s.passTime dt).arbiterChoice = some g)

include h

theorem exec_openRow_of {b : BankId} {row : RowId} (hg : g.cmd = .openRow b row) :
    exec (.openRow dt b row) s = .next ((s.passTime dt).issueOpen b row none) := by
  simp only [exec, execOpenRow, h, hg, if_true]

theorem exec_openSpare_of {b : BankId} {sp : SpareId} {row : RowId} (hg : g.cmd = .openSpare b sp row) :
    exec (.openSpare dt b sp) s = .next ((s.passTime dt).issueOpen b row (some sp)) := by
  simp only [exec, execOpenSpare, h, hg, and_self, if_true]

theorem exec_close_of {b : BankId} (hg : g.cmd = .close b) :
    exec (.close dt b) s = .next ((s.passTime dt).issueClose b) := by
  simp only [exec, execClose, h, hg, if_true]

theorem exec_readLine_of {b : BankId} {line : LineIx} {flips : List Flip} {l : LineId} (hg : g.cmd = .readLine b line)
    (hl : s.lineOf b line = some l) :
    exec (.readLine dt b line flips) s = .next (((s.passTime dt).decay l flips).issueRead g.source l) := by
  simp only [exec, execReadLine, h, hg, State.passTime_lineOf, hl, if_true]

theorem exec_writeLine_of {b : BankId} {line : LineIx} {l : LineId} (hg : g.cmd = .writeLine b line)
    (hl : s.lineOf b line = some l) :
    exec (.writeLine dt b line) s = .next ((s.passTime dt).issueWrite g.source l) := by
  simp only [exec, execWriteLine, h, hg, State.passTime_lineOf, hl, if_true]

theorem exec_refreshGroup_of {k : GroupId} (hg : g.cmd = .refreshGroup k) :
    exec (.refreshGroup dt k) s = .next ((s.passTime dt).issueRefresh k) := by
  simp only [exec, execRefreshGroup, h, hg, if_true]

theorem exec_retain_of (hg : g.cmd = .retain) : exec (.retain dt) s = .next (s.passTime dt).issueRetain := by
  simp only [exec, execRetain, h, hg, if_true]

theorem exec_resume_of (hg : g.cmd = .resume) : exec (.resume dt) s = .next (s.passTime dt).issueResume := by
  simp only [exec, execResume, h, hg, if_true]

theorem exec_programSoft_of {b : BankId} {sp : SpareId} (hg : g.cmd = .programSoft b sp) :
    exec (.programSoft dt b sp) s = .next ((s.passTime dt).issueProgram softProgramming) := by
  simp only [exec, execProgramSoft, h, hg, if_true]

theorem exec_programFuse_of {b : BankId} {sp : SpareId} (hg : g.cmd = .programFuse b sp) :
    exec (.programFuse dt b sp) s =
      .next (((s.passTime dt).issueProgram fuseProgramming).setSpare b sp { state := .retiredFused, mapped := none }) := by
  simp only [exec, execProgramFuse, h, hg, if_true]

end

/-- An OPEN takes its effect after some time has passed. -/
theorem issueOpen_atInstant (s : State) (n : Nat) (b : BankId) (row : RowId) (sp : Option SpareId) :
    (s.atInstant n).issueOpen b row sp = { s.atInstant n with
      window := if s.window.length < 4 then s.window ++ [n] else s.window.tail ++ [n]
      pathBusy := some (n + 5)
      banks := s.banks.set b { s.bank b with
        state := .opening, openRow := some row, servedBy := sp, streak := 0, firstStart := false
        lastOpen := some n, openAge := .running (n + us 40), idle := .stopped, idleReset := false } } := rfl

/-- Settles O27. -/
theorem openStartsTheRow : Obligations.OpenStartsTheRow := by
  rintro c g dt b row sp s h (⟨rfl, hg, rfl⟩ | ⟨i, rfl, hg, rfl⟩)
  · rw [exec_openRow_of h hg]
    obtain ⟨n, e⟩ := s.passTime_exists dt
    rw [e, issueOpen_atInstant]
    rfl
  · rw [exec_openSpare_of h hg]
    obtain ⟨n, e⟩ := s.passTime_exists dt
    rw [e, issueOpen_atInstant]
    rfl

theorem issueClose_apart {s : State} {b : BankId} (h : ¬ (b = 15 ∧ s.scrub.sweepDone = false ∧ s.scrub.sweepAt = Config.lines)) :
    s.issueClose b = s.occupyPath.setBank b ((s.bank b).issueClose s.now) := by
  unfold State.issueClose
  exact if_neg h

theorem issueClose_last {s : State} {b : BankId} (h : b = 15 ∧ s.scrub.sweepDone = false ∧ s.scrub.sweepAt = Config.lines) :
    s.issueClose b = (s.occupyPath.setBank b ((s.bank b).issueClose s.now)).endSweep.reviewQuiet := by
  unfold State.issueClose
  exact if_pos h

/-- Settles O28: the end of the sweep comes with an evaluation of the settling conditions, which moves no bank. -/
theorem closeEndsTheRow : Obligations.CloseEndsTheRow := by
  intro g dt b s h hg
  refine ⟨fun hn => ?_, fun hb hd ha => ?_⟩
  · rw [exec_close_of h hg]
    obtain ⟨n, e⟩ := s.passTime_exists dt
    rw [e, issueClose_apart (s := s.atInstant n) hn]
    rfl
  · subst hb
    rw [exec_close_of h hg]
    obtain ⟨n, e⟩ := s.passTime_exists dt
    rw [e, issueClose_last (s := s.atInstant n) ⟨rfl, hd, ha⟩]
    refine ⟨_, rfl, ?_, ?_, ?_, ?_, fun hi => ?_, ?_⟩
    · rw [reviewQuiet_state]
      exact congrArg Bank.state (State.bank_setBank_self ..)
    · rw [reviewQuiet_scrub]; rfl
    · rw [reviewQuiet_scrub]; rfl
    · rw [reviewQuiet_scrub]; rfl
    · rw [reviewQuiet_scrub]; exact if_neg hi
    · rw [reviewQuiet_mem]; rfl

/-! ## Refresh, retention and programming -/

/-- Settles O34. -/
theorem refreshGroupPaysItsDebt : Obligations.RefreshGroupPaysItsDebt := by
  intro x dt g s h hg
  rw [exec_refreshGroup_of h hg]
  obtain ⟨n, e⟩ := s.passTime_exists dt
  rw [e]
  have bank : ∀ b, ((s.atInstant n).issueRefresh g).bank b = if groupOf b = g then (s.bank b).issueRefresh n else s.bank b :=
    fun b => State.bank_mapBanks ..
  refine ⟨_, rfl, Table.get_set_self .., Table.get_set_self .., fun k hk => Table.get_set_of_ne _ hk _, fun b hb => ?_,
    fun b hb => ?_, rfl, rfl, rfl, rfl, rfl, rfl⟩
  · rw [bank, if_pos hb]; exact ⟨rfl, rfl⟩
  · rw [bank, if_neg hb]

theorem issueRetain_bank (s : State) (b : BankId) : (s.issueRetain.bank b).state = .retained := by
  unfold State.issueRetain
  rw [State.bank, broadcast_frame]
  exact congrArg Bank.state (Table.get_ofFn ..)

theorem issueRetain_noticeQ (s : State) (p : Port) : s.issueRetain.noticeQ p = s.told Enables.quietState [.quietRetained] p := by
  rw [told_one]
  exact noticeQ_broadcast _ _ _ p

theorem issueRetain_frame (s : State) : ∃ bs ns, s.issueRetain = { s.occupyPath with
    banks := bs, refresh := { s.refresh with quarter := none }, scrub := { s.scrub with timer := none }
    quiet := { s.quiet with part := .retained }, notices := ns } := by
  unfold State.issueRetain
  rw [broadcast_frame]
  exact ⟨_, _, rfl⟩

/-- Settles O35. -/
theorem retainAndResume : Obligations.RetainAndResume := by
  refine ⟨fun x dt s h hc => ?_, fun x dt s h hc => ?_⟩
  · rw [exec_retain_of h hc]
    obtain ⟨n, e⟩ := s.passTime_exists dt
    have hlegal := (choice_legal h).2
    obtain ⟨cmd, src⟩ := x
    cases hc
    cases hlegal with
    | retain _ he hb hd =>
      rw [e] at hb hd ⊢
      obtain ⟨bs, ns, ht⟩ := issueRetain_frame (s.atInstant n)
      refine ⟨_, rfl, ?_, fun b => issueRetain_bank _ b, hb, hd, ?_, ?_, ?_, ?_, ?_, ?_, ?_, ?_, ?_, fun p => issueRetain_noticeQ _ p⟩ <;>
        rw [ht] <;> rfl
  · have hlegal := (choice_legal h).2
    obtain ⟨cmd, src⟩ := x
    cases hc
    cases hlegal with
    | resume _ hw hb ht =>
      refine ⟨by simpa using hw, by simpa using hb, ?_⟩
      rw [exec_resume_of h rfl]
      obtain ⟨n, e⟩ := s.passTime_exists dt
      rw [e]
      rfl

theorem issueProgram_of {s : State} {c : CurrentJob} (h : s.currentJob = some c) (len : Nat) :
    s.issueProgram len = s.occupyPath.setJob (some { c with phase := .program, programEnds := some (s.now + len) }) := by
  unfold State.issueProgram
  rw [h]

/-- Settles O36. -/
theorem programmingStarts : Obligations.ProgrammingStarts := by
  intro x dt b sp c s h hc
  have hj : (s.passTime dt).currentJob = some c := by simpa using hc
  refine ⟨fun hx => ?_, fun hx => ?_⟩
  · rw [exec_programSoft_of h hx, issueProgram_of hj]
    rfl
  · rw [exec_programFuse_of h hx, issueProgram_of hj]
    obtain ⟨n, e⟩ := s.passTime_exists dt
    rw [e]
    rfl

/-! ## Commands that the arbiter has not chosen -/

/-- A choice among the arbiter's that is not the command named. -/
theorem untaken (q : Option Grant) (k : ArrayCmd) (a b : Out) :
    (∀ x, q = some x → x.cmd ≠ k) → (match q with | some g => if g.cmd = k then a else b | none => b) = b := by
  intro h
  cases q with
  | none => rfl
  | some x => exact if_neg (h x rfl)

theorem untaken_line (q : Option Grant) (l : Option LineId) (k : ArrayCmd) (a : Grant → LineId → Out) (b : Out) :
    (∀ x, q = some x → x.cmd ≠ k) →
      (match q, l with | some g, some l => if g.cmd = k then a g l else b | _, _ => b) = b := by
  intro h
  cases q with
  | none => cases l <;> rfl
  | some x =>
    cases l with
    | none => rfl
    | some l => exact if_neg (h x rfl)

/-- Settles O37. -/
theorem untakenCommandsOnlyPassTime : Obligations.UntakenCommandsOnlyPassTime := by
  constructor
  · rintro c k dt b row line flips g sp s hc h
    rcases hc with ⟨rfl, rfl⟩ | ⟨rfl, rfl⟩ | ⟨rfl, rfl⟩ | ⟨rfl, rfl⟩ | ⟨rfl, rfl⟩ | ⟨rfl, rfl⟩ | ⟨rfl, rfl⟩ | ⟨rfl, rfl⟩ | ⟨rfl, rfl⟩
    · exact untaken (s.passTime dt).arbiterChoice (.openRow b row) (.next ((s.passTime dt).issueOpen b row none)) _ h
    · exact untaken (s.passTime dt).arbiterChoice (.close b) (.next ((s.passTime dt).issueClose b)) _ h
    · exact untaken_line (s.passTime dt).arbiterChoice ((s.passTime dt).lineOf b line) (.readLine b line)
        (fun g l => .next (((s.passTime dt).decay l flips).issueRead g.source l)) _ h
    · exact untaken_line (s.passTime dt).arbiterChoice ((s.passTime dt).lineOf b line) (.writeLine b line)
        (fun g l => .next ((s.passTime dt).issueWrite g.source l)) _ h
    · exact untaken (s.passTime dt).arbiterChoice (.refreshGroup g) (.next ((s.passTime dt).issueRefresh g)) _ h
    · exact untaken (s.passTime dt).arbiterChoice .retain (.next (s.passTime dt).issueRetain) _ h
    · exact untaken (s.passTime dt).arbiterChoice .resume (.next (s.passTime dt).issueResume) _ h
    · exact untaken (s.passTime dt).arbiterChoice (.programSoft b sp) (.next ((s.passTime dt).issueProgram softProgramming)) _ h
    · exact untaken (s.passTime dt).arbiterChoice (.programFuse b sp)
        (.next (((s.passTime dt).issueProgram fuseProgramming).setSpare b sp { state := .retiredFused, mapped := none })) _ h
  · intro dt b sp s h
    simp only [exec, execOpenSpare]
    split
    · rename_i g hg
      split
      · rename_i k i row hr
        refine if_neg ?_
        rintro ⟨rfl, rfl⟩
        exact h g row hg hr
      · rfl
    · rfl

/-! ## The remap table -/

theorem exec_programmingEnd_of {s : State} {dt : Nat} {c : CurrentJob} (h : s.currentJob = some c) (hp : c.phase = .program)
    (hr : (s.passTime dt).reached c.programEnds = true) : exec (.programmingEnd dt) s = .next ((s.passTime dt).bindSpare c) := by
  simp only [exec, execProgrammingEnd, State.passTime_currentJob, h, hp, hr, and_self, if_true]

theorem spares_setSpare (s : State) (b k : BankId) (i : SpareId) (x : Spare) :
    (s.setSpare b i x).spares k = if k = b then (s.spares b).set i x else s.spares k := by
  unfold State.setSpare State.spares
  rw [Table.get_set]

theorem spares_retire (s : State) (b k : BankId) (p : Option SpareId) (i : SpareId) :
    ((s.retire b p).spares k).get i =
      if k = b ∧ p = some i then ((s.spares b).get i).retired else (s.spares k).get i := by
  cases p with
  | none => simp [State.retire]
  | some j =>
    unfold State.retire
    dsimp only
    rw [spares_setSpare]
    by_cases hk : k = b
    · subst hk
      rw [if_pos rfl, Table.get_set]
      by_cases hi : i = j
      · subst hi; simp
      · simp [hi, Ne.symm hi]
    · simp [hk]

theorem retire_frame (s : State) (b : BankId) (p : Option SpareId) : s.retire b p = { s with remap := (s.retire b p).remap } := by
  cases p <;> rfl

/-- Settles O40. -/
theorem programmingBindsTheSpare : Obligations.ProgrammingBindsTheSpare := by
  intro dt c s h hp hr
  have hs : (s.passTime dt).spares = s.spares := by funext b; simp
  have bound : ∀ b, ((s.passTime dt).bindSpare c).spares b = if b = c.job.bank then
      (((s.passTime dt).retire c.job.bank c.previous).spares c.job.bank).set c.chosen
        { state := c.job.mode.bound, mapped := some c.job.row }
      else ((s.passTime dt).retire c.job.bank c.previous).spares b := fun b => spares_setSpare ..
  have others : ∀ b, b ≠ c.job.bank → ((s.passTime dt).retire c.job.bank c.previous).spares b = s.spares b := fun b hb => by
    unfold State.retire
    split
    · rw [spares_setSpare, if_neg hb, hs]
    · rw [hs]
  refine ⟨_, exec_programmingEnd_of h hp hr, ?_, fun i hi hne => ?_, fun i hi hne => ?_, fun b hb => ?_, rfl, ?_, ?_⟩
  · rw [bound, if_pos rfl, Table.get_set_self]
    cases c.job.mode <;> rfl
  · rw [bound, if_pos rfl, Table.get_set_of_ne _ hne, spares_retire, if_pos ⟨rfl, hi⟩, hs]
    rfl
  · rw [bound, if_pos rfl, Table.get_set_of_ne _ hne, spares_retire, if_neg fun q => hi q.2, hs]
  · rw [bound, if_neg hb, others b hb]
  · show ((s.passTime dt).retire c.job.bank c.previous).mem = s.mem
    rw [retire_frame]; simp
  · show ((s.passTime dt).retire c.job.bank c.previous).banks = s.banks
    rw [retire_frame]; simp

end Sys2Proof.Machine
end

section
/-! PROOFS. The passing of time before a command (R4, R5, R43, R170). -/

namespace Sys2Proof.Machine

/-! ## The least of a list and a bound -/

theorem leastOf_cons (b x : Nat) (l : List Nat) : leastOf b (x :: l) = leastOf (min b x) l := rfl

theorem le_leastOf {n b : Nat} {l : List Nat} : n ≤ leastOf b l ↔ n ≤ b ∧ ∀ x ∈ l, n ≤ x := by
  induction l generalizing b with
  | nil => simp [leastOf]
  | cons x l ih => rw [leastOf_cons, ih]; simp [and_assoc]

theorem leastOf_le_bound (b : Nat) (l : List Nat) : leastOf b l ≤ b := (le_leastOf.mp le_rfl).1

theorem leastOf_le_mem {b x : Nat} {l : List Nat} (h : x ∈ l) : leastOf b l ≤ x := (le_leastOf.mp le_rfl).2 x h

/-- A lower bound that is the bound itself or one of the list is the least. -/
theorem leastOf_eq {n b : Nat} {l : List Nat} (hb : n ≤ b) (hl : ∀ x ∈ l, n ≤ x) (h : n = b ∨ n ∈ l) : leastOf b l = n := by
  refine Nat.le_antisymm ?_ (le_leastOf.mpr ⟨hb, hl⟩)
  rcases h with rfl | h
  · exact leastOf_le_bound ..
  · exact leastOf_le_mem h

/-! ## Time -/

section

variable {s : State}

theorem now_le_horizon (dt : Nat) : s.now ≤ s.horizon dt := Nat.le_max_left ..

theorem horizon_le (dt : Nat) : s.horizon dt ≤ s.now + dt := Nat.max_le.mpr ⟨Nat.le_add_right .., leastOf_le_bound ..⟩

theorem horizon_le_deadline {dt d : Nat} (h : d ∈ s.deadlines) (hd : s.now ≤ d) : s.horizon dt ≤ d :=
  Nat.max_le.mpr ⟨hd, leastOf_le_mem h⟩

theorem mem_stops {b t : Nat} :
    t ∈ s.stops b ↔ t ∈ s.intervalEnds ++ s.sendEnds ∧ s.now < t ∧ t < b ∧ (s.atInstant t).busyNow = true := by
  unfold State.stops
  simp only [List.mem_filter, Bool.and_eq_true, decide_eq_true_eq, and_assoc]

theorem passTime_busy (h : s.busyNow = true) (dt : Nat) : s.passTime dt = s := by
  unfold State.passTime
  rw [if_pos h, ite_self]

theorem passTime_free (h : s.busyNow = false) {dt : Nat} (hd : dt ≠ 0) :
    s.passTime dt = s.atInstant (leastOf (s.horizon dt) (s.stops (s.horizon dt))) := by
  unfold State.passTime
  rw [if_neg hd, h]
  rfl

/-- Time passes, but no further than `dt` and than the first expiry that has not been taken. -/
theorem passTime_within (s : State) (dt : Nat) :
    ∃ n, s.passTime dt = s.atInstant n ∧ s.now ≤ n ∧ n ≤ s.now + dt ∧ ∀ d ∈ s.deadlines, s.now ≤ d → n ≤ d := by
  by_cases hd : dt = 0
  · subst hd
    exact ⟨s.now, rfl, le_rfl, le_rfl, fun d _ h => h⟩
  cases hb : s.busyNow
  · have hn := leastOf_le_bound (s.horizon dt) (s.stops (s.horizon dt))
    exact ⟨_, passTime_free hb hd, le_leastOf.mpr ⟨now_le_horizon dt, fun t ht => (mem_stops.mp ht).2.1.le⟩,
      hn.trans (horizon_le dt), fun d h hd => hn.trans (horizon_le_deadline h hd)⟩
  · exact ⟨s.now, passTime_busy hb dt, le_rfl, Nat.le_add_right .., fun d _ h => h⟩

/-- Where nothing is to be done now, time passes by all of `dt`, or to the first instant at which something is. -/
theorem passTime_to (hb : s.busyNow = false) {dt n : Nat} (h1 : s.now ≤ n) (h2 : n ≤ s.now + dt) (hd : ∀ d ∈ s.deadlines, n ≤ d)
    (hs : ∀ t ∈ s.intervalEnds ++ s.sendEnds, s.now < t → t < n → (s.atInstant t).busyNow = false)
    (h : n = s.now + dt ∨ n ∈ s.deadlines ∨
      (s.now < n ∧ n ∈ s.intervalEnds ++ s.sendEnds ∧ (s.atInstant n).busyNow = true)) : s.passTime dt = s.atInstant n := by
  by_cases h0 : dt = 0
  · subst h0
    have : n = s.now := Nat.le_antisymm h2 h1
    subst this
    rfl
  have hle : n ≤ s.horizon dt := (le_leastOf.mpr ⟨h2, hd⟩).trans (Nat.le_max_right ..)
  rw [passTime_free hb h0]
  congr 1
  refine leastOf_eq hle (fun t ht => ?_) ?_
  · obtain ⟨hm, hlt, -, hbusy⟩ := mem_stops.mp ht
    by_contra hn
    have hfree := hs t hm hlt (Nat.not_le.mp hn)
    rw [hbusy] at hfree
    cases hfree
  · rcases h with rfl | h | ⟨hlt, hm, hbusy⟩
    · exact .inl (Nat.le_antisymm hle (horizon_le dt))
    · exact .inl (Nat.le_antisymm hle (horizon_le_deadline h h1))
    · rcases Nat.eq_or_lt_of_le hle with e | hlt'
      · exact .inl e
      · exact .inr (mem_stops.mpr ⟨hm, hlt, hlt', hbusy⟩)

end

/-- Settles O2. -/
theorem timePassesToAnInstant : Obligations.TimePassesToAnInstant := fun s dt =>
  ⟨passTime_within s dt, fun h => passTime_busy h dt, fun hb _ h1 h2 hd hs h => passTime_to hb h1 h2 hd hs h⟩

/-! ## The end of an interval -/

/-- How far it is to the next end of an interval, or `dt` where that is nearer. -/
def State.toInterval (s : State) (dt : Nat) : Nat :=
  leastOf dt ((s.intervalEnds.filter (fun t => decide (s.now < t))).map (fun t => t - s.now))

theorem exec_timingInterval (dt : Nat) (s : State) :
    exec (.timingIntervalExpiry dt) s = .next (s.passTime (s.toInterval dt)) := rfl

theorem toInterval_le {s : State} {dt e : Nat} (he : e ∈ s.intervalEnds) (h : s.now < e) : s.now + s.toInterval dt ≤ e :=
  calc s.now + s.toInterval dt ≤ s.now + (e - s.now) :=
        Nat.add_le_add_left (leastOf_le_mem (List.mem_map.mpr ⟨e, List.mem_filter.mpr ⟨he, decide_eq_true h⟩, rfl⟩)) _
    _ = e := Nat.add_sub_cancel' h.le

theorem le_toInterval {s : State} {dt n : Nat} (hd : n ≤ dt) (h : ∀ e ∈ s.intervalEnds, s.now < e → s.now + n ≤ e) :
    n ≤ s.toInterval dt := by
  refine le_leastOf.mpr ⟨hd, fun x hx => ?_⟩
  obtain ⟨e, he, rfl⟩ := List.mem_map.mp hx
  obtain ⟨he, hlt⟩ := List.mem_filter.mp he
  exact Nat.le_sub_of_add_le' (h e he (of_decide_eq_true hlt))

/-- Settles O3. -/
theorem pathAndIntervalExpiries : Obligations.PathAndIntervalExpiries := by
  refine ⟨fun dt s h => ?_, fun dt s => ?_, fun dt n s hb hn hlt hle hfirst hd hs => ?_, fun dt s h => ?_⟩
  · simp only [exec, execPathOccupancyExpiry, h, if_true]
  · obtain ⟨n, he, h1, h2, -⟩ := passTime_within s (s.toInterval dt)
    exact ⟨n, by rw [exec_timingInterval, he], h1, h2.trans (Nat.add_le_add_left (leastOf_le_bound ..) _),
      fun e hm hlt => h2.trans (toInterval_le hm hlt)⟩
  · obtain ⟨k, rfl⟩ := Nat.exists_eq_add_of_le hlt.le
    have hto : s.toInterval dt = k :=
      Nat.le_antisymm (Nat.le_of_add_le_add_left (toInterval_le hn hlt))
        (le_toInterval (Nat.le_of_add_le_add_left hle) hfirst)
    rw [exec_timingInterval, hto, passTime_to hb hlt.le le_rfl hd (fun t ht h1 h2 => ?_) (.inl rfl)]
    rcases List.mem_append.mp ht with ht | ht
    · exact absurd (hfirst t ht h1) (Nat.not_le.mpr h2)
    · exact hs t ht h1 h2
  · have hto : s.toInterval dt = dt := Nat.le_antisymm (leastOf_le_bound ..) (le_toInterval le_rfl h)
    rw [exec_timingInterval, hto]

end Sys2Proof.Machine
end

section
/-! PROOFS. The expiries of the wake, the quarter, the records' ages, the scrub step, the idle hold and the claim. -/

namespace Sys2Proof.Machine

/-! ## What the control side leaves of the refresh controller -/

namespace Control

variable {s t : State} (h : Control s t)

include h

theorem debt : t.refresh.debt = s.refresh.debt := congrArg Fixed.debt h.fixed
theorem urgentAt : t.refresh.urgentAt = s.refresh.urgentAt := congrArg Fixed.urgentAt h.fixed
theorem rotation : t.refresh.rotation = s.refresh.rotation := congrArg Fixed.rotation h.fixed
theorem quarter : t.refresh.quarter = s.refresh.quarter := congrArg Fixed.quarter h.fixed

end Control

/-! ## The end of the wake -/

/-- The part at the end of the wake, with the blocks not yet evaluated anew. -/
def State.woken (s : State) : State :=
  ((((s.mapBanks (fun _ x => x.woken)).setRefresh (s.refresh.restart (s.now + s.quarterLength))).setScrub
    s.scrubWake).setQuiet { s.quiet with part := .active, wakeTimer := none }).broadcast Enables.quietState .quietActive

theorem woken_frame (s : State) : s.woken = { s with
    banks := .ofFn (fun b => (s.bank b).woken), refresh := s.refresh.restart (s.now + s.quarterLength), scrub := s.scrubWake
    quiet := { s.quiet with part := .active, wakeTimer := none }, notices := s.woken.notices } := by
  unfold State.woken
  rw [broadcast_frame]
  rfl

theorem noticeQ_woken (s : State) (p : Port) : s.woken.noticeQ p = s.told Enables.quietState [.quietActive] p := by
  rw [told_one]
  exact noticeQ_broadcast _ _ _ p

theorem scrubWake_eq (s : State) : s.scrubWake = { s.scrub with
    timer := if s.scrub.step = .none ∧ s.scrub.sweepDone = true then
      (if s.settings.scrubInterval = 0 then none else some (s.now + us s.settings.scrubInterval)) else s.scrub.timer } := by
  unfold State.scrubWake
  split <;> rfl

/-- Settles O41. -/
theorem wakeEndsRetention : Obligations.WakeEndsRetention := by
  intro dt s hp hr
  have hexec : exec (.wakeTimerExpiry dt) s = .next (s.passTime dt).woken.settle := by
    simp only [exec, execWakeTimerExpiry, State.passTime_quiet, hp, hr, and_self, if_true]
    rfl
  obtain ⟨n, e⟩ := s.passTime_exists dt
  rw [e] at hexec ⊢
  have frame := woken_frame (s.atInstant n)
  have hc := control_settle (s.atInstant n).woken
  refine ⟨_, hexec, by rw [frame], by rw [frame], by rw [frame]; rfl, fun p => noticeQ_woken _ p, fun b => ?_, fun g => ?_, ?_, ?_, ?_, ?_⟩
  · have hb : (s.atInstant n).woken.bank b = (s.bank b).woken := by rw [State.bank, frame]; exact Table.get_ofFn ..
    rw [hb]
    exact ⟨rfl, rfl, rfl, rfl⟩
  · rw [hc.debt, hc.urgentAt, frame]
    exact ⟨Table.get_replicate .., Table.get_replicate ..⟩
  · rw [hc.rotation, frame]; rfl
  · rw [frame]; exact scrubWake_eq _
  · rw [hc.quarter, frame]; rfl
  · rw [hc.mem, frame]; rfl

/-! ## The quarter -/

theorem groupExpires_below {s : State} {g : GroupId} (h : s.refresh.debt.get g < 8) (h7 : s.refresh.debt.get g ≠ 7) :
    s.groupExpires g = s.setRefresh { s.refresh with debt := s.refresh.debt.set g (s.refresh.debt.get g + 1) } := by
  unfold State.groupExpires
  dsimp only
  rw [if_pos h, if_neg (by omega)]

theorem groupExpires_seven {s : State} {g : GroupId} (h : s.refresh.debt.get g = 7) :
    s.groupExpires g = (s.setRefresh { s.refresh with
      debt := s.refresh.debt.set g (s.refresh.debt.get g + 1), urgentAt := s.refresh.urgentAt.set g (some s.now) }).markUrgent g := by
  unfold State.groupExpires
  dsimp only
  rw [if_pos (by omega), if_pos (by omega)]
  rfl

theorem groupExpires_full {s : State} {g : GroupId} (h : 8 ≤ s.refresh.debt.get g) :
    s.groupExpires g = (s.setRefresh { s.refresh with
      missed := s.refresh.missed.set g (countUp top16 (s.refresh.missed.get g)) }).broadcast Enables.integrity (.refreshMissed g) := by
  unfold State.groupExpires
  dsimp only
  rw [if_neg (by omega)]

theorem bank_markUrgent {s : State} {g : GroupId} {b : BankId} (hb : groupOf b = g)
    (hs : (s.bank b).state = .opening ∨ (s.bank b).state = .opened) : ((s.markUrgent g).bank b).marks.urgentRefresh = true := by
  unfold State.markUrgent
  rw [State.bank_mapBanks, if_pos ⟨hb, hs⟩]

/-- What an expiry changes: the refresh controller, and marks or notices with it. -/
theorem groupExpires_frame (s : State) (g : GroupId) : s.groupExpires g = { s with
    refresh := { s.refresh with debt := (s.groupExpires g).refresh.debt, urgentAt := (s.groupExpires g).refresh.urgentAt
                                missed := (s.groupExpires g).refresh.missed }
    banks := (s.groupExpires g).banks, notices := (s.groupExpires g).notices } := by
  rcases Int.lt_or_le (s.refresh.debt.get g) 8 with h | h
  · by_cases h7 : s.refresh.debt.get g = 7
    · rw [groupExpires_seven h7]; rfl
    · rw [groupExpires_below h h7]; rfl
  · rw [groupExpires_full h, broadcast_frame]; rfl

theorem groupExpires_debt_other (s : State) {g k : GroupId} (h : k ≠ g) :
    (s.groupExpires g).refresh.debt.get k = s.refresh.debt.get k := by
  rcases Int.lt_or_le (s.refresh.debt.get g) 8 with h8 | h8
  · by_cases h7 : s.refresh.debt.get g = 7
    · rw [groupExpires_seven h7]; exact Table.get_set_of_ne _ h _
    · rw [groupExpires_below h8 h7]; exact Table.get_set_of_ne _ h _
  · rw [groupExpires_full h8, broadcast_frame]; rfl

/-- Settles O42. -/
theorem groupExpiryCountsDebt : Obligations.GroupExpiryCountsDebt := by
  intro dt s hr
  have hexec : exec (.groupExpiry dt) s = .next ((s.passTime dt).groupExpires s.refresh.rotation).nextQuarter := by
    simp only [exec, execGroupExpiry, State.passTime_refresh, hr, if_true]
  obtain ⟨n, e⟩ := s.passTime_exists dt
  rw [e] at hexec ⊢
  have frame := groupExpires_frame (s.atInstant n) s.refresh.rotation
  refine ⟨_, hexec, ?_, ?_, ?_, ?_, fun k hk => groupExpires_debt_other (s.atInstant n) hk, fun h8 => ?_, fun h7 => ?_, fun h8 => ?_⟩
  · show (nextGroup ((s.atInstant n).groupExpires s.refresh.rotation).refresh.rotation).val = _
    rw [frame]; rfl
  · show some (((s.atInstant n).groupExpires s.refresh.rotation).now +
      ((s.atInstant n).groupExpires s.refresh.rotation).quarterLength) = _
    rw [frame]; rfl
  · show ((s.atInstant n).groupExpires s.refresh.rotation).mem = _
    rw [frame]; rfl
  · show ((s.atInstant n).groupExpires s.refresh.rotation).queues = _
    rw [frame]; rfl
  · by_cases h7 : s.refresh.debt.get s.refresh.rotation = 7
    · rw [groupExpires_seven (s := s.atInstant n) h7]
      exact ⟨Table.get_set_self .., rfl, rfl⟩
    · rw [groupExpires_below (s := s.atInstant n) h8 h7]
      exact ⟨Table.get_set_self .., rfl, rfl⟩
  · rw [groupExpires_seven (s := s.atInstant n) h7]
    exact ⟨Table.get_set_self .., fun b hb hs => bank_markUrgent (s := (s.atInstant n).setRefresh _) hb hs⟩
  · have full := groupExpires_full (s := s.atInstant n) h8
    refine ⟨?_, ?_, ?_, fun p => ?_, ?_⟩
    · rw [full, broadcast_frame]; rfl
    · rw [full, broadcast_frame]; rfl
    · rw [full, broadcast_frame]; rfl
    · show ((s.atInstant n).groupExpires s.refresh.rotation).noticeQ p = _
      rw [told_one, full]
      exact noticeQ_broadcast _ _ _ p
    · rw [full, broadcast_frame]; exact Table.get_set_self ..

/-! ## Ages and scrub steps -/

theorem ageReached_iff {s : State} {p : Port} {st : Stamp} : s.ageReached p st = true ↔
    ∃ r ∈ s.records, r.port = p ∧ r.stamp = st ∧ r.since + us s.settings.ageLimit ≤ s.now := by
  unfold State.ageReached
  simp only [List.any_eq_true, decide_eq_true_eq]

theorem ageThrough_eq (s : State) (st : Stamp) : s.ageThrough st = s.mapRecords (fun r =>
    if r.stamp ≤ st ∧ r.since + us s.settings.ageLimit ≤ s.now then { r with aged := true } else r) := by
  unfold State.ageThrough
  congr 1
  funext r
  unfold Record.ageAt
  by_cases h1 : r.stamp ≤ st <;> simp [h1]

/-- Settles O43. -/
theorem recordsAgeAndScrubStepsStart : Obligations.RecordsAgeAndScrubStepsStart := by
  refine ⟨fun dt p st s h => ?_, fun dt p st s h => ?_, fun dt s h => ?_⟩
  · have hr : (s.passTime dt).ageReached p st = true := ageReached_iff.mpr (by simpa using h)
    simp only [exec, execRecordAged, hr, if_true, ageThrough_eq, State.passTime_settings]
  · have hr : ¬ (s.passTime dt).ageReached p st = true := fun hr => h (by simpa using ageReached_iff.mp hr)
    exact if_neg hr
  · have hexec : exec (.scrubStepTimerExpiry dt) s = .next (s.passTime dt).startStep := by
      simp only [exec, execScrubStepTimerExpiry, State.passTime_scrub, h, if_true]
    obtain ⟨n, e⟩ := s.passTime_exists dt
    rw [hexec, e]
    refine ⟨fun hl => ?_, fun hl => ⟨_, rfl, ?_⟩⟩
    · unfold State.startStep State.reviewScrub
      rw [if_neg fun hh => Bool.false_ne_true (hl.symm.trans hh.2)]
      rfl
    · unfold State.startStep State.reviewScrub
      rw [if_pos ⟨.inl rfl, hl⟩]
      obtain ⟨h1, h2, h3, h4, h5⟩ := stepEnded_scrubStepEnd ((s.atInstant n).setScrub { s.scrub with timer := none, step := .started })
      exact ⟨h1, h2, h3, h4, h5⟩

/-! ## The idle hold and the claim -/

theorem claimLapses_eq (s : State) (h : Port) : s.claimLapses h = { s with
    claim := ⟨none, none⟩, notices := (s.claimLapses h).notices } := by
  unfold State.claimLapses
  rw [placeIf_frame]
  rfl

theorem noticeQ_claimLapses (s : State) (h q : Port) :
    (s.claimLapses h).noticeQ q = if q = h then s.toldOne Enables.claimLost .claimLost h else s.noticeQ q :=
  noticeQ_placeIf ..

/-- Settles O44. -/
theorem idleHoldAndClaimExpire : Obligations.IdleHoldAndClaimExpire := by
  refine ⟨fun dt s hp hr => ?_, fun dt h s hh hr => ?_⟩
  · have hexec : exec (.idleHoldExpiry dt) s = .next (s.passTime dt).enterEntering := by
      simp only [exec, execIdleHoldExpiry, State.passTime_quiet, hp, hr, and_self, if_true]
    obtain ⟨n, e⟩ := s.passTime_exists dt
    rw [e] at hexec
    refine ⟨_, hexec, rfl, rfl, fun b => ?_, rfl⟩
    have hb : (s.atInstant n).enterEntering.bank b = if (s.bank b).state = .opening ∨ (s.bank b).state = .opened then
        (s.bank b).withRetention true else s.bank b := enterEntering_bank ..
    rw [hb]
    refine ⟨?_, fun ho => ?_, fun ho => ?_⟩
    · split <;> rfl
    · rw [if_pos ho]; rfl
    · rw [if_neg ho]
  · have hexec : exec (.claimTimerExpiry dt) s = .next ((s.passTime dt).claimLapses h) := by
      simp only [exec, execClaimTimerExpiry, State.passTime_claim, hh, hr, if_true]
    obtain ⟨n, e⟩ := s.passTime_exists dt
    rw [e] at hexec
    have frame := claimLapses_eq (s.atInstant n) h
    refine ⟨_, hexec, by rw [frame], by rw [frame]; rfl, by rw [frame]; rfl, fun ho hw => ?_, fun hn => ?_, fun q hq => ?_⟩
    · have hj : ((s.atInstant n).claimLapses h).noticeQ h = (s.noticeQ h).joined .claimLost := by
        rw [noticeQ_claimLapses, if_pos rfl]
        exact if_pos ⟨ho, hw⟩
      rw [hj]
      exact ⟨fun hl => if_pos hl, fun hl => if_neg (Nat.not_lt.mpr hl)⟩
    · refine PerPort.ext_get fun q => ?_
      show ((s.atInstant n).claimLapses h).noticeQ q = s.noticeQ q
      rw [noticeQ_claimLapses]
      split
      · rename_i hq
        subst hq
        refine if_neg fun hb => ?_
        rcases hn with hn | hn
        · exact Bool.false_ne_true (hn.symm.trans hb.2)
        · exact Bool.false_ne_true (hn.symm.trans hb.1)
      · rfl
    · rw [noticeQ_claimLapses, if_neg hq]; rfl

end Sys2Proof.Machine
end

section
/-! PROOFS. The arbiter's choice: a candidate of the first class that has one, and legal (R5 to R17, R43 to R49, Table 18). -/

namespace Sys2Proof.Machine

/-! ## The first class -/

/-- The offers of the classes from the `k`-th on. -/
inductive OffersFrom (s : State) : Nat → List (Option Grant) → Prop where
  | nil (k : Nat) : OffersFrom s k []
  | cons (k : Nat) (o : Option Grant) (l : List (Option Grant)) (h : Offers s k o) (hl : OffersFrom s (k + 1) l) :
      OffersFrom s k (o :: l)

theorem head_filterMap_cons {α : Type} (o : Option α) (l : List (Option α)) :
    ((o :: l).filterMap id).head? = o.or (l.filterMap id).head? := by
  cases o <;> rfl

/-- The first grant of these classes is a candidate of the first class that has one. -/
theorem OffersFrom.first {s : State} {k : Nat} {l : List (Option Grant)} (h : OffersFrom s k l) :
    (∀ g, (l.filterMap id).head? = some g → ∃ n, Candidate s n g ∧ ∀ m x, k ≤ m → Candidate s m x → n ≤ m) ∧
      ((l.filterMap id).head? = none → ∀ m x, k ≤ m → m < k + l.length → ¬ Candidate s m x) := by
  induction h with
  | nil k => exact ⟨fun _ hg => (nomatch hg), fun _ m _ h1 h2 => absurd h2 (Nat.not_lt.mpr h1)⟩
  | cons k o l ho hl ih =>
    rw [head_filterMap_cons]
    cases o with
    | some g =>
      refine ⟨fun x hx => ?_, fun hn => by cases hn⟩
      cases hx
      exact ⟨k, ho.some g rfl, fun m x hm _ => hm⟩
    | none =>
      refine ⟨fun g hg => ?_, fun hn m x h1 h2 hc => ?_⟩
      · obtain ⟨n, hn, hfirst⟩ := ih.1 g hg
        refine ⟨n, hn, fun m x hm hc => ?_⟩
        rcases Nat.eq_or_lt_of_le hm with rfl | hlt
        · exact absurd hc (ho.none rfl x)
        · exact hfirst m x hlt hc
      · rcases Nat.eq_or_lt_of_le h1 with rfl | hlt
        · exact ho.none rfl x hc
        · exact ih.2 hn m x hlt (by rw [List.length_cons] at h2; omega) hc

/-- The classes of Table 18, in order. -/
def State.classes (s : State) : List (Option Grant) :=
  [s.class1, s.class2, s.class3, s.class4, s.class5, s.class6, s.class7, s.class8, s.class9, s.class10]

theorem offersFrom_classes (s : State) : OffersFrom s 1 s.classes :=
  .cons 1 _ _ offers_class1 (.cons 2 _ _ offers_class2 (.cons 3 _ _ offers_class3 (.cons 4 _ _ offers_class4
    (.cons 5 _ _ offers_class5 (.cons 6 _ _ offers_class6 (.cons 7 _ _ offers_class7 (.cons 8 _ _ offers_class8
      (.cons 9 _ _ offers_class9 (.cons 10 _ _ offers_class10 (.nil 11))))))))))

theorem arbiterChoice_busy {s : State} (h : s.pathBusy ≠ none) : s.arbiterChoice = none := by
  unfold State.arbiterChoice
  rw [if_pos (Option.isSome_iff_ne_none.mpr h)]

theorem arbiterChoice_free {s : State} (h : s.pathBusy = none) : s.arbiterChoice = (s.classes.filterMap id).head? := by
  unfold State.arbiterChoice State.classes
  rw [h]
  simp only [head_filterMap_cons, List.filterMap_nil, List.head?_nil, Option.or_none]
  rfl

/-- Settles O46. -/
theorem arbiterTakesTheFirstClass : Obligations.ArbiterTakesTheFirstClass := by
  refine fun s => ⟨arbiterChoice_busy, arbiterChoice_free, fun h => ?_⟩
  obtain ⟨hsome, hnone⟩ := (offersFrom_classes s).first
  rw [arbiterChoice_free h]
  refine ⟨fun g hg => ?_, fun hn n x hc => ?_⟩
  · obtain ⟨n, hn, hfirst⟩ := hsome g hg
    exact ⟨n, hn, fun m x hc => hfirst m x (candidate_class hc).1 hc⟩
  · obtain ⟨h1, h2⟩ := candidate_class hc
    exact hnone hn n x h1 (Nat.lt_succ_of_le h2) hc

/-! ## What is issued is legal -/

section

variable {s : State} {g : Grant}

theorem choice_candidate (h : s.arbiterChoice = some g) : ∃ n, Candidate s n g := by
  rw [arbiterChoice_free (choice_legal h).1] at h
  obtain ⟨n, hn, -⟩ := (offersFrom_classes s).first.1 g h
  exact ⟨n, hn⟩

theorem MayOpen.timed {b : BankId} {src : Source} (h : MayOpen s b src) : OpenTimed s b := by
  cases h with
  | other _ h => exact (openable_iff.mp h).timed
  | job _ h _ => exact (repairOpenable_iff.mp h).2

/-- Where an OPEN is issued for the repair job, and where for anything else. -/
theorem MayOpen.place {b : BankId} {src : Source} (h : MayOpen s b src) :
    (src ≠ .repair → (s.bank b).state = .closed ∧ s.repairPhase b = none ∧ s.quiet.part ≠ .entering) ∧
      (src = .repair → (s.bank b).state = .repairing ∧ (s.repairPhase b = some .copyOut ∨ s.repairPhase b = some .copyIn)) := by
  cases h with
  | other hs h =>
    have ho := openable_iff.mp h
    exact ⟨fun _ => ⟨ho.closed, ho.phase, ho.entering⟩, fun e => absurd e hs⟩
  | job hs h hp => exact ⟨fun e => absurd hs e, fun _ => ⟨(repairOpenable_iff.mp h).1, hp⟩⟩

theorem servingSpare_none {b : BankId} {row : RowId} (h : s.servingSpare b row = none) (i : SpareId) : ¬ ServesRow s b i row := by
  have hc : OpensAs s b row (.openRow b row) := opensAs_iff.mpr (by unfold State.openCmd; rw [h])
  cases hc with
  | plain h => exact h i

theorem servingSpare_some {b : BankId} {row : RowId} {i : SpareId} (h : s.servingSpare b row = some i) : ServesRow s b i row := by
  have hc : OpensAs s b row (.openSpare b i row) := opensAs_iff.mpr (by unfold State.openCmd; rw [h])
  cases hc with
  | spare _ h _ => exact h

/-- An OPEN that is issued is legal. -/
theorem Legal.opens (h : Legal s g) {b : BankId} {row : RowId} {sp : SpareId} (hg : g.cmd = .openRow b row ∨ g.cmd = .openSpare b sp row) :
    MayOpen s b g.source := by
  cases h <;> rcases hg with hg | hg <;> cases hg <;> assumption

theorem Legal.closes (h : Legal s g) {b : BankId} (hg : g.cmd = .close b) : Closable s b := by
  cases h <;> cases hg
  exact closable_iff.mp (by assumption)

/-- A line access that is issued: its line, and what is legal of it. -/
theorem Legal.line (h : Legal s g) {b : BankId} {line : LineIx} (hg : g.cmd = .readLine b line ∨ g.cmd = .writeLine b line) :
    ∃ l isRead, lineBank l = b ∧ s.lineOf b line = some l ∧ Accessible s l isRead ∧ LineClear s g.source l ∧
      (isRead = true ↔ g.cmd = .readLine b line) ∧
      ∀ r, g.source = .request r → r ∈ s.records ∧ r.nextAccess = some (isRead, l) := by
  cases h with
  | read l src h hf hr hx =>
    rcases hg with hg | hg <;> cases hg
    exact ⟨l, true, rfl, lineOf_accessLegal h, accessible_iff.mp h, hf, iff_of_true rfl rfl,
      fun r e => ⟨(hr r e).1, (hr r e).2.1⟩⟩
  | write l src h hf hr =>
    rcases hg with hg | hg <;> cases hg
    exact ⟨l, false, rfl, lineOf_accessLegal h, accessible_iff.mp h, hf, iff_of_false nofun nofun, hr⟩
  | openRow => rcases hg with hg | hg <;> cases hg
  | openSpare => rcases hg with hg | hg <;> cases hg
  | close => rcases hg with hg | hg <;> cases hg
  | refresh => rcases hg with hg | hg <;> cases hg
  | retain => rcases hg with hg | hg <;> cases hg
  | resume => rcases hg with hg | hg <;> cases hg
  | programSoft => rcases hg with hg | hg <;> cases hg
  | programFuse => rcases hg with hg | hg <;> cases hg

/-- A programming that is issued is the running job's. -/
theorem Legal.programs (h : Legal s g) {b : BankId} {sp : SpareId} (hg : g.cmd = .programSoft b sp ∨ g.cmd = .programFuse b sp) :
    (s.bank b).state = .repairing ∧ ∃ c, s.currentJob = some c ∧ c.job.bank = b ∧ c.chosen = sp ∧ c.phase = .copyOut ∧
      32 ≤ c.linesRead ∧ (c.job.mode = .soft ↔ g.cmd = .programSoft b sp) := by
  cases h with
  | programSoft c src h hp hm hl hb =>
    rcases hg with hg | hg <;> cases hg
    exact ⟨hb, c, h, rfl, rfl, hp, hl, iff_of_true hm rfl⟩
  | programFuse c src h hp hm hl hb =>
    rcases hg with hg | hg <;> cases hg
    exact ⟨hb, c, h, rfl, rfl, hp, hl, iff_of_false (by rw [hm]; nofun) nofun⟩
  | openRow => rcases hg with hg | hg <;> cases hg
  | openSpare => rcases hg with hg | hg <;> cases hg
  | close => rcases hg with hg | hg <;> cases hg
  | read => rcases hg with hg | hg <;> cases hg
  | write => rcases hg with hg | hg <;> cases hg
  | refresh => rcases hg with hg | hg <;> cases hg
  | retain => rcases hg with hg | hg <;> cases hg
  | resume => rcases hg with hg | hg <;> cases hg

/-- A request's access is that of an ACTIVE record, or a hit of a READY one. -/
theorem candidate_request {n : Nat} {cmd : ArrayCmd} {r : Record} (h : Candidate s n ⟨cmd, .request r⟩) :
    r ∈ s.records ∧ (r.state = .active ∨ HitOffer s r cmd) := by
  cases h with
  | active _ _ hr ha => exact ⟨hr, .inl ha⟩
  | hit _ _ hr h => exact ⟨hr, .inr h⟩

theorem lineCmd_bank {isRead : Bool} {l : LineId} {b : BankId} {line : LineIx}
    (h : lineCmd isRead l = .readLine b line ∨ lineCmd isRead l = .writeLine b line) : lineBank l = b := by
  cases isRead <;> rcases h with h | h <;> cases h <;> rfl

/-- A first access goes to a bank without close marks, and past no record that bars it. -/
theorem HitOffer.unbarred {r : Record} {b : BankId} {line : LineIx} {cmd : ArrayCmd} (h : HitOffer s r cmd)
    (hc : cmd = .readLine b line ∨ cmd = .writeLine b line) :
    (s.bank b).marks = ⟨false, false, false, false⟩ ∧ ∀ row, (s.bank b).openRow = some row → ¬ Barred s r b row := by
  obtain ⟨l, n, hp, hm, hb, -⟩ := h.place
  obtain ⟨isRead, k, hk, ha, -, e⟩ := h.offer
  have hkl : k = l := ready_first (by unfold Record.isReady; rw [h.ready]; rfl) hp (nextLine_iff.mpr hk)
  subst hkl
  have hbank : lineBank k = b := lineCmd_bank (e ▸ hc)
  subst hbank
  refine ⟨hm, fun row hrow => ?_⟩
  rw [ha.row] at hrow
  cases hrow
  exact hb

/-- A bank is closed under an ACTIVE record only for its own warm reset. -/
theorem candidate_close {n : Nat} {b : BankId} {src : Source} (h : Candidate s n ⟨.close b, src⟩)
    (hs : src = .upkeep ∨ src = .repair ∧ s.repairPhase b = some .wait) (hr : (s.bank b).resetClose = false) : NoActiveOn s b := by
  have phase : ∀ c, s.currentJob = some c → c.job.bank = b → s.repairPhase b = some c.phase := fun c hc hb => by
    unfold State.repairPhase
    rw [hc]
    exact if_pos hb
  have program : ∀ c : CurrentJob, ArrayCmd.close b ≠ (match c.job.mode with
      | .soft => .programSoft c.job.bank c.chosen
      | .fused => .programFuse c.job.bank c.chosen) := fun c e => by cases hm : c.job.mode <;> rw [hm] at e <;> cases e
  cases h with
  | forced _ h =>
    rcases h.holds.2 with hh | hh
    · rw [hr] at hh; cases hh
    · exact hh.2
  | quiet _ _ h => cases h
  | job c _ hc h =>
    rcases hs with hs | ⟨-, hs⟩
    · cases hs
    · generalize hcmd : ArrayCmd.close b = cmd at h
      cases h with
      | leave _ _ ha _ => cases hcmd; exact ha
      | openOut _ _ _ _ _ ho => subst hcmd; cases ho
      | read => cases hcmd
      | program => exact absurd hcmd (program c)
      | openIn => cases hcmd
      | write => cases hcmd
      | closeOut hp => cases hcmd; rw [phase c hc rfl, hp] at hs; cases hs
      | closeIn hp => cases hcmd; rw [phase c hc rfl, hp] at hs; cases hs
  | active => rcases hs with hs | hs <;> cases hs; contradiction
  | hit => rcases hs with hs | hs <;> cases hs; contradiction
  | row _ _ _ h =>
    cases h with
    | opens _ _ _ _ _ _ hc => cases hc
    | closes _ _ _ _ _ _ _ _ _ ha _ => exact ha
  | due _ _ _ h =>
    cases h with
    | close _ h => exact h.holds.active
  | scrub => rcases hs with hs | hs <;> cases hs; contradiction
  | sweep => rcases hs with hs | hs <;> cases hs; contradiction
  | idleClose _ h => exact h.holds.active

theorem candidate_sweep {n : Nat} {cmd : ArrayCmd} (h : Candidate s n ⟨cmd, .sweep⟩) :
    s.scrub.sweepDone = false ∧ ∀ b, (s.bank b).resetClose = false := by
  cases h with
  | sweep _ hd hr _ => exact ⟨hd, hr⟩

end

theorem holder_eq {q r : Record} (h : q.holder = r.holder) : q.port = r.port ∧ q.stamp = r.stamp := by
  injection h with h1 h2
  exact ⟨h1, h2⟩

/-- Settles O45. -/
theorem issuedCommandsAreLegal : Obligations.IssuedCommandsAreLegal := by
  intro s g h
  obtain ⟨hpath, hlegal⟩ := choice_legal h
  obtain ⟨n, hcand⟩ := choice_candidate h
  refine ⟨hpath, fun b row sp hg => ?_, fun b row i hg => ?_, fun b sp row hg => ?_, fun b hg => ?_, fun b line hg => ?_,
    fun b line l r hg hl => ?_, fun b line l r hg hl => ?_, fun b line l hg hl => ?_, fun b line r hg => ?_,
    fun b hg hs hr => ?_, fun hs => ?_, fun b line k i hg hi => ?_, fun k hg => ?_, fun b sp hg => hlegal.programs hg⟩
  · have hm := hlegal.opens hg
    have ht := hm.timed
    exact ⟨hm.place.1, hm.place.2, ht.urgent, ht.refreshing, fun k i hk hi => ht.spacing k hk i hi, ht.window⟩
  · cases hlegal <;> cases hg
    exact servingSpare_none (by assumption) i
  · cases hlegal <;> cases hg
    rename_i hn
    exact hn.imp servingSpare_some id
  · have hc := hlegal.closes hg
    exact ⟨hc.opened, hc.sinceOpen, hc.sinceRead, hc.sinceWrite⟩
  · obtain ⟨l, isRead, rfl, -, ha, -⟩ := hlegal.line hg
    refine ⟨ha.opened, by rw [ha.row]; rfl, fun k i hi => ?_⟩
    rcases hi with hi | hi
    · exact ha.spacing k _ (.inl rfl) i hi
    · exact ha.spacing k _ (.inr rfl) i hi
  · subst hg
    obtain ⟨k, isRead, -, hk, -, -, hread, hreq⟩ := hlegal.line (.inl rfl)
    rw [hk] at hl
    cases hl
    rw [(hreq r rfl).2, hread.mpr rfl]
  · subst hg
    obtain ⟨k, isRead, -, hk, -, -, hread, hreq⟩ := hlegal.line (.inr rfl)
    rw [hk] at hl
    cases hl
    have : isRead = false := by
      cases isRead
      · rfl
      · cases hread.mp rfl
    rw [(hreq r rfl).2, this]
  · obtain ⟨k, isRead, -, hk, -, hclear, -⟩ := hlegal.line hg
    rw [hk] at hl
    cases hl
    refine ⟨fun r hr => ?_, fun hr => ?_, fun hr => lineUnclaimed_apply (hclear.others hr)⟩
    · obtain ⟨hh, hm⟩ := lineFree_apply (hclear.request r hr)
      exact ⟨hh, fun q hq hqm => holder_eq (hm q hq hqm)⟩
    · obtain ⟨hh, hm⟩ := lineFree_apply (hclear.scrubber hr)
      refine ⟨hh, fun q hq => ?_⟩
      cases e : q.mergesOn l
      · rfl
      · cases hm q hq e
  · obtain ⟨cmd, hcmd, hc⟩ : ∃ cmd, (cmd = .readLine b line ∨ cmd = .writeLine b line) ∧ Candidate s n ⟨cmd, .request r⟩ := by
      rcases hg with rfl | rfl
      · exact ⟨_, .inl rfl, hcand⟩
      · exact ⟨_, .inr rfl, hcand⟩
    obtain ⟨hm, ha | hh⟩ := candidate_request hc
    · exact ⟨hm, .inr ha, fun hr => by rw [ha] at hr; cases hr⟩
    · exact ⟨hm, .inl hh.ready, fun _ => hh.unbarred hcmd⟩
  · obtain ⟨cmd, src⟩ := g
    cases hg
    exact candidate_close hcand hs hr
  · obtain ⟨cmd, src⟩ := g
    cases hs
    exact candidate_sweep hcand
  · obtain ⟨l, isRead, rfl, -, ha, -, hread, -⟩ := hlegal.line (.inl hg)
    exact ha.turnaround (hread.mpr hg) k i hi
  · cases hlegal <;> cases hg
    rename_i hl hd
    exact ⟨hd, fun b hb => refreshLegal_apply hl b hb⟩

end Sys2Proof.Machine
end

section
/-! PROOFS. The bytes of the packets a master sends, and the command each is (R162, R164, Tables 7, 51, 52 and 58). -/

namespace Sys2Proof.Machine

/-! ## The check -/

theorem crcBit_eq (c : BitVec 16) : crcBit c = if c.getLsbD 15 = true then (c <<< 1) ^^^ 0x1021 else c <<< 1 := by
  unfold crcBit
  rw [BitVec.msb_eq_getLsbD_last]

theorem packetCheck_append (bs : List Byte) (b : Byte) : packetCheck (bs ++ [b]) = crcByte (packetCheck bs) b :=
  List.foldl_append ..

/-- A byte enters the check by eight bits. -/
theorem crcByte_eq (c : BitVec 16) (b : Byte) : crcByte c b = (List.range 8).foldl
    (fun (x : BitVec 16) _ => if x.getLsbD 15 = true then (x <<< 1) ^^^ 0x1021 else x <<< 1) (c ^^^ (b.setWidth 16 <<< 8)) := by
  unfold crcByte
  simp only [crcBit_eq, List.range, List.range.loop, List.foldl_cons, List.foldl_nil]

theorem checkBytes_eq (c : BitVec 16) : checkBytes c = [c.extractLsb' 8 8, c.extractLsb' 0 8] := by
  have high : BitVec.ofNat 8 (c.toNat / 256) = c.extractLsb' 8 8 :=
    BitVec.eq_of_toNat_eq (by simp [BitVec.extractLsb'_toNat, Nat.shiftRight_eq_div_pow])
  have low : BitVec.ofNat 8 c.toNat = c.extractLsb' 0 8 := BitVec.eq_of_toNat_eq (by simp [BitVec.extractLsb'_toNat])
  unfold checkBytes
  rw [high, low]

/-! ## The row of a REQUEST -/

theorem ofCode_unknown {k : Byte} (h : isRequestKind k = false) : Kind.ofCode k = none := by
  unfold isRequestKind at h
  unfold Kind.ofCode
  split <;> simp_all

theorem setCommand_unknown {dt : Nat} {p : Port} {r : Request} (h : r.body.head?.any isSetCode = false) :
    setCommand dt p r = .setUnknownItem dt p r := by
  unfold setCommand
  split
  · rfl
  · rename_i c rest hb
    rw [hb] at h
    have hc : isSetCode c = false := h
    unfold isSetCode at hc
    dsimp only
    split <;> simp_all

theorem getCommand_unknown {dt : Nat} {p : Port} {r : Request} (h : r.body.head?.any isGetCode = false) :
    getCommand dt p r = .getUnknownItem dt p r := by
  unfold getCommand
  split
  · rfl
  · rename_i c rest hb
    rw [hb] at h
    have hc : isGetCode c = false := h
    unfold isGetCode at hc
    dsimp only
    split <;> simp_all

/-- A REQUEST is read as the row that carries it. -/
theorem requestCommand_row {c : Instr} {dt : Nat} {p : Port} {k : Byte} {r : Request} (hw : c.wellFormed = true)
    (h : requestRow c = some (dt, p, k, r)) : requestCommand dt p k r = c := by
  cases c with
  | unknownRequestKind _ _ k r =>
    cases h
    unfold requestCommand
    rw [ofCode_unknown (by simpa using (Bool.and_eq_true_iff.mp hw).1)]
  | setUnknownItem _ _ r =>
    cases h
    exact setCommand_unknown (by simpa using (Bool.and_eq_true_iff.mp hw).1)
  | getUnknownItem _ _ r =>
    cases h
    exact getCommand_unknown (by simpa using (Bool.and_eq_true_iff.mp hw).1)
  | _ => cases h <;> rfl

/-- A packet that is no REQUEST is read by its kind. -/
theorem packetCommand_withCheck (dt : Nat) (p : Port) (k n : Byte) (rest : List Byte) :
    packetCommand dt p (withCheck (k :: n :: rest)) =
      match k.toNat with
      | 1 => requestCommand dt p (packetByte (k :: n :: rest) 2) (requestOf (k :: n :: rest))
      | 5 => .ackReceived dt p n
      | 6 => .nakReceived dt p n
      | 7 => .idleReceived dt p
      | 8 => .resetPacket dt p
      | _ => .otherKindDiscard dt p k := by
  unfold packetCommand
  rw [checkedPart_withCheck (by simp)]
  rfl

theorem packetCommand_other {dt : Nat} {p : Port} {k n : Byte} {rest : List Byte} (h : isMasterPacketKind k = false) :
    packetCommand dt p (withCheck (k :: n :: rest)) = .otherKindDiscard dt p k := by
  have hk : ∀ m : Byte, m = 1 ∨ m = 5 ∨ m = 6 ∨ m = 7 ∨ m = 8 → k.toNat ≠ m.toNat := by
    intro m hm he
    rw [BitVec.eq_of_toNat_eq he] at h
    rcases hm with rfl | rfl | rfl | rfl | rfl <;> cases h
  rw [packetCommand_withCheck]
  split
  · exact absurd (by assumption) (hk 1 (by decide))
  · exact absurd (by assumption) (hk 5 (by decide))
  · exact absurd (by assumption) (hk 6 (by decide))
  · exact absurd (by assumption) (hk 7 (by decide))
  · exact absurd (by assumption) (hk 8 (by decide))
  · rfl

/-- Settles O52. -/
theorem addressFieldsOfTheManual : Obligations.AddressFieldsOfTheManual := by
  refine ⟨⟨by decide, by decide, by decide, by decide, by decide, by decide, mkLine_fields, by decide, by decide⟩, rfl,
    fun bs b => ?_, fun c dt p k r hw h => ?_, fun dt p bs hi lo h => ?_, fun dt p k n rest => ⟨?_, ?_, ?_, ?_, ?_⟩⟩
  · rw [packetCheck_append, crcByte_eq]
  · rw [packetCommand_requestPacket, requestCommand_row hw h]
  · unfold packetCommand
    rw [checkedPart_bad (by rw [checkBytes_eq]; exact h)]
  · rintro rfl; rw [packetCommand_withCheck]; rfl
  · rintro rfl; rw [packetCommand_withCheck]; rfl
  · rintro rfl; rw [packetCommand_withCheck]; rfl
  · rintro rfl; rw [packetCommand_withCheck]; rfl
  · exact packetCommand_other

end Sys2Proof.Machine
end

section
/-! PROOFS. The checks of Table 16, one by one: what admission decides of a request that fails at one of them (R28 to R33). -/

namespace Sys2Proof.Machine

/-! ## Kinds and forms -/

theorem ofCode_code (k : Kind) : Kind.ofCode k.code = some k := by cases k <;> rfl

theorem isRequestKind_code (k : Kind) : isRequestKind k.code = true := by cases k <;> rfl

theorem codeIsArray_code (k : Kind) : codeIsArray k.code = k.isArray := by
  unfold codeIsArray
  rw [ofCode_code]

theorem codeIsArray_unknown {k : Byte} (h : isRequestKind k = false) : codeIsArray k = false := by
  unfold codeIsArray
  rw [ofCode_unknown h]

theorem requestOp_unknown {k : Byte} (h : isRequestKind k = false) (r : Request) : requestOp k r = none := by
  unfold requestOp
  rw [ofCode_unknown h]

theorem answeredByResponse_unknown {k : Byte} (h : isRequestKind k = false) (r : Request) : answeredByResponse k r = true := by
  unfold answeredByResponse
  rw [ofCode_unknown h]
  simp

theorem mayPost_iff {k : Kind} : k.mayPost = true ↔ k = .write ∨ k = .writePart := by cases k <;> decide

theorem answeredByResponse_code {k : Kind} {r : Request} :
    answeredByResponse k.code r = true ↔ r.posted = false ∨ (k ≠ .write ∧ k ≠ .writePart) := by
  unfold answeredByResponse
  rw [ofCode_code, Bool.or_eq_true, Bool.not_eq_true', ← not_or, ← mayPost_iff]
  simp

/-- The form is right exactly where admission finds the fields. -/
theorem formed_requestOp {k : Kind} {r : Request} {o : ReqOp} : Formed k r o ↔ requestOp k.code r = some o := by
  unfold Formed requestOp
  rw [formed_iff, ofCode_code, ← mayPost_iff]
  by_cases hm : k.mayPost = true <;> cases r.posted <;> simp [hm]

/-! ## Tags, rows and rights -/

theorem tagBusy_iff {s : State} {p : Port} {t : Tag} : s.tagBusy p t = true ↔ TagTaken s p t := by
  unfold State.tagBusy TagTaken
  simp only [List.any_eq_true, Bool.and_eq_true, Bool.not_eq_true', decide_eq_true_eq]

theorem lineIx_val (l : LineId) : (lineIx l).val = l.val % 32 := rfl

/-- The row check of a request whose form is right. -/
theorem inRow_iff {k : Kind} {r : Request} {o : ReqOp} (h : WellFormedAs r k o) : InRow k o ↔ o.crossesRow = false := by
  cases h with
  | read ha hn =>
    refine ⟨fun h => ?_, fun h l n _ e => ?_⟩
    · exact decide_eq_false (Nat.not_lt.mpr (h _ _ (.inl rfl) rfl))
    · cases e; exact Nat.not_lt.mp (of_decide_eq_false h)
  | write ha hn hb =>
    refine ⟨fun h => ?_, fun h l n _ e => ?_⟩
    · exact decide_eq_false (Nat.not_lt.mpr (h _ _ (.inr rfl) rfl))
    · cases e; exact Nat.not_lt.mp (of_decide_eq_false h)
  | _ => exact ⟨fun _ => rfl, fun _ _ _ hk => by rcases hk with hk | hk <;> cases hk⟩

theorem allowed_iff {k : Kind} {r : Request} {o : ReqOp} (h : WellFormedAs r k o) (b : RegionBody) (p : Port) :
    Allowed b p k ↔ b.allows p o = true := by
  cases h <;> simp [Allowed, RegionBody.allows]

/-- One region alone covers the page. -/
theorem coveringRegion_of {s : State} {page : Nat} {g : RegionIx} (h : Covering s page g) (only : ∀ j, Covering s page j → j = g) :
    s.coveringRegion page = some g := by
  cases e : s.coveringRegion page with
  | none => exact absurd h (not_covering e g)
  | some i => rw [only i (covering_of_coveringRegion e)]

theorem coveringRegion_none {s : State} {page : Nat} (h : ∀ g, ¬ Covering s page g) : s.coveringRegion page = none := by
  cases e : s.coveringRegion page with
  | none => rfl
  | some i => exact absurd (covering_of_coveringRegion e) (h i)

/-! ## The checks in their order -/

section

variable {s : State} {p : Port} {r : Request}

theorem not_queueFull (h : (s.queue p).length < 16) : ¬ Config.queueDepth ≤ (s.queue p).length := Nat.not_le.mpr h

theorem verdict_full {k : Byte} (h : 16 ≤ (s.queue p).length) : s.verdict p k r = .refuse .full := if_pos h

theorem verdict_notReady {k : Byte} (h : (s.queue p).length < 16) (ha : codeIsArray k = true) (hs : s.scrub.sweepDone = false) :
    s.verdict p k r = .refuse .notReady := by
  unfold State.verdict
  rw [if_neg (not_queueFull h), ha, hs]
  rfl

theorem verdict_malformed {k : Byte} (h : (s.queue p).length < 16) (ha : codeIsArray k = true → s.scrub.sweepDone = true)
    (hf : requestOp k r = none) : s.verdict p k r = .refuse .malformed := by
  have hc : (codeIsArray k && !s.scrub.sweepDone) = false := by
    cases e : codeIsArray k
    · rfl
    · rw [ha e]; rfl
  unfold State.verdict
  rw [if_neg (not_queueFull h), hc, hf]
  rfl

theorem verdict_unknown {k : Byte} (hk : isRequestKind k = false) (h : (s.queue p).length < 16) : s.verdict p k r = .refuse .malformed :=
  verdict_malformed h (fun ha => by rw [codeIsArray_unknown hk] at ha; cases ha) (requestOp_unknown hk r)

variable {k : Kind} {o : ReqOp}

/-- Past the form, the row, the tag and the region decide. -/
theorem verdict_shaped (h : WellShaped s p k r o) : s.verdict p k.code r =
    if o.crossesRow then .refuse .split
    else if !r.posted && s.tagBusy p r.tag then .refuse .tagBusy
    else
      match o.span with
      | some (l, _) => s.regionVerdict p r.tag r.posted o (linePage l)
      | none => .accept o r.posted none := by
  have hc : (codeIsArray k.code && !s.scrub.sweepDone) = false := by
    rw [codeIsArray_code]
    cases e : k.isArray
    · rfl
    · rw [h.swept e]; rfl
  unfold State.verdict
  rw [if_neg (not_queueFull h.room), hc, formed_requestOp.mp h.form]
  rfl

theorem verdict_split (h : WellShaped s p k r o) (hx : ¬ InRow k o) : s.verdict p k.code r = .refuse .split := by
  have hc : o.crossesRow = true := by
    cases e : o.crossesRow
    · exact absurd ((inRow_iff h.form.1).mpr e) hx
    · rfl
  rw [verdict_shaped h, if_pos hc]

theorem verdict_tagBusy (h : WellShaped s p k r o) (hx : InRow k o) (hp : r.posted = false) (ht : TagTaken s p r.tag) :
    s.verdict p k.code r = .refuse .tagBusy := by
  rw [verdict_shaped h, (inRow_iff h.form.1).mp hx, hp, tagBusy_iff.mpr ht]
  rfl

/-- A request that reaches the region check has its form, and the region check decides. -/
theorem ReachesRegion.verdict {l : LineId} (h : ReachesRegion s p k r l) :
    ∃ o, WellFormedAs r k o ∧ s.verdict p k.code r = s.regionVerdict p r.tag r.posted o (linePage l) := by
  obtain ⟨o, n, hw, hspan, hrow⟩ := h.shaped
  have ht : (!r.posted && s.tagBusy p r.tag) = false := by
    cases e : r.posted
    · cases e2 : s.tagBusy p r.tag
      · rfl
      · exact absurd (tagBusy_iff.mp e2) (h.tag e)
    · rfl
  refine ⟨o, hw.form.1, ?_⟩
  rw [verdict_shaped hw, (inRow_iff hw.form.1).mp hrow, ht, hspan]
  rfl

theorem Meets.verdict {g : RegionIx} (h : Meets s p k r g) : ∃ o, WellFormedAs r k o ∧ s.verdict p k.code r =
    if (s.region g).state = .draining then .refuse .changing
    else if (s.region g).body.allows p o = false then .refuse .denied
    else if r.posted && !(s.region g).body.posting then
      if s.tagBusy p r.tag then .refuse .tagBusy else .accept o false (some g)
    else .accept o r.posted (some g) := by
  obtain ⟨l, hr, hc, only⟩ := h
  obtain ⟨o, hw, hv⟩ := hr.verdict
  refine ⟨o, hw, ?_⟩
  rw [hv]
  unfold State.regionVerdict
  rw [linePage_eq, coveringRegion_of hc only]

/-- The first check of Table 16 that fails gives the refusal's status. -/
theorem refused_verdict {st : Status} (h : Refused s p k r st) : s.verdict p k.code r = .refuse st := by
  cases h with
  | full h => exact verdict_full h
  | notReady h ha hs => exact verdict_notReady h (by rw [codeIsArray_code]; exact ha) hs
  | malformed h ha hf =>
    refine verdict_malformed h (by rw [codeIsArray_code]; exact ha) ?_
    cases e : requestOp k.code r with
    | none => rfl
    | some o => exact absurd (formed_requestOp.mpr e) (hf o)
  | split o h hx => exact verdict_split h hx
  | tagBusy o h hx hp ht => exact verdict_tagBusy h hx hp ht
  | noRegion l h hg =>
    obtain ⟨o, -, hv⟩ := h.verdict
    rw [hv]
    unfold State.regionVerdict
    rw [linePage_eq, coveringRegion_none hg]
  | changing g h hd =>
    obtain ⟨o, -, hv⟩ := h.verdict
    rw [hv, if_pos hd]
  | denied g h hd ha =>
    obtain ⟨o, hw, hv⟩ := h.verdict
    rw [hv, if_neg hd, if_pos (Bool.eq_false_iff.mpr fun e => ha ((allowed_iff hw _ p).mpr e))]
  | postTagBusy g h hd ha hp hn ht =>
    obtain ⟨o, hw, hv⟩ := h.verdict
    rw [hv, if_neg hd, (allowed_iff hw _ p).mp ha, if_neg nofun, hp, hn, tagBusy_iff.mpr ht]
    rfl

/-- The link discards a request out of sequence. -/
theorem discards_sequence {k : Byte} (h : r.seq ≠ (s.link p).expected) : s.discards p k r = true := by
  unfold State.discards
  rw [decide_eq_true h]
  rfl

/-- The link discards a request whose refusal finds no room. -/
theorem discards_full {k : Byte} {st : Status} (hv : s.verdict p k r = .refuse st) (ha : answeredByResponse k r = true)
    (hf : 16 ≤ (s.link p).refusals.length) : s.discards p k r = true := by
  unfold State.discards
  rw [hv, ha, Bool.or_eq_true, Bool.true_and]
  exact .inr (decide_eq_true hf)

/-- Which requests the link does not discard. -/
theorem discards_refused {k : Byte} {st : Status} (hs : r.seq = (s.link p).expected) (hv : s.verdict p k r = .refuse st)
    (hf : answeredByResponse k r = true → (s.link p).refusals.length < 16) : s.discards p k r = false := by
  unfold State.discards
  rw [hv, hs]
  cases e : answeredByResponse k r
  · simp
  · have : ¬ Config.refusalDepth ≤ (s.link p).refusals.length := Nat.not_le.mpr (hf e)
    simp [this]

theorem discards_accepted {k : Byte} {posted : Bool} {g : Option RegionIx} (hs : r.seq = (s.link p).expected)
    (hv : s.verdict p k r = .accept o posted g) : s.discards p k r = false := by
  unfold State.discards
  rw [hv, hs]
  simp

end

end Sys2Proof.Machine
end

section
/-! PROOFS. The links: training, the packets received that carry no admitted request, and the packets sent without a record
(R161, R164 to R171). -/

namespace Sys2Proof.Machine

/-! ## One link at a time -/

theorem PerPort.set_set {α : Type} (x : PerPort α) (p : Port) (v w : α) : (x.set p v).set p w = x.set p w := by cases p <;> rfl

theorem setLink_setLink (s : State) (p : Port) (l m : Link) : (s.setLink p l).setLink p m = s.setLink p m := by
  unfold State.setLink
  dsimp only
  rw [PerPort.set_set]

theorem setLink_link (s : State) (p : Port) : s.setLink p (s.link p) = s := by
  unfold State.setLink State.link
  cases p <;> rfl

/-- A change of the link after a change of the link. -/
theorem setLink_twice (s : State) (p : Port) (l : Link) (f : Link → Link) :
    (s.setLink p l).setLink p (f ((s.setLink p l).link p)) = s.setLink p (f l) := by
  rw [setLink_setLink, State.link_setLink_self]

/-! ## Training -/

theorem wakeCause_frame (s : State) (c : WakeCause) (p : Port) : s.wakeCause c p = { s with quiet := (s.wakeCause c p).quiet } := by
  unfold State.wakeCause
  split <;> rfl

theorem wakeCause_votes (s : State) (c : WakeCause) (p : Port) : (s.wakeCause c p).quiet.votes = s.quiet.votes := by
  unfold State.wakeCause
  split <;> rfl

theorem wakeCause_retained {s : State} (h : s.quiet.part = .retained) (c : WakeCause) (p : Port) :
    (s.wakeCause c p).quiet = { s.quiet with part := .waking, wakeRecord := s.quiet.wakeRecord.or (some (c, p)) } := by
  unfold State.wakeCause
  rw [if_pos h]
  rfl

theorem wakeCause_awake {s : State} (h : s.quiet.part ≠ .retained) (c : WakeCause) (p : Port) : s.wakeCause c p = s := if_neg h

theorem quietBreak_part {s : State} (h : s.quiet.part = .settling ∨ s.quiet.part = .entering) : s.quietBreak.quiet.part = .active := by
  rcases h with h | h
  · rw [quietBreak_settling h]; rfl
  · rw [quietBreak_entering h]; rfl

theorem goUp_eq (s : State) (p : Port) : s.goUp p = (s.upped p).quietBreak.wakeCause .portOnline p := rfl

theorem goUp_frame (s : State) (p : Port) :
    s.goUp p = { s.upped p with quiet := (s.goUp p).quiet, banks := (s.goUp p).banks } := by
  unfold State.goUp
  rw [wakeCause_frame, quietBreak_frame]
  rfl

theorem goUp_votes (s : State) (p : Port) : (s.goUp p).quiet.votes = s.quiet.votes.set p (some .awake) := by
  unfold State.goUp
  rw [wakeCause_votes, quietBreak_votes]
  rfl

theorem goUp_retained {s : State} (h : s.quiet.part = .retained) (p : Port) :
    (s.goUp p).quiet.part = .waking ∧ (s.goUp p).quiet.wakeRecord = s.quiet.wakeRecord.or (some (.portOnline, p)) := by
  have hp : (s.upped p).quiet.part = .retained := h
  have e : (s.upped p).quietBreak = s.upped p := quietBreak_else (by rw [hp]; decide) (by rw [hp]; decide)
  have hw := wakeCause_retained hp .portOnline p
  rw [goUp_eq, e, hw]
  exact ⟨rfl, rfl⟩

theorem goUp_settling {s : State} (h : s.quiet.part = .settling ∨ s.quiet.part = .entering) (p : Port) :
    (s.goUp p).quiet.part = .active := by
  have hb : (s.upped p).quietBreak.quiet.part = .active := quietBreak_part h
  rw [goUp_eq, wakeCause_awake (by rw [hb]; decide), hb]

/-- Settles O7. -/
theorem linkTrainingMoves : Obligations.LinkTrainingMoves := by
  refine ⟨fun dt p s hl hr => ?_, fun dt p s hl => ?_, fun c dt p s hl hc => ?_⟩
  · exact if_pos ⟨hl, hr⟩
  · have hexec : exec (.trainingComplete dt p) s = .next ((s.passTime dt).goUp p) := if_pos hl
    obtain ⟨n, e⟩ := s.passTime_exists dt
    rw [e] at hexec
    have frame := goUp_frame (s.atInstant n) p
    have link : ((s.atInstant n).goUp p).link p = (s.link p).upped n := by
      rw [State.link, frame]; exact State.link_setLink_self ..
    have now : ((s.atInstant n).goUp p).now = n := by rw [frame]; rfl
    have vote : ((s.atInstant n).goUp p).vote p = some .awake := by
      rw [State.vote, goUp_votes]; exact PerPort.get_set_self ..
    refine ⟨_, hexec, by rw [link]; rfl, by rw [link]; rfl, by rw [link]; rfl, by rw [link]; rfl, by rw [link]; rfl,
      by rw [link]; rfl, by rw [link]; rfl, by rw [link]; rfl, by rw [link]; rfl, by rw [link]; rfl, by rw [link]; rfl,
      by rw [link, now]; rfl, by rw [link, now]; rfl, vote, fun q hq => ⟨?_, ?_⟩, ?_,
      fun h => goUp_retained (s := s.atInstant n) h p, fun h => goUp_settling (s := s.atInstant n) h p⟩
    · rw [State.link, frame]; exact State.link_setLink_of_ne _ hq _
    · rw [State.vote, goUp_votes]; exact PerPort.get_set_of_ne _ hq _
    · rw [frame]; rfl
  · have hexec : exec c s = .next ((s.passTime dt).setLink p ((s.passTime dt).link p).downed) := by
      have hl' : ((s.passTime dt).link p).state = .training := by rw [State.passTime_link]; exact hl
      rcases hc with ⟨rfl, hr⟩ | rfl
      · exact if_pos ⟨hl', by rw [State.passTime_link]; exact hr⟩
      · simp only [exec, execSignalLoss, hl']
    exact ⟨_, hexec, by rw [State.passTime_link]; rfl⟩

/-! ## Packets that carry no admitted request -/

/-- A link that has just heard a good packet. -/
def Link.heardAt (l : Link) (now : Instant) : Link := { l with silence := some (now + silenceLength) }

theorem decideNak_eq (l : Link) : l.decideNak = { l with nakDue := l.nakDue || !l.nakOutstanding, nakOutstanding := true } := by
  unfold Link.decideNak
  split
  · rename_i h; cases l; simp_all
  · rename_i h; cases l; simp_all

theorem discardPacket_eq (s : State) (p : Port) : s.discardPacket p = s.setLink p { s.link p with
    errors := { (s.link p).errors with seqDiscards := countUp top16 (s.link p).errors.seqDiscards }
    nakDue := (s.link p).nakDue || !(s.link p).nakOutstanding, nakOutstanding := true } := by
  unfold State.discardPacket
  dsimp only
  rw [decideNak_eq]

theorem badPacket_eq (s : State) (p : Port) : s.badPacket p = s.setLink p { s.link p with
    errors := { (s.link p).errors with checkFailures := countUp top16 (s.link p).errors.checkFailures }
    nakDue := (s.link p).nakDue || !(s.link p).nakOutstanding, nakOutstanding := true } := by
  unfold State.badPacket
  dsimp only
  rw [decideNak_eq]

theorem heardDiscard_eq (s : State) (p : Port) : (s.heard p).discardPacket p = s.setLink p { s.link p with
    silence := some (s.now + silenceLength)
    errors := { (s.link p).errors with seqDiscards := countUp top16 (s.link p).errors.seqDiscards }
    nakDue := (s.link p).nakDue || !(s.link p).nakOutstanding, nakOutstanding := true } := by
  rw [discardPacket_eq]
  unfold State.heard
  rw [setLink_setLink, State.link_setLink_self]

section

variable {s : State} {dt : Nat} {p : Port} (h : s.online p = true)

include h

theorem online_passTime : (s.passTime dt).online p = true := by rw [State.passTime_online]; exact h

theorem exec_requestDiscard_of {k : Byte} {r : Request} (hd : s.discards p k r = true) :
    exec (.requestDiscard dt p k r) s = .next (((s.passTime dt).heard p).discardPacket p) :=
  if_pos ⟨online_passTime h, by rw [State.passTime_discards]; exact hd⟩

theorem exec_otherKind_of {k : Byte} (hk : isMasterPacketKind k = false) :
    exec (.otherKindDiscard dt p k) s = .next (((s.passTime dt).heard p).discardPacket p) :=
  if_pos ⟨online_passTime h, hk⟩

theorem exec_badCheck_of : exec (.badCheckPacket dt p) s = .next ((s.passTime dt).badPacket p) := if_pos (online_passTime h)

theorem exec_idleReceived_of : exec (.idleReceived dt p) s = .next ((s.passTime dt).heard p) := if_pos (online_passTime h)

theorem exec_ackReceived_of (n : Byte) : exec (.ackReceived dt p n) s = .next ((s.passTime dt).setLink p
    (((s.link p).heardAt (s.passTime dt).now).takeAck n)) := by
  have e : exec (.ackReceived dt p n) s = .next (((s.passTime dt).heard p).setLink p ((((s.passTime dt).heard p).link p).takeAck n)) :=
    if_pos (online_passTime h)
  rw [e, State.heard, setLink_twice (f := fun l => l.takeAck n), State.passTime_link]
  rfl

theorem exec_nakReceived_of (n : Byte) : exec (.nakReceived dt p n) s = .next ((s.passTime dt).setLink p
    (((s.link p).heardAt (s.passTime dt).now).takeNak n)) := by
  have e : exec (.nakReceived dt p n) s = .next (((s.passTime dt).heard p).setLink p ((((s.passTime dt).heard p).link p).takeNak n)) :=
    if_pos (online_passTime h)
  rw [e, State.heard, setLink_twice (f := fun l => l.takeNak n), State.passTime_link]
  rfl

end

theorem isMasterPacketKind_not {k : Byte} (h : k ≠ 1 ∧ k ≠ 5 ∧ k ≠ 6 ∧ k ≠ 7 ∧ k ≠ 8) : isMasterPacketKind k = false := by
  obtain ⟨h1, h5, h6, h7, h8⟩ := h
  simp only [isMasterPacketKind, Bool.or_eq_false_iff, decide_eq_false_iff_not]
  exact ⟨⟨⟨⟨h1, h5⟩, h6⟩, h7⟩, h8⟩

/-- A REQUEST that finds the refusal list full is discarded. -/
theorem discards_noRoom {s : State} {p : Port} {k : Byte} {r : Request} (hf : 16 ≤ (s.link p).refusals.length)
    (hk : isRequestKind k = false ∨ ∃ kind st, k = Kind.code kind ∧ Refused s p kind r st ∧
      (r.posted = false ∨ (kind ≠ .write ∧ kind ≠ .writePart))) : s.discards p k r = true := by
  rcases hk with hk | ⟨kind, st, rfl, hr, ha⟩
  · rcases Nat.lt_or_ge (s.queue p).length 16 with hq | hq
    · exact discards_full (verdict_unknown hk hq) (answeredByResponse_unknown hk r) hf
    · exact discards_full (verdict_full hq) (answeredByResponse_unknown hk r) hf
  · exact discards_full (refused_verdict hr) (answeredByResponse_code.mpr ha) hf

/-- Settles O9. -/
theorem discardedPacketsAreCounted : Obligations.DiscardedPacketsAreCounted := by
  refine ⟨fun dt p s h => ?_, fun c dt p k r s h hc => ?_, fun dt p s h => ?_⟩
  · rw [exec_badCheck_of h, badPacket_eq, State.passTime_link]
    rfl
  · have hexec : exec c s = .next (((s.passTime dt).heard p).discardPacket p) := by
      rcases hc with ⟨rfl, hs | ⟨hf, hk⟩⟩ | ⟨rfl, hk⟩
      · exact exec_requestDiscard_of h (discards_sequence hs)
      · exact exec_requestDiscard_of h (discards_noRoom hf hk)
      · exact exec_otherKind_of h (isMasterPacketKind_not hk)
    rw [hexec, heardDiscard_eq, State.passTime_link]
    rfl
  · rw [exec_idleReceived_of h, State.heard, State.passTime_link]
    rfl

/-! ## Acknowledgements -/

theorem placeOf_first {l : Link} {n : Byte} {older newer : List Packet} {k : Packet} (h : l.replay = older ++ k :: newer)
    (hk : k.seq = n) (hn : ∀ x ∈ older, x.seq ≠ n) : l.placeOf n = some older.length := by
  unfold Link.placeOf
  rw [h, List.findIdx?_append, List.findIdx?_eq_none_iff.mpr fun x hx => decide_eq_false (hn x hx), List.findIdx?_cons,
    decide_eq_true hk]
  simp

theorem placeOf_absent {l : Link} {n : Byte} (h : ∀ x ∈ l.replay, x.seq ≠ n) : l.placeOf n = none :=
  List.findIdx?_eq_none_iff.mpr fun x hx => decide_eq_false (h x hx)

theorem takeAck_of {l : Link} {n : Byte} {i : Nat} (h : l.placeOf n = some i) : l.takeAck n = l.acked i := by
  unfold Link.takeAck
  rw [h]

theorem takeNak_of {l : Link} {n : Byte} {i : Nat} (h : l.placeOf n = some i) :
    l.takeNak n = { l with replay := l.replay.drop i, replayAt := some 0 } := by
  unfold Link.takeNak
  rw [h]

theorem takeAck_stray {l : Link} {n : Byte} (h : l.placeOf n = none) : l.takeAck n = l.stray := by
  unfold Link.takeAck
  rw [h]

theorem takeNak_stray {l : Link} {n : Byte} (h : l.placeOf n = none) : l.takeNak n = l.stray := by
  unfold Link.takeNak
  rw [h]

theorem drop_replay {α : Type} {l older newer : List α} {k : α} (h : l = older ++ k :: newer) :
    l.drop (older.length + 1) = newer ∧ l.drop older.length = k :: newer := by
  subst h
  exact ⟨by rw [List.drop_length_add_append]; rfl, List.drop_left ..⟩

theorem acked_replayAt {l : Link} {older newer : List Packet} {k : Packet} (h : l.replay = older ++ k :: newer) :
    (l.replayAt = none → (l.acked older.length).replayAt = none) ∧
      (∀ i, l.replayAt = some i → older.length < i → (l.acked older.length).replayAt = some (i - (older.length + 1))) ∧
      ∀ i, l.replayAt = some i → i ≤ older.length → (l.acked older.length).replayAt = if newer = [] then none else some 0 := by
  unfold Link.acked
  refine ⟨fun e => by rw [e], fun i e hi => by rw [e]; exact if_pos hi, fun i e hi => ?_⟩
  rw [e, h]
  dsimp only
  rw [if_neg (Nat.not_lt.mpr hi)]
  cases newer <;> simp

/-- Settles O10. -/
theorem acksFreePacketsAndNaksReplay : Obligations.AcksFreePacketsAndNaksReplay := by
  intro dt p n s h
  refine ⟨fun older k newer hr hk hn => ⟨⟨_, exec_ackReceived_of h n, ?_⟩, ⟨_, exec_nakReceived_of h n, ?_⟩⟩, fun hn c hc => ?_⟩
  · have hr' : ((s.link p).heardAt (s.passTime dt).now).replay = older ++ k :: newer := hr
    rw [takeAck_of (placeOf_first hr' hk hn), State.link_setLink_self]
    obtain ⟨h1, h2, h3⟩ := acked_replayAt hr'
    exact ⟨(drop_replay hr).1, h1, h2, h3, rfl, fun q hq => by rw [State.link_setLink_of_ne _ hq, State.passTime_link]⟩
  · have hr' : ((s.link p).heardAt (s.passTime dt).now).replay = older ++ k :: newer := hr
    rw [takeNak_of (placeOf_first hr' hk hn), State.link_setLink_self]
    exact ⟨(drop_replay hr).2, rfl, rfl, fun q hq => by rw [State.link_setLink_of_ne _ hq, State.passTime_link]⟩
  · have habs : ((s.link p).heardAt (s.passTime dt).now).placeOf n = none := placeOf_absent hn
    rcases hc with rfl | rfl
    · rw [exec_ackReceived_of h, takeAck_stray habs]; rfl
    · rw [exec_nakReceived_of h, takeNak_stray habs]; rfl

/-! ## Packets sent -/

section

variable {s : State} {dt : Nat} {p : Port}

theorem exec_sendNak_of (h : SendsFirst (s.passTime dt) p .nak) :
    exec (.sendNak dt p) s = .next (((s.passTime dt).sendPlain p .nak).clearNakDue p) := if_pos (sendsFirst_iff.mpr h)

theorem exec_sendReplay_of (h : SendsFirst (s.passTime dt) p .replay) :
    exec (.sendReplay dt p) s = .next ((s.passTime dt).sendReplayed p) := if_pos (sendsFirst_iff.mpr h)

theorem exec_sendInit_of (h : SendsFirst (s.passTime dt) p .init) :
    exec (.sendInit dt p) s = .next (((s.passTime dt).sendSequenced p .init).clearInit p) := if_pos (sendsFirst_iff.mpr h)

theorem exec_sendResponse_of (h : SendsFirst (s.passTime dt) p .response) (first : Bool) :
    exec (.sendResponse dt p first) s = .next ((s.passTime dt).sendAnswer p first).reviewQuiet := if_pos (sendsFirst_iff.mpr h)

theorem exec_sendNotice_of (h : SendsFirst (s.passTime dt) p .notice) :
    exec (.sendNotice dt p) s = .next ((s.passTime dt).sendHeadNotice p) := if_pos (sendsFirst_iff.mpr h)

theorem exec_sendAck_of (h : SendsFirst (s.passTime dt) p .ack) :
    exec (.sendAck dt p) s = .next ((s.passTime dt).sendPlain p .ack) := if_pos (sendsFirst_iff.mpr h)

theorem exec_sendIdle_of (h : SendsFirst (s.passTime dt) p .idle) :
    exec (.sendIdle dt p) s = .next ((s.passTime dt).sendPlain p .idle) := if_pos (sendsFirst_iff.mpr h)

end

/-- A NAK that is due goes first. -/
theorem sendsFirst_nak {s : State} {p : Port} (h : s.online p = true) (hf : TransmitterFree s p) (hd : (s.link p).nakDue = true) :
    SendsFirst s p .nak where
  up := h
  free := hf
  due := .nak hd
  first j hj := by cases j <;> simp [SendKind.place] at hj

theorem byteTime_mul (n : Nat) : byteTime * n = ns n := rfl

/-- A packet with no body is on the wire for 6 ns. -/
theorem plain_length (k : Packet) (h : k.content.bytes = []) : byteTime * k.bytes.length = ns 6 := by
  unfold Packet.bytes Packet.bodyBytes
  rw [h]
  rfl

/-- The link after an unsequenced packet. -/
theorem sendPlain_eq (s : State) (p : Port) (c : Content) (hc : c.bytes = []) : s.sendPlain p c = s.setLink p { s.link p with
    ackTimer := .stopped, keepalive := .running (s.now + keepaliveLength)
    transmitter := some ⟨s.buildPacket p c, s.now + ns 6⟩ } := by
  unfold State.sendPlain Link.put
  rw [plain_length _ hc]

/-- The link after a sequenced packet. -/
theorem sendSequenced_eq (s : State) (p : Port) (c : Content) : s.sendSequenced p c = s.setLink p { s.link p with
    ackTimer := .stopped, sendSeq := (s.link p).sendSeq + 1, replay := (s.link p).replay ++ [s.buildPacket p c]
    keepalive := .running (s.now + keepaliveLength)
    transmitter := some ⟨s.buildPacket p c, s.now + byteTime * (s.buildPacket p c).bytes.length⟩ } := rfl

theorem sendNak_eq (s : State) (p : Port) : (s.sendPlain p .nak).clearNakDue p = s.setLink p { s.link p with
    nakDue := false, ackTimer := .stopped, keepalive := .running (s.now + keepaliveLength)
    transmitter := some ⟨s.buildPacket p .nak, s.now + ns 6⟩ } := by
  rw [sendPlain_eq s p .nak rfl, State.clearNakDue, setLink_twice (f := fun l => { l with nakDue := false })]

theorem sendInit_eq (s : State) (p : Port) : (s.sendSequenced p .init).clearInit p = s.setLink p { s.link p with
    initPending := false, sendSeq := (s.link p).sendSeq + 1, replay := (s.link p).replay ++ [s.buildPacket p .init]
    ackTimer := .stopped, keepalive := .running (s.now + keepaliveLength)
    transmitter := some ⟨s.buildPacket p .init, s.now + ns 6⟩ } := by
  rw [sendSequenced_eq, State.clearInit, setLink_twice (f := fun l => { l with initPending := false }), plain_length _ rfl]

theorem sendReplayed_of {s : State} {p : Port} {older newer : List Packet} {k : Packet} (h : (s.link p).replay = older ++ k :: newer)
    (hi : (s.link p).replayAt = some older.length) : s.sendReplayed p = s.setLink p { s.link p with
      replayAt := if newer = [] then none else some (older.length + 1), keepalive := .running (s.now + keepaliveLength)
      transmitter := some ⟨k, s.now + byteTime * k.bytes.length⟩ } := by
  have hk : (s.link p).replay[older.length]? = some k := by rw [h]; simp
  have hnext : (if older.length + 1 < (s.link p).replay.length then some (older.length + 1) else none) =
      if newer = [] then none else some (older.length + 1) := by
    rw [h]
    cases newer <;> simp
  unfold State.sendReplayed
  simp only [hi, hk]
  rw [hnext]
  rfl

theorem buildPacket_passTime (s : State) (dt : Nat) (p : Port) (c : Content) : (s.passTime dt).buildPacket p c =
    { seq := (s.link p).sendSeq, ackField := (s.link p).expected - 1, free := s.freeSlots p, content := c } := by
  unfold State.buildPacket
  rw [State.passTime_link, State.passTime_freeSlots]

/-- Settles O12. -/
theorem linkPacketsAreSent : Obligations.LinkPacketsAreSent := by
  refine ⟨fun dt p s h => ?_, fun dt p s h => ?_, fun c x dt p s hc => ?_, fun dt p s h => ?_, fun dt p s older k newer h hr hi => ?_⟩
  · simp only [exec, execAckTimerExpiry, State.passTime_link, h, if_true]
  · simp only [exec, execKeepaliveExpiry, State.passTime_link, h, if_true]
  · rcases hc with ⟨rfl, rfl, h⟩ | ⟨rfl, rfl, h⟩
    · rw [exec_sendAck_of h, sendPlain_eq _ _ _ rfl, buildPacket_passTime, State.passTime_link]; rfl
    · rw [exec_sendIdle_of h, sendPlain_eq _ _ _ rfl, buildPacket_passTime, State.passTime_link]; rfl
  · refine ⟨_, _, exec_sendInit_of h, rfl, ?_⟩
    rw [sendInit_eq, buildPacket_passTime, State.passTime_link]
    rfl
  · rw [exec_sendReplay_of h, sendReplayed_of (older := older) (newer := newer) (k := k) (by rw [State.passTime_link]; exact hr)
      (by rw [State.passTime_link]; exact hi), State.passTime_link]
    rw [byteTime_mul]
    rfl

end Sys2Proof.Machine
end

section
/-! PROOFS. RESPONSE and NOTICE packets: how long they are, and what leaves with them (R82, R163, R168, R170, Tables 53 and 54). -/

namespace Sys2Proof.Machine

/-! ## Lengths -/

theorem byte1_length (n : Nat) : (byte1 n).length = 1 := rfl

theorem wordBytes_length (w : Word) : (wordBytes w).length = 8 := by
  unfold wordBytes
  exact Memory.leBytes_length ..

theorem flatMap_length_const {α β : Type} {f : α → List β} {c : Nat} {l : List α} (h : ∀ x ∈ l, (f x).length = c) :
    (l.flatMap f).length = c * l.length := by
  induction l with
  | nil => rfl
  | cons x l ih =>
    rw [List.flatMap_cons, List.length_append, h x (List.mem_cons_self ..), ih fun y hy => h y (List.mem_cons_of_mem _ hy),
      List.length_cons]
    ring

theorem checkedBytes_length (w : CheckedWord) : w.bytes.length = 8 := by cases w <;> exact wordBytes_length _

theorem regionBody_length (b : RegionBody) : b.bytes.length = 14 := by
  simp [RegionBody.bytes, Memory.leBytes_length, byte1_length]

theorem spare_length (x : Spare) : x.bytes.length = 3 := by simp [Spare.bytes, Memory.leBytes_length, byte1_length]

theorem queuedView_length (j : QueuedView) : j.bytes.length = 5 := by simp [QueuedView.bytes, Memory.leBytes_length, byte1_length]

theorem jobView_length (j : JobView) : j.bytes.length = 11 := by simp [JobView.bytes, Memory.leBytes_length, byte1_length]

theorem item_length (i : Item) : i.bytes.length = itemLength i := by
  cases i with
  | faultSlot e => cases e <;> simp [Item.bytes, itemLength, Memory.leBytes_length, byte1_length]
  | spares t =>
    have h : t.items.length = 4 := t.size
    rw [Item.bytes, flatMap_length_const fun x _ => spare_length x, h]
    rfl
  | repairQueue js =>
    rw [Item.bytes, List.length_append, flatMap_length_const fun x _ => queuedView_length x]
    rfl
  | currentJob j => cases j <;> simp [Item.bytes, itemLength, jobView_length, byte1_length]
  | region r =>
    obtain ⟨st, body, n, rep⟩ := r
    cases rep <;> simp [Item.bytes, itemLength, Region.bytes, regionBody_length, Memory.leBytes_length, byte1_length]
  | _ => simp [Item.bytes, itemLength, Memory.leBytes_length, byte1_length, signedByte, ErrorCounts.bytes]

theorem response_length (d : ResultData) (h : ∀ ls, d = .lines ls → ∀ l ∈ ls, l.length = 8) : d.bytes.length = responseLength d := by
  cases d with
  | none => rfl
  | lines ls =>
    have words : ∀ l ∈ ls, (l.flatMap CheckedWord.bytes).length = 64 := fun l hl => by
      rw [flatMap_length_const fun w _ => checkedBytes_length w, h ls rfl l hl]
    rw [ResultData.bytes, List.length_append, flatMap_length_const (c := 1) fun _ _ => rfl, flatMap_length_const words]
    unfold responseLength
    ring
  | oldWord w => exact wordBytes_length w
  | watch i w => cases w <;> simp [ResultData.bytes, responseLength, byte1_length, wordBytes_length]
  | holder p => rfl
  | repair sp n => simp [ResultData.bytes, responseLength, byte1_length, Memory.leBytes_length]
  | item i => exact item_length i

theorem notice_length (n : Notice) : n.bytes.length = noticeLength n := by
  cases n with
  | watchEnded i l c => cases c <;> simp [Notice.bytes, noticeLength, Memory.leBytes_length, byte1_length]
  | repairDone b row sp st n => cases sp <;> simp [Notice.bytes, noticeLength, Memory.leBytes_length, byte1_length]
  | _ => simp [Notice.bytes, noticeLength, Memory.leBytes_length, byte1_length]

theorem packet_length (k : Packet) : k.bytes.length = 6 + k.content.bytes.length := by
  simp [Packet.bytes, Packet.bodyBytes, byte1_length, checkBytes_length]
  omega

theorem responsePacket_length (k : Packet) {t : Tag} {r : Result} (hk : k.content = .response t r)
    (h : ∀ ls, r.data = .lines ls → ∀ l ∈ ls, l.length = 8) : k.bytes.length = 10 + responseLength r.data := by
  rw [packet_length, hk]
  simp [Content.bytes, byte1_length, Memory.leBytes_length, response_length r.data h]
  omega

theorem noticePacket_length (k : Packet) {n : Notice} (hk : k.content = .notice n) : k.bytes.length = 9 + noticeLength n := by
  rw [packet_length, hk]
  simp [Content.bytes, byte1_length, Memory.leBytes_length, notice_length]
  omega

/-! ## A sequenced packet -/

/-- What a sequenced packet does to its link, and to no other. -/
structure SentSequenced (s t : State) (p : Port) (k : Packet) : Prop where
  packet : (t.link p).transmitter = some ⟨k, s.now + ns k.bytes.length⟩
  replay : (t.link p).replay = (s.link p).replay ++ [k]
  sendSeq : (t.link p).sendSeq = (s.link p).sendSeq + 1
  ackTimer : (t.link p).ackTimer = .stopped
  keepalive : (t.link p).keepalive = .running (s.now + us 100)
  refusals : (t.link p).refusals = (s.link p).refusals
  others : ∀ q, q ≠ p → t.link q = s.link q

theorem sentSequenced (s : State) (p : Port) (c : Content) : SentSequenced s (s.sendSequenced p c) p (s.buildPacket p c) := by
  rw [sendSequenced_eq]
  refine ⟨?_, ?_, ?_, ?_, ?_, ?_, fun q hq => State.link_setLink_of_ne _ hq _⟩ <;> rw [State.link_setLink_self]
  · rfl
  · rfl

/-! ## NOTICE -/

theorem sendHeadNotice_of {s : State} {p : Port} {n : Notice} {rest : List Notice} (h : (s.noticeQ p).queue = n :: rest) :
    s.sendHeadNotice p = (s.setNoticeQ p (s.noticeQ p).afterHead).sendSequenced p (.notice n) := by
  unfold State.sendHeadNotice
  rw [h]
  rfl

theorem afterHead_of {q : NoticeQueue} {n : Notice} {rest : List Notice} (h : q.queue = n :: rest) : q.afterHead =
    { queue := if 0 < q.lost then rest ++ [.overflow q.lost] else rest, lost := 0, enables := q.enables } := by
  obtain ⟨queue, lost, enables⟩ := q
  cases h
  unfold NoticeQueue.afterHead
  cases lost <;> simp

/-- Settles O14. -/
theorem noticeLeavesItsQueue : Obligations.NoticeLeavesItsQueue := by
  intro dt p s n rest h hn
  have hexec := exec_sendNotice_of h
  obtain ⟨m, e⟩ := s.passTime_exists dt
  rw [e] at hexec ⊢
  rw [sendHeadNotice_of (s := s.atInstant m) hn] at hexec
  obtain ⟨u, hu⟩ : ∃ u, u = (s.atInstant m).setNoticeQ p (s.noticeQ p).afterHead := ⟨_, rfl⟩
  have sent := sentSequenced u p (.notice n)
  have notices : ∀ q, (u.sendSequenced p (.notice n)).noticeQ q = if q = p then (s.noticeQ p).afterHead else s.noticeQ q := fun q => by
    rw [hu]; exact PerPort.get_set ..
  refine ⟨_, u.buildPacket p (.notice n), hu ▸ hexec, ?_, ?_, ?_, ?_, ?_, fun q hq => ⟨?_, ?_⟩, ?_, ?_⟩
  · rw [notices, if_pos rfl, afterHead_of hn]
  · rw [hu]; rfl
  · rw [sent.packet, noticePacket_length _ rfl, hu]; rfl
  · rw [sent.replay, hu]; rfl
  · rw [sent.sendSeq, hu]; rfl
  · rw [sent.others q hq, hu]; rfl
  · rw [notices, if_neg hq]
  · rw [hu]; rfl
  · rw [hu]; rfl

/-! ## RESPONSE -/

theorem QuietReviewed.since {s u t : State} (h : QuietReviewed u t) (hq : u.quiet = s.quiet) (hb : u.banks = s.banks) :
    QuietReviewed s t := by
  obtain ⟨h1, h2, h3, h4, h5, h6⟩ := h
  unfold State.bank at h2 h6
  rw [hq] at h1 h2 h3 h4 h5 h6
  rw [hb] at h2
  exact ⟨h1, h2, h3, h4, h5, h6⟩

/-- What a record's response leaves with. -/
theorem sendAnswer_record {s : State} {p : Port} {r : Record} {res : Result} {d : Instant} {first : Bool} (h : AnswersFirst s p r d)
    (hr : r.result = some res) (hx : ∀ x, (s.link p).refusals.head? = some x → d < x.since ∨ d = x.since ∧ first = false) :
    s.sendAnswer p first = (s.dropRecord p r.stamp).sendSequenced p (.response r.tag res) := by
  have hres : r.result.getD ⟨.ok, .none⟩ = res := by rw [hr]; rfl
  have hd : r.doneAt.getD 0 = d := by rw [h.instant]; rfl
  unfold State.sendAnswer
  rw [firstAnswer_of h]
  cases e : (s.link p).refusals.head? with
  | none => dsimp only; rw [State.answerRecord, hres]
  | some x => dsimp only; rw [hd, if_pos (hx x e), State.answerRecord, hres]

/-- What a refusal's response leaves with. -/
theorem sendAnswer_refusal {s : State} {p : Port} {x : RefusedResponse} {rest : List RefusedResponse} {first : Bool}
    (hx : (s.link p).refusals = x :: rest)
    (h : (∀ r, ¬ Unsent s p r) ∨ ∃ r d, AnswersFirst s p r d ∧ (x.since < d ∨ d = x.since ∧ first = true)) :
    s.sendAnswer p first =
      (s.setLink p { s.link p with refusals := rest }).sendSequenced p (.response x.tag ⟨x.status, .none⟩) := by
  have hans : s.answerRefusal p x =
      (s.setLink p { s.link p with refusals := rest }).sendSequenced p (.response x.tag ⟨x.status, .none⟩) := by
    unfold State.answerRefusal
    rw [hx]
    rfl
  have hhead : (s.link p).refusals.head? = some x := by rw [hx]; rfl
  unfold State.sendAnswer
  rcases h with hn | ⟨r, d, ha, hd⟩
  · rw [firstAnswer_none.mpr hn, hhead, ← hans]
  · have hdone : r.doneAt.getD 0 = d := by rw [ha.instant]; rfl
    rw [firstAnswer_of ha, hhead]
    dsimp only
    rw [hdone, if_neg, hans]
    rintro (hlt | ⟨heq, hf⟩)
    · rcases hd with hd | ⟨hd, -⟩
      · exact absurd hlt (Nat.not_lt.mpr hd.le)
      · exact absurd hlt (hd ▸ Nat.lt_irrefl _)
    · rcases hd with hd | ⟨-, hd⟩
      · exact absurd hd (heq ▸ Nat.lt_irrefl _)
      · rw [hf] at hd; cases hd

/-- Settles O13. -/
theorem responseLeavesWithItsRecord : Obligations.ResponseLeavesWithItsRecord := by
  intro dt p first s h
  have hexec := exec_sendResponse_of h first
  obtain ⟨m, e⟩ := s.passTime_exists dt
  rw [e] at hexec ⊢
  refine ⟨fun r res d ha hres hx => ?_, fun x rest hx hu => ?_⟩
  · have ha' : AnswersFirst (s.atInstant m) p r d := ⟨ha.unsent, ha.instant, ha.first⟩
    rw [sendAnswer_record ha' hres hx] at hexec
    obtain ⟨u, hu⟩ : ∃ u, u = (s.atInstant m).dropRecord p r.stamp := ⟨_, rfl⟩
    rw [← hu] at hexec
    obtain ⟨t, ht⟩ : ∃ t, t = (u.sendSequenced p (.response r.tag res)).reviewQuiet := ⟨_, rfl⟩
    have sent := sentSequenced u p (.response r.tag res)
    have link : ∀ q, t.link q = (u.sendSequenced p (.response r.tag res)).link q := fun q => by
      rw [ht, State.link, reviewQuiet_links]; rfl
    have queue : ∀ q, t.queue q = if q = p then (s.queue p).filter (fun q => decide (q.stamp ≠ r.stamp)) else s.queue q :=
      fun q => by rw [ht, State.queue, reviewQuiet_queues, hu]; exact PerPort.get_set ..
    have hlink : ∀ q, u.link q = s.link q := fun q => by rw [hu]; rfl
    have hnow : u.now = m := by rw [hu]; rfl
    refine ⟨t, u.buildPacket p (.response r.tag res), ht ▸ hexec, ?_, ?_, ?_, fun hl => ?_, ?_, ?_, ?_, ?_, ?_, ?_, fun q hq => ⟨?_, ?_⟩, ?_⟩
    · rw [queue, if_pos rfl]
    · rw [queue, if_pos rfl, hu]
      unfold State.buildPacket State.freeSlots
      have hq : ((s.atInstant m).dropRecord p r.stamp).queue p = (s.queue p).filter (fun q => decide (q.stamp ≠ r.stamp)) :=
        PerPort.get_set_self ..
      rw [hq]
      rfl
    · rw [link, sent.packet]; rfl
    · rw [link, sent.packet, responsePacket_length _ rfl hl, hnow]; rfl
    · rw [link, sent.replay, hlink]
    · rw [link, sent.sendSeq, hlink]
    · rw [link, sent.ackTimer]
    · rw [link, sent.keepalive, hnow]; rfl
    · rw [link, sent.refusals, hlink]
    · rw [ht]
      exact (quietReviewed_reviewQuiet _).since (by rw [hu]; rfl) (by rw [hu]; rfl)
    · rw [link, sent.others q hq, hlink]
    · rw [queue, if_neg hq]
    · rw [ht, reviewQuiet_mem, hu]; rfl
  · have hu' : (∀ r, ¬ Unsent (s.atInstant m) p r) ∨
        ∃ r d, AnswersFirst (s.atInstant m) p r d ∧ (x.since < d ∨ d = x.since ∧ first = true) := by
      rcases hu with hu | ⟨r, d, ha, hd⟩
      · exact .inl hu
      · exact .inr ⟨r, d, ⟨ha.unsent, ha.instant, ha.first⟩, hd⟩
    rw [sendAnswer_refusal (s := s.atInstant m) hx hu'] at hexec
    obtain ⟨u, hu⟩ : ∃ u, u = (s.atInstant m).setLink p { s.link p with refusals := rest } := ⟨_, rfl⟩
    have hexec' : exec (.sendResponse dt p first) s =
      .next (u.sendSequenced p (.response x.tag ⟨x.status, .none⟩)).reviewQuiet := hu ▸ hexec
    obtain ⟨t, ht⟩ : ∃ t, t = (u.sendSequenced p (.response x.tag ⟨x.status, .none⟩)).reviewQuiet := ⟨_, rfl⟩
    have sent := sentSequenced u p (.response x.tag ⟨x.status, .none⟩)
    have link : ∀ q, t.link q = (u.sendSequenced p (.response x.tag ⟨x.status, .none⟩)).link q := fun q => by
      rw [ht, State.link, reviewQuiet_links]; rfl
    have queue : ∀ q, t.queue q = s.queue q := fun q => by rw [ht, State.queue, reviewQuiet_queues, hu]; rfl
    have hlink : u.link p = { s.link p with refusals := rest } := by rw [hu]; exact State.link_setLink_self ..
    have hnow : u.now = m := by rw [hu]; rfl
    refine ⟨t, u.buildPacket p (.response x.tag ⟨x.status, .none⟩), ht ▸ hexec', queue p, ?_, ?_, ?_, ?_, ?_, ?_, ?_, ?_,
      fun q hq => ⟨?_, queue q⟩, ?_⟩
    · unfold State.buildPacket
      rw [hlink, hu]
      rfl
    · rw [link, sent.packet, responsePacket_length _ rfl (by intro _ e; cases e), hnow]; rfl
    · rw [link, sent.replay, hlink]
    · rw [link, sent.refusals, hlink]
    · rw [link, sent.sendSeq, hlink]
    · rw [link, sent.ackTimer]
    · rw [link, sent.keepalive, hnow]; rfl
    · rw [ht]
      exact (quietReviewed_reviewQuiet _).since (by rw [hu]; rfl) (by rw [hu]; rfl)
    · rw [link, sent.others q hq, hu]; exact State.link_setLink_of_ne _ hq _
    · rw [ht, reviewQuiet_mem, hu]; rfl

end Sys2Proof.Machine
end

section
/-! PROOFS. A REQUEST that is accepted by the link: what becomes of the link's registers, and of a request that admission refuses
(R28, R32, R164 to R166). -/

namespace Sys2Proof.Machine

/-! ## The link after an acceptance -/

/-- A link that has accepted the REQUEST with sequence E. -/
def Link.acceptedAt (l : Link) (now : Instant) : Link :=
  { l with silence := some (now + silenceLength), expected := l.expected + 1, nakOutstanding := false
           ackTimer := if l.ackTimer = .stopped then .running (now + ackLength) else l.ackTimer }

theorem accepted_eq (s : State) (p : Port) : s.accepted p = s.setLink p ((s.link p).acceptedAt s.now) := by
  unfold State.accepted State.acceptPacket State.heard
  dsimp only
  rw [setLink_setLink, State.link_setLink_self]
  rfl

theorem link_accepted (s : State) (p : Port) : (s.accepted p).link p = (s.link p).acceptedAt s.now := by
  rw [accepted_eq, State.link_setLink_self]

theorem addRefusal_accepted (s : State) (p : Port) (t : Tag) (st : Status) : (s.accepted p).addRefusal p t st =
    s.setLink p { (s.link p).acceptedAt s.now with refusals := (s.link p).refusals ++ [⟨t, st, s.now⟩] } := by
  have now : (s.accepted p).now = s.now := by rw [accepted_eq]; rfl
  unfold State.addRefusal
  dsimp only
  rw [link_accepted, now, accepted_eq, setLink_setLink]
  rfl

/-! ## What an admission leaves of the links -/

theorem letIn_link_core (s : State) (p : Port) (t : Tag) (o : ReqOp) (posted : Bool) (g : Option RegionIx) (q : Port) :
    ((s.letIn p t o posted g).link q).core = (s.link q).core := by
  rw [(control_letIn s p t o posted g).link q, State.link, (joined_eqs ..).1, quietBreak_frame]
  rfl

theorem letIn_stampCounter (s : State) (p : Port) (t : Tag) (o : ReqOp) (posted : Bool) (g : Option RegionIx) :
    (s.letIn p t o posted g).stampCounter = s.stampCounter + 1 := by
  rw [(control_letIn s p t o posted g).stampCounter, (joined_eqs ..).2.2.2.2.2.2.2.2.2.2.2.2.1, quietBreak_stampCounter]

/-- Two links alike but for their error counts. -/
theorem Link.eq_of_core {l m : Link} (h : l.core = m.core) : l = { m with errors := l.errors } := by
  have e : ({ l.core with errors := l.errors } : Link) = { m.core with errors := l.errors } := by rw [h]
  exact e

/-- What R164 to R166 say of a link that has taken a REQUEST. -/
structure TookRequest (s t : State) (p : Port) (k : Byte) (r : Request) : Prop where
  outstanding : (t.link p).nakOutstanding = s.discards p k r
  registers : s.discards p k r = false → (t.link p).expected = (s.link p).expected + 1 ∧ (t.link p).nakDue = (s.link p).nakDue ∧
    (t.link p).silence = some (s.now + ms 1) ∧
    (t.link p).ackTimer = (if (s.link p).ackTimer = .stopped then .running (s.now + us 2) else (s.link p).ackTimer)
  admitted : s.discards p k r = false → ∀ o posted g, s.verdict p k r = .accept o posted g → t.stampCounter = s.stampCounter + 1
  refused : s.discards p k r = false → ∀ st, s.verdict p k r = .refuse st → t.stampCounter = s.stampCounter

theorem TookRequest.of_accepted {s t : State} {p : Port} {k : Byte} {r : Request} (hd : s.discards p k r = false)
    (hl : ∃ e f, t.link p = { (s.link p).acceptedAt s.now with errors := e, refusals := f })
    (ha : ∀ o posted g, s.verdict p k r = .accept o posted g → t.stampCounter = s.stampCounter + 1)
    (hr : ∀ st, s.verdict p k r = .refuse st → t.stampCounter = s.stampCounter) : TookRequest s t p k r := by
  obtain ⟨e, f, hl⟩ := hl
  exact ⟨by rw [hl, hd]; rfl, fun _ => by rw [hl]; exact ⟨rfl, rfl, rfl, rfl⟩, fun _ => ha, fun _ => hr⟩

theorem receive_took {s : State} {p : Port} {k : Byte} {r : Request} (h : s.online p = true) :
    TookRequest s (s.receive p k r) p k r := by
  have hrec := received s p k r
  generalize s.receive p k r = t at hrec ⊢
  cases hrec with
  | offline ho => rw [h] at ho; cases ho
  | discarded _ hd =>
    refine ⟨?_, fun hn => ?_, fun hn => ?_, fun hn => ?_⟩
    · rw [heardDiscard_eq, State.link_setLink_self, hd]
    all_goals rw [hd] at hn; cases hn
  | refused st _ hd hv =>
    refine .of_accepted hd ?_ (fun o posted g e => by rw [hv] at e; cases e) fun _ _ => ?_
    · rw [addRefusal_accepted]; exact ⟨_, _, State.link_setLink_self ..⟩
    · rw [addRefusal_accepted]; rfl
  | noticed st _ hd hv =>
    refine .of_accepted hd ?_ (fun o posted g e => by rw [hv] at e; cases e) fun _ _ => ?_
    · rw [placeNotice_frame]; exact ⟨_, _, link_accepted s p⟩
    · rw [placeNotice_frame, accepted_eq]; rfl
  | admitted o posted g _ hd hv =>
    refine .of_accepted hd ?_ (fun _ _ _ _ => ?_) fun st e => by rw [hv] at e; cases e
    · exact ⟨_, _, Link.eq_of_core ((letIn_link_core ..).trans (congrArg Link.core (link_accepted s p)))⟩
    · rw [letIn_stampCounter, accepted_eq]; rfl

/-- Settles O11. -/
theorem nakCarriesLastAccepted : Obligations.NakCarriesLastAccepted := by
  refine ⟨fun dt p s ho hf hd => ?_, fun c dt p k r s hc ho => ?_⟩
  · rw [exec_sendNak_of (sendsFirst_nak (by rw [State.passTime_online]; exact ho) hf (by rw [State.passTime_link]; exact hd)),
      sendNak_eq, buildPacket_passTime, State.passTime_link]
    rfl
  · have took := receive_took (k := k) (r := r) (s := s.passTime dt) (p := p) (by rw [State.passTime_online]; exact ho)
    refine ⟨_, exec_requestRow hc s, ⟨fun h => .inr (took.outstanding ▸ h), ?_⟩, fun _ hd => ?_⟩
    · rintro (h | h)
      · rw [took.outstanding, State.passTime_discards, discards_sequence h]
      · rw [took.outstanding, h]
    · obtain ⟨h1, h2, h3, h4⟩ := took.registers hd
      rw [State.passTime_link] at h1 h2 h4
      refine ⟨h1, h2, h3, h4, fun o posted g hv => ?_, fun st hv => ?_⟩
      · rw [took.admitted hd o posted g (by rw [State.passTime_verdict]; exact hv), State.passTime_stampCounter]
      · rw [took.refused hd st (by rw [State.passTime_verdict]; exact hv), State.passTime_stampCounter]

/-! ## Refusals -/

section

variable {s : State} {p : Port} {k : Byte} {r : Request} {st : Status} (h : s.online p = true)
  (hs : r.seq = (s.link p).expected) (hv : s.verdict p k r = .refuse st)

include h hs hv

theorem receive_refused (ha : answeredByResponse k r = true) (hf : (s.link p).refusals.length < 16) : s.receive p k r =
    s.setLink p { (s.link p).acceptedAt s.now with refusals := (s.link p).refusals ++ [⟨r.tag, st, s.now⟩] } := by
  have hd := discards_refused hs hv fun _ => hf
  have hva : ((s.heard p).acceptPacket p).verdict p k r = .refuse st := hv
  unfold State.receive State.decideRequest
  rw [if_pos h, hd, hva, ← addRefusal_accepted]
  exact if_pos ha

theorem receive_noticed (ha : answeredByResponse k r = false) : s.receive p k r =
    (s.setLink p ((s.link p).acceptedAt s.now)).placeNotice p (.error r.tag st) := by
  have hd := discards_refused hs hv fun e => by rw [ha] at e; cases e
  have hva : ((s.heard p).acceptPacket p).verdict p k r = .refuse st := hv
  unfold State.receive State.decideRequest
  rw [if_pos h, hd, hva, ← accepted_eq]
  exact if_neg (Bool.eq_false_iff.mp ha)

end

theorem memoryRow_requestRow {i : Instr} {dt : Nat} {p : Port} {k : Kind} {r : Request} (h : memoryRow i = some (dt, p, k, r)) :
    requestRow i = some (dt, p, k.code, r) := by
  cases i <;> cases h <;> rfl

/-- A refusal answered by a response changes nothing but the link. -/
theorem refusal_answered {i : Instr} {dt : Nat} {p : Port} {k : Byte} {r : Request} {st : Status} {s : State}
    (hi : requestRow i = some (dt, p, k, r)) (ho : s.online p = true) (hs : r.seq = (s.link p).expected)
    (hv : s.verdict p k r = .refuse st) (ha : answeredByResponse k r = true) (hf : (s.link p).refusals.length < 16) :
    exec i s = .next ((s.passTime dt).setLink p { (s.link p).acceptedAt (s.passTime dt).now with
      refusals := (s.link p).refusals ++ [⟨r.tag, st, (s.passTime dt).now⟩] }) := by
  have hl := s.passTime_link p dt
  rw [exec_requestRow hi, receive_refused (by rw [State.passTime_online]; exact ho) (by rw [hl]; exact hs)
    (by rw [State.passTime_verdict]; exact hv) ha (by rw [hl]; exact hf), hl]

/-- A refusal told by an ERROR notice changes nothing but the link and the port's notices. -/
theorem refusal_noticed {i : Instr} {dt : Nat} {p : Port} {k : Byte} {r : Request} {st : Status} {s : State}
    (hi : requestRow i = some (dt, p, k, r)) (ho : s.online p = true) (hs : r.seq = (s.link p).expected)
    (hv : s.verdict p k r = .refuse st) (ha : answeredByResponse k r = false) : ∃ t, exec i s = .next t ∧
      t.queues = s.queues ∧ t.stampCounter = s.stampCounter ∧ t.regions = s.regions ∧ t.mem = s.mem ∧ t.quiet = s.quiet ∧
      t.noticeQ p = (s.noticeQ p).joined (.error r.tag st) := by
  have hl := s.passTime_link p dt
  have hexec := exec_requestRow hi s
  rw [receive_noticed (by rw [State.passTime_online]; exact ho) (by rw [hl]; exact hs)
    (by rw [State.passTime_verdict]; exact hv) ha] at hexec
  have hon : ((s.passTime dt).setLink p (((s.passTime dt).link p).acceptedAt (s.passTime dt).now)).online p = true := by
    rw [online_setLink, if_pos rfl, hl]
    exact ho
  refine ⟨_, hexec, ?_, ?_, ?_, ?_, ?_, ?_⟩
  · rw [placeNotice_frame]; exact s.passTime_queues dt
  · rw [placeNotice_frame]; exact s.passTime_stampCounter dt
  · rw [placeNotice_frame]; exact s.passTime_regions dt
  · rw [placeNotice_frame]; exact s.passTime_mem dt
  · rw [placeNotice_frame]; exact s.passTime_quiet dt
  · rw [noticeQ_placeNotice, if_pos ⟨rfl, hon⟩]
    exact congrArg (NoticeQueue.joined · _) (s.passTime_noticeQ p dt)

/-- Settles O17. -/
theorem refusedRequestIsAnswered : Obligations.RefusedRequestIsAnswered := by
  have kept : ∀ (s : State) (dt : Nat) (p : Port) (l : Link), ((s.passTime dt).setLink p l).queues = s.queues ∧
      ((s.passTime dt).setLink p l).stampCounter = s.stampCounter ∧ ((s.passTime dt).setLink p l).regions = s.regions ∧
      ((s.passTime dt).setLink p l).notices = s.notices ∧ ((s.passTime dt).setLink p l).mem = s.mem ∧
      ((s.passTime dt).setLink p l).quiet = s.quiet := fun s dt p l =>
    ⟨s.passTime_queues dt, s.passTime_stampCounter dt, s.passTime_regions dt, s.passTime_notices dt, s.passTime_mem dt,
      s.passTime_quiet dt⟩
  refine ⟨fun dt p k r s ho hs hq hf hk => ?_, fun i dt p k r st s hi ho hs hv => ⟨fun ha hf => ?_, fun ha => ?_⟩,
    fun i dt p k r st s hi ho hs hr => ⟨fun ha hf => ?_, fun hp hk => ?_⟩⟩
  · exact ⟨_, refusal_answered (i := .unknownRequestKind dt p k r) rfl ho hs (verdict_unknown hk hq)
      (answeredByResponse_unknown hk r) hf, rfl⟩
  · exact ⟨_, refusal_answered (memoryRow_requestRow hi) ho hs hv ha hf, by rw [State.link_setLink_self], kept ..⟩
  · obtain ⟨t, ht, h1, h2, h3, h4, h5, h6⟩ := refusal_noticed (memoryRow_requestRow hi) ho hs hv ha
    refine ⟨t, ht, h1, h2, h3, h4, h5, fun hl => ?_, fun hl => ?_⟩
    · rw [h6, NoticeQueue.joined, if_pos hl]
    · rw [h6, NoticeQueue.joined, if_neg (Nat.not_lt.mpr hl)]
      exact ⟨rfl, rfl⟩
  · exact ⟨_, refusal_answered hi ho hs (refused_verdict hr) (answeredByResponse_code.mpr ha) hf, by rw [State.link_setLink_self],
      kept ..⟩
  · have ha : answeredByResponse k.code r = false := by
      cases e : answeredByResponse k.code r
      · rfl
      · rcases answeredByResponse_code.mp e with h | ⟨h1, h2⟩
        · rw [hp] at h; cases h
        · rcases hk with hk | hk
          · exact absurd hk h1
          · exact absurd hk h2
    exact refusal_noticed hi ho hs (refused_verdict hr) ha

end Sys2Proof.Machine
end

section
/-! PROOFS. What commands leave as they are: the array, the activation window and the remap table; the cells outside a line that is
accessed; the other ports' links. -/

namespace Sys2Proof.Machine

/-! ## The array, the activation window and the remap table -/

/-- The array's cells, the activation window and the remap table stay. -/
structure SameArray (s t : State) : Prop where
  mem : t.mem = s.mem
  window : t.window = s.window
  remap : t.remap = s.remap

namespace SameArray

variable {s t u : State}

theorem trans (h : SameArray s t) (k : SameArray t u) : SameArray s u :=
  ⟨k.mem.trans h.mem, k.window.trans h.window, k.remap.trans h.remap⟩

theorem of_control (c : Control s t) : SameArray s t := ⟨c.mem, c.window, c.remap⟩

/-- A change elsewhere, and then what the control side does. -/
theorem before_control (c : Control u t) (h : SameArray s u) : SameArray s t := h.trans (.of_control c)

end SameArray

theorem sameArray_setLink (s : State) (p : Port) (l : Link) : SameArray s (s.setLink p l) := ⟨rfl, rfl, rfl⟩

theorem sameArray_goUp (s : State) (p : Port) : SameArray s (s.goUp p) := by
  rw [goUp_frame]; exact ⟨rfl, rfl, rfl⟩

theorem sameArray_teardown (s : State) (p : Port) : SameArray s (s.teardown p) :=
  have left : SameArray s (s.leavePort p) := ⟨rfl, rfl, rfl⟩
  left.trans (.of_control (control_teardown s p))

theorem sameArray_discard (s : State) (p : Port) : SameArray s ((s.heard p).discardPacket p) := by
  rw [heardDiscard_eq]; exact sameArray_setLink ..

theorem sameArray_sendReplayed (s : State) (p : Port) : SameArray s (s.sendReplayed p) := by
  unfold State.sendReplayed
  dsimp only
  split
  · exact ⟨rfl, rfl, rfl⟩
  · split <;> exact ⟨rfl, rfl, rfl⟩

theorem sameArray_sendAnswer (s : State) (p : Port) (first : Bool) : SameArray s (s.sendAnswer p first) := by
  unfold State.sendAnswer
  split
  · exact ⟨rfl, rfl, rfl⟩
  · exact ⟨rfl, rfl, rfl⟩
  · dsimp only
    split <;> exact ⟨rfl, rfl, rfl⟩
  · exact ⟨rfl, rfl, rfl⟩

theorem sameArray_sendHeadNotice (s : State) (p : Port) : SameArray s (s.sendHeadNotice p) := by
  unfold State.sendHeadNotice
  split <;> exact ⟨rfl, rfl, rfl⟩

/-- What a record that joins changes: the counter, its queue, and its region's count. -/
theorem joined_frame (s : State) (p : Port) (x : Record) (g : Option RegionIx) : s.joined p x g =
    { s with stampCounter := s.stampCounter + 1, queues := s.queues.set p (s.queue p ++ [x]), regions := (s.joined p x g).regions } := by
  cases g <;> rfl

theorem sameArray_joined (s : State) (p : Port) (x : Record) (g : Option RegionIx) : SameArray s (s.joined p x g) := by
  rw [joined_frame]; exact ⟨rfl, rfl, rfl⟩

theorem sameArray_received {s t : State} {p : Port} {k : Byte} {r : Request} (h : Received s p k r t) : SameArray s t := by
  have accepted : SameArray s (s.accepted p) := by rw [accepted_eq]; exact sameArray_setLink ..
  cases h with
  | offline => exact ⟨rfl, rfl, rfl⟩
  | discarded => exact sameArray_discard s p
  | refused st => rw [addRefusal_accepted]; exact sameArray_setLink ..
  | noticed st => exact accepted.trans (.of_control (control_placeNotice ..))
  | admitted o posted g =>
    exact accepted.trans ((SameArray.of_control (control_quietBreak _)).trans
      ((sameArray_joined ..).trans (.of_control (control_letIn ..))))

theorem sameArray_issueClose (s : State) (b : BankId) : SameArray s (s.issueClose b) := by
  unfold State.issueClose
  dsimp only
  split
  · exact .before_control (control_reviewQuiet _) ⟨rfl, rfl, rfl⟩
  · exact ⟨rfl, rfl, rfl⟩

theorem sameArray_issueProgram (s : State) (n : Nat) : SameArray s (s.issueProgram n) := by
  unfold State.issueProgram
  split <;> exact ⟨rfl, rfl, rfl⟩

theorem sameArray_groupExpires (s : State) (g : GroupId) : SameArray s (s.groupExpires g) := by
  unfold State.groupExpires
  dsimp only
  split
  · split <;> exact ⟨rfl, rfl, rfl⟩
  · exact .before_control (control_broadcast ..) ⟨rfl, rfl, rfl⟩

theorem sameArray_endWake (s : State) : SameArray s s.endWake := by
  have done : SameArray s s.wakeDone := .before_control (control_broadcast ..) ⟨rfl, rfl, rfl⟩
  rw [endWake_eq]
  exact done.trans (.of_control (control_settle _))

theorem sameArray_endClose (s : State) (b : BankId) : SameArray s (s.endClose b) := by
  have rested : SameArray s (s.setBank b { s.bank b with state := s.restState b }) := ⟨rfl, rfl, rfl⟩
  exact rested.trans (.of_control (control_endClose s b))

/-- A line access moves neither the activation window nor the remap table. -/
theorem issueRead_window_remap (s : State) (l : LineId) (src : Source) :
    (s.issueRead src l).window = s.window ∧ (s.issueRead src l).remap = s.remap := by
  cases src with
  | request r =>
    have c := control_requestRead s r l
    exact ⟨c.window.trans (by rw [readTaken_eq]), c.remap.trans (by rw [readTaken_eq])⟩
  | scrubber =>
    have c := control_scrubRead s l
    exact ⟨c.window.trans (by rw [scrubReadTaken_eq]), c.remap.trans (by rw [scrubReadTaken_eq])⟩
  | repair =>
    have c : Control (s.repairReadTaken l) (s.repairRead l) := control_countLine ..
    exact ⟨c.window.trans (by rw [repairReadTaken_eq]), c.remap.trans (by rw [repairReadTaken_eq])⟩
  | sweep => exact ⟨rfl, rfl⟩
  | upkeep => exact ⟨rfl, rfl⟩

theorem issueWrite_window_remap (s : State) (l : LineId) (src : Source) :
    (s.issueWrite src l).window = s.window ∧ (s.issueWrite src l).remap = s.remap := by
  cases src with
  | request r =>
    have c := control_requestWrite s r l
    exact ⟨c.window.trans (by rw [writeStored_eq]), c.remap.trans (by rw [writeStored_eq])⟩
  | scrubber =>
    have c := control_scrubWrite s l
    exact ⟨c.window.trans (by rw [scrubStored_eq]), c.remap.trans (by rw [scrubStored_eq])⟩
  | repair =>
    show (s.repairWrite l).window = _ ∧ (s.repairWrite l).remap = _
    rw [repairWrite_eq]
    split <;> exact ⟨rfl, rfl⟩
  | sweep =>
    show (s.sweepWrite l).window = _ ∧ (s.sweepWrite l).remap = _
    rw [sweepWrite_eq]
    exact ⟨rfl, rfl⟩
  | upkeep => exact ⟨rfl, rfl⟩

/-- Of the array, the window and the table, a command changes those that are named for it. -/
structure ArraySteady (c : Instr) (s t : State) : Prop where
  mem : (∀ dt b line flips, c ≠ .readLine dt b line flips) → (∀ dt b line, c ≠ .writeLine dt b line) →
    (∀ dt, c ≠ .coldReset dt) → t.mem = s.mem
  window : (∀ dt b row, c ≠ .openRow dt b row) → (∀ dt b sp, c ≠ .openSpare dt b sp) → (∀ dt, c ≠ .coldReset dt) →
    t.window = s.window
  remap : (∀ dt b sp, c ≠ .programFuse dt b sp) → (∀ dt, c ≠ .programmingEnd dt) → (∀ dt, c ≠ .coldReset dt) →
    t.remap = s.remap

theorem ArraySteady.of_same {s t : State} {c : Instr} (h : SameArray s t) : ArraySteady c s t :=
  ⟨fun _ _ _ => h.mem, fun _ _ _ => h.window, fun _ _ _ => h.remap⟩

theorem after_arraySteady {c : Instr} {s t : State} (h : After s c t) : ArraySteady c s t := by
  cases h with
  | timeOnly => exact .of_same ⟨rfl, rfl, rfl⟩
  | instant => exact .of_same ⟨rfl, rfl, rfl⟩
  | cold dt => exact ⟨fun _ _ hc => absurd rfl (hc dt), fun _ _ hc => absurd rfl (hc dt), fun _ _ hc => absurd rfl (hc dt)⟩
  | warm => exact .of_same ⟨rfl, rfl, rfl⟩
  | rise => exact .of_same (.before_control (control_reviewQuiet _) ⟨rfl, rfl, rfl⟩)
  | pin => exact .of_same ⟨rfl, rfl, rfl⟩
  | training => exact .of_same (sameArray_setLink ..)
  | up => exact .of_same (sameArray_goUp ..)
  | down => exact .of_same (sameArray_setLink ..)
  | teardown => exact .of_same (sameArray_teardown ..)
  | badPacket => exact .of_same (sameArray_setLink ..)
  | discard => exact .of_same (sameArray_discard ..)
  | ack => exact .of_same ⟨rfl, rfl, rfl⟩
  | nak => exact .of_same ⟨rfl, rfl, rfl⟩
  | idle => exact .of_same (sameArray_setLink ..)
  | ackTimer => exact .of_same (sameArray_setLink ..)
  | keepalive => exact .of_same (sameArray_setLink ..)
  | sendNak => exact .of_same ⟨rfl, rfl, rfl⟩
  | sendReplay => exact .of_same (sameArray_sendReplayed ..)
  | sendInit => exact .of_same ⟨rfl, rfl, rfl⟩
  | sendResponse => exact .of_same ((sameArray_sendAnswer ..).trans (.of_control (control_reviewQuiet _)))
  | sendNotice => exact .of_same (sameArray_sendHeadNotice ..)
  | sendAck => exact .of_same (sameArray_setLink ..)
  | sendIdle => exact .of_same (sameArray_setLink ..)
  | request _ dt p k r => exact .of_same (sameArray_received (received s p k r))
  | openRow dt b row => exact ⟨fun _ _ _ => rfl, fun hc => absurd rfl (hc dt b row), fun _ _ _ => rfl⟩
  | openSpare dt b sp => exact ⟨fun _ _ _ => rfl, fun _ hc => absurd rfl (hc dt b sp), fun _ _ _ => rfl⟩
  | close => exact .of_same (sameArray_issueClose ..)
  | readLine dt b line flips l g =>
    obtain ⟨hw, hr⟩ := issueRead_window_remap (s.decay l flips) l g.source
    exact ⟨fun hc => absurd rfl (hc dt b line flips), fun _ _ _ => hw, fun _ _ _ => hr⟩
  | writeLine dt b line l g =>
    obtain ⟨hw, hr⟩ := issueWrite_window_remap s l g.source
    exact ⟨fun _ hc => absurd rfl (hc dt b line), fun _ _ _ => hw, fun _ _ _ => hr⟩
  | refreshGroup => exact .of_same ⟨rfl, rfl, rfl⟩
  | retain =>
    have closed : SameArray s s.issueRetain := .before_control (control_broadcast ..) ⟨rfl, rfl, rfl⟩
    exact .of_same closed
  | resume => exact .of_same ⟨rfl, rfl, rfl⟩
  | programSoft => exact .of_same (sameArray_issueProgram ..)
  | programFuse dt b sp =>
    have issued := sameArray_issueProgram s fuseProgramming
    exact ⟨fun _ _ _ => issued.mem, fun _ _ _ => issued.window, fun hc => absurd rfl (hc dt b sp)⟩
  | pathFree => exact .of_same ⟨rfl, rfl, rfl⟩
  | opened => exact .of_same ⟨rfl, rfl, rfl⟩
  | closed dt b => exact .of_same (sameArray_endClose s b)
  | refreshed dt g => exact .of_same (.before_control (control_leaveWaitAny _) ⟨rfl, rfl, rfl⟩)
  | programmed dt c =>
    have bound : (s.bindSpare c).mem = s.mem ∧ (s.bindSpare c).window = s.window := by
      unfold State.bindSpare
      rw [retire_eq]
      exact ⟨rfl, rfl⟩
    exact ⟨fun _ _ _ => bound.1, fun _ _ _ => bound.2, fun _ hc => absurd rfl (hc dt)⟩
  | woken => exact .of_same (sameArray_endWake s)
  | idleTimer => exact .of_same ⟨rfl, rfl, rfl⟩
  | rowLimit => exact .of_same ⟨rfl, rfl, rfl⟩
  | quarter =>
    have expired := sameArray_groupExpires s s.refresh.rotation
    exact .of_same ⟨expired.mem, expired.window, expired.remap⟩
  | aged => exact .of_same ⟨rfl, rfl, rfl⟩
  | scrubStep => exact .of_same (.before_control (control_reviewScrub _) ⟨rfl, rfl, rfl⟩)
  | idleHold dt h => exact .of_same (.of_control (control_enterEntering s (by simp [State.asleep, h])))
  | claimTimer => exact .of_same (.of_control ((control_setClaim s _).trans (control_placeIf ..)))

/-- Settles O47. -/
theorem mostCommandsLeaveTheArray : Obligations.MostCommandsLeaveTheArray := fun c s t h => by
  obtain ⟨dt, ha⟩ := exec_after h
  obtain ⟨hm, hw, hr⟩ := after_arraySteady ha
  rw [s.passTime_mem dt] at hm
  rw [s.passTime_window dt] at hw
  rw [s.passTime_remap dt] at hr
  exact ⟨hm, hw, hr⟩

/-! ## The cells of other lines -/

/-- A read changes cells of its line only. -/
theorem issueRead_agrees {s : State} (h : s.mem.wf = true) (l : LineId) (src : Source) :
    Memory.AgreeOutside (s.openLine l) 64 s.mem (s.issueRead src l).mem := by
  cases src with
  | request r =>
    have e : (s.requestRead r l).mem = s.mem.writeBack (s.openLine l) (numbered (s.outcomes l)) :=
      (control_requestRead s r l).mem.trans (readTaken_mem s r l)
    show Memory.AgreeOutside _ _ _ (s.requestRead r l).mem
    rw [e]
    exact Memory.writeBack_agrees _ _ h _
  | scrubber =>
    have e : (s.scrubRead l).mem = s.mem := (control_scrubRead s l).mem.trans (by rw [scrubReadTaken_eq])
    show Memory.AgreeOutside _ _ _ (s.scrubRead l).mem
    rw [e]
    exact .refl _ _ _
  | repair =>
    have c : Control (s.repairReadTaken l) (s.repairRead l) := control_countLine ..
    have e : (s.repairRead l).mem = s.mem := c.mem.trans (by rw [repairReadTaken_eq])
    show Memory.AgreeOutside _ _ _ (s.repairRead l).mem
    rw [e]
    exact .refl _ _ _
  | sweep => exact .refl _ _ _
  | upkeep => exact .refl _ _ _

/-- A write changes cells of its line only. -/
theorem issueWrite_agrees {s : State} (h : s.mem.wf = true) (l : LineId) (src : Source) :
    Memory.AgreeOutside (s.openLine l) 64 s.mem (s.issueWrite src l).mem := by
  cases src with
  | request r =>
    have e : (s.requestWrite r l).mem = s.mem.storeLine (s.openLine l) r.writeWords :=
      (control_requestWrite s r l).mem.trans (by rw [writeStored_eq])
    show Memory.AgreeOutside _ _ _ (s.requestWrite r l).mem
    rw [e]
    exact Memory.storeLine_agrees _ _ h _
  | scrubber =>
    have e : (s.scrubWrite l).mem = s.mem.storeLine (s.openLine l) s.scrub.kept :=
      (control_scrubWrite s l).mem.trans (by rw [scrubStored_eq])
    show Memory.AgreeOutside _ _ _ (s.scrubWrite l).mem
    rw [e]
    exact Memory.storeLine_agrees _ _ h _
  | repair =>
    show Memory.AgreeOutside _ _ _ (s.repairWrite l).mem
    rw [repairWrite_eq]
    split
    · exact .refl _ _ _
    · exact Memory.storeLine_agrees _ _ h _
  | sweep =>
    show Memory.AgreeOutside _ _ _ (s.sweepWrite l).mem
    rw [sweepWrite_eq]
    exact Memory.storeLine_agrees _ _ h _
  | upkeep => exact .refl _ _ _

/-- Settles O48. -/
theorem lineAccessesStayInTheirLine : Obligations.LineAccessesStayInTheirLine := by
  intro c dt b line flips l s t hc hwf hl hexec
  suffices h : Memory.AgreeOutside (s.openLine l) 64 s.mem t.mem from fun a ha => h a ha
  obtain ⟨n, ha⟩ := exec_after hexec
  obtain ⟨m, e⟩ := s.passTime_exists n
  rw [e] at ha
  have line_eq : ∀ k, s.lineOf b line = some k → k = l := fun k hk => Option.some.inj (hk.symm.trans hl)
  rcases hc with rfl | rfl
  · cases ha with
    | timeOnly => exact .refl _ _ _
    | readLine _ _ _ _ k g _ _ hk =>
      obtain rfl := line_eq k hk
      exact (Memory.flipBits_agrees flips s.mem hwf _).trans
        (issueRead_agrees (s := (s.atInstant m).decay k flips) (Memory.flipBits_wf _ _ hwf _) k g.source)
    | down _ _ _ _ h => rcases h with h | h <;> cases h
    | teardown _ _ _ _ h => rcases h with h | h | h <;> cases h
    | discard _ _ _ _ h => rcases h with ⟨_, _, h⟩ | ⟨_, h⟩ <;> cases h
    | request _ _ _ _ _ h => cases h
  · cases ha with
    | timeOnly => exact .refl _ _ _
    | writeLine _ _ _ k g _ _ hk =>
      obtain rfl := line_eq k hk
      exact issueWrite_agrees (s := s.atInstant m) hwf k g.source
    | down _ _ _ _ h => rcases h with h | h <;> cases h
    | teardown _ _ _ _ h => rcases h with h | h | h <;> cases h
    | discard _ _ _ _ h => rcases h with ⟨_, _, h⟩ | ⟨_, h⟩ <;> cases h
    | request _ _ _ _ _ h => cases h

end Sys2Proof.Machine
end

section
/-! PROOFS. What the commands of one link, and the array commands and expiries, leave as they are. -/

namespace Sys2Proof.Machine

/-! ## The commands of one link -/

/-- A change that stays with port `p` and the quiet controller. -/
structure OwnLink (p : Port) (s t : State) : Prop where
  others : ∀ q, q ≠ p → t.link q = s.link q ∧ t.queue q = s.queue q ∧ t.noticeQ q = s.noticeQ q
  claim : t.claim = s.claim
  settings : t.settings = s.settings
  holds : t.holds = s.holds
  regions : t.regions = s.regions
  watches : t.watches = s.watches
  refresh : t.refresh = s.refresh
  checks : t.checks = s.checks
  scrub : t.scrub = s.scrub
  stampCounter : t.stampCounter = s.stampCounter
  repairQueue : t.repairQueue = s.repairQueue
  currentJob : t.currentJob = s.currentJob
  detached : t.detached = s.detached

namespace OwnLink

variable {p : Port} {s t u : State}

theorem refl (p : Port) (s : State) : OwnLink p s s :=
  ⟨fun _ _ => ⟨rfl, rfl, rfl⟩, rfl, rfl, rfl, rfl, rfl, rfl, rfl, rfl, rfl, rfl, rfl, rfl⟩

theorem trans (h : OwnLink p s t) (k : OwnLink p t u) : OwnLink p s u where
  others q hq := by
    obtain ⟨h1, h2, h3⟩ := h.others q hq
    obtain ⟨k1, k2, k3⟩ := k.others q hq
    exact ⟨k1.trans h1, k2.trans h2, k3.trans h3⟩
  claim := k.claim.trans h.claim
  settings := k.settings.trans h.settings
  holds := k.holds.trans h.holds
  regions := k.regions.trans h.regions
  watches := k.watches.trans h.watches
  refresh := k.refresh.trans h.refresh
  checks := k.checks.trans h.checks
  scrub := k.scrub.trans h.scrub
  stampCounter := k.stampCounter.trans h.stampCounter
  repairQueue := k.repairQueue.trans h.repairQueue
  currentJob := k.currentJob.trans h.currentJob
  detached := k.detached.trans h.detached

theorem setLink (s : State) (p : Port) (l : Link) : OwnLink p s (s.setLink p l) :=
  { refl p s with others := fun _ hq => ⟨State.link_setLink_of_ne _ hq _, rfl, rfl⟩ }

theorem setNoticeQ (s : State) (p : Port) (q : NoticeQueue) : OwnLink p s (s.setNoticeQ p q) :=
  { refl p s with others := fun _ hq => ⟨rfl, rfl, State.noticeQ_setNoticeQ_of_ne _ hq _⟩ }

theorem dropRecord (s : State) (p : Port) (st : Stamp) : OwnLink p s (s.dropRecord p st) :=
  { refl p s with others := fun _ hq => ⟨rfl, State.queue_setQueue_of_ne _ hq _, rfl⟩ }

/-- A change of the quiet controller and of the banks' marks. -/
theorem quiet (p : Port) (s : State) (q : Quiet) (bs : Table 16 Bank) : OwnLink p s { s with quiet := q, banks := bs } :=
  { refl p s with }

theorem goUp (s : State) (p : Port) : OwnLink p s (s.goUp p) := by
  rw [goUp_frame]
  exact ((setLink s p _).trans (quiet p _ _ _)).trans (quiet p _ _ _)

theorem reviewQuiet (p : Port) (s : State) : OwnLink p s s.reviewQuiet := by
  rw [reviewQuiet_frame]
  exact quiet p s _ _

theorem sendReplayed (s : State) (p : Port) : OwnLink p s (s.sendReplayed p) := by
  unfold State.sendReplayed
  dsimp only
  split
  · exact refl p s
  · split
    · exact refl p s
    · exact setLink ..

theorem sendAnswer (s : State) (p : Port) (first : Bool) : OwnLink p s (s.sendAnswer p first) := by
  have record : ∀ r, OwnLink p s (s.answerRecord p r) := fun r => (dropRecord s p _).trans (setLink ..)
  have refusal : ∀ x, OwnLink p s (s.answerRefusal p x) := fun x => (setLink s p _).trans (setLink ..)
  unfold State.sendAnswer
  split
  · exact record _
  · exact refusal _
  · dsimp only
    split
    · exact record _
    · exact refusal _
  · exact refl p s

theorem sendHeadNotice (s : State) (p : Port) : OwnLink p s (s.sendHeadNotice p) := by
  unfold State.sendHeadNotice
  split
  · exact refl p s
  · exact (setNoticeQ s p _).trans (setLink ..)

end OwnLink

/-- The port of a command of a link that is neither its loss nor the arrival of a REQUEST that is not discarded. -/
def linkEventPort : Instr → Option Port
  | .trainingStart _ p | .trainingComplete _ p | .trainingTimeout _ p | .badCheckPacket _ p | .requestDiscard _ p _ _
  | .otherKindDiscard _ p _ | .ackReceived _ p _ | .nakReceived _ p _ | .idleReceived _ p | .ackTimerExpiry _ p
  | .keepaliveExpiry _ p | .sendNak _ p | .sendReplay _ p | .sendInit _ p | .sendResponse _ p _ | .sendNotice _ p
  | .sendAck _ p | .sendIdle _ p => some p
  | _ => none

theorem requestRow_linkEvent {c : Instr} {p : Port} (h : linkEventPort c = some p) : requestRow c = none := by
  cases c <;> cases h <;> rfl

theorem after_ownLink {c : Instr} {p : Port} {s t : State} (h : After s c t) (hc : linkEventPort c = some p) : OwnLink p s t := by
  cases h with
  | timeOnly => exact .refl p s
  | training => cases hc; exact .setLink ..
  | up => cases hc; exact .goUp ..
  | down _ _ _ _ h => rcases h with rfl | rfl <;> cases hc; exact .setLink ..
  | teardown _ _ _ _ h => rcases h with rfl | rfl | rfl <;> cases hc
  | badPacket => cases hc; exact .setLink ..
  | discard _ _ _ _ h =>
    rcases h with ⟨_, _, rfl⟩ | ⟨_, rfl⟩ <;> cases hc
    all_goals rw [heardDiscard_eq]; exact .setLink ..
  | ack => cases hc; exact (OwnLink.setLink s p _).trans (.setLink ..)
  | nak => cases hc; exact (OwnLink.setLink s p _).trans (.setLink ..)
  | idle => cases hc; exact .setLink ..
  | ackTimer => cases hc; exact .setLink ..
  | keepalive => cases hc; exact .setLink ..
  | sendNak => cases hc; exact (OwnLink.setLink s p _).trans (.setLink ..)
  | sendReplay => cases hc; exact .sendReplayed ..
  | sendInit => cases hc; exact (OwnLink.setLink s p _).trans (.setLink ..)
  | sendResponse => cases hc; exact (OwnLink.sendAnswer s p _).trans (.reviewQuiet ..)
  | sendNotice => cases hc; exact .sendHeadNotice ..
  | sendAck => cases hc; exact .setLink ..
  | sendIdle => cases hc; exact .setLink ..
  | request _ _ _ _ _ h => rw [requestRow_linkEvent hc] at h; cases h
  | _ => cases hc

/-- Settles O49. -/
theorem linkEventsStayOnTheirLink : Obligations.LinkEventsStayOnTheirLink := by
  intro c dt p k n r first s t hc hexec
  have hp : linkEventPort c = some p := by
    rcases hc with rfl | rfl | rfl | rfl | rfl | rfl | rfl | rfl | rfl | rfl | rfl | rfl | rfl | rfl | rfl | rfl | rfl | rfl <;> rfl
  obtain ⟨m, ha⟩ := exec_after hexec
  obtain ⟨n, e⟩ := s.passTime_exists m
  rw [e] at ha
  obtain ⟨h1, h2, h3, h4, h5, h6, h7, h8, h9, h10, h11, h12, h13⟩ := after_ownLink ha hp
  exact ⟨h1, h2, h3, h4, h5, h6, h7, h8, h9, h10, h11, h12, h13⟩

/-! ## The array commands and expiries -/

/-- The quiet controller without its state and its hold timer. -/
def Quiet.lasting (q : Quiet) : Quiet := { q with part := .active, holdTimer := none }

theorem quietBreak_lasting (s : State) : s.quietBreak.quiet.lasting = s.quiet.lasting := by
  unfold State.quietBreak
  split <;> rfl

theorem beginSettling_lasting (s : State) : s.beginSettling.quiet.lasting = s.quiet.lasting := by
  unfold State.beginSettling
  split <;> rfl

/-- An evaluation of the settling conditions changes the quiet controller's state and its hold timer only. -/
theorem reviewQuiet_lasting (s : State) : s.reviewQuiet.quiet.lasting = s.quiet.lasting := by
  have begun : ∀ u : State, (if u.quiet.part = .active ∧ u.settled = true then u.beginSettling else u).quiet.lasting =
      u.quiet.lasting := fun u => by
    split
    · exact beginSettling_lasting u
    · rfl
  unfold State.reviewQuiet
  dsimp only
  rw [begun]
  split
  · rfl
  · exact quietBreak_lasting s

theorem Quiet.of_lasting {q k : Quiet} (h : q.lasting = k.lasting) :
    q.votes = k.votes ∧ q.wakeTimer = k.wakeTimer ∧ q.wakeRecord = k.wakeRecord := by
  simp only [Quiet.lasting, Quiet.mk.injEq] at h
  obtain ⟨-, hv, -, ht, hw⟩ := h
  exact ⟨hv, ht, hw⟩

/-- What the array commands and the expiries leave as it is. -/
structure PortSide where
  pending : List Instr
  resetN : Bool
  hotPin : Bool
  links : PerPort Link
  settings : Settings
  regions : Table 8 Region
  watches : Table 32 (Option Watch)
  holds : List Hold
  stampCounter : Stamp
  repairQueue : List Job
  checks : CheckUnit
  votes : PerPort (Option Vote)
  wakeRecord : Option (WakeCause × Port)

def State.portSide (s : State) : PortSide :=
  { pending := s.pending, resetN := s.resetN, hotPin := s.hotPin, links := s.links, settings := s.settings, regions := s.regions
    watches := s.watches, holds := s.holds, stampCounter := s.stampCounter, repairQueue := s.repairQueue, checks := s.checks
    votes := s.quiet.votes, wakeRecord := s.quiet.wakeRecord }

/-- The ports' side, the records and the claim stay. -/
structure Background (s t : State) : Prop where
  side : t.portSide = s.portSide
  queues : t.queues = s.queues
  detached : t.detached = s.detached
  claim : t.claim = s.claim

namespace Background

variable {s t u : State}

theorem trans (h : Background s t) (k : Background t u) : Background s u :=
  ⟨k.side.trans h.side, k.queues.trans h.queues, k.detached.trans h.detached, k.claim.trans h.claim⟩

theorem reviewQuiet (s : State) : Background s s.reviewQuiet := by
  obtain ⟨votes, -, wake⟩ := Quiet.of_lasting (reviewQuiet_lasting s)
  refine ⟨?_, by rw [reviewQuiet_frame], by rw [reviewQuiet_frame], by rw [reviewQuiet_frame]⟩
  unfold State.portSide
  rw [votes, wake, reviewQuiet_frame]

theorem issueClose (s : State) (b : BankId) : Background s (s.issueClose b) := by
  unfold State.issueClose
  dsimp only
  split
  · exact trans (t := (s.occupyPath.setBank b ((s.bank b).issueClose s.now)).endSweep) ⟨rfl, rfl, rfl, rfl⟩ (reviewQuiet _)
  · exact ⟨rfl, rfl, rfl, rfl⟩

theorem broadcast (s : State) (w : Enables → Bool) (n : Notice) : Background s (s.broadcast w n) := by
  rw [broadcast_frame]; exact ⟨rfl, rfl, rfl, rfl⟩

theorem issueRetain (s : State) : Background s s.issueRetain := by
  obtain ⟨bs, ns, h⟩ := issueRetain_frame s
  rw [h]
  exact ⟨rfl, rfl, rfl, rfl⟩

theorem issueProgram (s : State) (n : Nat) : Background s (s.issueProgram n) := by
  unfold State.issueProgram
  split <;> exact ⟨rfl, rfl, rfl, rfl⟩

theorem leaveWaitAny (s : State) : Background s s.leaveWaitAny := by
  unfold State.leaveWaitAny State.leaveWait
  split
  · split
    · split <;> exact ⟨rfl, rfl, rfl, rfl⟩
    · exact ⟨rfl, rfl, rfl, rfl⟩
  · exact ⟨rfl, rfl, rfl, rfl⟩

theorem bindSpare (s : State) (c : CurrentJob) : Background s (s.bindSpare c) := by
  unfold State.bindSpare
  rw [retire_eq]
  exact ⟨rfl, rfl, rfl, rfl⟩

theorem groupExpires (s : State) (g : GroupId) : Background s (s.groupExpires g) := by
  rw [groupExpires_frame]; exact ⟨rfl, rfl, rfl, rfl⟩

theorem startStep (s : State) : Background s s.startStep := by
  unfold State.startStep State.reviewScrub
  split <;> exact ⟨rfl, rfl, rfl, rfl⟩

end Background

/-- What a command of `quietRow` leaves as it is. -/
structure BackgroundBut (c : Instr) (s t : State) : Prop where
  side : t.portSide = s.portSide
  records : (∀ dt p st, c ≠ .recordAged dt p st) → t.queues = s.queues ∧ t.detached = s.detached
  claim : (∀ dt, c ≠ .claimTimerExpiry dt) → t.claim = s.claim

theorem BackgroundBut.of_all {c : Instr} {s t : State} (h : Background s t) : BackgroundBut c s t :=
  ⟨h.side, fun _ => ⟨h.queues, h.detached⟩, fun _ => h.claim⟩

theorem requestRow_quietRow {c : Instr} (h : quietRow c = true) : requestRow c = none := by
  cases c <;> cases h <;> rfl

theorem after_background {c : Instr} {s t : State} (h : After s c t) (hc : quietRow c = true) : BackgroundBut c s t := by
  cases h with
  | timeOnly => exact .of_all ⟨rfl, rfl, rfl, rfl⟩
  | instant => exact .of_all ⟨rfl, rfl, rfl, rfl⟩
  | openRow => exact .of_all ⟨rfl, rfl, rfl, rfl⟩
  | openSpare => exact .of_all ⟨rfl, rfl, rfl, rfl⟩
  | close => exact .of_all (.issueClose ..)
  | refreshGroup => exact .of_all ⟨rfl, rfl, rfl, rfl⟩
  | retain => exact .of_all (.issueRetain s)
  | resume => exact .of_all ⟨rfl, rfl, rfl, rfl⟩
  | programSoft => exact .of_all (.issueProgram ..)
  | programFuse =>
    have issued := Background.issueProgram s fuseProgramming
    exact .of_all ⟨issued.side, issued.queues, issued.detached, issued.claim⟩
  | pathFree => exact .of_all ⟨rfl, rfl, rfl, rfl⟩
  | opened => exact .of_all ⟨rfl, rfl, rfl, rfl⟩
  | refreshed dt g =>
    have ended : Background s (s.mapBanks (s.endRefreshBank g)) := ⟨rfl, rfl, rfl, rfl⟩
    exact .of_all (ended.trans (.leaveWaitAny _))
  | programmed => exact .of_all (.bindSpare ..)
  | idleTimer => exact .of_all ⟨rfl, rfl, rfl, rfl⟩
  | rowLimit => exact .of_all ⟨rfl, rfl, rfl, rfl⟩
  | quarter =>
    have expired := Background.groupExpires s s.refresh.rotation
    exact .of_all ⟨expired.side, expired.queues, expired.detached, expired.claim⟩
  | aged dt p st => exact ⟨rfl, fun h => absurd rfl (h dt p st), fun _ => rfl⟩
  | scrubStep => exact .of_all (.startStep s)
  | idleHold => exact .of_all ⟨rfl, rfl, rfl, rfl⟩
  | claimTimer dt p =>
    refine ⟨?_, fun _ => ?_, fun h => absurd rfl (h dt)⟩
    · unfold State.claimLapses; rw [placeIf_frame]; rfl
    · unfold State.claimLapses; rw [placeIf_frame]; exact ⟨rfl, rfl⟩
  | request _ _ _ _ _ h => rw [requestRow_quietRow hc] at h; cases h
  | down _ _ _ _ h => rcases h with rfl | rfl <;> cases hc
  | teardown _ _ _ _ h => rcases h with rfl | rfl | rfl <;> cases hc
  | discard _ _ _ _ h => rcases h with ⟨_, _, rfl⟩ | ⟨_, rfl⟩ <;> cases hc
  | _ => cases hc

/-- Settles O51. -/
theorem backgroundCommandsLeaveThePorts : Obligations.BackgroundCommandsLeaveThePorts := by
  intro c s t hc hexec
  obtain ⟨m, ha⟩ := exec_after hexec
  obtain ⟨n, e⟩ := s.passTime_exists m
  rw [e] at ha
  obtain ⟨side, records, claim⟩ := after_background ha hc
  exact ⟨congrArg PortSide.pending side, congrArg PortSide.resetN side, congrArg PortSide.hotPin side,
    congrArg PortSide.links side, congrArg PortSide.settings side, congrArg PortSide.regions side,
    congrArg PortSide.watches side, congrArg PortSide.holds side, congrArg PortSide.stampCounter side,
    congrArg PortSide.repairQueue side, congrArg PortSide.checks side, congrArg PortSide.votes side,
    congrArg PortSide.wakeRecord side, records, claim⟩

end Sys2Proof.Machine
end

section
/-! PROOFS. The resets and the pins (R23, R24, R104, R145, R150, R159, R174). -/

namespace Sys2Proof.Machine

/-! ## Cold reset -/

theorem Spare.coldReset_eq (x : Spare) :
    x.coldReset = if x.state = .fused ∨ x.state = .retiredFused then x else ⟨.free, none⟩ := by
  unfold Spare.coldReset
  split <;> rename_i h <;> simp [h]

theorem spares_coldReset (s : State) (b : BankId) (i : SpareId) :
    (s.coldReset.spares b).get i = ((s.spares b).get i).coldReset := by
  show ((s.remap.map fun t : Table 4 Spare => t.map Spare.coldReset).get b).get i = _
  rw [Table.get_map, Table.get_map]
  rfl

/-- The regions of a part that has just been reset. -/
theorem region_reset {t : State} (h : t.regions = regionsReset) (i : RegionIx) :
    t.region i = if i = 0 then Region.whole else Region.off := by
  unfold State.region
  rw [h]
  unfold regionsReset
  split
  · rename_i e; subst e; exact Table.get_set_self ..
  · rename_i e; rw [Table.get_set_of_ne _ e, Table.get_replicate]

/-- Settles O4. -/
theorem coldResetSetsEveryBlock : Obligations.ColdResetSetsEveryBlock := by
  intro dt s
  obtain ⟨n, e⟩ := s.passTime_exists dt
  have hexec : exec (.coldReset dt) s = .next (s.passTime dt).coldReset := rfl
  rw [e] at hexec ⊢
  refine ⟨_, hexec, rfl, rfl, rfl, rfl, fun b => Table.get_replicate .., rfl, rfl, rfl, fun p => PerPort.get_all .., rfl, rfl,
    fun i => Table.get_replicate .., fun p => PerPort.get_all .., ?_, fun i hi => ?_,
    fun g => ⟨Table.get_replicate .., Table.get_replicate .., Table.get_replicate ..⟩, rfl, rfl, rfl, rfl,
    fun i => Table.get_replicate .., rfl, rfl, rfl, rfl, fun b i => ?_, rfl, fun p => ?_, rfl, rfl⟩
  · rw [region_reset rfl, if_pos rfl]; rfl
  · rw [region_reset rfl, if_neg hi]; rfl
  · rw [spares_coldReset, Spare.coldReset_eq]; rfl
  · have link : (s.atInstant n).coldReset.link p = Link.reset := PerPort.get_all ..
    rw [link]
    rfl

/-! ## Warm reset -/

theorem abandons_iff {s : State} {b : BankId} :
    s.abandons b = true ↔ ∃ c, s.currentJob = some c ∧ ¬ (c.phase = .copyIn ∨ (c.phase = .program ∧ c.job.mode = .fused)) ∧
      c.job.bank = b := by
  unfold State.abandons CurrentJob.survives
  cases s.currentJob with
  | none => simp
  | some c =>
    simp only [Bool.and_eq_true, Bool.not_eq_true', decide_eq_false_iff_not, decide_eq_true_eq, Option.some.injEq]
    exact ⟨fun h => ⟨c, rfl, h⟩, fun ⟨_, e, h⟩ => e ▸ h⟩

theorem jobAtWarmReset_survives {c : CurrentJob} (h : c.phase = .copyIn ∨ (c.phase = .program ∧ c.job.mode = .fused)) :
    jobAtWarmReset (some c) = some { c with job := { c.job with requesters := [] } } := if_pos (decide_eq_true h)

theorem jobAtWarmReset_abandoned {c : CurrentJob} (h : ¬ (c.phase = .copyIn ∨ (c.phase = .program ∧ c.job.mode = .fused))) :
    jobAtWarmReset (some c) = none := if_neg (by rw [CurrentJob.survives, decide_eq_true_eq]; exact h)

theorem PartState.warmReset_eq (x : PartState) :
    x.warmReset = if x = .retained ∨ x = .waking then .waking else .active := by cases x <;> rfl

theorem warmQuarter_eq (s : State) : s.warmQuarter = if s.quiet.part = .retained ∨ s.quiet.part = .waking then none
    else some (s.now + if s.hotPin then ns 500 else ns 1000) := by
  unfold State.warmQuarter
  exact if_congr (by simp [State.asleep]) rfl rfl

theorem warmScrubTimer_eq (s : State) : s.warmScrubTimer =
    if s.scrub.sweepDone = true ∧ ¬ (s.quiet.part = .retained ∨ s.quiet.part = .waking) then some (s.now + us 8) else none := by
  have awake : s.asleep = false ↔ ¬ (s.quiet.part = .retained ∨ s.quiet.part = .waking) := asleep_iff.trans not_or.symm
  unfold State.warmScrubTimer
  exact if_congr (and_congr_right fun _ => awake) rfl rfl

/-- A bank keeps its state at a warm reset where no job is abandoned on it. -/
theorem bank_state_warmReset (s : State) (b : BankId) : (s.warmReset.bank b).state =
    if s.abandons b = true ∧ (s.bank b).state = .repairing then .closed else (s.bank b).state := by
  rw [bank_warmReset]
  rfl

/-- Settles O5. -/
theorem warmResetActsOnEveryBlock : Obligations.WarmResetActsOnEveryBlock := by
  intro dt s h
  have hexec : exec (.warmReset dt) s = .next (s.passTime dt).warmReset := if_pos h
  obtain ⟨n, e⟩ := s.passTime_exists dt
  rw [e] at hexec ⊢
  have state : ∀ b, ((s.atInstant n).warmReset.bank b).state =
      if s.abandons b = true ∧ (s.bank b).state = .repairing then .closed else (s.bank b).state :=
    bank_state_warmReset (s.atInstant n)
  have kept : (∀ b, s.abandons b = false) → ∀ b, ((s.atInstant n).warmReset.bank b).state = (s.bank b).state := fun ha b => by
    rw [state, ha b]; exact if_neg (by simp)
  have job : (s.atInstant n).warmReset.currentJob = jobAtWarmReset s.currentJob := rfl
  refine ⟨_, hexec, rfl, rfl, rfl, rfl, rfl, rfl, rfl, rfl, rfl, fun p => PerPort.get_all .., rfl, rfl,
    fun i => Table.get_replicate .., fun p => PerPort.get_all .., ?_, fun i hi => ?_, fun b => ?_, fun hc => ⟨?_, kept fun b => ?_⟩,
    fun c hc hs => ⟨?_, kept fun b => ?_⟩, fun c hc hs => ⟨?_, fun b => ?_⟩,
    fun g => ⟨Table.get_replicate .., Table.get_replicate .., Table.get_replicate ..⟩, rfl, warmQuarter_eq _, rfl, rfl,
    fun i => Table.get_replicate .., ?_, rfl, rfl, ?_, fun p => ?_, rfl, rfl⟩
  · rw [region_reset rfl, if_pos rfl]; rfl
  · rw [region_reset rfl, if_neg hi]; rfl
  · rw [bank_warmReset]; rfl
  · rw [job, hc]; rfl
  · rw [Bool.eq_false_iff, ne_eq, abandons_iff, hc]; simp
  · rw [job, hc, jobAtWarmReset_survives hs]
  · rw [Bool.eq_false_iff, ne_eq, abandons_iff, hc]
    rintro ⟨k, hk, hn, -⟩
    cases hk
    exact hn hs
  · rw [job, hc, jobAtWarmReset_abandoned hs]
  · have ha : s.abandons b = true ↔ c.job.bank = b := by
      rw [abandons_iff, hc]
      refine ⟨?_, fun hb => ⟨c, rfl, hs, hb⟩⟩
      rintro ⟨k, hk, -, hb⟩
      cases hk
      exact hb
    rw [state]
    simp only [ha]
  · show ({ (s.atInstant n).scrub with pointer := 0, passes := 0, step := .none, kept := [], timer := (s.atInstant n).warmScrubTimer }
      : Scrubber) = _
    rw [warmScrubTimer_eq]
    rfl
  · show ({ s.quiet with part := s.quiet.part.warmReset, votes := .all none, holdTimer := none, wakeRecord := none } : Quiet) = _
    rw [PartState.warmReset_eq]
    rfl
  · rw [link_warmReset]; rfl

/-! ## The settling conditions after an event -/

theorem settles_quietBreak (s : State) : Settles s.quietBreak ↔ Settles s := by
  unfold State.quietBreak
  split <;> exact settled_congr rfl rfl rfl rfl rfl rfl rfl rfl rfl rfl

section

variable {s : State}

theorem reviewQuiet_unsettled (h : ¬ Settles s) : s.reviewQuiet = s.quietBreak := by
  have hs : s.settled ≠ true := fun e => h (settles_iff.mp e)
  have hb : s.quietBreak.settled ≠ true := fun e => h ((settles_quietBreak s).mp (settles_iff.mp e))
  unfold State.reviewQuiet
  rw [if_neg hs]
  exact if_neg fun e => hb e.2

theorem reviewQuiet_begins (h : Settles s) (ha : s.quiet.part = .active) : s.reviewQuiet = s.beginSettling := by
  have hs := settles_iff.mpr h
  unfold State.reviewQuiet
  rw [if_pos hs]
  exact if_pos ⟨ha, hs⟩

theorem reviewQuiet_stays (h : Settles s) (ha : s.quiet.part ≠ .active) : s.reviewQuiet = s := by
  unfold State.reviewQuiet
  rw [if_pos (settles_iff.mpr h)]
  exact if_neg fun e => ha e.1

theorem reviewQuiet_asleep (h : s.quiet.part = .retained ∨ s.quiet.part = .waking) : s.reviewQuiet = s := by
  have hp : s.quiet.part ≠ .active ∧ s.quiet.part ≠ .settling ∧ s.quiet.part ≠ .entering := by
    rcases h with h | h <;> rw [h] <;> decide
  obtain ⟨ha, hs, he⟩ := hp
  by_cases hc : Settles s
  · exact reviewQuiet_stays hc ha
  · rw [reviewQuiet_unsettled hc, quietBreak_else hs he]

end

/-- Settles O6. -/
theorem pinsActOnTheirBlocks : Obligations.PinsActOnTheirBlocks := by
  refine ⟨fun dt s h => ?_, fun dt level s => ⟨rfl, ?_⟩⟩
  · have hexec : exec (.resetNRise dt) s = .next ({ s.passTime dt with resetN := true } : State).reviewQuiet := by
      simp only [exec, execResetNRise, h]
      rfl
    obtain ⟨n, e⟩ := s.passTime_exists dt
    rw [e] at hexec ⊢
    obtain ⟨u, hu⟩ : ∃ u : State, u = { s.atInstant n with resetN := true } := ⟨_, rfl⟩
    have quiet : u.quiet = s.quiet := by rw [hu]; rfl
    have bank : ∀ b, u.bank b = s.bank b := fun b => by rw [hu]; rfl
    have hold : u.settings.quietHold = s.settings.quietHold := by rw [hu]; rfl
    rw [← hu] at hexec ⊢
    refine ⟨u.reviewQuiet, hexec, ?_, ⟨u.reviewQuiet.quiet, u.reviewQuiet.banks, ?_⟩, fun ha => ?_, fun hs => ⟨fun hp => ?_,
      fun ha h0 => ?_, fun ha h0 => ?_⟩, fun hs => ⟨fun ha => ?_, fun hp => ?_, fun hp => ?_⟩⟩
    · rw [reviewQuiet_frame, hu]
    · conv_lhs => rw [reviewQuiet_frame]
      rw [hu]
    · exact reviewQuiet_asleep (quiet ▸ ha)
    · exact reviewQuiet_stays hs (by rw [quiet]; rcases hp with hp | hp <;> rw [hp] <;> decide)
    · rw [reviewQuiet_begins hs (by rw [quiet, ha]), State.beginSettling, if_neg (by rw [hold]; exact h0), hu]
      rfl
    · rw [reviewQuiet_begins hs (by rw [quiet, ha]), State.beginSettling, if_pos (by rw [hold]; exact h0)]
      exact ⟨by rw [← quiet]; rfl, fun b => by rw [enterEntering_bank, bank]; rfl⟩
    · rw [reviewQuiet_unsettled hs, quietBreak_else (by rw [quiet, ha]; decide) (by rw [quiet, ha]; decide)]
    · rw [reviewQuiet_unsettled hs, quietBreak_settling (by rw [quiet, hp]), hu]
      rfl
    · rw [reviewQuiet_unsettled hs, quietBreak_entering (by rw [quiet, hp])]
      exact ⟨by rw [← quiet]; rfl, fun b => by rw [← bank]; exact State.bank_mapBanks ..⟩
  · have hot : ({ s.passTime dt with hotPin := level } : State).hot = (decide (s.settings.hotMode = 1) || level) := by
      unfold State.hot
      rw [s.passTime_settings dt]
    rw [hot, Bool.or_eq_true, decide_eq_true_eq]

end Sys2Proof.Machine
end

section
/-! PROOFS. Control requests that the tables, the quiet controller and the configuration unit answer at once (R73, R80, R92, R100, R149,
R180, R181). -/

namespace Sys2Proof.Machine

section

variable {s : State} {p : Port} {r : Request} {k : Kind} {o : ReqOp} {res : Result}

/-- A control request whose carrying out ends with its result, in a state that keeps its records and its admission, is answered. -/
theorem carried_answered {v : State} (h : ControlReady s p r) (hw : WellFormedAs r k o) (ha : o.isArray = false) (hf : o ≠ .fence)
    (hc : (s.readied p r.tag o).carryOut (s.readyRecord p r.tag o) = v.finishControl s.stampCounter res)
    (hq : v.queues = (s.readied p r.tag o).queues) (hn : v.now = s.now) (hk : v.stampCounter = s.stampCounter + 1)
    (hm : v.mem = s.mem) (he : AdmissionEnds s v) :
    s.receive p k.code r = v.finishControl s.stampCounter res ∧ Answered s (v.finishControl s.stampCounter res) p r.tag o res :=
  ⟨(receive_readied h hw ha hf).trans hc, answered_finishControl h.stamps hq hn hk hm he⟩

/-- One that is answered with nothing carried out. -/
theorem answered_only (h : ControlReady s p r) (hw : WellFormedAs r k o) (ha : o.isArray = false) (hf : o ≠ .fence)
    (hc : (s.readied p r.tag o).carryOut (s.readyRecord p r.tag o) = (s.readied p r.tag o).finishControl s.stampCounter res) :
    s.receive p k.code r = (s.readied p r.tag o).finishControl s.stampCounter res ∧
      Answered s ((s.readied p r.tag o).finishControl s.stampCounter res) p r.tag o res :=
  carried_answered h hw ha hf hc rfl rfl rfl rfl (admissionEnds_readied ..)

end

/-! ## UNWATCH, NOTICE_MASK and REGION_GET -/

section

variable {s : State} {p : Port} {i : Nat}

theorem doUnwatch_own {w : WatchId} {e : Watch} (hi : w.val = i) (he : s.watches.get w = some e) (ho : e.owner = p) :
    s.doUnwatch p i = (s.setWatch w none, ⟨.ok, .none⟩) := by
  subst hi
  unfold State.doUnwatch
  rw [dif_pos w.isLt, he]
  exact if_pos ho

theorem doUnwatch_none (h : ∀ (w : WatchId) (e : Watch), w.val = i → s.watches.get w = some e → e.owner ≠ p) :
    s.doUnwatch p i = (s, ⟨.noWatch, .none⟩) := by
  unfold State.doUnwatch
  split
  · rename_i hi
    split
    · rename_i e he
      exact if_neg (h ⟨i, hi⟩ e rfl he)
    · rfl
  · rfl

theorem regionResult_of (g : RegionIx) : s.regionResult g.val = ⟨.ok, .item (.region (s.region g))⟩ := dif_pos g.isLt

theorem regionResult_outside (h : 8 ≤ i) : s.regionResult i = ⟨.malformed, .none⟩ := dif_neg (Nat.not_lt.mpr h)

end

/-- Settles O18. -/
theorem tableControlsAnswer : Obligations.TableControlsAnswer := by
  refine ⟨fun dt p r i rest s h hb => ?_, fun dt p r f rest s h hb => ?_, fun dt p r i rest s h hb => ?_⟩
  · have hr := h.passTime dt
    obtain ⟨n, e⟩ := s.passTime_exists dt
    have hexec : exec (.unwatch dt p r) s = .next ((s.passTime dt).receive p Kind.unwatch.code r) := rfl
    rw [e] at hr hexec ⊢
    refine ⟨fun w x hi hw ho => ?_, fun hn => ?_⟩
    · have hd := doUnwatch_own (s := (s.atInstant n).readied p r.tag (.unwatch i.toNat)) hi hw ho
      obtain ⟨hrec, hans⟩ := carried_answered (v := ((s.atInstant n).readied p r.tag (.unwatch i.toNat)).setWatch w none) hr
        (.unwatch i rest hb) rfl nofun (congrArg (fun x : State × Result => x.1.finishControl s.stampCounter x.2) hd)
        rfl rfl rfl rfl ((admissionEnds_readied (s.atInstant n) p r.tag (.unwatch i.toNat)).congr rfl rfl)
      exact ⟨_, hexec.trans (congrArg _ hrec), hans, rfl, rfl⟩
    · have hd := doUnwatch_none (s := (s.atInstant n).readied p r.tag (.unwatch i.toNat)) hn
      obtain ⟨hrec, hans⟩ := answered_only hr (.unwatch i rest hb) rfl nofun
        (congrArg (fun x : State × Result => x.1.finishControl s.stampCounter x.2) hd)
      exact ⟨_, hexec.trans (congrArg _ hrec), hans, rfl, rfl⟩
  · have hr := h.passTime dt
    obtain ⟨n, e⟩ := s.passTime_exists dt
    have hexec : exec (.noticeMask dt p r) s = .next ((s.passTime dt).receive p Kind.noticeMask.code r) := rfl
    rw [e] at hr hexec ⊢
    obtain ⟨hrec, hans⟩ := carried_answered
      (v := ((s.atInstant n).readied p r.tag (.noticeMask (enablesOf f))).doNoticeMask p (enablesOf f)) hr
      (.noticeMask f rest hb) rfl nofun rfl rfl rfl rfl rfl
      ((admissionEnds_readied (s.atInstant n) p r.tag (.noticeMask (enablesOf f))).congr rfl rfl)
    refine ⟨_, hexec.trans (congrArg _ hrec), hans, ?_, fun q hq => ?_⟩
    · exact PerPort.get_set_self ..
    · exact PerPort.get_set_of_ne _ hq _
  · have hr := h.passTime dt
    obtain ⟨n, e⟩ := s.passTime_exists dt
    have hexec : exec (.regionGet dt p r) s = .next ((s.passTime dt).receive p Kind.regionGet.code r) := rfl
    rw [e] at hr hexec ⊢
    refine ⟨fun g hg => ?_, fun h8 => ?_⟩
    · obtain ⟨hrec, hans⟩ := answered_only (res := ⟨.ok, .item (.region (s.region g))⟩) hr (.regionGet i rest hb) rfl nofun
        (congrArg (State.finishControl _ _) (hg ▸ regionResult_of g))
      exact ⟨_, hexec.trans (congrArg _ hrec), hans, rfl⟩
    · obtain ⟨hrec, hans⟩ := answered_only hr (.regionGet i rest hb) rfl nofun
        (congrArg (State.finishControl _ _) (regionResult_outside h8))
      exact ⟨_, hexec.trans (congrArg _ hrec), hans, rfl⟩

/-! ## QUIET -/

theorem quietBreak_ended (s : State) : s.quietBreak.quiet.part ≠ .settling ∧ s.quietBreak.quiet.part ≠ .entering := by
  by_cases h : s.quiet.part = .settling ∨ s.quiet.part = .entering
  · rw [quietBreak_part h]; decide
  · rw [not_or] at h
    rw [quietBreak_else h.1 h.2]
    exact h

/-- A vote set after the admission breaks nothing more. -/
theorem readied_setVote_quietBreak (s : State) (p : Port) (t : Tag) (o : ReqOp) (q : Port) (v : Option Vote) :
    ((s.readied p t o).setVote q v).quietBreak = (s.readied p t o).setVote q v := by
  obtain ⟨h1, h2⟩ := quietBreak_ended s
  exact quietBreak_else h1 h2

theorem readied_part_retained {s : State} (p : Port) (t : Tag) (o : ReqOp) :
    (s.readied p t o).quiet.part = .retained ↔ s.quiet.part = .retained := by
  show s.quietBreak.quiet.part = .retained ↔ _
  by_cases h : s.quiet.part = .settling ∨ s.quiet.part = .entering
  · rw [quietBreak_part h]
    rcases h with h | h <;> simp [h]
  · rw [not_or] at h
    rw [quietBreak_else h.1 h.2]

theorem AdmissionEnds.setVote {s u : State} (h : AdmissionEnds s u) (p : Port) (v : Option Vote) : AdmissionEnds s (u.setVote p v) :=
  ⟨h.settling, h.entering, h.active⟩

/-- A wake after the admission keeps what the admission ends. -/
theorem admissionEnds_wake {s u : State} (h : AdmissionEnds s u) (hr : u.quiet.part = .retained → s.quiet.part = .retained)
    (c : WakeCause) (p : Port) : AdmissionEnds s (u.wakeCause c p) := by
  by_cases hp : u.quiet.part = .retained
  · have hs := hr hp
    exact ⟨fun e => (by rw [hs] at e; cases e), fun e => (by rw [hs] at e; cases e), fun e => (by rw [hs] at e; cases e)⟩
  · rw [wakeCause_awake hp]; exact h

theorem doQuiet_awake (s : State) (p : Port) :
    s.doQuiet p 0 = ((s.setVote p (some .awake)).quietBreak.wakeCause .vote p, ⟨.ok, .none⟩) := rfl

theorem doQuiet_quiet (s : State) (p : Port) : s.doQuiet p 1 = ((s.setVote p (some .quiet)).quietBreak, ⟨.ok, .none⟩) := rfl

/-- Settles O21. -/
theorem quietSetsTheVote : Obligations.QuietSetsTheVote := by
  intro dt p r v rest s h hb
  have hr := h.passTime dt
  obtain ⟨n, e⟩ := s.passTime_exists dt
  have hexec : exec (.quiet dt p r) s = .next ((s.passTime dt).receive p Kind.quiet.code r) := rfl
  rw [e] at hr hexec ⊢
  have votes : ∀ (o : ReqOp), ((s.atInstant n).readied p r.tag o).quiet.votes = s.quiet.votes := fun o =>
    quietBreak_votes (s.atInstant n)
  have wake : ∀ (o : ReqOp), ((s.atInstant n).readied p r.tag o).quiet.wakeRecord = s.quiet.wakeRecord := fun o =>
    quietBreak_wakeRecord (s.atInstant n)
  refine ⟨fun hv => ?_, fun hv => ?_, fun hv => ?_⟩
  · subst hv
    obtain ⟨u, hu⟩ : ∃ u, u = ((s.atInstant n).readied p r.tag (.quiet 0)).setVote p (some .awake) := ⟨_, rfl⟩
    have ends : AdmissionEnds (s.atInstant n) u := hu ▸ (admissionEnds_readied ..).setVote ..
    have part : u.quiet.part = .retained ↔ s.quiet.part = .retained := by
      rw [hu]; exact readied_part_retained (s := s.atInstant n) p r.tag _
    have quiet : u.quiet.votes = s.quiet.votes.set p (some .awake) ∧ u.quiet.wakeRecord = s.quiet.wakeRecord := by
      rw [hu]; exact ⟨congrArg (PerPort.set · p _) (votes _), wake _⟩
    have hd : ((s.atInstant n).readied p r.tag (.quiet 0)).doQuiet p 0 = (u.wakeCause .vote p, ⟨.ok, .none⟩) := by
      rw [doQuiet_awake, readied_setVote_quietBreak, hu]
    have frame := wakeCause_frame u .vote p
    obtain ⟨hrec, hans⟩ := carried_answered (v := u.wakeCause .vote p) hr (.quiet 0 rest hb) rfl nofun
      (congrArg (fun x : State × Result => x.1.finishControl s.stampCounter x.2) hd) (by rw [frame, hu]; rfl) (by rw [frame, hu]; rfl)
      (by rw [frame, hu]; rfl) (by rw [frame, hu]; rfl) (admissionEnds_wake ends part.mp .vote p)
    have vote : ∀ q, (u.wakeCause .vote p).vote q = (s.quiet.votes.set p (some .awake)).get q := fun q => by
      rw [State.vote, wakeCause_votes, quiet.1]
    refine ⟨_, hexec.trans (congrArg _ hrec), hans, ?_, fun q hq => ?_, fun hret => ?_⟩
    · exact (vote p).trans (PerPort.get_set_self ..)
    · exact (vote q).trans (PerPort.get_set_of_ne _ hq _)
    · have woken := wakeCause_retained (part.mpr hret) .vote p
      rw [quiet.2] at woken
      exact ⟨congrArg Quiet.part woken, congrArg Quiet.wakeRecord woken⟩
  · subst hv
    obtain ⟨u, hu⟩ : ∃ u, u = ((s.atInstant n).readied p r.tag (.quiet 1)).setVote p (some .quiet) := ⟨_, rfl⟩
    have ends : AdmissionEnds (s.atInstant n) u := hu ▸ (admissionEnds_readied ..).setVote ..
    have vote : ∀ q, u.vote q = (s.quiet.votes.set p (some .quiet)).get q := fun q => by
      rw [hu]; exact congrArg (fun x : PerPort (Option Vote) => (x.set p (some .quiet)).get q) (votes _)
    have hd : ((s.atInstant n).readied p r.tag (.quiet 1)).doQuiet p 1 = (u, ⟨.ok, .none⟩) := by
      rw [doQuiet_quiet, readied_setVote_quietBreak, hu]
    obtain ⟨hrec, hans⟩ := carried_answered (v := u) hr (.quiet 1 rest hb) rfl nofun
      (congrArg (fun x : State × Result => x.1.finishControl s.stampCounter x.2) hd) (by rw [hu]; rfl) (by rw [hu]; rfl)
      (by rw [hu]; rfl) (by rw [hu]; rfl) ends
    refine ⟨_, hexec.trans (congrArg _ hrec), hans, ?_, fun q hq => ?_, fun hret => ?_⟩
    · exact (vote p).trans (PerPort.get_set_self ..)
    · exact (vote q).trans (PerPort.get_set_of_ne _ hq _)
    · show u.quiet.part = _
      rw [hu]
      exact (readied_part_retained (s := s.atInstant n) p r.tag _).mpr hret
  · have hd : ∀ u : State, u.doQuiet p v.toNat = (u, ⟨.malformed, .none⟩) := fun u => by
      unfold State.doQuiet
      split
      · omega
      · omega
      · rfl
    obtain ⟨hrec, hans⟩ := answered_only hr (.quiet v rest hb) rfl nofun
      (congrArg (fun x : State × Result => x.1.finishControl s.stampCounter x.2) (hd _))
    refine ⟨_, hexec.trans (congrArg _ hrec), hans, fun q => ?_⟩
    exact congrArg (PerPort.get · q) (votes (.quiet v.toNat))

end Sys2Proof.Machine
end

section
/-! PROOFS. What the repair controller's moves leave as it is, and the configuration unit (R119, R135 to R142, R178 to R181). -/

namespace Sys2Proof.Machine

/-! ## The repair controller's moves -/

/-- A move of the repair controller: it reaches the banks, the records, the notices, the fault list, the scrubber, the holds, the quiet
controller and its own registers. -/
structure JobMove (s t : State) : Prop where
  frame : t = { s with
    banks := t.banks, queues := t.queues, detached := t.detached, notices := t.notices, checks := t.checks, scrub := t.scrub
    holds := t.holds, repairQueue := t.repairQueue, currentJob := t.currentJob, repairBuffer := t.repairBuffer, quiet := t.quiet }
  corrected : t.checks.corrected = s.checks.corrected
  uncorrectable : t.checks.uncorrectable = s.checks.uncorrectable

namespace JobMove

variable {s t u : State}

theorem refl (s : State) : JobMove s s := ⟨rfl, rfl, rfl⟩

theorem trans (h : JobMove s t) (k : JobMove t u) : JobMove s u := by
  refine ⟨?_, k.corrected.trans h.corrected, k.uncorrectable.trans h.uncorrectable⟩
  refine k.frame.trans ?_
  rw [h.frame]

theorem foldl {α : Type} {f : State → α → State} (hf : ∀ s a, JobMove s (f s a)) (l : List α) (s : State) :
    JobMove s (l.foldl f s) := by
  induction l generalizing s with
  | nil => exact refl s
  | cons a l ih => exact (hf s a).trans (ih _)

theorem broadcast (s : State) (w : Enables → Bool) (n : Notice) : JobMove s (s.broadcast w n) := by
  rw [broadcast_frame]; exact ⟨rfl, rfl, rfl⟩

theorem finishControl (s : State) (st : Stamp) (res : Result) : JobMove s (s.finishControl st res) := ⟨rfl, rfl, rfl⟩

theorem takeBank (s : State) (b : BankId) : JobMove s (s.takeBank b) := by
  unfold State.takeBank
  dsimp only
  split <;> exact ⟨rfl, rfl, rfl⟩

theorem endJob (s : State) (j : Job) (st : Status) (sp : Option SpareId) (n : Nat) : JobMove s (s.endJob j st sp n) := by
  have released : JobMove s (({ s with currentJob := none, repairBuffer := [] } : State).releaseBank j.bank) := ⟨rfl, rfl, rfl⟩
  have told := (released.trans (foldl (fun u q => finishControl u (Requester.stamp q) ⟨st, .repair sp n⟩) j.requesters _)).trans
    (broadcast _ Enables.repairDone (.repairDone j.bank j.row sp st n))
  unfold State.endJob
  dsimp only
  split
  · exact told.trans ⟨rfl, rfl, rfl⟩
  · exact told

theorem startJobs (js : List Job) (s : State) : JobMove s (State.startJobs js s) := by
  induction js generalizing s with
  | nil => exact ⟨rfl, rfl, rfl⟩
  | cons j js ih =>
    unfold State.startJobs
    split
    · rename_i sp _
      have queued : JobMove s ({ s with repairQueue := js }.setJob (some (({ s with repairQueue := js } : State).startRecord j sp))) :=
        ⟨rfl, rfl, rfl⟩
      exact queued.trans (takeBank _ _)
    · exact ((takeBank s j.bank).trans (endJob _ _ _ _ _)).trans (ih _)

theorem quietBreak (s : State) : JobMove s s.quietBreak := by
  rw [quietBreak_frame]; exact ⟨rfl, rfl, rfl⟩

theorem submitJob (s : State) (j : Job) : JobMove s (s.submitJob j) := by
  unfold State.submitJob
  split
  · exact ⟨rfl, rfl, rfl⟩
  · split
    · split
      · exact ⟨rfl, rfl, rfl⟩
      · have queued : JobMove s { s with repairQueue := s.repairQueue ++ [j] } := ⟨rfl, rfl, rfl⟩
        exact queued.trans (quietBreak _)
    · exact (quietBreak s).trans (startJobs _ _)

theorem advise (s : State) (b : BankId) (row : RowId) : JobMove s (s.advise b row) := by
  unfold State.advise State.autoJob
  dsimp only
  split
  · have told := broadcast s Enables.integrity (.repairAdvised b row)
    split
    · exact told.trans (submitJob _ _)
    · exact told
  · exact broadcast ..

end JobMove

/-! ## The claim check and SET -/

section

variable {s : State} {p : Port}

theorem claimRefusal_held (h : s.claim.holder = some p) : s.claimRefusal p = none := by
  unfold State.claimRefusal
  rw [h]
  exact if_pos rfl

theorem claimRefusal_other (h : s.claim.holder ≠ some p) : s.claimRefusal p = some (claimAnswer s.claim.holder) := by
  unfold State.claimRefusal claimAnswer
  cases e : s.claim.holder with
  | none => rfl
  | some q => exact if_neg fun hq => h (e.trans (congrArg some hq))

theorem restartClaim_held (h : s.claim.holder = some p) : s.restartClaim = s.setClaim ⟨some p, some (s.now + ms 10)⟩ := by
  rw [← h]; rfl

theorem doSet_wakeClear (v : Nat) : s.doSet p 8 v = (s.clearWake, ⟨.ok, .none⟩) := rfl

theorem doSet_unknown {c : Nat} (h : c = 0 ∨ 9 < c) (v : Nat) : s.doSet p c v = (s, ⟨.malformed, .none⟩) := by
  unfold State.doSet
  rw [if_neg (by omega), if_pos h]

theorem doSet_unclaimed {c : Nat} (hc : 1 ≤ c ∧ c ≤ 9) (h8 : c ≠ 8) (h : s.claim.holder ≠ some p) (v : Nat) :
    s.doSet p c v = (s, claimAnswer s.claim.holder) := by
  unfold State.doSet
  rw [if_neg h8, if_neg (by omega), claimRefusal_other h]

theorem doSet_counters (h : s.claim.holder = some p) (v : Nat) :
    s.doSet p 9 v = (s.clearCounters.setClaim ⟨some p, some (s.now + ms 10)⟩, ⟨.ok, .none⟩) := by
  have restart : s.clearCounters.restartClaim = s.clearCounters.setClaim ⟨some p, some (s.now + ms 10)⟩ :=
    restartClaim_held (s := s.clearCounters) h
  unfold State.doSet
  rw [if_neg (by omega), if_neg (by omega), claimRefusal_held h, restart]
  rfl

theorem doSet_outside {c v : Nat} (hc : 1 ≤ c ∧ c ≤ 7) (h : s.claim.holder = some p) (hv : settingInRange c v = false) :
    s.doSet p c v = (s, ⟨.malformed, .none⟩) := by
  unfold State.doSet
  rw [if_neg (by omega), if_neg (by omega), claimRefusal_held h]
  dsimp only
  rw [if_neg (by omega), if_neg (by rw [hv]; decide)]

theorem doSet_inside {c v : Nat} (hc : 1 ≤ c ∧ c ≤ 7) (h : s.claim.holder = some p) (hv : settingInRange c v = true) :
    s.doSet p c v = ((s.putSetting c v).restartClaim, ⟨.ok, .none⟩) := by
  unfold State.doSet
  rw [if_neg (by omega), if_neg (by omega), claimRefusal_held h]
  dsimp only
  rw [if_neg (by omega), if_pos hv]

end

/-! ## Codes without an item -/

/-- Settles O26. -/
theorem unknownItemsAreMalformed : Obligations.UnknownItemsAreMalformed := by
  refine ⟨fun dt p r c v0 v1 rest s h hb hc => ?_, fun dt p r c rest s h hb hc => ?_⟩
  · have hr := h.passTime dt
    have hexec : exec (.setUnknownItem dt p r) s = .next ((s.passTime dt).receive p Kind.set.code r) := rfl
    have hout : c.toNat = 0 ∨ 9 < c.toNat := by
      have := of_decide_eq_false hc
      omega
    obtain ⟨hrec, hans⟩ := answered_only hr (.set c v0 v1 rest hb) rfl nofun
      (congrArg (fun x : State × Result => x.1.finishControl (s.passTime dt).stampCounter x.2) (doSet_unknown hout _))
    exact ⟨_, hexec.trans (congrArg _ hrec), hans, ((itemsKept_readied ..).finishControl ..).of_passTime⟩
  · have hcode : ¬ (1 ≤ c.toNat ∧ c.toNat ≤ 7 ∨ 10 ≤ c.toNat ∧ c.toNat ≤ 23) := of_decide_eq_false hc
    obtain ⟨t, ht, ha, hk, -⟩ := getReturnsItsItem.2 dt p r c rest s h hb hcode
    exact ⟨t, ht, ha, hk⟩

theorem AdmissionEnds.clearWake {s u : State} (h : AdmissionEnds s u) : AdmissionEnds s u.clearWake :=
  ⟨h.settling, h.entering, h.active⟩

/-! ## WAKE_CLEAR and COUNTERS_CLEAR -/

theorem link_clearCounters (s : State) (p : Port) : s.clearCounters.link p = { s.link p with errors := .zero } := PerPort.get_map ..

theorem missed_clearCounters (s : State) (g : GroupId) : s.clearCounters.refresh.missed.get g = 0 := Table.get_replicate ..

theorem countUp_zero_succ {top : Nat} (h : 0 < top) : countUp top 0 = 1 := if_pos h

/-- Of a clear and a rise, the one that comes last is seen. -/
theorem oneOfTwo_rise {a b : Nat} (ha : a = 1) (hb : b = 0) : OneOfTwo a b := .inr ⟨ha, hb⟩

theorem CheckUnit.corrected_noteFault (c : CheckUnit) (b : BankId) (row : RowId) (st : Stamp) :
    (c.noteFault b row st).1.corrected = c.corrected := by
  unfold CheckUnit.noteFault
  split
  · split <;> rfl
  · rfl

theorem corrected_noteFault (s : State) (b : BankId) (row : RowId) :
    (s.noteFault b row).checks.corrected = s.checks.corrected := by
  have noted := s.checks.corrected_noteFault b row s.stampCounter
  unfold State.noteFault
  dsimp only
  split
  · exact (JobMove.advise _ b row).corrected.trans noted
  · exact noted

theorem corrected_countWord (f : ReadFor) (l : LineId) (s : State) (w : WordIx) (d : Word) :
    (State.countWord f l s (w, .corrected d)).checks.corrected = countUp top32 s.checks.corrected := by
  cases f with
  | copyOut => rfl
  | rowReader => exact corrected_noteFault ..

theorem uncorrectable_countWord (f : ReadFor) (l : LineId) (s : State) (w : WordIx) :
    (State.countWord f l s (w, .uncorrectable)).checks.uncorrectable = countUp top32 s.checks.uncorrectable :=
  (JobMove.broadcast ..).uncorrectable

/-- Settles O24. -/
theorem writeOnlyItemsAct : Obligations.WriteOnlyItemsAct := by
  refine ⟨fun dt p r v0 v1 rest s h hb => ?_, fun dt p r v0 v1 rest s h hb hc => ?_, fun dt p r v0 v1 rest s h hb hc => ?_,
    fun p s => ⟨?_, ?_, ?_, ?_⟩, fun g s h8 => ?_, fun f l w d s => ⟨?_, ?_⟩⟩
  · have hr := (h.withCode 8).passTime dt
    obtain ⟨n, e⟩ := s.passTime_exists dt
    have hexec : exec (.wakeClear dt p r) s = .next ((s.passTime dt).receive p Kind.set.code (withCode r 8)) := rfl
    rw [e] at hr hexec ⊢
    obtain ⟨hrec, hans⟩ := carried_answered (res := ⟨.ok, .none⟩)
      (v := ((s.atInstant n).readied p r.tag (.set 8 (v0.toNat + 256 * v1.toNat))).clearWake) hr
      (.set 8 v0 v1 rest (congrArg (8 :: ·) hb)) rfl nofun rfl rfl rfl rfl rfl (admissionEnds_readied ..).clearWake
    exact ⟨_, hexec.trans (congrArg _ hrec), hans, rfl, rfl⟩
  · have hr := (h.withCode 9).passTime dt
    obtain ⟨n, e⟩ := s.passTime_exists dt
    have hexec : exec (.countersClear dt p r) s = .next ((s.passTime dt).receive p Kind.set.code (withCode r 9)) := rfl
    rw [e] at hr hexec ⊢
    obtain ⟨u, hu⟩ : ∃ u, u = (s.atInstant n).readied p r.tag (.set 9 (v0.toNat + 256 * v1.toNat)) := ⟨_, rfl⟩
    have hd : u.doSet p 9 (v0.toNat + 256 * v1.toNat) = (u.clearCounters.setClaim ⟨some p, some (u.now + ms 10)⟩, ⟨.ok, .none⟩) :=
      doSet_counters (by rw [hu]; exact hc) _
    rw [hu] at hd
    obtain ⟨hrec, hans⟩ := carried_answered (v := (((s.atInstant n).readied p r.tag (.set 9 (v0.toNat + 256 * v1.toNat))).clearCounters.setClaim
      ⟨some p, some (n + ms 10)⟩)) hr (.set 9 v0 v1 rest (congrArg (9 :: ·) hb)) rfl nofun
      (congrArg (fun x : State × Result => x.1.finishControl s.stampCounter x.2) hd) rfl rfl rfl rfl
      ((admissionEnds_readied (s.atInstant n) p r.tag (.set 9 (v0.toNat + 256 * v1.toNat))).congr rfl rfl)
    exact ⟨_, hexec.trans (congrArg _ hrec), hans, rfl, rfl, missed_clearCounters _,
      fun q => congrArg Link.errors (link_clearCounters ((s.atInstant n).readied p r.tag _) q), rfl, fun q => rfl, rfl, rfl, rfl, rfl⟩
  · have hr := (h.withCode 9).passTime dt
    obtain ⟨n, e⟩ := s.passTime_exists dt
    have hexec : exec (.countersClear dt p r) s = .next ((s.passTime dt).receive p Kind.set.code (withCode r 9)) := rfl
    rw [e] at hr hexec ⊢
    obtain ⟨hrec, hans⟩ := answered_only hr (.set 9 v0 v1 rest (congrArg (9 :: ·) hb)) rfl nofun
      (congrArg (fun x : State × Result => x.1.finishControl s.stampCounter x.2)
        (doSet_unclaimed (s := (s.atInstant n).readied p r.tag (.set 9 (v0.toNat + 256 * v1.toNat))) (c := 9) (by decide) (by decide) hc _))
    exact ⟨_, hexec.trans (congrArg _ hrec), hans, rfl, rfl, accepted_errors (s.atInstant n) p, rfl⟩
  · refine oneOfTwo_rise ?_ ?_
    · rw [badPacket_eq, State.link_setLink_self, link_clearCounters]; rfl
    · rw [link_clearCounters]; rfl
  · refine oneOfTwo_rise ?_ ?_
    · rw [discardPacket_eq, State.link_setLink_self, link_clearCounters]; rfl
    · rw [link_clearCounters]; rfl
  · refine oneOfTwo_rise ?_ ?_
    · rw [link_clearCounters]; rfl
    · rw [link_clearCounters]; rfl
  · refine oneOfTwo_rise ?_ ?_
    · rw [link_clearCounters]; rfl
    · rw [link_clearCounters]; rfl
  · refine oneOfTwo_rise ?_ (missed_clearCounters _ g)
    have hd : 8 ≤ s.clearCounters.refresh.debt.get g := h8.ge
    rw [groupExpires_full hd, broadcast_frame]
    show (s.clearCounters.refresh.missed.set g (countUp top16 (s.clearCounters.refresh.missed.get g))).get g = 1
    rw [Table.get_set_self, missed_clearCounters]
    rfl
  · refine oneOfTwo_rise ?_ rfl
    rw [corrected_countWord]
    rfl
  · refine oneOfTwo_rise ?_ rfl
    rw [uncorrectable_countWord]
    rfl

end Sys2Proof.Machine
end

section
/-! PROOFS. SET of a setting (R36, R124, R178, R180). -/

namespace Sys2Proof.Machine

/-! ## Records aged by a lowered AGE_LIMIT -/

/-- The records that a SET of AGE_LIMIT to `v` ages (R36). -/
def State.agedBy (s : State) (c v : Nat) : State :=
  if c = 2 ∧ v < s.settings.ageLimit then s.mapRecords (Record.ageAt s.now v) else s

theorem PerPort.map_set {α β : Type} (f : α → β) (x : PerPort α) (p : Port) (v : α) : (x.set p v).map f = (x.map f).set p (f v) := by
  cases p <;> rfl

theorem agedBy_frame (s : State) (c v : Nat) :
    s.agedBy c v = { s with queues := (s.agedBy c v).queues, detached := (s.agedBy c v).detached } := by
  unfold State.agedBy
  split <;> rfl

/-- A record that has just joined is not aged. -/
theorem ageAt_fresh (s : State) (p : Port) (t : Tag) (o : ReqOp) {v : Nat} (hv : 1 ≤ v) :
    (s.readyRecord p t o).ageAt s.now v = s.readyRecord p t o := by
  refine if_neg ?_
  show ¬ (s.now + us v ≤ s.now)
  have : 0 < us v := Nat.mul_pos (by decide) (Nat.mul_pos (by decide) hv)
  exact Nat.not_le.mpr (Nat.lt_add_of_pos_right this)

/-- Ageing before the admission and after it give the same queues. -/
theorem agedBy_readied (s : State) (p : Port) (t : Tag) (o : ReqOp) {c v : Nat} (hv : c = 2 → 1 ≤ v) :
    ((s.readied p t o).agedBy c v).queues = ((s.agedBy c v).readied p t o).queues := by
  by_cases h : c = 2 ∧ v < s.settings.ageLimit
  · have aged : s.agedBy c v = s.mapRecords (Record.ageAt s.now v) := if_pos h
    have aged' : (s.readied p t o).agedBy c v = (s.readied p t o).mapRecords (Record.ageAt s.now v) := if_pos h
    rw [aged, aged']
    show (s.queues.set p (s.queue p ++ [s.readyRecord p t o])).map (fun q => q.map (Record.ageAt s.now v)) =
      (s.queues.map fun q => q.map (Record.ageAt s.now v)).set p
        ((s.queues.map fun q => q.map (Record.ageAt s.now v)).get p ++ [s.readyRecord p t o])
    rw [PerPort.map_set, PerPort.get_map, List.map_append, List.map_singleton, ageAt_fresh s p t o (hv h.1)]
    rfl
  · have aged : s.agedBy c v = s := if_neg h
    have aged' : (s.readied p t o).agedBy c v = s.readied p t o := if_neg h
    rw [aged, aged']

theorem stampsBelowCounter_agedBy {s : State} (h : StampsBelowCounter s) (c v : Nat) : StampsBelowCounter (s.agedBy c v) := by
  have hc : Control s (s.agedBy c v) := by
    unfold State.agedBy
    split
    · exact control_mapRecords s fun r => ageAt_key ..
    · exact .refl s
  intro r hr
  obtain ⟨q, hq, hk⟩ := mem_key_of_sublist (mild_of_control hc fun _ => .of_eq (by rw [agedBy_frame]) (by rw [agedBy_frame])
    (by rw [agedBy_frame]) (by rw [agedBy_frame])).records hr
  have stamp : q.stamp = r.stamp := congrArg (fun x : Port × Tag × ReqOp × Bool × Option RegionIx × Stamp => x.2.2.2.2.2) hk
  rw [hc.stampCounter, ← stamp]
  exact h q hq

/-! ## What a SET of a setting changes -/

/-- The step timer after a SET of SCRUB_INTERVAL (R124). -/
def State.stepTimerSet (s : State) (c v : Nat) : Option Instant :=
  if c = 4 ∧ v = 0 then none
  else if c = 4 ∧ s.settings.scrubInterval = 0 ∧ s.scrub.step = .none ∧ s.scrub.sweepDone = true ∧ s.asleep = false then
    some (s.now + us v)
  else s.scrub.timer

theorem settingCode_cases {c : Nat} (h : 1 ≤ c ∧ c ≤ 7) : c = 1 ∨ c = 2 ∨ c = 3 ∨ c = 4 ∨ c = 5 ∨ c = 6 ∨ c = 7 := by omega

theorem putSetting_ageLimit (s : State) (v : Nat) : s.putSetting 2 v =
    if v < s.settings.ageLimit then (s.setSettings { s.settings with ageLimit := v }).mapRecords (Record.ageAt s.now v)
    else s.setSettings { s.settings with ageLimit := v } := rfl

theorem putSetting_scrubInterval (s : State) (v : Nat) : s.putSetting 4 v =
    if v = 0 then (s.setSettings { s.settings with scrubInterval := v }).setScrub { s.scrub with timer := none }
    else if s.settings.scrubInterval = 0 ∧ s.scrub.step = .none ∧ s.scrub.sweepDone = true ∧ s.asleep = false then
      (s.setSettings { s.settings with scrubInterval := v }).setScrub { s.scrub with timer := some (s.now + us v) }
    else s.setSettings { s.settings with scrubInterval := v } := rfl

/-- A SET of a setting changes the settings, the records' age and the step timer. -/
theorem putSetting_frame (s : State) {c : Nat} (h : 1 ≤ c ∧ c ≤ 7) (v : Nat) : s.putSetting c v = { s.agedBy c v with
    settings := (s.putSetting c v).settings, scrub := { s.scrub with timer := s.stepTimerSet c v } } := by
  unfold State.agedBy State.stepTimerSet
  rcases settingCode_cases h with rfl | rfl | rfl | rfl | rfl | rfl | rfl
  · rfl
  · rw [putSetting_ageLimit]
    by_cases hv : v < s.settings.ageLimit
    · rw [if_pos hv, if_pos ⟨rfl, hv⟩]; rfl
    · rw [if_neg hv, if_neg fun e => hv e.2]; rfl
  · rfl
  · rw [putSetting_scrubInterval, if_neg (c := 4 = 2 ∧ _) fun e => nomatch e.1]
    by_cases h0 : v = 0
    · rw [if_pos h0, if_pos ⟨rfl, h0⟩]; rfl
    · rw [if_neg h0, if_neg (c := _ ∧ v = 0) fun e => h0 e.2]
      by_cases hs : s.settings.scrubInterval = 0 ∧ s.scrub.step = .none ∧ s.scrub.sweepDone = true ∧ s.asleep = false
      · rw [if_pos hs, if_pos ⟨rfl, hs⟩]; rfl
      · rw [if_neg hs, if_neg (c := 4 = 4 ∧ _) fun e => hs e.2]; rfl
  · rfl
  · rfl
  · rfl

theorem settings_putSetting_ageLimit (s : State) (v : Nat) : (s.putSetting 2 v).settings = { s.settings with ageLimit := v } := by
  rw [putSetting_ageLimit]; split <;> rfl

theorem settings_putSetting_scrubInterval (s : State) (v : Nat) :
    (s.putSetting 4 v).settings = { s.settings with scrubInterval := v } := by
  rw [putSetting_scrubInterval]
  split
  · rfl
  · split <;> rfl

theorem value_putSetting (s : State) {c : Nat} (h : 1 ≤ c ∧ c ≤ 7) (v : Nat) : (s.putSetting c v).settings.value c = v := by
  rcases settingCode_cases h with rfl | rfl | rfl | rfl | rfl | rfl | rfl
  · rfl
  · rw [settings_putSetting_ageLimit]; rfl
  · rfl
  · rw [settings_putSetting_scrubInterval]; rfl
  · rfl
  · rfl
  · rfl

theorem value_putSetting_of_ne (s : State) {c k : Nat} (h : 1 ≤ c ∧ c ≤ 7) (hk : k ≠ c) (v : Nat) :
    (s.putSetting c v).settings.value k = s.settings.value k := by
  have value_congr : ∀ a b : Settings, (k = 1 → a.closeIdle = b.closeIdle) → (k = 2 → a.ageLimit = b.ageLimit) →
      (k = 3 → a.hotMode = b.hotMode) → (k = 4 → a.scrubInterval = b.scrubInterval) → (k = 5 → a.faultThreshold = b.faultThreshold) →
      (k = 6 → a.autoRepair = b.autoRepair) → (k = 7 → a.quietHold = b.quietHold) → a.value k = b.value k := by
    intro a b h1 h2 h3 h4 h5 h6 h7
    unfold Settings.value
    split
    · exact h1 rfl
    · exact h2 rfl
    · exact h3 rfl
    · exact h4 rfl
    · exact h5 rfl
    · exact h6 rfl
    · exact h7 rfl
    · rfl
  have other : ∀ {P : Prop}, k = c → P := fun e => absurd e hk
  have same : ∀ {n x : Nat}, k = n → x = x := fun _ => rfl
  rcases settingCode_cases h with rfl | rfl | rfl | rfl | rfl | rfl | rfl
  · exact value_congr _ _ other same same same same same same
  · rw [settings_putSetting_ageLimit]; exact value_congr _ _ same other same same same same same
  · exact value_congr _ _ same same other same same same same
  · rw [settings_putSetting_scrubInterval]; exact value_congr _ _ same same same other same same same
  · exact value_congr _ _ same same same same other same same
  · exact value_congr _ _ same same same same same other same
  · exact value_congr _ _ same same same same same same other

theorem settingInRange_iff {c : Byte} (h : c = 1 ∨ c = 2 ∨ c = 3 ∨ c = 4 ∨ c = 5 ∨ c = 6 ∨ c = 7) {v : Nat} :
    settingInRange c.toNat v = true ↔ InRange c v := by
  rcases h with rfl | rfl | rfl | rfl | rfl | rfl | rfl <;> simp [settingInRange, InRange]

/-- A SET row hands its request, the item code in front, to the link after the time passed; its code names a setting. -/
theorem exec_settingRow {i : Instr} {dt : Nat} {p : Port} {c : Byte} {r : Request} (h : settingRow i = some (dt, p, c, r)) (s : State) :
    exec i s = .next ((s.passTime dt).receive p Kind.set.code (withCode r c)) ∧
      (c = 1 ∨ c = 2 ∨ c = 3 ∨ c = 4 ∨ c = 5 ∨ c = 6 ∨ c = 7) := by
  unfold settingRow at h
  split at h <;> cases h <;> exact ⟨rfl, by decide⟩

theorem settingCode_toNat {c : Byte} (h : c = 1 ∨ c = 2 ∨ c = 3 ∨ c = 4 ∨ c = 5 ∨ c = 6 ∨ c = 7) : 1 ≤ c.toNat ∧ c.toNat ≤ 7 := by
  rcases h with rfl | rfl | rfl | rfl | rfl | rfl | rfl <;> decide

theorem asleep_readied (s : State) (p : Port) (t : Tag) (o : ReqOp) : (s.readied p t o).asleep = s.asleep :=
  (control_quietBreak s).asleep

/-- A SET under the claim with a value in range: what it changes, beside the claim timer. -/
theorem setting_answered {s : State} {p : Port} {r : Request} {c v0 v1 : Byte} {rest : List Byte}
    (h : ControlReady s p r) (hb : r.body = c :: v0 :: v1 :: rest) (hc : 1 ≤ c.toNat ∧ c.toNat ≤ 7)
    (hh : s.claim.holder = some p) (hv : settingInRange c.toNat (v0.toNat + 256 * v1.toNat) = true) :
    ∃ t, s.receive p Kind.set.code r = t ∧
      Answered (s.agedBy c.toNat (v0.toNat + 256 * v1.toNat)) t p r.tag (.set c.toNat (v0.toNat + 256 * v1.toNat)) ⟨.ok, .none⟩ ∧
      t.settings.value c.toNat = v0.toNat + 256 * v1.toNat ∧
      (∀ k, k ≠ c.toNat → t.settings.value k = s.settings.value k) ∧
      t.claim = ⟨some p, some (s.now + ms 10)⟩ ∧
      t.scrub = { s.scrub with timer := s.stepTimerSet c.toNat (v0.toNat + 256 * v1.toNat) } := by
  generalize hV : v0.toNat + 256 * v1.toNat = V at hv ⊢
  have hw : WellFormedAs r .set (.set c.toNat V) := hV ▸ .set c v0 v1 rest hb
  obtain ⟨u, hu⟩ : ∃ u, u = s.readied p r.tag (.set c.toNat V) := ⟨_, rfl⟩
  obtain ⟨a, ha⟩ : ∃ a, a = s.agedBy c.toNat V := ⟨_, rfl⟩
  have frame : u.putSetting c.toNat V = { u with
      queues := (u.agedBy c.toNat V).queues, detached := (u.agedBy c.toNat V).detached
      settings := (u.putSetting c.toNat V).settings, scrub := { u.scrub with timer := u.stepTimerSet c.toNat V } } := by
    conv_lhs => rw [putSetting_frame u hc, agedBy_frame]
  have aged : a = { s with queues := a.queues, detached := a.detached } := by rw [ha]; exact agedBy_frame ..
  have claim : (u.putSetting c.toNat V).claim.holder = some p := by rw [frame, hu]; exact hh
  have now : (u.putSetting c.toNat V).now = s.now := by rw [frame, hu]; rfl
  have hd : u.doSet p c.toNat V = ((u.putSetting c.toNat V).setClaim ⟨some p, some (s.now + ms 10)⟩, ⟨.ok, .none⟩) := by
    rw [doSet_inside hc (by rw [hu]; exact hh) hv, restartClaim_held claim, now]
  have queues : (u.putSetting c.toNat V).queues = (a.readied p r.tag (.set c.toNat V)).queues := by
    rw [ha, ← agedBy_readied s p r.tag _ (fun h2 => ?_), ← hu, frame]
    rw [h2] at hv
    exact (of_decide_eq_true hv).1
  have ends : AdmissionEnds s ((u.putSetting c.toNat V).setClaim ⟨some p, some (s.now + ms 10)⟩) :=
    (admissionEnds_readied s p r.tag (.set c.toNat V)).congr (by rw [← hu]; show (u.putSetting _ _).quiet = _; rw [frame])
      (by rw [← hu]; show (u.putSetting _ _).banks = _; rw [frame])
  have ends' : AdmissionEnds a ((u.putSetting c.toNat V).setClaim ⟨some p, some (s.now + ms 10)⟩) := by
    have part : a.quiet = s.quiet := by rw [aged]
    exact ⟨part ▸ ends.settling, part ▸ ends.entering, part ▸ ends.active⟩
  have counter : a.stampCounter = s.stampCounter := by rw [aged]
  have received : s.receive p Kind.set.code r =
      ((u.putSetting c.toNat V).setClaim ⟨some p, some (s.now + ms 10)⟩).finishControl a.stampCounter ⟨.ok, .none⟩ := by
    rw [receive_readied h hw rfl nofun, counter]
    have carried := congrArg (fun x : State × Result => x.1.finishControl s.stampCounter x.2) hd
    rw [hu] at carried ⊢
    exact carried
  refine ⟨_, received, ?_, ?_, fun k hk => ?_, rfl, ?_⟩
  · rw [← ha]
    refine answered_finishControl (ha ▸ stampsBelowCounter_agedBy h.stamps _ _) queues ?_ ?_ ?_ ends'
    · exact now.trans (by rw [aged])
    · show (u.putSetting _ _).stampCounter = _
      rw [frame, hu, counter]; rfl
    · show (u.putSetting _ _).mem = _
      rw [frame, hu, aged]; rfl
  · exact value_putSetting u hc V
  · refine (value_putSetting_of_ne u hc hk V).trans ?_
    rw [hu]; rfl
  · show (u.putSetting _ _).scrub = _
    rw [frame]
    have timer : u.stepTimerSet c.toNat V = s.stepTimerSet c.toNat V := by
      unfold State.stepTimerSet
      rw [hu, asleep_readied]
      rfl
    rw [timer, hu]
    rfl

theorem byte_eq_iff {c : Byte} (n : Nat) (hn : n < 256) : c = BitVec.ofNat 8 n ↔ c.toNat = n := by
  constructor
  · rintro rfl
    exact (BitVec.toNat_ofNat ..).trans (Nat.mod_eq_of_lt hn)
  · intro h
    rw [← h, BitVec.ofNat_toNat, BitVec.setWidth_eq]

/-- Settles O23. -/
theorem settingChangesUnderTheClaim : Obligations.SettingChangesUnderTheClaim := by
  intro i dt p c r v0 v1 rest s hi h hb
  obtain ⟨hexec, hc⟩ := exec_settingRow hi s
  have hcode := settingCode_toNat hc
  have hr := (h.withCode c).passTime dt
  obtain ⟨n, e⟩ := s.passTime_exists dt
  rw [e] at hr hexec ⊢
  have hbody : (withCode r c).body = c :: v0 :: v1 :: rest := congrArg (c :: ·) hb
  refine ⟨fun hh => ?_, fun hh hv => ?_, fun hh hv => ?_⟩
  · obtain ⟨hrec, hans⟩ := answered_only hr (.set c v0 v1 rest hbody) rfl nofun
      (congrArg (fun x : State × Result => x.1.finishControl s.stampCounter x.2)
        (doSet_unclaimed (s := (s.atInstant n).readied p r.tag (.set c.toNat (v0.toNat + 256 * v1.toNat))) (c := c.toNat)
          (by omega) (by omega) hh _))
    exact ⟨_, hexec.trans (congrArg _ hrec), hans, rfl, rfl, rfl⟩
  · have hv' : settingInRange c.toNat (v0.toNat + 256 * v1.toNat) = false :=
      Bool.eq_false_iff.mpr fun e => hv ((settingInRange_iff hc).mp e)
    obtain ⟨hrec, hans⟩ := answered_only hr (.set c v0 v1 rest hbody) rfl nofun
      (congrArg (fun x : State × Result => x.1.finishControl s.stampCounter x.2)
        (doSet_outside (s := (s.atInstant n).readied p r.tag (.set c.toNat (v0.toNat + 256 * v1.toNat))) hcode hh hv'))
    exact ⟨_, hexec.trans (congrArg _ hrec), hans, rfl, rfl, rfl⟩
  · obtain ⟨t, ht, hans, hval, hvals, hclaim, hscrub⟩ :=
      setting_answered hr hbody hcode hh ((settingInRange_iff hc).mpr hv)
    refine ⟨t, _, hexec.trans (congrArg _ ht), rfl, ?_, hval, hvals, hclaim, hscrub.trans ?_⟩
    · have aged : (s.atInstant n).agedBy c.toNat (v0.toNat + 256 * v1.toNat) = _ :=
        if_congr (and_congr_left fun _ => (byte_eq_iff 2 (by decide)).symm) rfl rfl
      exact aged ▸ hans
    · have h4 : c.toNat = 4 ↔ c = 4 := (byte_eq_iff 4 (by decide)).symm
      unfold State.stepTimerSet
      simp only [h4, asleep_iff]
      rfl

end Sys2Proof.Machine
end

section
/-! PROOFS. What a REQUEST of a port leaves as it is, kind by kind (R34, R42). -/

namespace Sys2Proof.Machine

/-! ## Which fields an admitted request has -/

theorem code_of_ofCode {c : Byte} {k : Kind} (h : Kind.ofCode c = some k) : c = k.code := by
  unfold Kind.ofCode at h
  split at h <;> cases h <;> (rename_i hc; exact BitVec.eq_of_toNat_eq hc)

theorem wellFormed_of_requestOp {c : Byte} {r : Request} {o : ReqOp} (h : requestOp c r = some o) :
    ∃ k : Kind, c = k.code ∧ WellFormedAs r k o := by
  unfold requestOp at h
  split at h
  · cases h
  · rename_i k hk
    split at h
    · cases h
    · exact ⟨k, code_of_ofCode hk, formed_iff.mpr h⟩

theorem regionVerdict_accept {s : State} {p : Port} {t : Tag} {b posted : Bool} {o o' : ReqOp} {page : Nat} {g : Option RegionIx}
    (h : s.regionVerdict p t b o page = .accept o' posted g) : o' = o := by
  unfold State.regionVerdict at h
  split at h
  · cases h
  · split at h
    · cases h
    · split at h
      · cases h
      · split at h
        · split at h <;> cases h; rfl
        · cases h; rfl

/-- An accepted request has its kind's form, and only one with lines is counted in a region. -/
theorem verdict_accept_form {s : State} {p : Port} {c : Byte} {r : Request} {o : ReqOp} {posted : Bool} {g : Option RegionIx}
    (h : s.verdict p c r = .accept o posted g) : (∃ k : Kind, c = k.code ∧ WellFormedAs r k o) ∧ (o.span = none → g = none) := by
  unfold State.verdict at h
  split at h
  · cases h
  · split at h
    · cases h
    · split at h
      · cases h
      · rename_i o' ho'
        split at h
        · cases h
        · split at h
          · cases h
          · split at h
            · rename_i l n hspan
              obtain rfl := regionVerdict_accept h
              exact ⟨wellFormed_of_requestOp ho', fun e => by rw [hspan] at e; cases e⟩
            · cases h
              exact ⟨wellFormed_of_requestOp ho', fun _ => rfl⟩

/-! ## The array side -/

namespace ArraySideKept

variable {s t u : State}

theorem refl (s : State) : ArraySideKept s s := ⟨rfl, rfl, rfl, rfl, rfl, rfl, rfl, rfl, rfl, rfl, rfl, rfl, rfl⟩

theorem trans (h : ArraySideKept s t) (k : ArraySideKept t u) : ArraySideKept s u where
  pending := k.pending.trans h.pending
  resetN := k.resetN.trans h.resetN
  hotPin := k.hotPin.trans h.hotPin
  mem := k.mem.trans h.mem
  window := k.window.trans h.window
  pathBusy := k.pathBusy.trans h.pathBusy
  remap := k.remap.trans h.remap
  debt := k.debt.trans h.debt
  urgentAt := k.urgentAt.trans h.urgentAt
  rotation := k.rotation.trans h.rotation
  quarter := k.quarter.trans h.quarter
  sweepDone := k.sweepDone.trans h.sweepDone
  sweepAt := k.sweepAt.trans h.sweepAt

theorem of_control (c : Control s t) : ArraySideKept s t where
  pending := congrArg Fixed.pending c.fixed
  resetN := congrArg Fixed.resetN c.fixed
  hotPin := congrArg Fixed.hotPin c.fixed
  mem := c.mem
  window := c.window
  pathBusy := c.pathBusy
  remap := c.remap
  debt := congrArg Fixed.debt c.fixed
  urgentAt := congrArg Fixed.urgentAt c.fixed
  rotation := congrArg Fixed.rotation c.fixed
  quarter := congrArg Fixed.quarter c.fixed
  sweepDone := congrArg Fixed.sweepDone c.fixed
  sweepAt := congrArg Fixed.sweepAt c.fixed

end ArraySideKept

/-! ## What a carried-out record changes -/

/-- A bank with its idle timer and its mark RETENTION as given. -/
structure BankEased (x y : Bank) : Prop where
  eased : y = { x with idle := y.idle, idleReset := y.idleReset, marks := { x.marks with retention := y.marks.retention } }

theorem BankEased.refl (x : Bank) : BankEased x x := ⟨rfl⟩

theorem BankEased.trans {x y z : Bank} (h : BankEased x y) (k : BankEased y z) : BankEased x z := by
  refine ⟨?_⟩
  have e := k.eased
  rw [h.eased] at e
  exact e

theorem BankEased.withRetention (x : Bank) (m : Bool) : BankEased x (x.withRetention m) := ⟨rfl⟩

theorem BankEased.quietBreak (s : State) (b : BankId) : BankEased (s.bank b) (s.quietBreak.bank b) := by
  obtain ⟨m, hm⟩ := quietBreak_bank s b
  rw [hm]
  exact .withRetention ..

theorem BankEased.idleNext (s : State) (b : BankId) (x : Bank) : BankEased x (s.idleNext b x) := by
  unfold State.idleNext
  split
  · split
    · exact ⟨rfl⟩
    · split
      · split <;> exact ⟨rfl⟩
      · exact ⟨rfl⟩
      · exact ⟨rfl⟩
  · exact ⟨rfl⟩

/-- The records change at most where they carry the stamp. -/
abbrev RecordsApart (st : Stamp) (s t : State) : Prop :=
  (∀ q, (∀ x ∈ s.queue q, x.stamp ≠ st) → t.queue q = s.queue q) ∧
    ((∀ x ∈ s.detached, x.stamp ≠ st) → t.detached = s.detached)

theorem RecordsApart.of_eq {st : Stamp} {s t : State} (hq : t.queues = s.queues) (hd : t.detached = s.detached) : RecordsApart st s t :=
  ⟨fun q _ => congrArg (PerPort.get · q) hq, fun _ => hd⟩

theorem map_apart {st : Stamp} {f : Record → Record} {l : List Record} (h : ∀ x ∈ l, x.stamp ≠ st) :
    l.map (fun r => if r.stamp = st then f r else r) = l :=
  (List.map_congr_left fun x hx => if_neg (h x hx)).trans (List.map_id l)

theorem RecordsApart.modRecord {st : Stamp} {s u : State} (hq : u.queues = s.queues)
    (hd : u.detached = s.detached) (f : Record → Record) : RecordsApart st s (u.modRecord st f) := by
  refine ⟨fun q hx => ?_, fun hx => ?_⟩
  · have e : u.queue q = s.queue q := congrArg (PerPort.get · q) hq
    unfold State.modRecord
    rw [State.queue_mapRecords, e]
    exact map_apart hx
  · show u.detached.map _ = _
    rw [hd]
    exact map_apart hx

/-- What the record of stamp `st` of a control request of port `p` and kind `k` leaves as it is when it is carried out. -/
structure Carried (p : Port) (st : Stamp) (k : Kind) (s t : State) : Prop where
  holds : t.holds = s.holds
  repairQueue : t.repairQueue = s.repairQueue
  currentJob : t.currentJob = s.currentJob
  repairBuffer : t.repairBuffer = s.repairBuffer
  scrub : t.scrub = { s.scrub with timer := t.scrub.timer }
  banks : ∀ b, BankEased (s.bank b) (t.bank b)
  registers : k ≠ .set → t.settings = s.settings ∧ t.checks = s.checks ∧ t.refresh = s.refresh ∧ t.scrub = s.scrub ∧
    t.links = s.links ∧ RecordsApart st s t
  tables : k ≠ .unwatch → k ≠ .regionSet → t.watches = s.watches ∧ ∀ q, q ≠ p → t.noticeQ q = s.noticeQ q
  claim : k ≠ .regionSet → k ≠ .claim → k ≠ .release → k ≠ .set → t.claim = s.claim
  regions : k ≠ .regionSet → t.regions = s.regions

namespace Carried

variable {p : Port} {st : Stamp} {k : Kind} {s t : State}

theorem refl (p : Port) (st : Stamp) (k : Kind) (s : State) : Carried p st k s s :=
  ⟨rfl, rfl, rfl, rfl, rfl, fun _ => .refl _, fun _ => ⟨rfl, rfl, rfl, rfl, rfl, RecordsApart.of_eq rfl rfl⟩, fun _ _ => ⟨rfl, fun _ _ => rfl⟩,
    fun _ _ _ _ => rfl, fun _ => rfl⟩

/-- Fixing the record's result, after what the kind does. -/
theorem finish (h : Carried p st k s t) (hq : k ≠ .set → t.queues = s.queues) (hd : k ≠ .set → t.detached = s.detached)
    (res : Result) : Carried p st k s (t.finishControl st res) where
  holds := h.holds
  repairQueue := h.repairQueue
  currentJob := h.currentJob
  repairBuffer := h.repairBuffer
  scrub := h.scrub
  banks := h.banks
  registers hk := by
    obtain ⟨h1, h2, h3, h4, h5, -⟩ := h.registers hk
    exact ⟨h1, h2, h3, h4, h5, RecordsApart.modRecord (hq hk) (hd hk) _⟩
  tables := h.tables
  claim := h.claim
  regions := h.regions

theorem finishOnly (p : Port) (st : Stamp) (k : Kind) (s : State) (res : Result) : Carried p st k s (s.finishControl st res) :=
  (refl p st k s).finish (fun _ => rfl) (fun _ => rfl) res

theorem unwatch (s : State) (p : Port) (st : Stamp) (q : Port) (i : Nat) :
    Carried p st .unwatch s ((s.doUnwatch q i).1.finishControl st (s.doUnwatch q i).2) := by
  have cleared : ∀ w, Carried p st .unwatch s (s.setWatch w none) := fun w =>
    { refl p st .unwatch s with tables := fun h => absurd rfl h }
  unfold State.doUnwatch
  split
  · split
    · split
      · exact (cleared _).finish (fun _ => rfl) (fun _ => rfl) _
      · exact finishOnly ..
    · exact finishOnly ..
  · exact finishOnly ..

theorem noticeMask (s : State) (p : Port) (st : Stamp) (e : Enables) (res : Result) :
    Carried p st .noticeMask s ((s.doNoticeMask p e).finishControl st res) := by
  have masked : Carried p st .noticeMask s (s.doNoticeMask p e) :=
    { refl p st .noticeMask s with tables := fun _ _ => ⟨rfl, fun _ hq => State.noticeQ_setNoticeQ_of_ne _ hq _⟩ }
  exact masked.finish (fun _ => rfl) (fun _ => rfl) _

theorem regionSet (s : State) (p : Port) (st : Stamp) (q : Port) (ps : RegionSetParams) :
    Carried p st .regionSet s (s.doRegionSet q st ps) := by
  have replaced : ∀ i x, Carried p st .regionSet s (s.takeEffect i x).restartClaim := fun i x => by
    obtain ⟨rs, ws, ns, e⟩ := (takeEffect_spec s i x).frame
    rw [e]
    exact { refl p st .regionSet s with tables := fun _ h => absurd rfl h, claim := fun h => absurd rfl h, regions := fun h => absurd rfl h }
  have queues : ∀ i x, (s.takeEffect i x).restartClaim.queues = s.queues ∧ (s.takeEffect i x).restartClaim.detached = s.detached :=
    fun i x => by
      obtain ⟨rs, ws, ns, e⟩ := (takeEffect_spec s i x).frame
      rw [e]
      exact ⟨rfl, rfl⟩
  unfold State.doRegionSet
  split
  · exact finishOnly ..
  · split
    · exact finishOnly ..
    · split
      · exact finishOnly ..
      · split
        · exact finishOnly ..
        · split
          · exact (replaced _ _).finish (fun _ => (queues _ _).1) (fun _ => (queues _ _).2) _
          · rename_i i new _ _ _ _
            obtain ⟨u, hu⟩ : ∃ u, u = ((s.setRegion i { s.region i with state := .draining, replacement := some new }).modRecord st
              (fun r => { r with state := .active, blocked := none })).restartClaim := ⟨_, rfl⟩
            have e : s.beginDrain st i new = u.quietBreak := by rw [hu]; rfl
            have apart : RecordsApart st s u := by
              rw [hu]
              exact RecordsApart.modRecord (s := s)
                (u := s.setRegion i { s.region i with state := .draining, replacement := some new }) rfl rfl _
            rw [e, quietBreak_frame]
            refine ⟨by rw [hu]; rfl, by rw [hu]; rfl, by rw [hu]; rfl, by rw [hu]; rfl, by rw [hu]; rfl, fun b => ?_, fun _ => ?_,
              fun _ h => absurd rfl h, fun h => absurd rfl h, fun h => absurd rfl h⟩
            · have ub : u.bank b = s.bank b := by rw [hu]; rfl
              exact ub ▸ BankEased.quietBreak u b
            · exact ⟨by rw [hu]; rfl, by rw [hu]; rfl, by rw [hu]; rfl, by rw [hu]; rfl, by rw [hu]; rfl, apart⟩

theorem quieted {u : State} (hu : u = { s with quiet := u.quiet, banks := u.banks }) (hb : ∀ b, BankEased (s.bank b) (u.bank b))
    (k : Kind) : Carried p st k s u where
  holds := by rw [hu]
  repairQueue := by rw [hu]
  currentJob := by rw [hu]
  repairBuffer := by rw [hu]
  scrub := by rw [hu]
  banks := hb
  registers _ := by rw [hu]; exact ⟨rfl, rfl, rfl, rfl, rfl, RecordsApart.of_eq rfl rfl⟩
  tables _ _ := by rw [hu]; exact ⟨rfl, fun _ _ => rfl⟩
  claim _ _ _ _ := by rw [hu]
  regions _ := by rw [hu]

theorem quiet (s : State) (p : Port) (st : Stamp) (q : Port) (v : Nat) :
    Carried p st .quiet s ((s.doQuiet q v).1.finishControl st (s.doQuiet q v).2) := by
  unfold State.doQuiet
  split
  · have frame : ((s.setVote q (some .awake)).quietBreak.wakeCause .vote q) = { s with
        quiet := ((s.setVote q (some .awake)).quietBreak.wakeCause .vote q).quiet, banks := (s.setVote q (some .awake)).quietBreak.banks } := by
      rw [wakeCause_frame, quietBreak_frame]; rfl
    refine (quieted ?_ (fun b => ?_) .quiet).finish (fun _ => by rw [frame]) (fun _ => by rw [frame]) _
    · rw [frame]
    · rw [State.bank, frame]
      exact BankEased.quietBreak (s.setVote q (some .awake)) b
  · have frame : (s.setVote q (some .quiet)).quietBreak = { s with
        quiet := (s.setVote q (some .quiet)).quietBreak.quiet, banks := (s.setVote q (some .quiet)).quietBreak.banks } := by
      rw [quietBreak_frame]; rfl
    refine (quieted ?_ (fun b => ?_) .quiet).finish (fun _ => by rw [frame]) (fun _ => by rw [frame]) _
    · rw [frame]
    · exact BankEased.quietBreak (s.setVote q (some .quiet)) b
  · exact finishOnly ..

theorem claimed (s : State) (p : Port) (st : Stamp) (k : Kind) (hk : k = .claim ∨ k = .release) (c : Claim) (res : Result) :
    Carried p st k s ((s.setClaim c).finishControl st res) := by
  have set : Carried p st k s (s.setClaim c) :=
    { refl p st k s with claim := fun _ h1 h2 _ => by rcases hk with rfl | rfl <;> contradiction }
  exact set.finish (fun _ => rfl) (fun _ => rfl) _

theorem claim' (s : State) (p : Port) (st : Stamp) (q : Port) :
    Carried p st .claim s ((s.doClaim q).1.finishControl st (s.doClaim q).2) := by
  unfold State.doClaim
  split
  · exact claimed s p st .claim (.inl rfl) _ _
  · split
    · exact claimed s p st .claim (.inl rfl) _ _
    · exact finishOnly ..

theorem release (s : State) (p : Port) (st : Stamp) (q : Port) :
    Carried p st .release s ((s.doRelease q).1.finishControl st (s.doRelease q).2) := by
  unfold State.doRelease
  split
  · exact claimed s p st .release (.inr rfl) _ _
  · exact finishOnly ..

theorem set (s : State) (p : Port) (st : Stamp) (q : Port) (c v : Nat) :
    Carried p st .set s ((s.doSet q c v).1.finishControl st (s.doSet q c v).2) := by
  have changed : ∀ u : State, u = { s with
      queues := u.queues, detached := u.detached, quiet := u.quiet, links := u.links, claim := u.claim, settings := u.settings
      checks := u.checks, refresh := u.refresh, scrub := { s.scrub with timer := u.scrub.timer } } → ∀ res,
      Carried p st .set s (u.finishControl st res) := fun u hu res => by
    have kept : Carried p st .set s u := by
      rw [hu]
      exact { refl p st .set s with scrub := rfl, registers := fun h => absurd rfl h, claim := fun _ _ _ h => absurd rfl h }
    exact kept.finish (fun h => absurd rfl h) (fun h => absurd rfl h) _
  unfold State.doSet
  split
  · exact changed _ rfl _
  · split
    · exact finishOnly ..
    · split
      · exact finishOnly ..
      · split
        · exact changed _ rfl _
        · split
          · rename_i h8 h0 _ h9 _
            have put := putSetting_frame s (c := c) (by omega) v
            rw [agedBy_frame] at put
            refine changed _ ?_ _
            unfold State.restartClaim
            rw [put]
            rfl
          · exact finishOnly ..

/-- The record of a kind other than REPAIR that needs no line, carried out. -/
theorem carryOut {req : Request} {o : ReqOp} (hw : WellFormedAs req k o) (hs : o.span = none) (hk : k ≠ .repair) (s : State) {r : Record}
    (hp : r.port = p) (hr : r.stamp = st) (ho : r.op = o) : Carried p st k s (s.carryOut r) := by
  unfold State.carryOut
  rw [ho, hp, hr]
  cases hw with
  | read | write | writePart | fetchAdd | swap | compareSwap | watch => cases hs
  | fence => exact finishOnly ..
  | claim => exact claim' ..
  | release => exact release ..
  | unwatch => exact unwatch ..
  | noticeMask => exact noticeMask ..
  | regionSet => exact regionSet ..
  | regionGet => exact finishOnly ..
  | repair => exact absurd rfl hk
  | quiet => exact quiet ..
  | set => exact set ..
  | get => exact finishOnly ..
  | getOf => exact finishOnly ..

end Carried

/-! ## An admission -/

theorem enqueue_frame (s : State) (p : Port) (t : Tag) (o : ReqOp) (posted : Bool) (g : Option RegionIx) :
    s.enqueue p t o posted g = { s with
      stampCounter := s.stampCounter + 1, queues := s.queues.set p (s.queue p ++ [s.firstRecord p t o posted g])
      regions := (s.enqueue p t o posted g).regions, quiet := (s.enqueue p t o posted g).quiet, banks := s.quietBreak.banks } := by
  rw [enqueue_eq]
  split
  · rw [wakeCause_frame, joined_frame, quietBreak_frame]; rfl
  · rw [joined_frame, quietBreak_frame]; rfl

theorem enqueue_regions_none (s : State) (p : Port) (t : Tag) (o : ReqOp) (posted : Bool) :
    (s.enqueue p t o posted none).regions = s.regions := by
  rw [enqueue_eq]
  split
  · rw [wakeCause_frame, quietBreak_frame]; rfl
  · rw [quietBreak_frame]; rfl

theorem bank_enqueue (s : State) (p : Port) (t : Tag) (o : ReqOp) (posted : Bool) (g : Option RegionIx) (b : BankId) :
    (s.enqueue p t o posted g).bank b = s.quietBreak.bank b := by rw [State.bank, enqueue_frame]; rfl

/-- What becomes of the new record, beside its joining, of any kind but REPAIR. -/
theorem letIn_carried {req : Request} {k : Kind} {o : ReqOp} (hw : WellFormedAs req k o) (hk : k ≠ .repair) (s : State) (p : Port)
    (t : Tag) (posted : Bool) (g : Option RegionIx) :
    Carried p s.stampCounter k (s.enqueue p t o posted g) (s.letIn p t o posted g) := by
  have key := firstRecord_key s p t o posted g
  simp only [Record.key, Prod.mk.injEq] at key
  obtain ⟨hp, -, ho, -, -, hst⟩ := key
  have notRepair : o.isRepair = false := by cases hw <;> first | rfl | exact absurd rfl hk
  obtain ⟨e, he⟩ : ∃ e, e = s.enqueue p t o posted g := ⟨_, rfl⟩
  unfold State.letIn
  dsimp only
  rw [← he]
  split
  · split
    · rename_i l n _
      refine Carried.quieted rfl (fun b => ?_) k
      by_cases hb : b = lineBank l
      · subst hb
        rw [State.bank_setBank_self]
        exact .idleNext ..
      · rw [State.bank_setBank_of_ne _ hb]
        exact .refl _
    · rename_i hs
      rw [notRepair]
      exact .carryOut hw hs hk e hp hst ho
  · exact .refl ..

/-- After the joining, the control side acts. -/
theorem control_letIn_enqueue (s : State) (p : Port) (t : Tag) (o : ReqOp) (posted : Bool) (g : Option RegionIx) :
    Control (s.enqueue p t o posted g) (s.letIn p t o posted g) := by
  unfold State.letIn
  dsimp only
  split
  · split
    · exact control_setBank _ _ _ (idleNext_core ..).1 (.inl (idleNext_core ..).2.1.symm)
    · split
      · exact (control_carryOut ..).trans (control_settle _)
      · exact control_carryOut ..
  · exact .refl _

/-- What a REQUEST of port `p` and kind byte `k` leaves as it is. -/
structure LeavesRest (p : Port) (k : Byte) (s t : State) : Prop where
  array : ArraySideKept s t
  links : ∀ q, q ≠ p → t.link q = { s.link q with errors := (t.link q).errors }
  jobs : k ≠ 13 → t.holds = s.holds ∧ t.repairQueue = s.repairQueue ∧ t.currentJob = s.currentJob ∧
    t.repairBuffer = s.repairBuffer ∧ t.scrub = { s.scrub with timer := t.scrub.timer } ∧ ∀ b, BankEased (s.bank b) (t.bank b)
  registers : k ≠ 13 → k ≠ 17 → StampsBelowCounter s → t.settings = s.settings ∧ t.checks = s.checks ∧ t.refresh = s.refresh ∧
    t.scrub = s.scrub ∧ t.detached = s.detached ∧ ∀ q, q ≠ p → t.link q = s.link q ∧ t.queue q = s.queue q
  tables : k ≠ 9 → k ≠ 11 → k ≠ 13 → t.watches = s.watches ∧ ∀ q, q ≠ p → t.noticeQ q = s.noticeQ q
  claim : k ≠ 11 → k ≠ 13 → k ≠ 15 → k ≠ 16 → k ≠ 17 → t.claim = s.claim
  regions : (k = 4 ∨ k = 9 ∨ k = 10 ∨ k = 12 ∨ k = 14 ∨ k = 15 ∨ k = 16 ∨ k = 17 ∨ k = 18) → t.regions = s.regions

/-- A REQUEST that is not admitted changes its link, and its port's notices at most. -/
theorem LeavesRest.of_link {p : Port} {s t : State} {l : Link} (k : Byte) (h : t = { s.setLink p l with notices := t.notices })
    (hn : ∀ q, q ≠ p → t.noticeQ q = s.noticeQ q) : LeavesRest p k s t := by
  have link : ∀ q, q ≠ p → t.link q = s.link q := fun q hq => by rw [State.link, h]; exact State.link_setLink_of_ne _ hq _
  refine ⟨?_, fun q hq => by rw [link q hq], fun _ => ?_, fun _ _ _ => ?_, fun _ _ _ => ⟨by rw [h]; rfl, hn⟩, fun _ _ _ _ _ => by rw [h]; rfl,
    fun _ => by rw [h]; rfl⟩
  · rw [h]; exact ⟨rfl, rfl, rfl, rfl, rfl, rfl, rfl, rfl, rfl, rfl, rfl, rfl, rfl⟩
  · rw [h]; exact ⟨rfl, rfl, rfl, rfl, rfl, fun _ => .refl _⟩
  · exact ⟨by rw [h]; rfl, by rw [h]; rfl, by rw [h]; rfl, by rw [h]; rfl, by rw [h]; rfl, fun q hq => ⟨link q hq, by rw [State.queue, h]; rfl⟩⟩

theorem noLines_of_code {req : Request} {k : Kind} {o : ReqOp} (hw : WellFormedAs req k o)
    (h : k.code = 4 ∨ k.code = 9 ∨ k.code = 10 ∨ k.code = 12 ∨ k.code = 14 ∨ k.code = 15 ∨ k.code = 16 ∨ k.code = 17 ∨ k.code = 18) :
    o.span = none ∧ k ≠ .repair ∧ k ≠ .regionSet := by
  cases hw with
  | read | write | writePart | fetchAdd | swap | compareSwap | watch | repair | regionSet => exact absurd h (by decide)
  | _ => exact ⟨rfl, nofun, nofun⟩

theorem LeavesRest.admitted {s : State} {p : Port} {req : Request} {k : Kind} {o : ReqOp} {posted : Bool} {g : Option RegionIx}
    (hw : WellFormedAs req k o) (hg : o.span = none → g = none) (t : Tag) :
    LeavesRest p k.code s ((s.accepted p).letIn p t o posted g) := by
  obtain ⟨a, ha⟩ : ∃ a, a = s.accepted p := ⟨_, rfl⟩
  obtain ⟨l, hl⟩ : ∃ l, a = s.setLink p l := ⟨_, ha.trans (accepted_eq s p)⟩
  obtain ⟨e, he⟩ : ∃ e, e = a.enqueue p t o posted g := ⟨_, rfl⟩
  obtain ⟨u, hu⟩ : ∃ u, u = a.letIn p t o posted g := ⟨_, rfl⟩
  have control : Control e u := by rw [he, hu]; exact control_letIn_enqueue ..
  have admission := enqueue_frame a p t o posted g
  rw [← he] at admission
  have newest : e.queue p = a.queue p ++ [a.firstRecord p t o posted g] := by
    rw [State.queue, admission]; exact PerPort.get_set_self ..
  have frame : e = { s.setLink p l with
      stampCounter := e.stampCounter, queues := s.queues.set p (e.queue p), regions := e.regions, quiet := e.quiet
      banks := s.quietBreak.banks } := by
    have stamp : e.stampCounter = a.stampCounter + 1 := by rw [admission]
    have banks : a.quietBreak.banks = s.quietBreak.banks := by rw [hl, quietBreak_setLink]; rfl
    conv_lhs => rw [admission]
    rw [newest, stamp, banks, hl]
    rfl
  have link : ∀ q, q ≠ p → e.link q = s.link q := fun q hq => by rw [State.link, frame]; exact State.link_setLink_of_ne _ hq _
  have queue : ∀ q, q ≠ p → e.queue q = s.queue q := fun q hq => by rw [State.queue, frame]; exact PerPort.get_set_of_ne _ hq _
  have bank : ∀ b, BankEased (s.bank b) (e.bank b) := fun b => by
    rw [State.bank, frame]; exact .quietBreak s b
  have carried : k ≠ .repair → Carried p s.stampCounter k e u := fun hk => by
    have h := letIn_carried hw hk a p t posted g
    have stamp : a.stampCounter = s.stampCounter := by rw [hl]; rfl
    rw [← he, ← hu, stamp] at h
    exact h
  have isKind : ∀ (x : Kind) (n : Byte), x.code = n → k.code ≠ n → k ≠ x := fun x n hx hn e => hn (e ▸ hx)
  rw [← ha, ← hu]
  refine ⟨?_, fun q hq => ?_, fun h13 => ?_, fun h13 h17 hs => ?_, fun h9 h11 h13 => ?_, fun h11 h13 h15 h16 h17 => ?_, fun hc => ?_⟩
  · have side : ArraySideKept s e := by rw [frame]; exact ⟨rfl, rfl, rfl, rfl, rfl, rfl, rfl, rfl, rfl, rfl, rfl, rfl, rfl⟩
    exact side.trans (.of_control control)
  · exact Link.eq_of_core ((control.link q).trans (congrArg Link.core (link q hq)))
  · have c := carried (isKind .repair 13 rfl h13)
    have scrub : e.scrub = s.scrub := by rw [frame]; rfl
    refine ⟨c.holds.trans (by rw [frame]; rfl), c.repairQueue.trans (by rw [frame]; rfl), c.currentJob.trans (by rw [frame]; rfl),
      c.repairBuffer.trans (by rw [frame]; rfl), scrub ▸ c.scrub, fun b => (bank b).trans (c.banks b)⟩
  · obtain ⟨h1, h2, h3, h4, h5, h6, h7⟩ := (carried (isKind .repair 13 rfl h13)).registers (isKind .set 17 rfl h17)
    have older : ∀ x ∈ s.records, x.stamp ≠ s.stampCounter := fun x hx he => absurd (he ▸ hs x hx) (BitVec.lt_irrefl _)
    have detached : e.detached = s.detached := by rw [frame]; rfl
    refine ⟨h1.trans (by rw [frame]; rfl), h2.trans (by rw [frame]; rfl), h3.trans (by rw [frame]; rfl), h4.trans (by rw [frame]; rfl),
      (h7 fun x hx => older x (mem_records_iff.mpr (.inr (detached ▸ hx)))).trans detached, fun q hq => ⟨?_, ?_⟩⟩
    · exact (congrArg (PerPort.get · q) h5).trans (link q hq)
    · exact (h6 q fun x hx => older x (mem_records_iff.mpr (.inl ⟨q, queue q hq ▸ hx⟩))).trans (queue q hq)
  · obtain ⟨h1, h2⟩ := (carried (isKind .repair 13 rfl h13)).tables (isKind .unwatch 9 rfl h9) (isKind .regionSet 11 rfl h11)
    exact ⟨h1.trans (by rw [frame]; rfl), fun q hq => (h2 q hq).trans (by rw [State.noticeQ, frame]; rfl)⟩
  · exact ((carried (isKind .repair 13 rfl h13)).claim (isKind .regionSet 11 rfl h11) (isKind .claim 15 rfl h15)
      (isKind .release 16 rfl h16) (isKind .set 17 rfl h17)).trans (by rw [frame]; rfl)
  · obtain ⟨hspan, hr, hset⟩ := noLines_of_code hw hc
    obtain rfl := hg hspan
    refine ((carried hr).regions hset).trans ?_
    rw [he, enqueue_regions_none, hl]
    rfl

theorem receive_leavesRest (s : State) (p : Port) (k : Byte) (r : Request) : LeavesRest p k s (s.receive p k r) := by
  have h := received s p k r
  generalize s.receive p k r = t at h ⊢
  cases h with
  | offline => exact .of_link (l := s.link p) k (by rw [setLink_link]) fun _ _ => rfl
  | discarded => rw [heardDiscard_eq]; exact .of_link k rfl fun _ _ => rfl
  | refused st => rw [addRefusal_accepted]; exact .of_link k rfl fun _ _ => rfl
  | noticed st =>
    rw [accepted_eq]
    refine .of_link k (placeNotice_frame ..) fun q hq => ?_
    rw [noticeQ_placeNotice, if_neg fun e => hq e.1]
    rfl
  | admitted o posted g _ _ hv =>
    obtain ⟨⟨kind, hk, hw⟩, hg⟩ := verdict_accept_form hv
    rw [hk]
    exact .admitted hw hg r.tag

/-- Settles O50. -/
theorem requestsLeaveTheRest : Obligations.RequestsLeaveTheRest := by
  intro c dt p k r s t hc hexec
  have rest := receive_leavesRest (s.passTime dt) p k r
  have ht : t = (s.passTime dt).receive p k r := next_inj ((exec_requestRow hc s).symm.trans hexec)
  rw [← ht] at rest
  obtain ⟨n, e⟩ := s.passTime_exists dt
  rw [e] at rest
  obtain ⟨array, links, jobs, registers, tables, claim, regions⟩ := rest
  refine ⟨⟨array.pending, array.resetN, array.hotPin, array.mem, array.window, array.pathBusy, array.remap, array.debt, array.urgentAt,
    array.rotation, array.quarter, array.sweepDone, array.sweepAt⟩, links, fun h => ?_, registers, tables, claim, regions⟩
  obtain ⟨h1, h2, h3, h4, h5, h6⟩ := jobs h
  exact ⟨h1, h2, h3, h4, h5, fun b => (h6 b).eased⟩

end Sys2Proof.Machine
end

section
/-! PROOFS. A memory request or WATCH that every check passes joins its queue (R27, R28, R34, R35, R155). -/

namespace Sys2Proof.Machine

section

variable {s : State} {p : Port} {r : Request} {k : Kind} {o : ReqOp} {l : LineId} {n : Nat} {g : RegionIx}

/-- The checks of Table 16, all passed by a request with lines. -/
theorem verdict_memory (h : WellShaped s p k r o) (hx : o.crossesRow = false) (hspan : o.span = some (l, n))
    (hc : s.coveringRegion (linePage l) = some g) (hg : (s.region g).state = .active) (ha : (s.region g).body.allows p o = true)
    (ht : s.tagBusy p r.tag = false ∨ (r.posted = true ∧ (s.region g).body.posting = true)) :
    s.verdict p k.code r = .accept o (r.posted && (s.region g).body.posting) (some g) := by
  have tag : (!r.posted && s.tagBusy p r.tag) = false := by
    rcases ht with ht | ⟨ht, -⟩
    · rw [ht, Bool.and_false]
    · rw [ht]; rfl
  have hd : (s.region g).state ≠ .draining := by rw [hg]; decide
  rw [verdict_shaped h, hx, tag, hspan]
  show s.regionVerdict p r.tag r.posted o (linePage l) = _
  unfold State.regionVerdict
  rw [hc]
  dsimp only
  rw [if_neg hd, ha, if_neg nofun]
  cases hp : r.posted
  · rfl
  · cases hb : (s.region g).body.posting
    · rw [hp, hb] at ht
      have : s.tagBusy p r.tag = false := ht.resolve_right fun e => nomatch e.2
      rw [this]
      rfl
    · rfl

theorem receive_accepted {c : Byte} {posted : Bool} {i : Option RegionIx} (ho : s.online p = true) (hs : r.seq = (s.link p).expected)
    (hv : s.verdict p c r = .accept o posted i) : s.receive p c r = (s.accepted p).letIn p r.tag o posted i := by
  have hva : ((s.heard p).acceptPacket p).verdict p c r = .accept o posted i := hv
  unfold State.receive State.decideRequest
  rw [if_pos ho, discards_accepted hs hv, hva]
  rfl

end

/-! ## The new record -/

theorem review_blocked {s : State} {x : Record} {c : BlockReason} (hw : x.state = .waiting) (h : s.blockReason x = some c) :
    s.review x = { x with state := .waiting, blocked := some c } := by
  unfold State.review
  rw [hw, h]

/-- The record as it joins: as admission makes it, but for its state and its reason. -/
theorem firstRecord_eq (s : State) (p : Port) (t : Tag) (o : ReqOp) (posted : Bool) (g : Option RegionIx) :
    s.firstRecord p t o posted g = { s.newRecord p t o posted g with
      state := if s.blockReason (s.newRecord p t o posted g) = none then .ready else .waiting
      blocked := s.blockReason (s.newRecord p t o posted g) } := by
  have same := blockReason_quietBreak s (s.newRecord p t o posted g)
  unfold State.firstRecord
  by_cases h : s.blockReason (s.newRecord p t o posted g) = none
  · rw [if_pos h, review_unblocked rfl (same.trans h), h]
  · obtain ⟨c, hc⟩ := Option.ne_none_iff_exists'.mp h
    rw [if_neg h, review_blocked rfl (same.trans hc), hc]

theorem blockReason_asleep {s : State} {x : Record} (ha : s.asleep = true) (hx : x.op.isArray = true) :
    s.blockReason x = some .retention := by
  unfold State.blockReason
  rw [ha, hx]
  rfl

theorem isArray_of_span {o : ReqOp} {l : LineId} {n : Nat} (h : o.span = some (l, n)) : o.isArray = true := by
  cases e : o.isArray
  · rw [(isArray_eq_false.mp e).1] at h; cases h
  · rfl

/-! ## The joining -/

theorem quietBreak_congr {u v : State} (hq : u.quiet = v.quiet) (hb : u.banks = v.banks) :
    u.quietBreak.quiet = v.quietBreak.quiet ∧ u.quietBreak.banks = v.quietBreak.banks := by
  unfold State.quietBreak
  rw [hq]
  split
  · exact ⟨rfl, hb⟩
  · exact ⟨rfl, congrArg (fun bs : Table 16 Bank => Table.ofFn fun b => (bs.get b).withRetention false) hb⟩
  all_goals exact ⟨hq, hb⟩

theorem AdmissionEnds.congr_marks {s u v : State} (h : AdmissionEnds s u) (hq : v.quiet = u.quiet)
    (hb : ∀ b, (v.bank b).marks = (u.bank b).marks) : AdmissionEnds s v :=
  ⟨hq ▸ h.settling, fun he => ⟨hq ▸ (h.entering he).1, fun b => hb b ▸ (h.entering he).2 b⟩, hq ▸ h.active⟩

theorem wakeCause_quiet_congr {u v : State} (h : u.quiet = v.quiet) (c : WakeCause) (p : Port) :
    (u.wakeCause c p).quiet = (v.wakeCause c p).quiet := by
  unfold State.wakeCause
  rw [h]
  split <;> simp [h]

/-- The state in which a record with lines has joined. -/
theorem enqueue_lines (s : State) (p : Port) (t : Tag) {o : ReqOp} (ho : o.isArray = true) (posted : Bool) (g : RegionIx) :
    s.enqueue p t o posted (some g) = { s with
      stampCounter := s.stampCounter + 1, queues := s.queues.set p (s.queue p ++ [s.firstRecord p t o posted (some g)])
      regions := s.regions.set g { s.region g with inFlight := (s.region g).inFlight + 1 }
      quiet := (s.quietBreak.wakeCause .request p).quiet, banks := s.quietBreak.banks } := by
  have frame := enqueue_frame s p t o posted (some g)
  have regions : (s.enqueue p t o posted (some g)).regions =
      s.regions.set g { s.region g with inFlight := (s.region g).inFlight + 1 } := by
    rw [enqueue_eq, if_pos ho, wakeCause_frame]
    show s.quietBreak.regions.set g _ = _
    rw [quietBreak_frame]
    rfl
  have quiet : (s.enqueue p t o posted (some g)).quiet = (s.quietBreak.wakeCause .request p).quiet := by
    rw [enqueue_eq, if_pos ho]
    exact wakeCause_quiet_congr (joined_eqs ..).2.2.1 .request p
  rw [frame, regions, quiet]

/-- What the letting in of a record with lines leaves: its bank's idle timer may stop. -/
theorem letIn_lines {s : State} {p : Port} {t : Tag} {o : ReqOp} {l : LineId} {n : Nat} (hs : o.span = some (l, n)) (posted : Bool)
    (g : Option RegionIx) : s.letIn p t o posted g = if (s.firstRecord p t o posted g).state = .ready then
      (s.enqueue p t o posted g).setBank (lineBank l)
        ((s.enqueue p t o posted g).idleNext (lineBank l) ((s.enqueue p t o posted g).bank (lineBank l)))
      else s.enqueue p t o posted g := by
  unfold State.letIn
  rw [hs]
  rfl

theorem idleNext_wanted {s : State} {b : BankId} {x : Bank} {row : RowId} (hx : x.state = .opened) (ho : x.openRow = some row)
    (hw : s.rowWanted b row = true) : (s.idleNext b x).idle = .stopped := by
  unfold State.idleNext
  rw [hx, ho]
  dsimp only
  rw [hw, Bool.or_true]
  rfl

theorem rowWanted_of {s : State} {x : Record} (hx : x ∈ s.records) (hr : x.state = .ready) {l : LineId} {n : Nat}
    (hs : x.op.span = some (l, n)) : s.rowWanted (lineBank l) (lineRow l) = true := by
  refine List.any_eq_true.mpr ⟨x, hx, ?_⟩
  simp [Record.isReady, hr, Record.onRow, hs]

/-- The letting in of a record with lines is its joining, but for its bank's idle timer. -/
theorem letIn_lines_frame {s : State} {p : Port} {t : Tag} {o : ReqOp} {l : LineId} {n : Nat} (hs : o.span = some (l, n))
    (posted : Bool) (g : Option RegionIx) :
    s.letIn p t o posted g = { s.enqueue p t o posted g with banks := (s.letIn p t o posted g).banks } := by
  rw [letIn_lines hs]
  split <;> rfl

/-- The letting in leaves every bank but its idle timer as the acceptance leaves it. -/
theorem letIn_lines_marks {s : State} {p : Port} {t : Tag} {o : ReqOp} {l : LineId} {n : Nat} (hs : o.span = some (l, n))
    (posted : Bool) (g : Option RegionIx) (b : BankId) :
    ((s.letIn p t o posted g).bank b).marks = (s.quietBreak.bank b).marks := by
  rw [letIn_lines hs, ← bank_enqueue s p t o posted g b]
  split
  · by_cases hb : b = lineBank l
    · rw [hb, State.bank_setBank_self]
      exact (idleNext_core ..).2.2
    · rw [State.bank_setBank_of_ne _ hb]
  · rfl

theorem letIn_lines_idle {s : State} {p : Port} {t : Tag} {o : ReqOp} {l : LineId} {n : Nat} (hs : o.span = some (l, n))
    (posted : Bool) (g : RegionIx) (hr : (s.firstRecord p t o posted (some g)).state = .ready)
    (ho : (s.bank (lineBank l)).state = .opened) (hrow : (s.bank (lineBank l)).openRow = some (lineRow l)) :
    ((s.letIn p t o posted (some g)).bank (lineBank l)).idle = .stopped := by
  obtain ⟨m, hm⟩ := quietBreak_bank s (lineBank l)
  have bank := (bank_enqueue s p t o posted (some g) (lineBank l)).trans hm
  have joins : s.firstRecord p t o posted (some g) ∈ (s.enqueue p t o posted (some g)).records := by
    refine mem_records (p := p) ?_
    rw [enqueue_frame]
    show _ ∈ (s.queues.set p _).get p
    rw [PerPort.get_set_self]
    exact List.mem_append_right _ (List.mem_singleton_self _)
  have span : (s.firstRecord p t o posted (some g)).op.span = some (l, n) := by
    rw [firstRecord_eq]
    exact hs
  rw [letIn_lines hs, if_pos hr, State.bank_setBank_self, bank]
  exact idleNext_wanted ho hrow (rowWanted_of joins hr span)

/-- Settles O15. -/
theorem memoryRequestJoinsItsQueue : Obligations.MemoryRequestJoinsItsQueue := by
  intro i dt p k r o l n g s hi hon hseq hroom hsweep hpost hform hcross hspan hcov hact hallow htag
  have hexec := exec_requestRow (memoryRow_requestRow hi) s
  obtain ⟨m, e⟩ := s.passTime_exists dt
  rw [e] at hexec ⊢
  have shaped : WellShaped s p k r o := ⟨hroom, fun _ => hsweep, formed_iff.mpr hform, fun hp => mayPost_iff.mp (hpost hp)⟩
  have verdict := verdict_memory (s := s) shaped hcross hspan hcov hact hallow htag
  obtain ⟨b, hb⟩ : ∃ b, b = (r.posted && (s.region g).body.posting) := ⟨_, rfl⟩
  rw [← hb] at verdict ⊢
  rw [receive_accepted (s := s.atInstant m) hon hseq verdict] at hexec
  have array : o.isArray = true := isArray_of_span hspan
  obtain ⟨a, ha⟩ : ∃ a, a = (s.atInstant m).accepted p := ⟨_, rfl⟩
  have accepted : a = (s.atInstant m).setLink p ((s.link p).acceptedAt m) := ha.trans (accepted_eq ..)
  rw [← ha] at hexec
  obtain ⟨fresh, hfresh⟩ : ∃ y, y = a.newRecord p r.tag o b (some g) := ⟨_, rfl⟩
  have record := firstRecord_eq a p r.tag o b (some g)
  rw [← hfresh] at record
  have reason : a.blockReason fresh = s.blockReason fresh := by rw [accepted]; rfl
  rw [reason] at record
  obtain ⟨x, hx⟩ : ∃ x, x = a.firstRecord p r.tag o b (some g) := ⟨_, rfl⟩
  rw [← hx] at record
  have again : s.blockReason x = s.blockReason fresh := by rw [record]; rfl
  have blocked : x.blocked = s.blockReason x := by rw [again, record]
  obtain ⟨t, ht⟩ : ∃ t, t = a.letIn p r.tag o b (some g) := ⟨_, rfl⟩
  have frame := letIn_lines_frame (s := a) (p := p) (t := r.tag) hspan b (some g)
  rw [← ht, enqueue_lines a p r.tag array b g, ← hx] at frame
  obtain ⟨sameQuiet, sameBanks⟩ := quietBreak_congr (u := a) (v := s) (by rw [accepted]; rfl) (by rw [accepted]; rfl)
  have quiet : t.quiet = (s.quietBreak.wakeCause .request p).quiet := by
    rw [frame]
    exact wakeCause_quiet_congr sameQuiet .request p
  have marks : ∀ b, (t.bank b).marks = (s.quietBreak.bank b).marks := fun b' => by
    rw [ht, letIn_lines_marks hspan, State.bank, sameBanks, State.bank]
  have wakes := wakeCause_frame s.quietBreak .request p
  have admission : AdmissionEnds s t := by
    refine (admissionEnds_wake (admissionEnds_quietBreak s) (readied_part_retained p r.tag o).mp .request p).congr_marks quiet fun b' => ?_
    rw [marks, State.bank, State.bank, wakes]
  have link : t.link p = (s.link p).acceptedAt m := by
    rw [State.link, frame]
    show a.link p = _
    rw [ha, link_accepted]; rfl
  refine ⟨t, x, ?_, ?_, ?_, ?_, ?_, ?_, ?_, ?_, ?_, ?_, ?_, ?_, blocked, ?_, fun h => ?_, fun c h => ?_, fun h => ?_,
    fun h ho hrow => ?_, ?_, ?_, ?_, fun q hq => ⟨?_, ?_⟩, fun j hj => ?_, ?_, ?_, ?_, admission, ?_, ?_, fun h => ?_⟩
  · rw [hexec, ht]
  · rw [State.queue, frame]
    show (a.queues.set p _).get p = _
    rw [PerPort.get_set_self, accepted]; rfl
  · rw [record, hfresh]; rfl
  · rw [record, hfresh]; rfl
  · rw [record, hfresh]; rfl
  · rw [record, hfresh]; rfl
  · rw [record, hfresh]; rfl
  · rw [record, hfresh, accepted]; rfl
  · rw [record, hfresh]; rfl
  · rw [record, hfresh]; rfl
  · rw [record, hfresh]; rfl
  · rw [record, hfresh, accepted]; rfl
  · rw [blocked, again, record]
  · rw [blocked, blockReason_none h]
  · rw [blocked, blockReason_some h]
  · rw [blocked, blockReason_asleep h (by rw [record, hfresh]; exact array)]
  · have bank : a.bank (lineBank l) = s.bank (lineBank l) := by rw [accepted]; rfl
    rw [ht]
    exact letIn_lines_idle hspan b g (hx ▸ h) (bank ▸ ho) (bank ▸ hrow)
  · rw [frame, accepted]; rfl
  · rw [State.region, frame]
    show ((a.regions.set g _).get g).inFlight = _
    rw [Table.get_set_self, accepted]; rfl
  · rw [link]; rfl
  · rw [State.queue, frame]
    show (a.queues.set p _).get q = _
    rw [PerPort.get_set_of_ne _ hq, accepted]; rfl
  · rw [State.link, frame]
    show a.link q = _
    rw [accepted, State.link_setLink_of_ne _ hq]; rfl
  · rw [State.region, frame]
    show (a.regions.set g _).get j = _
    rw [Table.get_set_of_ne _ hj, accepted]; rfl
  · rw [frame, accepted]; rfl
  · rw [frame, accepted]; rfl
  · rw [frame, accepted]; rfl
  · rw [link]; rfl
  · rw [link]; rfl
  · have still : s.quietBreak = s := quietBreak_else (by rw [h]; decide) (by rw [h]; decide)
    rw [quiet, still, wakeCause_retained h]
    exact ⟨rfl, rfl⟩

end Sys2Proof.Machine
end

section
/-! PROOFS. FENCE: its admission, what waits behind it, and what is carried out at its end (R27, R37, R38, R42). -/

namespace Sys2Proof.Machine

/-! ## What waits for a FENCE -/

/-- Only a FENCE before it can hold back a record that is of no line, no REPAIR and no FENCE. -/
theorem not_heldBack_of_noFence {s : State} {x : Record} (ha : x.op.isArray = false) (hf : x.op ≠ .fence)
    (hn : ∀ q, EarlierUndone s x q → q.op ≠ .fence) (c : BlockReason) : ¬ HeldBack s x c := by
  have hs : x.op.span = none := (isArray_eq_false.mp ha).1
  intro hc
  cases c with
  | retention =>
    have := heldBack_retention.mpr hc
    rw [ha] at this
    cases this
  | fence =>
    obtain ⟨q, hq, he⟩ := hc
    exact hn q hq he
  | order =>
    obtain ⟨q, -, ⟨a, n, b, m, hspan, -⟩ | he⟩ := hc
    · cases hs.symm.trans hspan
    · exact hf he
  | hold =>
    obtain ⟨a, n, hspan, -⟩ := hc
    cases hs.symm.trans hspan
  | bank =>
    obtain ⟨a, n, c, hspan, -⟩ := hc
    cases hs.symm.trans hspan

/-- A FENCE with no earlier record undone is held back by nothing. -/
theorem not_heldBack_fence {s : State} {x : Record} (hf : x.op = .fence) (hn : ∀ q, ¬ EarlierUndone s x q) (c : BlockReason) :
    ¬ HeldBack s x c := by
  intro hc
  cases c with
  | retention =>
    have := heldBack_retention.mpr hc
    rw [hf] at this
    cases this
  | fence => obtain ⟨q, hq, -⟩ := hc; exact hn q hq
  | order => obtain ⟨q, hq, -⟩ := hc; exact hn q hq
  | hold => obtain ⟨a, n, hspan, -⟩ := hc; rw [hf] at hspan; cases hspan
  | bank => obtain ⟨a, n, c, hspan, -⟩ := hc; rw [hf] at hspan; cases hspan

/-! ## Admission -/

section

variable {s : State} {p : Port} {r : Request} {k : Kind} {o : ReqOp}

/-- A control request that nothing holds back is carried out as it arrives. -/
theorem receive_unblocked (h : ControlAdmitted s p r) (hw : WellFormedAs r k o) (ha : o.isArray = false) (hk : k ≠ .repair)
    (hb : s.blockReason (s.newRecord p r.tag o false none) = none) (hl : o = .fence) :
    s.receive p k.code r = (s.readied p r.tag o).carryOut (s.readyRecord p r.tag o) := by
  have hr : (s.accepted p).quietBreak.review ((s.accepted p).newRecord p r.tag o false none) = s.readyRecord p r.tag o :=
    review_unblocked rfl ((blockReason_quietBreak ..).trans hb)
  rw [receive_control h hw (isArray_eq_false.mp ha).1 fun e => absurd e hk]
  show (s.accepted p).letIn p r.tag o false none = _
  unfold State.letIn
  dsimp only
  rw [enqueue_accepted ha hb, hr, hl]
  rfl

/-- Behind an undone record of its port a FENCE waits. -/
theorem receive_fence_waits (h : ControlAdmitted s p r) (hst : StampsBelowCounter s) {q : Record} (hq : q ∈ s.queue p)
    (hu : q.isDone = false) : ∃ c, (c = .order ∨ c = .fence) ∧ JoinsWaiting s (s.receive p Kind.fence.code r) p r.tag .fence c := by
  obtain ⟨x, hx⟩ : ∃ x, x = s.newRecord p r.tag .fence false none := ⟨_, rfl⟩
  have awake : ¬ HeldBack s x .retention := fun e => by
    have := heldBack_retention.mpr e
    rw [hx] at this
    cases this
  have earlier : EarlierUndone s x q := by
    rw [hx]
    exact ⟨Or.inl hq, hst q (mem_records hq), of_decide_eq_false hu⟩
  have waits : ∀ c, c ≠ .retention → FirstReason s x c → JoinsWaiting s (s.receive p Kind.fence.code r) p r.tag .fence c :=
    fun c hc hr => receive_waits h .fence rfl nofun (hx ▸ hr) fun _ => ⟨nofun, fun e => absurd e hc⟩
  by_cases hf : HeldBack s x .fence
  · refine ⟨.fence, Or.inr rfl, waits _ nofun ⟨hf, fun d hd => ?_⟩⟩
    cases d <;> first | exact awake | exact absurd hd (by decide)
  · refine ⟨.order, Or.inl rfl, waits _ nofun ⟨⟨q, earlier, Or.inr (by rw [hx]; rfl)⟩, fun d hd => ?_⟩⟩
    cases d <;> first | exact awake | exact hf | exact absurd hd (by decide)

/-- Behind an undone FENCE of its port a control request waits. -/
theorem receive_behind_fence (h : ControlAdmitted s p r) (hw : WellFormedAs r k o) (hs : o.span = none)
    (hk : k = .repair → s.scrub.sweepDone = true ∧ s.asleep = false) (hst : StampsBelowCounter s)
    {q : Record} (hq : q ∈ s.queue p ∨ q ∈ s.detached ∧ q.port = p) (hf : q.op = .fence) (hu : q.state ≠ .done) :
    JoinsWaiting s (s.receive p k.code r) p r.tag o .fence := by
  have plain : s.asleep = true → o.isArray = false := fun ha => by
    refine isArray_eq_false.mpr ⟨hs, ?_⟩
    cases hw <;> first | rfl | exact absurd ha (by rw [(hk rfl).2]; nofun)
  have record : q ∈ s.records := by
    rcases hq with hq | ⟨hq, -⟩
    · exact mem_records hq
    · exact mem_records_iff.mpr (Or.inr hq)
  refine receive_waits h hw hs (fun e => (hk e).1) ⟨⟨q, ⟨hq, hst q record, hu⟩, hf⟩, fun d hd => ?_⟩
    fun ha => ⟨fun e => (by rw [plain ha] at e; cases e), nofun⟩
  cases d with
  | retention =>
    intro hc
    have both := heldBack_retention.mpr hc
    rw [Bool.and_eq_true] at both
    have := plain both.2
    rw [show o.isArray = true from both.1] at this
    cases this
  | fence => exact absurd hd (by decide)
  | order => exact absurd hd (by decide)
  | hold => exact absurd hd (by decide)
  | bank => exact absurd hd (by decide)

end

/-! ## The blocks evaluated anew with nothing to carry out -/

section

variable {s : State}

theorem reviewScrub_frame (s : State) : s.reviewScrub = { s with scrub := s.reviewScrub.scrub } := by
  unfold State.reviewScrub
  split <;> rfl

/-- After the records have been carried out, the rest changes the scrubber, the banks and the quiet controller alone. -/
theorem settle_kept (s : State) : s.settle.queues = (s.drive s.recordCount).queues ∧
    s.settle.detached = (s.drive s.recordCount).detached ∧ s.settle.holds = (s.drive s.recordCount).holds ∧
    s.settle.mem = (s.drive s.recordCount).mem ∧ s.settle.regions = (s.drive s.recordCount).regions ∧
    s.settle.claim = (s.drive s.recordCount).claim ∧ s.settle.currentJob = (s.drive s.recordCount).currentJob := by
  unfold State.settle
  rw [reviewQuiet_frame, reviewScrub_frame]
  exact ⟨rfl, rfl, rfl, rfl, rfl, rfl, rfl⟩

theorem rowWanted_iff {b : BankId} {row : RowId} : s.rowWanted b row = true ↔ RowWantedBy s b row := by
  unfold State.rowWanted RowWantedBy Record.onRow Record.isReady Record.isActive
  rw [List.any_eq_true]
  refine exists_congr fun x => and_congr_right fun _ => ?_
  rw [Bool.and_eq_true, Bool.or_eq_true, decide_eq_true_eq, decide_eq_true_eq]
  refine and_congr_right fun _ => ?_
  cases hs : x.op.span with
  | none => simp
  | some y => obtain ⟨a, n⟩ := y; simp

theorem idleNext_shut {b : BankId} {x : Bank} (h : x.state ≠ .opened) : (s.idleNext b x).idle = .stopped := by
  unfold State.idleNext
  split
  · rename_i e _; exact absurd e h
  · rfl

section

variable {b : BankId} {x : Bank} {row : RowId}

theorem idleNext_held (hx : x.state = .opened) (ho : x.openRow = some row)
    (h : (s.repairPhase b).isSome = true ∨ s.rowWanted b row = true) : (s.idleNext b x).idle = .stopped := by
  unfold State.idleNext
  rw [hx, ho]
  dsimp only
  rw [if_pos (Bool.or_eq_true_iff.mpr h)]

/-- The timer of an open row that none wants and no repair holds runs on, or starts from STOPPED where no warm reset stopped it. -/
theorem idleNext_free (hx : x.state = .opened) (ho : x.openRow = some row) (hr : s.repairPhase b = none)
    (hw : s.rowWanted b row = false) :
    (s.idleNext b x).idle = if x.idle = .stopped ∧ x.idleReset = false then s.idleStart else x.idle := by
  unfold State.idleNext
  rw [hx, ho]
  dsimp only
  rw [hr, hw, if_neg nofun]
  cases hi : x.idle with
  | stopped => cases he : x.idleReset <;> simp [hi]
  | running d => simp [hi]
  | expired => simp [hi]

end

/-- A bank's idle timer evaluated anew. -/
theorem settle_idle (h : NoneToCarryOut s) (b : BankId) : ((s.bank b).state ≠ .opened → (s.settle.bank b).idle = .stopped) ∧
    ∀ row, (s.bank b).state = .opened → (s.bank b).openRow = some row →
      ((s.repairPhase b).isSome = true ∨ RowWantedBy s.settle b row → (s.settle.bank b).idle = .stopped) ∧
      (s.repairPhase b = none → ¬ RowWantedBy s.settle b row →
        (s.bank b).idle ≠ .stopped → (s.settle.bank b).idle = (s.bank b).idle) ∧
      (s.repairPhase b = none → ¬ RowWantedBy s.settle b row → (s.bank b).idle = .stopped → (s.bank b).idleReset = false →
        (s.settle.bank b).idle = if s.settings.closeIdle = 0 then .expired else .running (s.now + ns s.settings.closeIdle)) := by
  obtain ⟨u, hu⟩ : ∃ u, u = s.reviewRecords.reviewScrub := ⟨_, rfl⟩
  have whole : s.settle = u.reviewIdle.reviewQuiet := by rw [hu, settle_noneToCarryOut h]
  have frame := reviewScrub_frame s.reviewRecords
  rw [← hu] at frame
  have bank : u.bank b = s.bank b := by rw [State.bank, frame]; rfl
  have phase : u.repairPhase b = s.repairPhase b := by rw [frame]; rfl
  have start : u.idleStart = if s.settings.closeIdle = 0 then .expired else .running (s.now + ns s.settings.closeIdle) := by
    rw [frame]; rfl
  have idle : (s.settle.bank b).idle = (u.idleNext b (s.bank b)).idle := by
    obtain ⟨m, hm⟩ := reviewQuiet_bank u.reviewIdle b
    rw [whole, hm, State.reviewIdle, State.bank_mapBanks, bank]
    rfl
  have wanted : ∀ row, u.rowWanted b row = true ↔ RowWantedBy s.settle b row := fun row => by
    rw [rowWanted_iff, whole, reviewQuiet_frame]
    exact Iff.rfl
  rw [idle]
  refine ⟨idleNext_shut, fun row hx ho => ⟨fun hw => ?_, fun hr hw hi => ?_, fun hr hw hi he => ?_⟩⟩
  · exact idleNext_held hx ho (by rw [phase, wanted]; exact hw)
  · rw [idleNext_free hx ho (phase.trans hr) (Bool.eq_false_iff.mpr fun e => hw ((wanted row).mp e)), if_neg fun e => hi e.1]
  · rw [idleNext_free hx ho (phase.trans hr) (Bool.eq_false_iff.mpr fun e => hw ((wanted row).mp e)), if_pos ⟨hi, he⟩, start]

end

end Sys2Proof.Machine
end

section
/-! PROOFS. What the end of a FENCE's wait carries out: the FENCE, and a CLAIM behind it (R38, R42, R177). -/

namespace Sys2Proof.Machine

/-! ## The one record to carry out -/

section

variable {s : State} {x : Record}

/-- Where one READY record alone needs no line access, it is the next. -/
theorem nextControl_of {p : Port} (hx : x ∈ s.queue p) (hr : (x.isReady && x.op.isControl) = true)
    (only : ∀ q, ∀ y ∈ s.queue q, (y.isReady && y.op.isControl) = true → y = x) : s.nextControl = some x := by
  have all : ∀ y ∈ Port.all.filterMap s.nextOfPort, y = x := fun y hy => by
    obtain ⟨q, -, hq⟩ := List.mem_filterMap.mp hy
    have found : (s.queue q).find? (fun r => r.isReady && r.op.isControl) = some y := hq
    have ready := List.find?_some found
    exact only q y (List.mem_of_find?_eq_some found) ready
  have some_ : Port.all.filterMap s.nextOfPort ≠ [] := fun e => by
    have none : s.nextOfPort p = none := List.filterMap_eq_nil_iff.mp e p (by cases p <;> decide)
    exact List.find?_eq_none.mp none x hx hr
  unfold State.nextControl
  cases h : Port.all.filterMap s.nextOfPort with
  | nil => exact absurd h some_
  | cons y t =>
    rw [h] at all
    have head : y = x := all y List.mem_cons_self
    cases t with
    | nil => rw [head]
    | cons z t =>
      dsimp only
      rw [List.getD_eq_getElem?_getD]
      cases hi : (y :: z :: t)[Config.portOrder s.freeCount % (t.length + 2)]? with
      | none => rw [head]; rfl
      | some w => rw [all w (List.mem_of_getElem? hi)]; rfl

/-- A WAITING control record that nothing holds back is the next to carry out, where no other is to be carried out. -/
theorem nextControl_review {p : Port} (hx : x ∈ s.queue p) (hs : x.op.span = none) (hw : x.state = .waiting)
    (hb : ∀ c, ¬ HeldBack s x c)
    (others : ∀ q, ∀ y ∈ s.queue q, y.op.span = none → y = x ∨ y.state = .active ∨ y.state = .done ∨ ∃ c, HeldBack s y c) :
    s.reviewRecords.nextControl = some { x with state := .ready, blocked := none } := by
  have review := review_unblocked hw (blockReason_none hb)
  have control : ∀ o : ReqOp, o.isControl = true ↔ o.span = none := fun o => by simp [ReqOp.isControl, ReqOp.usesLines]
  rw [← review]
  refine nextControl_of (p := p) ?_ ?_ fun q z hz hr => ?_
  · rw [reviewRecords_queue]
    exact List.mem_map_of_mem hx
  · rw [review]
    exact (control x.op).mpr hs
  · rw [reviewRecords_queue] at hz
    obtain ⟨y, hy, rfl⟩ := List.mem_map.mp hz
    rw [Bool.and_eq_true] at hr
    obtain ⟨ready, ctl⟩ := hr
    have reviewed := reviewed_review (s := s) y
    have op : (s.review y).op = y.op := by rw [reviewed.same]
    have state : (s.review y).state = .ready := of_decide_eq_true ready
    by_cases ha : y.state = .active
    · rw [reviewed.fixed (Or.inl ha), ha] at state; cases state
    by_cases hd : y.state = .done
    · rw [reviewed.fixed (Or.inr hd), hd] at state; cases state
    rcases others q y hy ((control y.op).mp (op ▸ ctl)) with h | h | h | ⟨c, h⟩
    · rw [h]
    · exact absurd h ha
    · exact absurd h hd
    · exact absurd state (review_state_not_ready (blockReason_heldBack h) ha hd)

theorem drive_carries {n : Nat} (h : s.reviewRecords.nextControl = some x) :
    s.drive (n + 1) = State.drive n (({ s.reviewRecords with freeCount := s.freeCount + 1 }).carryOut x) := by
  conv_lhs => unfold State.drive
  dsimp only
  rw [h]
  rfl

/-! ## The records after one is carried out -/

/-- A queue's record after an evaluation that carried out the record of that stamp with that result. -/
def State.driven (s : State) (st : Stamp) (res : Result) (y : Record) : Record :=
  if y.stamp = st then (s.review y).finished s.now res else s.review y

theorem driven_same (st : Stamp) (res : Result) (y : Record) :
    (s.driven st res y).stamp = y.stamp ∧ (s.driven st res y).op = y.op ∧ (s.driven st res y).port = y.port := by
  have same := (reviewed_review (s := s) y).same
  unfold State.driven
  split <;> (rw [same]; exact ⟨rfl, rfl, rfl⟩)

theorem driven_self (res : Result) (y : Record) :
    (s.driven y.stamp res y).state = .done ∧ (s.driven y.stamp res y).doneAt = some s.now ∧
      (s.driven y.stamp res y).result = some res := by
  unfold State.driven
  rw [if_pos rfl]
  exact ⟨rfl, rfl, rfl⟩

theorem driven_fixed {st : Stamp} {res : Result} {y : Record} (hn : y.stamp ≠ st) (h : y.state = .active ∨ y.state = .done) :
    s.driven st res y = y := (if_neg hn).trans ((reviewed_review y).fixed h)

theorem driven_settled {st : Stamp} {res : Result} {y : Record} (h : y.stamp = st ∨ y.state = .active ∨ y.state = .done) :
    (s.driven st res y).state = .active ∨ (s.driven st res y).state = .done := by
  by_cases hn : y.stamp = st
  · rw [← hn]; exact Or.inr (driven_self res y).1
  · have := h.resolve_left hn
    rwa [driven_fixed hn this]

/-- The evaluation that carried out the record of stamp `st` led from `s` to `u`. -/
structure DroveOne (s u : State) (st : Stamp) (res : Result) : Prop where
  queue : ∀ p, u.queue p = (s.queue p).map (s.driven st res)
  detached : u.detached = s.detached.map (fun y => if y.stamp = st then y.finished s.now res else y)
  now : u.now = s.now

theorem DroveOne.finish {s v : State} {st : Stamp} {res : Result} (hq : v.queues = s.reviewRecords.queues)
    (hd : v.detached = s.detached) (hn : v.now = s.now) : DroveOne s (v.finishControl st res) st res := by
  refine ⟨fun p => ?_, ?_, hn⟩
  · unfold State.finishControl State.modRecord
    rw [State.queue_mapRecords, State.queue, hq]
    show (s.reviewRecords.queue p).map _ = _
    rw [reviewRecords_queue, List.map_map]
    refine List.map_congr_left fun y _ => ?_
    have stamp : (s.review y).stamp = y.stamp := by rw [(reviewed_review (s := s) y).same]
    show (if (s.review y).stamp = st then _ else _) = _
    rw [stamp, hn]
    rfl
  · show v.detached.map _ = _
    rw [hd, hn]

theorem DroveOne.mem {s u : State} {st : Stamp} {res : Result} (h : DroveOne s u st res) {p : Port} {z : Record}
    (hz : z ∈ u.queue p) : ∃ y ∈ s.queue p, s.driven st res y = z := by
  rw [h.queue] at hz
  exact List.mem_map.mp hz

/-- Nothing is left where the one carried out was the last. -/
theorem DroveOne.noneToCarryOut {s u : State} {st : Stamp} {res : Result} (h : DroveOne s u st res)
    (last : ∀ p, ∀ y ∈ s.queue p, y.op.span = none → y.stamp = st ∨ y.state = .active ∨ y.state = .done) : NoneToCarryOut u := by
  intro p z hz hs
  obtain ⟨y, hy, rfl⟩ := h.mem hz
  rw [(driven_same st res y).2.1] at hs
  rcases driven_settled (s := s) (res := res) (last p y hy hs) with e | e
  · exact Or.inl e
  · exact Or.inr (Or.inl e)

/-- A DONE record of a queue stands there after an evaluation that has nothing to carry out. -/
theorem mem_drive_of_done {u : State} (h : NoneToCarryOut u) {p : Port} {y : Record} (hy : y ∈ u.queue p) (hd : y.state = .done)
    (n : Nat) : y ∈ (u.drive n).queue p := by
  rw [drive_noneToCarryOut h, reviewRecords_queue]
  exact List.mem_map.mpr ⟨y, hy, (reviewed_review y).fixed (Or.inr hd)⟩

theorem recordCount_queue (s : State) (p : Port) : (s.queue p).length ≤ s.recordCount := by
  unfold State.recordCount
  cases p <;> omega

/-- The evaluation of a state with a FENCE that nothing holds back carries it out first. -/
theorem drive_fence {n : Nat} (hx : x ∈ s.queue x.port) (hf : x.op = .fence) (hw : x.state = .waiting)
    (hn : ∀ q, ¬ EarlierUndone s x q)
    (others : ∀ q, ∀ y ∈ s.queue q, y.op.span = none → y = x ∨ y.state = .active ∨ y.state = .done ∨ ∃ c, HeldBack s y c) :
    ∃ u, s.drive (n + 1) = u.drive n ∧ DroveOne s u x.stamp ⟨.ok, .none⟩ ∧ u.claim = s.claim := by
  have next := nextControl_review hx (by rw [hf]; rfl) hw (not_heldBack_fence hf hn) others
  have carries : ({ s.reviewRecords with freeCount := s.freeCount + 1 }).carryOut { x with state := .ready, blocked := none } =
      ({ s.reviewRecords with freeCount := s.freeCount + 1 }).finishControl x.stamp ⟨.ok, .none⟩ := by
    unfold State.carryOut
    dsimp only
    rw [hf]
  refine ⟨({ s.reviewRecords with freeCount := s.freeCount + 1 }).finishControl x.stamp ⟨.ok, .none⟩,
    (drive_carries next).trans (congrArg _ carries),
    DroveOne.finish (v := { s.reviewRecords with freeCount := s.freeCount + 1 }) rfl rfl rfl, rfl⟩

/-- The evaluation of a state with a CLAIM that nothing holds back carries it out first. -/
theorem drive_claim {n : Nat} {p : Port} (hx : x ∈ s.queue p) (hp : x.port = p) (hf : x.op = .claim) (hw : x.state = .waiting)
    (hb : ∀ c, ¬ HeldBack s x c) (hc : s.claim.holder = none ∨ s.claim.holder = some p)
    (others : ∀ q, ∀ y ∈ s.queue q, y.op.span = none → y = x ∨ y.state = .active ∨ y.state = .done ∨ ∃ c, HeldBack s y c) :
    ∃ u, s.drive (n + 1) = u.drive n ∧ DroveOne s u x.stamp ⟨.ok, .none⟩ ∧ u.claim = ⟨some p, some (s.now + ms 10)⟩ := by
  have next := nextControl_review hx (by rw [hf]; rfl) hw hb others
  obtain ⟨v, hv⟩ : ∃ v, v = { s.reviewRecords with freeCount := s.freeCount + 1 } := ⟨_, rfl⟩
  have claim : v.doClaim p = (v.setClaim ⟨some p, some (v.now + ms 10)⟩, ⟨.ok, .none⟩) := doClaim_granted (by rw [hv]; exact hc)
  have carries : v.carryOut { x with state := .ready, blocked := none } =
      (v.setClaim ⟨some p, some (v.now + ms 10)⟩).finishControl x.stamp ⟨.ok, .none⟩ := by
    unfold State.carryOut
    dsimp only
    rw [hf, hp, claim]
  refine ⟨(v.setClaim ⟨some p, some (v.now + ms 10)⟩).finishControl x.stamp ⟨.ok, .none⟩,
    (drive_carries next).trans (congrArg _ (by rw [← hv]; exact carries)), .finish ?_ ?_ ?_, ?_⟩ <;> (rw [hv]; rfl)

end

theorem two_le_length {α : Type} {l : List α} {a b : α} (ha : a ∈ l) (hb : b ∈ l) (hn : a ≠ b) : 2 ≤ l.length := by
  rcases l with - | ⟨c, - | ⟨d, l⟩⟩
  · cases ha
  · exact absurd ((List.mem_singleton.mp ha).trans (List.mem_singleton.mp hb).symm) hn
  · simp

/-! ## The FENCE and the CLAIM behind it -/

section

variable {s : State} {f c : Record}

theorem settle_fence (hf : s.Sole f) (ho : f.op = .fence) (hw : f.state = .waiting) (hn : ∀ q, ¬ EarlierUndone s f q)
    (last : ∀ p, ∀ q ∈ s.queue p, q.op.span = none → q = f ∨ q.state = .active ∨ q.state = .done) :
    ∃ x ∈ s.settle.queue f.port, x.stamp = f.stamp ∧ x.op = .fence ∧ x.state = .done ∧ x.doneAt = some s.now ∧
      x.result = some ⟨.ok, .none⟩ := by
  have one : 1 ≤ s.recordCount := (List.length_pos_of_mem hf.here).trans_le (recordCount_queue ..)
  obtain ⟨n, count⟩ : ∃ n, s.recordCount = n + 1 := ⟨_, (Nat.sub_add_cancel one).symm⟩
  obtain ⟨u, drive, drove, -⟩ := drive_fence (n := n) hf.here ho hw hn fun p q hq hs =>
    (last p q hq hs).imp_right (Or.imp_right Or.inl)
  obtain ⟨stamp, op, -⟩ := driven_same (s := s) f.stamp ⟨.ok, .none⟩ f
  obtain ⟨done, doneAt, result⟩ := driven_self (s := s) ⟨.ok, .none⟩ f
  have none := drove.noneToCarryOut fun p y hy hs => (last p y hy hs).imp_left fun e => by rw [e]
  have here : s.driven f.stamp ⟨.ok, .none⟩ f ∈ u.queue f.port := by
    rw [drove.queue]; exact List.mem_map_of_mem hf.here
  refine ⟨_, ?_, stamp, op.trans ho, done, doneAt, result⟩
  rw [State.queue, (settle_kept s).1, count, drive]
  exact mem_drive_of_done none here done n

theorem settle_fence_claim (hf : s.Sole f) (hc : s.Sole c) (ho : f.op = .fence) (hw : f.state = .waiting) (co : c.op = .claim)
    (cw : c.state = .waiting) (hp : c.port = f.port) (hn : ∀ q, ¬ EarlierUndone s f q)
    (hcn : ∀ q, EarlierUndone s c q → q = f ∨ q.op.span.isSome = true)
    (last : ∀ p, ∀ q ∈ s.queue p, q.op.span = none → q = f ∨ q = c ∨ q.state = .active ∨ q.state = .done)
    (free : s.claim.holder = none ∨ s.claim.holder = some c.port) :
    s.settle.claim = ⟨some c.port, some (s.now + ms 10)⟩ ∧
      (∃ x ∈ s.settle.queue c.port, x.stamp = f.stamp ∧ x.state = .done ∧ x.result = some ⟨.ok, .none⟩) ∧
      ∃ x ∈ s.settle.queue c.port, x.stamp = c.stamp ∧ x.op = .claim ∧ x.state = .done ∧ x.doneAt = some s.now ∧
        x.result = some ⟨.ok, .none⟩ := by
  have fhere : f ∈ s.queue c.port := hp ▸ hf.here
  have apart : f ≠ c := fun e => by rw [e, co] at ho; cases ho
  have stamps : c.stamp ≠ f.stamp := fun e => apart (hc.only f (mem_records fhere) e.symm)
  have later : f.stamp < c.stamp := by
    by_contra h
    have : c.stamp < f.stamp := by bv_omega
    exact hn c ⟨Or.inl (hp ▸ hc.here), this, by rw [cw]; decide⟩
  have held : HeldBack s c .fence := ⟨f, ⟨Or.inl fhere, later, by rw [hw]; decide⟩, ho⟩
  have two : 2 ≤ s.recordCount := (two_le_length fhere hc.here apart).trans (recordCount_queue ..)
  obtain ⟨n, count⟩ : ∃ n, s.recordCount = n + 1 + 1 := ⟨_, (Nat.sub_add_cancel two).symm⟩
  obtain ⟨u, drive, drove, claim⟩ := drive_fence (n := n + 1) hf.here ho hw hn fun p q hq hs => by
    rcases last p q hq hs with e | e | e
    · exact Or.inl e
    · exact Or.inr (Or.inr (Or.inr ⟨_, e ▸ held⟩))
    · exact Or.inr (e.imp_right Or.inl)
  -- the CLAIM after the FENCE is carried out
  obtain ⟨reason, blocked⟩ := Option.ne_none_iff_exists'.mp (blockReason_heldBack held)
  obtain ⟨x, hx⟩ : ∃ x, x = s.driven f.stamp ⟨.ok, .none⟩ c := ⟨_, rfl⟩
  have waits : x = { c with state := .waiting, blocked := some reason } :=
    hx.trans ((if_neg stamps).trans (review_blocked cw blocked))
  have xhere : x ∈ u.queue c.port := by rw [drove.queue, hx]; exact List.mem_map_of_mem hc.here
  have xfree : ∀ k, ¬ HeldBack u x k := by
    refine not_heldBack_of_noFence (by rw [waits]; show c.op.isArray = false; rw [co]; rfl)
      (by rw [waits]; show c.op ≠ _; rw [co]; nofun) fun q hq e => ?_
    obtain ⟨place, before, undone⟩ := hq
    rw [waits] at place before
    have other : ∀ y, y.stamp ≠ f.stamp → y.op = .fence → ¬ EarlierUndone s c y := fun y hy ye h => by
      rcases hcn y h with e' | e'
      · exact hy (by rw [e'])
      · rw [ye] at e'; cases e'
    rcases place with place | ⟨place, port⟩
    · obtain ⟨y, hy, rfl⟩ := drove.mem place
      obtain ⟨stamp, op, -⟩ := driven_same (s := s) f.stamp ⟨.ok, .none⟩ y
      by_cases ys : y.stamp = f.stamp
      · exact undone (ys ▸ (driven_self (s := s) ⟨.ok, .none⟩ y).1)
      · refine other y ys (op ▸ e) ⟨Or.inl hy, stamp ▸ before, fun hd => ?_⟩
        rw [driven_fixed ys (Or.inr hd)] at undone
        exact undone hd
    · rw [drove.detached] at place
      obtain ⟨y, hy, hq⟩ := List.mem_map.mp place
      by_cases ys : y.stamp = f.stamp
      · rw [if_pos ys] at hq
        exact undone (by rw [← hq]; rfl)
      · rw [if_neg ys] at hq
        rw [← hq] at e before undone port
        exact other y ys e ⟨Or.inr ⟨hy, port⟩, before, undone⟩
  obtain ⟨v, drive2, drove2, claim2⟩ := drive_claim (n := n) xhere (by rw [waits]) (by rw [waits]; exact co) (by rw [waits]) xfree
    (claim ▸ free) fun p z hz hs => by
      obtain ⟨y, hy, rfl⟩ := drove.mem hz
      rw [(driven_same ..).2.1] at hs
      by_cases e : y = c
      · exact Or.inl (by rw [e, hx])
      · refine Or.inr (Or.imp_right Or.inl (driven_settled ?_))
        rcases last p y hy hs with h | h | h
        · exact Or.inl (by rw [h])
        · exact absurd h e
        · exact Or.inr h
  have xstamp : x.stamp = c.stamp := by rw [waits]
  have none := drove2.noneToCarryOut fun p z hz hs => by
    obtain ⟨y, hy, rfl⟩ := drove.mem hz
    rw [(driven_same ..).2.1] at hs
    by_cases e : y = c
    · exact Or.inl (by rw [e, hx])
    · refine Or.inr (driven_settled ?_)
      rcases last p y hy hs with h | h | h
      · exact Or.inl (by rw [h])
      · exact absurd h e
      · exact Or.inr h
  have whole : s.settle.queues = (v.drive n).queues := by rw [(settle_kept s).1, count, drive, drive2]
  obtain ⟨fstamp, -, -⟩ := driven_same (s := s) f.stamp ⟨.ok, .none⟩ f
  obtain ⟨fdone, -, fresult⟩ := driven_self (s := s) ⟨.ok, .none⟩ f
  have fstays : s.driven f.stamp ⟨.ok, .none⟩ f ∈ v.queue c.port := by
    rw [drove2.queue]
    refine List.mem_map.mpr ⟨_, ?_, driven_fixed ?_ (Or.inr fdone)⟩
    · rw [drove.queue]; exact List.mem_map_of_mem fhere
    · rw [fstamp, xstamp]; exact stamps.symm
  obtain ⟨cstamp, cop, -⟩ := driven_same (s := u) x.stamp ⟨.ok, .none⟩ x
  obtain ⟨cdone, cdoneAt, cresult⟩ := driven_self (s := u) ⟨.ok, .none⟩ x
  have cstays : u.driven x.stamp ⟨.ok, .none⟩ x ∈ v.queue c.port := by
    rw [drove2.queue]; exact List.mem_map_of_mem xhere
  refine ⟨?_, ⟨_, ?_, fstamp, fdone, fresult⟩, ⟨_, ?_, cstamp.trans xstamp, ?_, cdone, drove.now ▸ cdoneAt, cresult⟩⟩
  · rw [(settle_kept s).2.2.2.2.2.1, count, drive, drive2, drive_noneToCarryOut none, ← drove.now]
    exact claim2
  · rw [State.queue, whole]
    exact mem_drive_of_done none fstays fdone n
  · rw [State.queue, whole]
    exact mem_drive_of_done none cstays cdone n
  · rw [cop, waits]; exact co

end

/-- Settles O16. -/
theorem fenceWaitsForEarlierRecords : Obligations.FenceWaitsForEarlierRecords := by
  refine ⟨fun dt p r s hon hseq hroom hpost htag hst => ?_, fun i dt p k r o s hi ha hw hs hk hst hf => ?_,
    fun s f hf ho hw hn last => settle_fence hf ho hw hn last,
    fun s f c hf hc ho hw co cw hp hn hcn last free => settle_fence_claim hf hc ho hw co cw hp hn hcn last free,
    fun s h => ?_, fun s h => ⟨quietReviewed_settle h, fun hs hl => stepEnded_settle h hs (held_iff.mpr hl), fun hn => ?_⟩⟩
  · have hexec : exec (.fence dt p r) s = .next ((s.passTime dt).receive p Kind.fence.code r) := rfl
    obtain ⟨n, e⟩ := s.passTime_exists dt
    rw [e] at hexec ⊢
    have admitted : ControlAdmitted (s.atInstant n) p r := ⟨hon, hseq, hroom, hpost, htag⟩
    refine ⟨fun all own => ?_, fun ⟨q, hq, hu⟩ => ?_⟩
    · have free : s.blockReason ((s.atInstant n).newRecord p r.tag .fence false none) = none := by
        refine blockReason_none (not_heldBack_fence rfl fun q ⟨place, _, undone⟩ => undone ?_)
        rcases place with hq | ⟨hq, hp⟩
        · exact of_decide_eq_true (all q (mem_records hq) (own q hq))
        · exact of_decide_eq_true (all q (mem_records_iff.mpr (Or.inr hq)) hp)
      have received := receive_unblocked admitted .fence rfl nofun free rfl
      have answered := answered_finishControl (s := s.atInstant n) (p := p) (t := r.tag) (o := .fence) (res := ⟨.ok, .none⟩) hst
        rfl rfl rfl rfl (admissionEnds_readied ..)
      exact ⟨_, hexec.trans (congrArg _ received), answered⟩
    · obtain ⟨c, hc, joins⟩ := receive_fence_waits admitted hst hq hu
      obtain ⟨x, queue, -, -, op, -, -, -, state, blocked, -⟩ := joins.record
      exact ⟨_, x, hexec, queue, op, state, by rw [blocked]; exact hc.imp (congrArg some) (congrArg some), by rw [joins.frame]; rfl⟩
  · have hexec := exec_requestRow hi s
    obtain ⟨n, e⟩ := s.passTime_exists dt
    rw [e] at hexec ⊢
    obtain ⟨q, hq, hf, hu⟩ := hf
    exact ⟨_, hexec, receive_behind_fence (s := s.atInstant n) ⟨ha.online, ha.sequence, ha.room, ha.plain, ha.tag⟩ hw hs hk hst hq hf hu⟩
  · obtain ⟨queues, detached, holds, mem, regions, claim, currentJob⟩ := settle_kept s
    rw [drive_noneToCarryOut h] at queues detached holds mem regions claim currentJob
    refine ⟨fun p => ?_, detached, holds, mem, regions, claim, currentJob, settle_idle h⟩
    rw [show s.settle.queue p = (s.queue p).map s.review from (congrArg (PerPort.get · p) queues).trans (reviewRecords_queue p)]
    exact List.forall₂_map_right_iff.mpr (List.forall₂_same.mpr fun x _ => reviewed_review x)
  · rw [settle_scrub h, if_neg fun e => hn ⟨e.1, held_iff.mp e.2⟩]

end Sys2Proof.Machine
end

section
/-! PROOFS. The repair controller's jobs written out: what the end of a job, a job that finds no spare, and the start of one do
(R22, R137, R142). -/

namespace Sys2Proof.Machine

/-! ## The bank of a job -/

/-- A bank after the end of its job. -/
def Bank.released (x : Bank) : Bank :=
  { x with state := if x.state = .repairing then .closed else x.state, marks := { x.marks with repair := false }, idleReset := false }

theorem releaseBank_eq (s : State) (b : BankId) : s.releaseBank b = s.setBank b (s.bank b).released := rfl

/-- A bank taken and released at once keeps its state, but for REPAIRING. -/
theorem taken_released_state {x : Bank} (h : x.state ≠ .repairing) : x.taken.released.state = x.state := by
  unfold Bank.taken Bank.released
  cases e : x.state with
  | repairing => exact absurd e h
  | closed => rfl
  | _ => simp [e]

theorem taken_state_closed {x : Bank} (h : x.state = .closed) : x.taken.state = .repairing := by
  unfold Bank.taken
  rw [h]

theorem taken_open {x : Bank} (h : x.state = .opening ∨ x.state = .opened) : x.taken.marks.repair = true ∧ x.taken.state = x.state := by
  unfold Bank.taken
  rcases h with h | h <;> (rw [h]; exact ⟨rfl, rfl⟩)

/-! ## Changes of the records -/

theorem mapRecords_congr (s : State) {f g : Record → Record} (h : ∀ x, f x = g x) : s.mapRecords f = s.mapRecords g := by
  rw [funext h]

theorem mapRecords_id (s : State) : s.mapRecords (fun x => x) = s := by
  unfold State.mapRecords PerPort.map
  simp

theorem mapRecords_mapRecords (s : State) (f g : Record → Record) : (s.mapRecords f).mapRecords g = s.mapRecords (fun x => g (f x)) := by
  unfold State.mapRecords PerPort.map
  simp [Function.comp_def]

/-- A record at the end of a job of those requesters. -/
def Record.answeredBy (l : List Requester) (now : Instant) (res : Result) (x : Record) : Record :=
  if l.any (fun q => decide (q.stamp = x.stamp)) = true then x.finished now res else x

theorem foldl_finishControl (l : List Requester) (s : State) (res : Result) :
    l.foldl (fun t q => t.finishControl q.stamp res) s = s.mapRecords (Record.answeredBy l s.now res) := by
  induction l generalizing s with
  | nil => exact (mapRecords_id s).symm
  | cons q l ih =>
    rw [List.foldl_cons, ih]
    refine (mapRecords_mapRecords ..).trans (mapRecords_congr s fun x => ?_)
    show Record.answeredBy l s.now res (if x.stamp = q.stamp then x.finished s.now res else x) = _
    unfold Record.answeredBy
    rw [List.any_cons]
    by_cases h : x.stamp = q.stamp
    · rw [if_pos h, decide_eq_true h.symm, Bool.true_or, if_pos rfl]
      split <;> rfl
    · rw [if_neg h, decide_eq_false (Ne.symm h), Bool.false_or]

/-! ## The end of a job -/

section

variable (s : State) (j : Job) (st : Status) (sp : Option SpareId) (n : Nat)

/-- A job's end, but for its notice and the fault list. -/
def State.jobEnded (res : Result) : State :=
  (({ s with currentJob := none, repairBuffer := [] } : State).releaseBank j.bank).mapRecords
    (Record.answeredBy j.requesters s.now res)

theorem endJob_frame : s.endJob j st sp n = { s.jobEnded j ⟨st, .repair sp n⟩ with
    notices := (s.endJob j st sp n).notices
    checks := if st = .ok then s.checks.dropFault j.bank j.row else s.checks } := by
  unfold State.endJob
  dsimp only
  rw [foldl_finishControl, broadcast_frame]
  split <;> rfl

theorem noticeQ_endJob (q : Port) :
    (s.endJob j st sp n).noticeQ q = s.toldOne Enables.repairDone (.repairDone j.bank j.row sp st n) q := by
  have told : (s.endJob j st sp n).notices =
      ((s.jobEnded j ⟨st, .repair sp n⟩).broadcast Enables.repairDone (.repairDone j.bank j.row sp st n)).notices := by
    unfold State.endJob
    dsimp only
    rw [foldl_finishControl]
    split <;> rfl
  rw [State.noticeQ, told]
  exact noticeQ_broadcast ..

theorem bank_endJob (k : BankId) :
    (s.endJob j st sp n).bank k = if k = j.bank then (s.bank j.bank).released else s.bank k := by
  rw [State.bank, endJob_frame]
  show (s.banks.set j.bank (s.bank j.bank).released).get k = _
  exact Table.get_set ..

theorem queue_endJob (p : Port) :
    (s.endJob j st sp n).queue p = (s.queue p).map (Record.answeredBy j.requesters s.now ⟨st, .repair sp n⟩) := by
  rw [State.queue, endJob_frame]
  exact State.queue_mapRecords ..

theorem endJob_registers : (s.endJob j st sp n).currentJob = none ∧ (s.endJob j st sp n).repairBuffer = [] ∧
    (s.endJob j st sp n).repairQueue = s.repairQueue ∧ (s.endJob j st sp n).now = s.now ∧
    (s.endJob j st sp n).links = s.links ∧ (s.endJob j st sp n).remap = s.remap := by
  rw [endJob_frame]
  exact ⟨rfl, rfl, rfl, rfl, rfl, rfl⟩

end

/-! ## The taking of a bank -/

theorem takeBank_frame (s : State) (b : BankId) : s.takeBank b = { s with
    banks := s.banks.set b (s.bank b).taken, scrub := (s.takeBank b).scrub, holds := (s.takeBank b).holds } := by
  unfold State.takeBank
  dsimp only
  split <;> rfl

theorem bank_takeBank (s : State) (b k : BankId) : (s.takeBank b).bank k = if k = b then (s.bank b).taken else s.bank k := by
  rw [State.bank, takeBank_frame]
  exact Table.get_set ..

/-! ## A job that finds no spare -/

/-- The head of the queue ends NO_SPARE. -/
def State.dropJob (s : State) (j : Job) : State := (s.takeBank j.bank).endJob j .noSpare none 0

section

variable (s : State) (j : Job)

theorem bank_dropJob (k : BankId) : (s.dropJob j).bank k = if k = j.bank then (s.bank k).taken.released else s.bank k := by
  unfold State.dropJob
  rw [bank_endJob, bank_takeBank, bank_takeBank, if_pos rfl]
  by_cases h : k = j.bank
  · rw [if_pos h, if_pos h, h]
  · rw [if_neg h, if_neg h, if_neg h]

theorem queue_dropJob (p : Port) :
    (s.dropJob j).queue p = (s.queue p).map (Record.answeredBy j.requesters s.now ⟨.noSpare, .repair none 0⟩) := by
  unfold State.dropJob
  rw [queue_endJob, takeBank_frame]
  rfl

theorem noticeQ_dropJob (q : Port) :
    (s.dropJob j).noticeQ q = s.toldOne Enables.repairDone (.repairDone j.bank j.row none .noSpare 0) q := by
  unfold State.dropJob
  rw [noticeQ_endJob, takeBank_frame]
  rfl

theorem dropJob_registers : (s.dropJob j).currentJob = none ∧ (s.dropJob j).repairBuffer = [] ∧
    (s.dropJob j).repairQueue = s.repairQueue ∧ (s.dropJob j).now = s.now ∧ (s.dropJob j).links = s.links ∧
    (s.dropJob j).remap = s.remap ∧ (s.dropJob j).checks = s.checks := by
  unfold State.dropJob
  rw [endJob_frame, takeBank_frame]
  exact ⟨rfl, rfl, rfl, rfl, rfl, rfl, rfl⟩

end

/-! ## The head of the queue -/

section

variable {s : State}

theorem freeSpare_congr {t : State} (h : t.remap = s.remap) (b : BankId) : t.freeSpare b = s.freeSpare b := by
  unfold State.freeSpare State.spares
  rw [h]

theorem servingSpare_congr {t : State} (h : t.remap = s.remap) (b : BankId) (row : RowId) :
    t.servingSpare b row = s.servingSpare b row := by
  unfold State.servingSpare State.spares
  rw [h]

/-- The jobs with no FREE spare before the head end, and the rest starts. -/
theorem startJobs_dropped {bad : List Job} (rest : List Job) (h : ∀ j ∈ bad, s.freeSpare j.bank = none) :
    State.startJobs (bad ++ rest) s = State.startJobs rest (bad.foldl State.dropJob s) := by
  induction bad generalizing s with
  | nil => rfl
  | cons j bad ih =>
    have none := h j List.mem_cons_self
    rw [List.cons_append, State.startJobs, none]
    refine ih fun k hk => ?_
    rw [show (s.takeBank j.bank).endJob j .noSpare Option.none 0 = s.dropJob j from rfl,
      freeSpare_congr (dropJob_registers s j).2.2.2.2.2.1]
    exact h k (List.mem_cons_of_mem _ hk)

theorem startJobs_spare {j : Job} {sp : SpareId} (rest : List Job) (h : s.freeSpare j.bank = some sp) :
    State.startJobs (j :: rest) s = ({ s with repairQueue := rest } : State).runJob j sp := by
  rw [State.startJobs, h]

theorem runJob_frame (s : State) (j : Job) (sp : SpareId) : s.runJob j sp = { s with
    banks := s.banks.set j.bank (s.bank j.bank).taken, currentJob := some (s.startRecord j sp)
    scrub := (s.runJob j sp).scrub, holds := (s.runJob j sp).holds } := by
  unfold State.runJob
  rw [takeBank_frame]
  rfl

theorem bank_runJob (s : State) (j : Job) (sp : SpareId) (k : BankId) :
    (s.runJob j sp).bank k = if k = j.bank then (s.bank j.bank).taken else s.bank k := by
  rw [State.bank, runJob_frame]
  exact Table.get_set ..

/-! ## Jobs dropped in a row -/

theorem told_cons {t : State} {w : Enables → Bool} {n : Notice} {q : Port} (hq : t.noticeQ q = s.toldOne w n q)
    (ho : t.online q = s.online q) (ns : List Notice) : t.told w ns q = s.told w (n :: ns) q := by
  have enables : ((s.noticeQ q).joined n).enables = (s.noticeQ q).enables := by unfold NoticeQueue.joined; split <;> rfl
  unfold State.told
  rw [hq, ho]
  unfold State.toldOne
  by_cases h : s.online q = true ∧ w (s.noticeQ q).enables = true
  · rw [if_pos h, enables, if_pos h, if_pos h]; rfl
  · rw [if_neg h, if_neg h, if_neg h]

/-- What the dropping of jobs leaves: the records of their requesters are DONE with NO_SPARE, the notices go out in the jobs' order, and
no bank but a REPAIRING one changes its state. -/
structure Dropped (s t : State) (bad : List Job) : Prop where
  queue : ∀ p, t.queue p = (s.queue p).map (fun x =>
    if bad.any (fun j => j.requesters.any (fun q => decide (q.stamp = x.stamp))) = true then
      x.finished s.now ⟨.noSpare, .repair none 0⟩ else x)
  noticeQ : ∀ q, t.noticeQ q = s.told Enables.repairDone (bad.map (fun j => .repairDone j.bank j.row none .noSpare 0)) q
  bank : ∀ k, (s.bank k).state ≠ .repairing → (t.bank k).state = (s.bank k).state
  job : s.currentJob = none → t.currentJob = none
  remap : t.remap = s.remap
  move : JobMove s t

theorem told_nil (s : State) (w : Enables → Bool) (q : Port) : s.told w [] q = s.noticeQ q := ite_self _

theorem dropped_foldl (bad : List Job) (s : State) : Dropped s (bad.foldl State.dropJob s) bad := by
  induction bad generalizing s with
  | nil =>
    exact ⟨fun p => (List.map_id'' (fun _ => rfl) _).symm, fun q => (told_nil ..).symm, fun _ _ => rfl, id, rfl, .refl s⟩
  | cons j bad ih =>
    obtain ⟨job, -, -, now, links, remap, -⟩ := dropJob_registers s j
    have rest := ih (s.dropJob j)
    have online : ∀ q, (s.dropJob j).online q = s.online q := fun q => by unfold State.online State.link; rw [links]
    have state : ∀ k, (s.bank k).state ≠ .repairing → ((s.dropJob j).bank k).state = (s.bank k).state := fun k hk => by
      rw [bank_dropJob]
      split
      · exact taken_released_state hk
      · rfl
    refine ⟨fun p => ?_, fun q => ?_, fun k hk => ?_, fun _ => rest.job job, rest.remap.trans remap, ?_⟩
    · rw [List.foldl_cons, rest.queue, queue_dropJob, List.map_map, now]
      refine List.map_congr_left fun x _ => ?_
      have stamp : (x.answeredBy j.requesters s.now ⟨.noSpare, .repair none 0⟩).stamp = x.stamp := by
        unfold Record.answeredBy; split <;> rfl
      rw [Function.comp_apply, stamp, List.any_cons]
      unfold Record.answeredBy
      by_cases h1 : j.requesters.any (fun q => decide (q.stamp = x.stamp)) = true
      · rw [if_pos h1, h1, Bool.true_or, if_pos rfl]
        split <;> rfl
      · rw [if_neg h1, Bool.eq_false_iff.mpr h1, Bool.false_or]
    · rw [List.foldl_cons, rest.noticeQ, told_cons (noticeQ_dropJob s j q) (online q), List.map_cons]
    · rw [List.foldl_cons, rest.bank k (by rw [state k hk]; exact hk), state k hk]
    · exact ((JobMove.takeBank s j.bank).trans (.endJob ..)).trans rest.move

end

end Sys2Proof.Machine
end

section
/-! PROOFS. The ends of a bank's intervals: the open delay, the close delay with the end of a job's copy-in, and the group refresh
(R8, R12, R14, R138, R141, R142). -/

namespace Sys2Proof.Machine

/-! ## The phase WAIT -/

theorem leaveWait_frame (s : State) (b : BankId) : s.leaveWait b = { s with currentJob := (s.leaveWait b).currentJob } := by
  unfold State.leaveWait
  split
  · split <;> rfl
  · rfl

theorem leaveWait_waits {s : State} {b : BankId} {c : CurrentJob} (hc : s.currentJob = some c) (hb : c.job.bank = b)
    (hp : c.phase = .wait) (hs : (s.bank b).state = .repairing) : (s.leaveWait b).currentJob = some { c with phase := .copyOut } := by
  unfold State.leaveWait
  rw [hc]
  dsimp only
  rw [if_pos ⟨hb, hp, hs⟩]
  rfl

theorem leaveWait_stays {s : State} {b : BankId} (h : s.repairPhase b ≠ some .wait) : s.leaveWait b = s := by
  unfold State.leaveWait
  unfold State.repairPhase at h
  split
  · rename_i c hc
    rw [hc] at h
    refine if_neg fun e => h ?_
    dsimp only
    rw [if_pos e.1, e.2.1]
  · rfl

theorem repairPhase_of {s : State} {b : BankId} {c : CurrentJob} (hc : s.currentJob = some c) (hb : c.job.bank = b) :
    s.repairPhase b = some c.phase := by
  unfold State.repairPhase
  rw [hc]
  exact if_pos hb

theorem restState_of {s : State} {b : BankId} {c : CurrentJob} (hc : s.currentJob = some c) (hb : c.job.bank = b) :
    s.restState b = .repairing := by
  unfold State.restState
  rw [repairPhase_of hc hb]
  rfl

/-- In phase WAIT the job is current. -/
theorem currentJob_of_wait {s : State} {b : BankId} (h : s.repairPhase b = some .wait) :
    ∃ c, s.currentJob = some c ∧ c.job.bank = b ∧ c.phase = .wait := by
  unfold State.repairPhase at h
  split at h
  · rename_i c hc
    split at h
    · rename_i hb
      exact ⟨c, hc, hb, Option.some.inj h⟩
    · cases h
  · cases h

/-! ## The end of the close delay -/

/-- The bank out of its interval, before a job's completion. -/
def State.rested (s : State) (b : BankId) : State := (s.setBank b { s.bank b with state := s.restState b }).leaveWait b

theorem rested_frame (s : State) (b : BankId) : s.rested b = { s with
    banks := s.banks.set b { s.bank b with state := s.restState b }, currentJob := (s.rested b).currentJob } :=
  leaveWait_frame (s.setBank b { s.bank b with state := s.restState b }) b

theorem endClose_incomplete {s : State} {b : BankId} (h : ∀ c, s.currentJob = some c → c.job.bank = b → c.phase = .copyIn →
    c.linesWritten ≠ 32) : s.endClose b = s.rested b := by
  have job : ∀ c, (s.rested b).currentJob = some c → ¬ (c.job.bank = b ∧ c.phase = .copyIn ∧ c.linesWritten = 32) := by
    intro c hc ⟨hb, hp, hl⟩
    by_cases hw : s.repairPhase b = some .wait
    · obtain ⟨d, hd, hdb, hdp⟩ := currentJob_of_wait hw
      have waits := leaveWait_waits (s := s.setBank b { s.bank b with state := s.restState b }) hd hdb hdp
        (by rw [State.bank_setBank_self]; exact restState_of hd hdb)
      rw [← Option.some.inj (waits.symm.trans hc)] at hp
      cases hp
    · have stays := leaveWait_stays (s := s.setBank b { s.bank b with state := s.restState b }) hw
      exact h c ((congrArg State.currentJob stays).symm.trans hc) hb hp hl
  show (match (s.rested b).currentJob with
    | some c => if c.job.bank = b ∧ c.phase = RepairPhase.copyIn ∧ c.linesWritten = 32 then ((s.rested b).completeJob c).settle else s.rested b
    | none => s.rested b) = _
  split
  · rename_i c hc
    exact if_neg (job c hc)
  · rfl

/-- The state in which a job that has written its 32 lines completes. -/
theorem endClose_complete {s : State} {b : BankId} {c : CurrentJob} (hc : s.currentJob = some c) (hb : c.job.bank = b)
    (hp : c.phase = .copyIn) (hl : c.linesWritten = 32) :
    s.endClose b = ((s.setBank b { s.bank b with state := .repairing }).completeJob c).settle := by
  have stays := leaveWait_stays (s := s.setBank b { s.bank b with state := .repairing }) (b := b)
    (by rw [repairPhase_of (s := s.setBank b { s.bank b with state := .repairing }) hc hb, hp]; nofun)
  unfold State.endClose
  dsimp only
  rw [restState_of hc hb, stays, State.setBank_currentJob, hc]
  dsimp only
  rw [if_pos ⟨hb, hp, hl⟩]

theorem exec_closeDelayEnd {s : State} {dt : Nat} {b : BankId} (h : (s.bank b).state = .closing)
    (hd : (s.passTime dt).since (s.bank b).lastClose (ns 14) = true) :
    exec (.closeDelayEnd dt b) s = .next ((s.passTime dt).endClose b) := by
  obtain ⟨n, e⟩ := s.passTime_exists dt
  show execCloseDelayEnd dt b s = _
  unfold execCloseDelayEnd
  dsimp only
  rw [if_pos]
  rw [e] at hd ⊢
  exact ⟨h, hd⟩

/-! ## The completion of a job -/

/-- The state after the job of bank `b` has ended with OK and before the next one starts. -/
structure JobCompleted (s w : State) (b : BankId) (c : CurrentJob) : Prop where
  queue : ∀ p, w.queue p = (s.queue p).map
    (Record.answeredBy c.job.requesters s.now ⟨.ok, .repair (some c.chosen) c.poisonedWords⟩)
  noticeQ : ∀ q, w.noticeQ q = s.toldOne Enables.repairDone (.repairDone b c.job.row (some c.chosen) .ok c.poisonedWords) q
  bank : (w.bank b).state = .closed ∧ (w.bank b).marks.repair = false
  others : ∀ k, k ≠ b → w.bank k = s.bank k
  checks : w.checks = s.checks.dropFault b c.job.row
  job : w.currentJob = none
  buffer : w.repairBuffer = []
  jobs : w.repairQueue = s.repairQueue
  now : w.now = s.now
  links : w.links = s.links
  remap : w.remap = s.remap
  mem : w.mem = s.mem

theorem jobCompleted_endJob {s : State} {b : BankId} {c : CurrentJob} (hb : c.job.bank = b) :
    JobCompleted s ((s.setBank b { s.bank b with state := .repairing }).endJob c.job .ok (some c.chosen) c.poisonedWords) b c := by
  subst hb
  obtain ⟨x, hx⟩ : ∃ x, x = s.setBank c.job.bank { s.bank c.job.bank with state := .repairing } := ⟨_, rfl⟩
  have frame := endJob_frame x c.job .ok (some c.chosen) c.poisonedWords
  have bank : x.bank c.job.bank = { s.bank c.job.bank with state := .repairing } := by rw [hx, State.bank_setBank_self]
  obtain ⟨job, buffer, jobs, now, links, remap⟩ := endJob_registers x c.job .ok (some c.chosen) c.poisonedWords
  rw [← hx]
  refine ⟨fun p => ?_, fun q => ?_, ?_, fun k hk => ?_, ?_, job, buffer, ?_, ?_, ?_, ?_, ?_⟩
  · rw [queue_endJob, hx]; rfl
  · rw [noticeQ_endJob, hx]; rfl
  · rw [bank_endJob, if_pos rfl, bank]; exact ⟨rfl, rfl⟩
  · rw [bank_endJob, if_neg hk, hx, State.bank_setBank_of_ne _ hk]
  · rw [frame, hx]; rfl
  · rw [jobs, hx]; rfl
  · rw [now, hx]; rfl
  · rw [links, hx]; rfl
  · rw [remap, hx]; rfl
  · rw [frame, hx]; rfl

theorem get_dropFault (c : CheckUnit) (b : BankId) (row : RowId) (i : Fin 16) (f : FaultEntry) :
    (c.dropFault b row).faults.get i = some f ↔ c.faults.get i = some f ∧ ¬ (f.bank = b ∧ f.row = row) := by
  unfold CheckUnit.dropFault
  rw [Table.get_map]
  cases h : c.faults.get i with
  | none => simp
  | some e =>
    dsimp only
    split
    · rename_i he
      refine ⟨nofun, fun ⟨hf, hn⟩ => absurd (Option.some.inj hf ▸ he) hn⟩
    · rename_i he
      exact ⟨fun hf => ⟨hf, Option.some.inj hf ▸ he⟩, fun hf => hf.1⟩

/-- The next job starts with its spare, after those before it have ended NO_SPARE. -/
structure NextStarts (w u : State) (bad : List Job) (j : Job) (sp : SpareId) (ph : RepairPhase) : Prop where
  job : u.currentJob = some
    { job := j, chosen := sp, previous := w.servingSpare j.bank j.row, linesRead := 0, linesWritten := 0, poisonedWords := 0
      programEnds := none, phase := ph }
  phase : (w.bank j.bank).state ≠ .repairing ∨ bad = [] → ph = if (w.bank j.bank).state = .closed then .copyOut else .wait
  closed : (w.bank j.bank).state = .closed → (u.bank j.bank).state = .repairing
  opened : (w.bank j.bank).state = .opening ∨ (w.bank j.bank).state = .opened → (u.bank j.bank).marks.repair = true
  alone : bad = [] → ∀ k, u.bank k = if k = j.bank then (w.bank k).taken else w.bank k

/-- What the start of the jobs of the queue leaves. -/
structure JobsStarted (w u : State) (bad rest : List Job) : Prop where
  queue : ∀ p, u.queue p = (w.queue p).map (fun x =>
    if bad.any (fun j => j.requesters.any (fun q => decide (q.stamp = x.stamp))) = true then
      x.finished w.now ⟨.noSpare, .repair none 0⟩ else x)
  noticeQ : ∀ q, u.noticeQ q = w.told Enables.repairDone (bad.map (fun j => .repairDone j.bank j.row none .noSpare 0)) q
  jobs : u.repairQueue = rest.tail
  done : rest = [] → (w.currentJob = none → u.currentJob = none) ∧
    (∀ k, (w.bank k).state ≠ .repairing → (u.bank k).state = (w.bank k).state) ∧ (bad = [] → u.banks = w.banks)
  next : ∀ j later sp, rest = j :: later → w.freeSpare j.bank = some sp → ∃ ph, NextStarts w u bad j sp ph
  kept : bad = [] → u.checks = w.checks ∧ u.repairBuffer = w.repairBuffer
  move : JobMove w u

theorem jobsStarted {w : State} {bad rest : List Job} (hbad : ∀ j ∈ bad, w.freeSpare j.bank = none)
    (hrest : ∀ j ∈ rest.head?, (w.freeSpare j.bank).isSome = true) :
    JobsStarted w (State.startJobs (bad ++ rest) w) bad rest := by
  have dropped := dropped_foldl bad w
  rw [startJobs_dropped rest hbad]
  obtain ⟨d, hd⟩ : ∃ d, d = bad.foldl State.dropJob w := ⟨_, rfl⟩
  have same : bad = [] → d = w := fun h => by rw [hd, h]; rfl
  rw [← hd] at dropped ⊢
  cases rest with
  | nil =>
    exact ⟨dropped.queue, dropped.noticeQ, rfl, fun _ => ⟨dropped.job, dropped.bank, fun h => by rw [same h]; rfl⟩, nofun,
      fun h => by rw [same h]; exact ⟨rfl, rfl⟩, dropped.move.trans ⟨rfl, rfl, rfl⟩⟩
  | cons j later =>
    obtain ⟨sp, hsp⟩ := Option.isSome_iff_exists.mp (hrest j rfl)
    have spare : d.freeSpare j.bank = some sp := (freeSpare_congr dropped.remap _).trans hsp
    have start := startJobs_spare later spare
    have frame := runJob_frame { d with repairQueue := later } j sp
    have bank := bank_runJob { d with repairQueue := later } j sp
    have mine := bank j.bank
    rw [if_pos rfl] at mine
    refine ⟨fun p => ?_, fun q => ?_, ?_, nofun, fun k later' sp' hk hsp' => ?_, fun h => ?_, dropped.move.trans (.startJobs ..)⟩
    · rw [start, frame]; exact dropped.queue p
    · rw [start, frame]; exact dropped.noticeQ q
    · rw [start, frame]; rfl
    · obtain ⟨rfl, rfl⟩ := List.cons.inj hk
      have one : sp' = sp := Option.some.inj (hsp'.symm.trans hsp)
      subst one
      refine ⟨if (d.bank j.bank).state = .closed then .copyOut else .wait, ?_, fun h => ?_, fun hc => ?_, fun ho => ?_, fun h k => ?_⟩
      · rw [start, frame, ← servingSpare_congr dropped.remap]; rfl
      · rcases h with h | h
        · rw [dropped.bank j.bank h]
        · rw [same h]
      · rw [start, mine]
        exact taken_state_closed ((dropped.bank j.bank (by rw [hc]; decide)).trans hc)
      · rw [start, mine]
        refine (taken_open (x := d.bank j.bank) ?_).1
        rw [dropped.bank j.bank (by rcases ho with ho | ho <;> rw [ho] <;> decide)]
        exact ho
      · rw [start, bank k, ← same h]
        by_cases hk : k = j.bank
        · rw [if_pos hk, if_pos hk, hk]; rfl
        · rw [if_neg hk, if_neg hk]; rfl
    · rw [start, frame, ← same h]
      exact ⟨rfl, rfl⟩

/-! ## The end of the copy-in -/

/-- A job that has written its lines ends with its close, and the queue's next jobs start. -/
theorem exec_copyInEnds {s : State} {dt : Nat} {b : BankId} {c : CurrentJob} {bad rest : List Job} (h : (s.bank b).state = .closing)
    (hd : (s.passTime dt).since (s.bank b).lastClose (ns 14) = true) (hc : s.currentJob = some c) (hb : c.job.bank = b)
    (hp : c.phase = .copyIn) (hl : c.linesWritten = 32) (hq : s.repairQueue = bad ++ rest)
    (hbad : ∀ j ∈ bad, s.freeSpare j.bank = none) (hrest : ∀ j ∈ rest.head?, (s.freeSpare j.bank).isSome = true) :
    ∃ w u, exec (.closeDelayEnd dt b) s = .next u.settle ∧ JobCompleted (s.passTime dt) w b c ∧ JobsStarted w u bad rest := by
  have run := exec_closeDelayEnd h hd
  obtain ⟨n, e⟩ := s.passTime_exists dt
  rw [e] at run ⊢
  have completed := jobCompleted_endJob (s := s.atInstant n) hb
  rw [endClose_complete (s := s.atInstant n) hc hb hp hl] at run
  unfold State.completeJob at run
  obtain ⟨w, hw⟩ : ∃ w, w = (((s.atInstant n).setBank b { (s.atInstant n).bank b with state := .repairing }).endJob c.job .ok
    (some c.chosen) c.poisonedWords) := ⟨_, rfl⟩
  rw [← hw] at completed
  have spare : ∀ k, w.freeSpare k = s.freeSpare k := freeSpare_congr completed.remap
  refine ⟨w, State.startJobs (bad ++ rest) w, ?_, completed, jobsStarted (fun j hj => (spare _).trans (hbad j hj))
    fun j hj => (congrArg Option.isSome (spare _)).trans (hrest j hj)⟩
  rw [run, ← hq, ← show w.repairQueue = s.repairQueue from completed.jobs, hw]

/-! ## The end of the group refresh -/

theorem exec_groupRefreshEnd {s : State} {dt : Nat} {g : GroupId} (h : (s.passTime dt).refreshOver g = true) :
    exec (.groupRefreshEnd dt g) s = .next (((s.passTime dt).mapBanks ((s.passTime dt).endRefreshBank g)).leaveWaitAny) :=
  if_pos h

theorem leaveWaitAny_frame (s : State) : s.leaveWaitAny = { s with currentJob := s.leaveWaitAny.currentJob } := by
  unfold State.leaveWaitAny
  split
  · exact leaveWait_frame ..
  · rfl

theorem bank_refreshed (s : State) (g : GroupId) (b : BankId) :
    (s.mapBanks (s.endRefreshBank g)).leaveWaitAny.bank b = s.endRefreshBank g b (s.bank b) := by
  rw [State.bank, leaveWaitAny_frame]
  exact State.bank_mapBanks ..

/-- Settles O38. -/
theorem bankIntervalsEnd : Obligations.BankIntervalsEnd := by
  refine ⟨fun dt b s h hd => ?_, fun dt b s h hd hn => ?_, fun dt b c s h hd hc hb hp hl hq => ?_,
    fun dt b c bad rest s h hd hc hb hp hl hq hbad hrest => ?_, fun dt g s h => ?_⟩
  · obtain ⟨n, e⟩ := s.passTime_exists dt
    have run : exec (.openDelayEnd dt b) s = .next ((s.passTime dt).setBank b ((s.passTime dt).idleNext b
        { (s.passTime dt).bank b with state := .opened, idleReset := false })) := by
      refine if_pos ?_
      rw [e] at hd ⊢
      exact ⟨h, hd⟩
    rw [e] at run ⊢
    obtain ⟨core, state, marks⟩ := idleNext_core (s.atInstant n) b { s.bank b with state := .opened, idleReset := false }
    refine ⟨_, run, ?_, ?_, ?_, fun k hk => ?_, rfl, fun row ho hi => ⟨fun hw => ?_, fun hr hw => ?_⟩⟩
    · rw [State.bank_setBank_self]; exact state
    · have row := congrArg Bank.openRow core
      rw [State.bank_setBank_self]; exact row
    · rw [State.bank_setBank_self]; exact marks
    · rw [State.bank_setBank_of_ne _ hk]; rfl
    · rw [State.bank_setBank_self]
      exact idleNext_held (s := s.atInstant n) rfl ho hw
    · rw [State.bank_setBank_self]
      exact (idleNext_free (s := s.atInstant n) (x := { s.bank b with state := .opened, idleReset := false }) rfl ho hr hw).trans
        (if_pos ⟨hi, rfl⟩)
  · have run := exec_closeDelayEnd h hd
    obtain ⟨n, e⟩ := s.passTime_exists dt
    rw [e, endClose_incomplete (s := s.atInstant n) hn] at run
    have frame := rested_frame (s.atInstant n) b
    have bank : ((s.atInstant n).rested b).bank b = { s.bank b with state := s.restState b } := by
      rw [State.bank, frame]
      exact Table.get_set_self ..
    refine ⟨_, run, fun hr => ?_, fun hr => ?_, fun c hc hb hp => ?_, fun hw => ?_, ?_, ?_, fun k hk => ?_, ?_⟩
    · rw [bank]; show s.restState b = _; unfold State.restState; rw [hr]; rfl
    · rw [bank]; show s.restState b = _; unfold State.restState; rw [hr]; rfl
    · exact leaveWait_waits (s := (s.atInstant n).setBank b { s.bank b with state := s.restState b }) hc hb hp
        (by rw [State.bank_setBank_self]; exact restState_of hc hb)
    · have stays := congrArg State.currentJob
        (leaveWait_stays (s := (s.atInstant n).setBank b { s.bank b with state := s.restState b }) hw)
      exact stays
    · rw [frame]; rfl
    · rw [frame]; rfl
    · rw [State.bank, frame]
      exact Table.get_set_of_ne _ hk _
    · rw [frame]; rfl
  · have head : ∀ j ∈ s.repairQueue.head?, (s.freeSpare j.bank).isSome = true := by
      rcases hq with hq | ⟨j, later, sp, hq, hsp⟩
      · rw [hq]; exact nofun
      · rw [hq]
        intro k hk
        rw [← Option.some.inj hk, hsp]; rfl
    obtain ⟨w, u, run, completed, started⟩ := exec_copyInEnds (bad := []) (rest := s.repairQueue) h hd hc hb hp hl rfl nofun head
    obtain ⟨n, e⟩ := s.passTime_exists dt
    rw [e] at completed ⊢
    obtain ⟨checks, buffer⟩ := started.kept rfl
    have bank : (u.bank b).marks.repair = false ∧
        (s.repairQueue = [] → u.repairQueue = [] ∧ u.currentJob = none ∧ (u.bank b).state = .closed ∧
          ∀ k, k ≠ b → u.bank k = s.bank k) ∧
        (∀ j rest sp, s.repairQueue = j :: rest → s.freeSpare j.bank = some sp → u.repairQueue = rest ∧
          u.currentJob = some
            { job := j, chosen := sp, previous := s.servingSpare j.bank j.row, linesRead := 0, linesWritten := 0
              poisonedWords := 0, programEnds := none
              phase := if j.bank = b ∨ (s.bank j.bank).state = .closed then .copyOut else .wait } ∧
          (u.bank b).state = if j.bank = b then .repairing else .closed) := by
      rcases hq with hq | ⟨j, later, sp, hq, hsp⟩
      · obtain ⟨job, -, banks⟩ := started.done hq
        have same : ∀ k, u.bank k = w.bank k := fun k => congrArg (Table.get · k) (banks rfl)
        refine ⟨by rw [same]; exact completed.bank.2, fun _ => ⟨by rw [started.jobs, hq]; rfl, job completed.job, ?_, fun k hk => ?_⟩,
          fun j rest sp hk => by rw [hq] at hk; cases hk⟩
        · rw [same]; exact completed.bank.1
        · rw [same]; exact completed.others k hk
      · obtain ⟨ph, next⟩ := started.next j later sp hq ((freeSpare_congr completed.remap _).trans hsp)
        have alone := next.alone rfl b
        have marks : (w.bank b).taken.marks = (w.bank b).marks := by unfold Bank.taken; rw [completed.bank.1]
        refine ⟨?_, fun h => (by rw [hq] at h; cases h), fun k rest sp' hk hsp' => ?_⟩
        · rw [alone]
          split
          · rw [marks]; exact completed.bank.2
          · exact completed.bank.2
        · rw [hq] at hk
          obtain ⟨rfl, rfl⟩ := List.cons.inj hk
          have one : sp' = sp := Option.some.inj (hsp'.symm.trans hsp)
          subst one
          have closed : (w.bank j.bank).state = .closed ↔ j.bank = b ∨ (s.bank j.bank).state = .closed := by
            by_cases hj : j.bank = b
            · rw [hj]; exact ⟨fun _ => .inl rfl, fun _ => completed.bank.1⟩
            · rw [completed.others _ hj]; exact ⟨.inr, fun h => h.resolve_left hj⟩
          refine ⟨by rw [started.jobs, hq]; rfl, ?_, ?_⟩
          · rw [next.job, next.phase (.inr rfl), servingSpare_congr completed.remap]
            exact congrArg some (congrArg (CurrentJob.mk _ · _ _ _ _ _ _) (if_congr closed rfl rfl))
          · rw [alone]
            by_cases hj : j.bank = b
            · rw [if_pos hj, if_pos hj.symm]; exact taken_state_closed completed.bank.1
            · rw [if_neg hj, if_neg (Ne.symm hj)]; exact completed.bank.1
    refine ⟨u, run, fun p => ?_, fun p => ?_, fun i f => ?_, ?_, ?_, buffer.trans completed.buffer, bank.1, ?_, ?_, bank.2⟩
    · rw [started.queue, completed.queue, List.map_map]
      exact List.map_congr_left fun x _ => rfl
    · rw [started.noticeQ, List.map_nil, told_nil, completed.noticeQ, ← told_one]; rfl
    · rw [checks, completed.checks]; exact get_dropFault ..
    · rw [checks, completed.checks]; rfl
    · rw [checks, completed.checks]; rfl
    · rw [started.move.frame]; exact completed.mem
    · rw [started.move.frame]; exact completed.remap
  · obtain ⟨w, u, run, completed, started⟩ := exec_copyInEnds h hd hc hb hp hl hq hbad hrest
    obtain ⟨n, e⟩ := s.passTime_exists dt
    rw [e] at completed ⊢
    have state : ∀ k, k ≠ b → (w.bank k).state = (s.bank k).state := fun k hk => by rw [completed.others k hk]; rfl
    refine ⟨u, run, started.jobs, ?_, ?_, fun hr => ?_, fun j later sp hr hsp => ?_, fun p => ?_, fun p => ?_⟩
    · rw [started.move.frame]; exact completed.mem
    · rw [started.move.frame]; exact completed.remap
    · obtain ⟨job, bank, -⟩ := started.done hr
      exact ⟨job completed.job, (bank b (by rw [completed.bank.1]; decide)).trans completed.bank.1⟩
    · obtain ⟨ph, next⟩ := started.next j later sp hr ((freeSpare_congr completed.remap _).trans hsp)
      have phase : ∀ st, (w.bank j.bank).state = st → st ≠ .repairing → ph = if st = .closed then .copyOut else .wait :=
        fun st h1 h2 => by rw [next.phase (.inl (by rw [h1]; exact h2)), h1]
      refine ⟨ph, ?_, fun hj => ?_, fun hj ho => ?_, fun hj ho => ?_⟩
      · rw [next.job, servingSpare_congr completed.remap]; rfl
      · have closed : (w.bank j.bank).state = .closed := by
          by_cases hb : j.bank = b
          · rw [hb]; exact completed.bank.1
          · rw [state _ hb]; exact hj.resolve_left hb
        exact ⟨phase _ closed nofun, next.closed closed⟩
      · rw [← state _ hj] at ho
        refine ⟨?_, next.opened ho⟩
        rcases ho with ho | ho <;> exact phase _ ho nofun
      · rw [← state _ hj] at ho
        rcases ho with ho | ho <;> exact phase _ ho nofun
    · rw [started.noticeQ]
      exact told_cons (completed.noticeQ p) (by unfold State.online State.link; rw [completed.links]) _
    · rw [started.queue, completed.queue, List.map_map]
      refine List.map_congr_left fun x _ => ?_
      have stamp : (x.answeredBy c.job.requesters n ⟨.ok, .repair (some c.chosen) c.poisonedWords⟩).stamp = x.stamp := by
        unfold Record.answeredBy; split <;> rfl
      show (if bad.any (fun j => j.requesters.any (fun q => decide (q.stamp = (x.answeredBy _ n _).stamp))) = true then _ else _) = _
      rw [stamp, completed.now]
      unfold Record.answeredBy
      split
      · split <;> rfl
      · rfl
  · have run := exec_groupRefreshEnd h
    obtain ⟨n, e⟩ := s.passTime_exists dt
    rw [e] at run
    have frame := leaveWaitAny_frame ((s.atInstant n).mapBanks ((s.atInstant n).endRefreshBank g))
    have bank := bank_refreshed (s.atInstant n) g
    refine ⟨_, run, ?_, ?_, fun b hg hr => ?_, fun c hc hg hr hp => ?_, fun b hb => ?_⟩
    · rw [frame]; rfl
    · rw [frame]; rfl
    · rw [bank]
      unfold State.endRefreshBank
      rw [if_pos ⟨hg, hr⟩]
      rfl
    · unfold State.leaveWaitAny
      rw [State.mapBanks_currentJob, show (s.atInstant n).currentJob = some c from hc]
      refine leaveWait_waits hc rfl hp ?_
      rw [State.bank_mapBanks]
      unfold State.endRefreshBank
      rw [if_pos ⟨hg, hr⟩]
      exact restState_of hc rfl
    · rw [bank]
      unfold State.endRefreshBank
      rw [if_neg fun h => hb.elim (fun k => k h.1) (fun k => k h.2)]
      rfl

end Sys2Proof.Machine
end

section
/-! PROOFS. REGION_SET (R92 to R95). -/

namespace Sys2Proof.Machine

section

variable {s : State} {p : Port} {t : Tag} {o : ReqOp}

/-- A change of the record that has just joined changes that record alone: no other has its stamp. -/
theorem queue_modRecord_readied {v : State} (hs : StampsBelowCounter s) (hq : v.queues = (s.readied p t o).queues) (f : Record → Record)
    (q : Port) : (v.modRecord s.stampCounter f).queue q =
      if q = p then s.queue p ++ [f (s.readyRecord p t o)] else s.queue q := by
  have old : ∀ q, (s.queue q).map (fun x => if x.stamp = s.stampCounter then f x else x) = s.queue q := by
    intro q
    rw [List.map_congr_left (g := id), List.map_id]
    exact fun x hx => if_neg fun e => absurd (e ▸ hs x (mem_records hx)) (BitVec.lt_irrefl _)
  have queue : (v.modRecord s.stampCounter f).queue q =
      ((s.queues.set p (s.queue p ++ [s.readyRecord p t o])).get q).map
        (fun x => if x.stamp = s.stampCounter then f x else x) := by
    unfold State.modRecord
    rw [State.queue_mapRecords, State.queue, hq]
    rfl
  rw [queue, PerPort.get_set]
  by_cases h : q = p
  · rw [if_pos h, if_pos h, List.map_append, old]
    exact congrArg (fun x => s.queue p ++ [x]) (if_pos rfl)
  · rw [if_neg h, if_neg h]
    exact old q

theorem online_readied (s : State) (p q : Port) (t : Tag) (o : ReqOp) : (s.readied p t o).online q = s.online q := by
  have accepted : (s.readied p t o).online q = (s.accepted p).online q := rfl
  rw [accepted, accepted_eq]
  unfold State.online
  by_cases h : q = p
  · rw [h, State.link_setLink_self]; rfl
  · rw [State.link_setLink_of_ne _ h]

/-- An admission that has ended SETTLING and ENTERING is no event at the quiet controller any more. -/
theorem quietBreak_of_ended {v : State} (hq : v.quiet = s.quietBreak.quiet) : v.quietBreak = v := by
  obtain ⟨h1, h2⟩ := quietBreak_ended s
  exact quietBreak_else (hq ▸ h1) (hq ▸ h2)

end

/-! ## What a REGION_SET does -/

section

variable {s : State} {p : Port} {st : Stamp} {ps : RegionSetParams} {g : RegionIx} {new : Replacement}

theorem doRegionSet_unclaimed (h : s.claim.holder ≠ some p) :
    s.doRegionSet p st ps = s.finishControl st (claimAnswer s.claim.holder) := by
  unfold State.doRegionSet
  rw [claimRefusal_other h]

theorem doRegionSet_outside (h : s.claim.holder = some p) (ho : ps.target = none) :
    s.doRegionSet p st ps = s.finishControl st ⟨.malformed, .none⟩ := by
  unfold State.doRegionSet
  rw [claimRefusal_held h, ho]

theorem doRegionSet_busy (h : s.claim.holder = some p) (ht : ps.target = some (g, new)) (hd : (s.region g).state = .draining) :
    s.doRegionSet p st ps = s.finishControl st ⟨.busy, .none⟩ := by
  unfold State.doRegionSet
  rw [claimRefusal_held h, ht]
  exact if_pos hd

theorem doRegionSet_overlap (h : s.claim.holder = some p) (ht : ps.target = some (g, new)) (hd : (s.region g).state ≠ .draining)
    (ho : new.enable = true ∧ s.rangeTaken g new.body.base new.body.limit = true) :
    s.doRegionSet p st ps = s.finishControl st ⟨.overlap, .none⟩ := by
  unfold State.doRegionSet
  rw [claimRefusal_held h, ht]
  exact (if_neg hd).trans (if_pos ho)

theorem doRegionSet_free (h : s.claim.holder = some p) (ht : ps.target = some (g, new)) (hd : (s.region g).state ≠ .draining)
    (ho : ¬ (new.enable = true ∧ s.rangeTaken g new.body.base new.body.limit = true)) :
    s.doRegionSet p st ps = if (s.region g).inFlight = 0 then ((s.takeEffect g new).restartClaim).finishControl st ⟨.ok, .none⟩
      else s.beginDrain st g new := by
  unfold State.doRegionSet
  rw [claimRefusal_held h, ht]
  exact (if_neg hd).trans (if_neg ho)

theorem takeEffect_frame (s : State) (g : RegionIx) (new : Replacement) : s.takeEffect g new = { s with
    regions := s.regions.set g { state := if new.enable then .active else .disabled, body := new.body
                                 inFlight := (s.region g).inFlight, replacement := none }
    watches := (s.takeEffect g new).watches, notices := (s.takeEffect g new).notices } := (recheckWatches_over _).frame

/-- The only entry of the watch table is cancelled, and its online owner is told. -/
theorem Rechecked.sole {w0 : Table 32 (Option Watch)} {nq : Port → NoticeQueue} {u : State} (h : Rechecked w0 nq u) {i : WatchId}
    {w : Watch} (hi : w0.get i = some w) (hn : u.watches.get i = none) (others : ∀ k, k ≠ i → w0.get k = none)
    (ho : u.online w.owner = true) : u.noticeQ w.owner = (nq w.owner).joined (.watchEnded i w.line .cancelled) := by
  have one : cancelledOf w0 u.watches w.owner = [.watchEnded i w.line .cancelled] := by
    refine filterMap_unique (List.nodup_finRange 32) (List.mem_finRange i) ?_ fun j hj => ?_
    · rw [hi, hn]; exact if_pos rfl
    · rw [others j hj]
  rw [h.told, if_pos ho, one]
  rfl

end

/-- Settles O19. -/
theorem regionSetReplacesOrDrains : Obligations.RegionSetReplacesOrDrains := by
  intro dt p r ps s h hps
  have hr := h.passTime dt
  obtain ⟨n, e⟩ := s.passTime_exists dt
  have hexec : exec (.regionSet dt p r) s = .next ((s.passTime dt).receive p Kind.regionSet.code r) := rfl
  rw [e] at hr hexec ⊢
  have form : WellFormedAs r .regionSet (.regionSet ps) := .regionSet ps hps
  obtain ⟨v, hv⟩ : ∃ v, v = (s.atInstant n).readied p r.tag (.regionSet ps) := ⟨_, rfl⟩
  have claim : v.claim = s.claim := by rw [hv]; rfl
  have region : ∀ j, v.region j = s.region j := fun j => by rw [hv]; rfl
  have taken : ∀ g new, new.enable = true ∧ v.rangeTaken g new.body.base new.body.limit = true ↔
      new.enable = true ∧ TakenByAnother s g new := fun g new => and_congr_right fun _ => by
    rw [takenByAnother_iff, hv]
    exact Iff.rfl
  have carried : v.carryOut ((s.atInstant n).readyRecord p r.tag (.regionSet ps)) = v.doRegionSet p s.stampCounter ps := rfl
  rw [hv] at carried
  have answers : ∀ res, v.doRegionSet p s.stampCounter ps = v.finishControl s.stampCounter res →
      ∃ t, exec (.regionSet dt p r) s = .next t ∧ Answered (s.atInstant n) t p r.tag (.regionSet ps) res ∧
        t.regions = s.regions ∧ t.claim = s.claim := fun res hd => by
    rw [hv] at hd
    obtain ⟨hrec, hans⟩ := answered_only (res := res) hr form rfl nofun (carried.trans hd)
    exact ⟨_, hexec.trans (congrArg _ hrec), hans, rfl, rfl⟩
  refine ⟨fun hc => ?_, fun hc ho => ?_, fun g new hc ht => ⟨fun hd => ?_, fun hd hen hta => ?_, fun hd hfree => ⟨fun h0 => ?_, fun h0 => ?_⟩⟩⟩
  · rw [← claim] at hc ⊢
    obtain ⟨t, run, ans, regions, -⟩ := answers _ (doRegionSet_unclaimed hc)
    exact ⟨t, run, ans, regions⟩
  · rw [← claim] at hc
    exact answers _ (doRegionSet_outside hc (outsideRegions_iff.mp ho))
  · rw [← claim] at hc
    rw [← region] at hd
    exact answers _ (doRegionSet_busy hc (namesRegion_iff.mp ht) hd)
  · rw [← claim] at hc
    rw [← region] at hd
    exact answers _ (doRegionSet_overlap hc (namesRegion_iff.mp ht) hd ((taken g new).mpr ⟨hen, hta⟩))
  · have free := doRegionSet_free (st := s.stampCounter) (claim ▸ hc) (namesRegion_iff.mp ht) (by rw [region]; exact hd)
      fun hb => hfree hb.1 ((taken g new).mp hb).2
    rw [region, if_pos h0] at free
    obtain ⟨u, hu⟩ : ∃ u, u = v.takeEffect g new := ⟨_, rfl⟩
    have frame := takeEffect_frame v g new
    have checked : Rechecked s.watches s.noticeQ u := by
      have := (takeEffect_spec v g new).rechecked
      rw [← hu, hv] at this
      exact this
    rw [← hu] at free frame
    have restart : u.restartClaim = u.setClaim ⟨some p, some (n + ms 10)⟩ :=
      (restartClaim_held (p := p) (by rw [frame, claim]; exact hc)).trans (by rw [frame, hv]; rfl)
    have same : u.quiet = ((s.atInstant n).readied p r.tag (.regionSet ps)).quiet ∧
        u.banks = ((s.atInstant n).readied p r.tag (.regionSet ps)).banks := by rw [frame, hv]; exact ⟨rfl, rfl⟩
    rw [restart, hv] at free
    obtain ⟨hrec, hans⟩ := carried_answered (v := u.setClaim ⟨some p, some (n + ms 10)⟩) hr form rfl nofun (carried.trans free)
      (by rw [frame, hv]; rfl) (by rw [frame, hv]; rfl) (by rw [frame, hv]; rfl) (by rw [frame, hv]; rfl)
      ((admissionEnds_readied (s.atInstant n) p r.tag (.regionSet ps)).congr same.1 same.2)
    refine ⟨_, hexec.trans (congrArg _ hrec), hans, ?_, rfl, fun i w hw => ⟨fun ⟨j, hj, only, rights⟩ => ?_, fun hn => ⟨?_, fun hk ho => ?_⟩⟩⟩
    · show u.regions = _
      rw [frame, region, h0, hv]
      rfl
    · exact checked.kept i w j hw hj only rights
    · exact checked.cancelled i w hw hn
    · exact checked.sole hw (checked.cancelled i w hw hn) hk (by rw [frame, hv]; exact (online_readied (s.atInstant n) p w.owner r.tag (.regionSet ps)).trans ho)
  · have free := doRegionSet_free (st := s.stampCounter) (claim ▸ hc) (namesRegion_iff.mp ht) (by rw [region]; exact hd)
      fun hb => hfree hb.1 ((taken g new).mp hb).2
    rw [region, if_neg h0] at free
    have received := receive_readied hr form rfl nofun
    rw [← hv] at carried received
    obtain ⟨u, hu⟩ : ∃ u, u = (v.setRegion g { v.region g with state := .draining, replacement := some new }).modRecord s.stampCounter
      (fun r => { r with state := .active, blocked := none }) := ⟨_, rfl⟩
    have restart : u.restartClaim = u.setClaim ⟨some p, some (n + ms 10)⟩ :=
      (restartClaim_held (p := p) (by rw [hu]; exact (congrArg Claim.holder claim).trans hc)).trans (by rw [hu, hv]; rfl)
    have drain : v.beginDrain s.stampCounter g new = u.setClaim ⟨some p, some (n + ms 10)⟩ := by
      unfold State.beginDrain
      rw [← hu, restart]
      exact quietBreak_of_ended (s := s.atInstant n) (by rw [hu, hv]; rfl)
    refine ⟨u.setClaim ⟨some p, some (n + ms 10)⟩, { (s.atInstant n).readyRecord p r.tag (.regionSet ps) with
      state := .active, blocked := none }, hexec.trans (congrArg _ (received.trans (carried.trans (free.trans drain)))), ?_, rfl, rfl,
      ?_, ?_, rfl, ?_⟩
    · show u.queue p = _
      rw [hu]
      exact (queue_modRecord_readied (s := s.atInstant n) (p := p) (t := r.tag) (o := .regionSet ps) h.stamps
        (by rw [hv]; rfl) _ p).trans (if_pos rfl)
    · have same : u.quiet = ((s.atInstant n).readied p r.tag (.regionSet ps)).quiet ∧
          u.banks = ((s.atInstant n).readied p r.tag (.regionSet ps)).banks := by rw [hu, hv]; exact ⟨rfl, rfl⟩
      have ends := (admissionEnds_readied (s.atInstant n) p r.tag (.regionSet ps)).congr same.1 same.2
      exact ⟨ends.settling, ends.entering, ends.active⟩
    · rw [hu, region, hv]; rfl
    · rw [hu, hv]; rfl

end Sys2Proof.Machine
end

section
/-! PROOFS. What the carrying out of records keeps of an ACTIVE part: no record leaves its queue, and the quiet controller stands
(R27, R34, R42, R150, R153). -/

namespace Sys2Proof.Machine

/-- Every queue keeps its records, and an ACTIVE part stays so. -/
structure StaysActive (s t : State) : Prop where
  lengths : ∀ p, (t.queue p).length = (s.queue p).length
  part : s.quiet.part = .active → t.quiet.part = .active
  timer : s.quiet.part = .active → t.quiet.holdTimer = s.quiet.holdTimer
  marks : s.quiet.part = .active → ∀ b, (t.bank b).marks.retention = (s.bank b).marks.retention

namespace StaysActive

variable {s t u : State}

theorem refl (s : State) : StaysActive s s := ⟨fun _ => rfl, id, fun _ => rfl, fun _ _ => rfl⟩

theorem trans (h : StaysActive s t) (k : StaysActive t u) : StaysActive s u :=
  ⟨fun p => (k.lengths p).trans (h.lengths p), fun a => k.part (h.part a), fun a => (k.timer (h.part a)).trans (h.timer a),
    fun a b => (k.marks (h.part a) b).trans (h.marks a b)⟩

theorem of_eq (hq : t.queues = s.queues) (hp : t.quiet = s.quiet) (hb : t.banks = s.banks) : StaysActive s t :=
  ⟨fun p => by unfold State.queue; rw [hq], fun a => by rw [hp, a], fun _ => by rw [hp], fun _ b => by unfold State.bank; rw [hb]⟩

theorem mapRecords (s : State) (f : Record → Record) : StaysActive s (s.mapRecords f) :=
  ⟨fun p => by rw [State.queue_mapRecords, List.length_map], id, fun _ => rfl, fun _ _ => rfl⟩

theorem restartClaim (s : State) : StaysActive s s.restartClaim := of_eq rfl rfl rfl

theorem finishControl (s : State) (st : Stamp) (res : Result) : StaysActive s (s.finishControl st res) := mapRecords s _

theorem reviewRecords (s : State) : StaysActive s s.reviewRecords :=
  ⟨fun p => by rw [reviewRecords_queue, List.length_map], id, fun _ => rfl, fun _ _ => rfl⟩

theorem quietBreak (s : State) : StaysActive s s.quietBreak := by
  refine ⟨fun p => by rw [quietBreak_queue], fun a => ?_, fun a => ?_, fun a b => ?_⟩ <;>
    rw [quietBreak_else (by rw [a]; nofun) (by rw [a]; nofun)]
  exact a

theorem wakeCause (s : State) (c : WakeCause) (p : Port) : StaysActive s (s.wakeCause c p) := by
  refine ⟨fun q => by rw [State.queue, wakeCause_frame]; rfl, fun a => ?_, fun a => ?_, fun a b => ?_⟩ <;>
    rw [wakeCause_awake (by rw [a]; nofun)]
  exact a

theorem takeEffect (s : State) (g : RegionIx) (x : Replacement) : StaysActive s (s.takeEffect g x) := by
  rw [takeEffect_frame]; exact of_eq rfl rfl rfl

theorem broadcast (s : State) (w : Enables → Bool) (n : Notice) : StaysActive s (s.broadcast w n) := by
  rw [broadcast_frame]; exact of_eq rfl rfl rfl

/-- A change of one bank that keeps its mark RETENTION. -/
theorem bank (hq : t.queues = s.queues) (hp : t.quiet = s.quiet) {b : BankId} {x : Bank}
    (hb : ∀ k, t.bank k = if k = b then x else s.bank k) (hx : x.marks.retention = (s.bank b).marks.retention) : StaysActive s t :=
  ⟨fun p => by unfold State.queue; rw [hq], fun a => by rw [hp, a], fun _ => by rw [hp], fun _ k => by
    rw [hb]
    split
    · rename_i h; rw [hx, h]
    · rfl⟩

theorem takeBank (s : State) (b : BankId) : StaysActive s (s.takeBank b) := by
  have frame := takeBank_frame s b
  refine bank (by rw [frame]) (by rw [frame]) (bank_takeBank s b) ?_
  unfold Bank.taken
  split <;> rfl

theorem endJob (s : State) (j : Job) (st : Status) (sp : Option SpareId) (n : Nat) : StaysActive s (s.endJob j st sp n) := by
  have ended : StaysActive s (s.jobEnded j ⟨st, .repair sp n⟩) := by
    have released : StaysActive s (({ s with currentJob := none, repairBuffer := [] } : State).releaseBank j.bank) :=
      bank rfl rfl (fun k => Table.get_set ..) rfl
    exact released.trans (mapRecords ..)
  rw [endJob_frame]
  exact ended.trans (of_eq rfl rfl rfl)

theorem startJobs (js : List Job) (s : State) : StaysActive s (State.startJobs js s) := by
  induction js generalizing s with
  | nil => exact of_eq rfl rfl rfl
  | cons j js ih =>
    unfold State.startJobs
    split
    · rename_i sp _
      have queued : StaysActive s ({ s with repairQueue := js }.setJob (some (({ s with repairQueue := js } : State).startRecord j sp))) :=
        of_eq rfl rfl rfl
      exact queued.trans (takeBank _ _)
    · exact ((takeBank s j.bank).trans (endJob _ _ _ _ _)).trans (ih _)

theorem submitJob (s : State) (j : Job) : StaysActive s (s.submitJob j) := by
  unfold State.submitJob
  split
  · exact of_eq rfl rfl rfl
  · split
    · split
      · exact of_eq rfl rfl rfl
      · have queued : StaysActive s { s with repairQueue := s.repairQueue ++ [j] } := of_eq rfl rfl rfl
        exact queued.trans (quietBreak _)
    · exact (quietBreak s).trans (startJobs _ _)

/-! ## The kinds -/

theorem doUnwatch (s : State) (p : Port) (i : Nat) : StaysActive s (s.doUnwatch p i).1 := by
  unfold State.doUnwatch
  split
  · split
    · split
      · exact of_eq rfl rfl rfl
      · exact refl s
    · exact refl s
  · exact refl s

theorem doRegionSet (s : State) (p : Port) (st : Stamp) (ps : RegionSetParams) : StaysActive s (s.doRegionSet p st ps) := by
  unfold State.doRegionSet
  split
  · exact finishControl ..
  · split
    · exact finishControl ..
    · split
      · exact finishControl ..
      · split
        · exact finishControl ..
        · split
          · exact ((takeEffect ..).trans (restartClaim _)).trans (finishControl ..)
          · rename_i g new _ _ _ _
            have drained : StaysActive s (s.setRegion g { s.region g with state := .draining, replacement := some new }) :=
              of_eq rfl rfl rfl
            exact ((drained.trans (mapRecords _ _)).trans (restartClaim _)).trans (quietBreak _)

theorem doQuiet (s : State) (p : Port) (v : Nat) : StaysActive s (s.doQuiet p v).1 := by
  have voted : ∀ x, StaysActive s (s.setVote p x) := fun x => ⟨fun _ => rfl, id, fun _ => rfl, fun _ _ => rfl⟩
  unfold State.doQuiet
  split
  · exact ((voted _).trans (quietBreak _)).trans (wakeCause ..)
  · exact (voted _).trans (quietBreak _)
  · exact refl s

theorem doClaim (s : State) (p : Port) : StaysActive s (s.doClaim p).1 := by
  unfold State.doClaim
  split
  · exact of_eq rfl rfl rfl
  · split
    · exact of_eq rfl rfl rfl
    · exact refl s

theorem doRelease (s : State) (p : Port) : StaysActive s (s.doRelease p).1 := by
  unfold State.doRelease
  split
  · exact of_eq rfl rfl rfl
  · exact refl s

theorem putSetting (s : State) {c : Nat} (h : 1 ≤ c ∧ c ≤ 7) (v : Nat) : StaysActive s (s.putSetting c v) := by
  have aged : StaysActive s (s.agedBy c v) := by
    unfold State.agedBy
    split
    · exact mapRecords ..
    · exact refl s
  rw [putSetting_frame s h]
  exact aged.trans (of_eq rfl rfl rfl)

theorem doSet (s : State) (p : Port) (c v : Nat) : StaysActive s (s.doSet p c v).1 := by
  unfold State.doSet
  split
  · exact ⟨fun _ => rfl, id, fun _ => rfl, fun _ _ => rfl⟩
  · split
    · exact refl s
    · split
      · exact refl s
      · split
        · exact of_eq rfl rfl rfl
        · split
          · exact (putSetting s (by omega) v).trans (restartClaim _)
          · exact refl s

theorem doRepair (s : State) (p : Port) (st : Stamp) (tag : Tag) (b : BankId) (row : RowId) (m : RepairMode) :
    StaysActive s (s.doRepair p st tag b row m) := by
  have active : StaysActive s ((s.modRecord st (fun r => { r with state := .active, blocked := none })).restartClaim) :=
    (mapRecords s _).trans (restartClaim _)
  unfold State.doRepair
  split
  · exact finishControl ..
  · dsimp only
    split
    · exact active.trans (submitJob ..)
    · exact finishControl ..

theorem carryOut (s : State) (r : Record) : StaysActive s (s.carryOut r) := by
  unfold State.carryOut
  split
  · exact finishControl ..
  · exact (doUnwatch ..).trans (finishControl ..)
  · have masked : ∀ e, StaysActive s (s.doNoticeMask r.port e) := fun e => of_eq rfl rfl rfl
    exact (masked _).trans (finishControl ..)
  · exact doRegionSet ..
  · exact finishControl ..
  · exact doRepair ..
  · exact (doQuiet ..).trans (finishControl ..)
  · exact (doClaim ..).trans (finishControl ..)
  · exact (doRelease ..).trans (finishControl ..)
  · exact (doSet ..).trans (finishControl ..)
  · exact finishControl ..
  all_goals exact refl s

/-! ## The blocks evaluated anew -/

theorem drive (n : Nat) (s : State) : StaysActive s (s.drive n) := by
  induction n generalizing s with
  | zero => exact reviewRecords s
  | succ n ih =>
    unfold State.drive
    dsimp only
    split
    · exact reviewRecords s
    · rename_i r _
      have drawn : StaysActive s ({ s.reviewRecords with freeCount := s.reviewRecords.freeCount + 1 } : State) :=
        (reviewRecords s).trans (of_eq rfl rfl rfl)
      exact (drawn.trans (carryOut _ r)).trans (ih _)

theorem reviewIdle (s : State) : StaysActive s s.reviewIdle :=
  ⟨fun _ => rfl, id, fun _ => rfl, fun _ b => by
    rw [State.reviewIdle, State.bank_mapBanks, (idleNext_core ..).2.2]⟩

/-- A part with a record in a queue does not settle. -/
theorem reviewQuiet {p : Port} (h : s.queue p ≠ []) : StaysActive s s.reviewQuiet := by
  rw [reviewQuiet_unsettled fun settles => h (settles.records.1 p)]
  exact quietBreak s

theorem settle {p : Port} (h : s.queue p ≠ []) : StaysActive s s.settle := by
  have scrubbed : StaysActive (s.drive s.recordCount) (s.drive s.recordCount).reviewScrub := by
    rw [reviewScrub_frame]; exact of_eq rfl rfl rfl
  have before := ((drive s.recordCount s).trans scrubbed).trans (reviewIdle _)
  refine before.trans (reviewQuiet (p := p) fun e => h ?_)
  rw [← List.length_eq_zero_iff, ← before.lengths p, e]
  rfl

/-- What an admission ends stays so. -/
theorem admissionEnds (h : AdmissionEnds s t) (k : StaysActive t u) : AdmissionEnds s u := by
  refine ⟨fun e => ?_, fun e => ?_, fun e => k.part (h.active e)⟩
  · obtain ⟨part, timer⟩ := h.settling e
    exact ⟨k.part part, (k.timer part).trans timer⟩
  · obtain ⟨part, marks⟩ := h.entering e
    exact ⟨k.part part, fun b => (k.marks part b).trans (marks b)⟩

end StaysActive

end Sys2Proof.Machine
end

section
/-! PROOFS. REPAIR: its admission, and what the repair controller makes of a new job (R134 to R137). -/

namespace Sys2Proof.Machine

/-! ## A new job -/

section

variable {s : State} {new : Job} {c : CurrentJob}

theorem sameRow_iff {j : Job} : j.sameRow new = true ↔ j.bank = new.bank ∧ j.row = new.row := decide_eq_true_iff

/-- The new job's row has a job in the queue. -/
theorem rowQueued_iff : s.repairQueue.any (fun j => j.sameRow new) = true ↔ ∃ j ∈ s.repairQueue, j.bank = new.bank ∧ j.row = new.row := by
  rw [List.any_eq_true]
  exact exists_congr fun j => and_congr_right fun _ => sameRow_iff

theorem takes_iff : c.takes new = true ↔ c.job.bank = new.bank ∧ c.job.row = new.row ∧
    (new.mode = .soft ∨ c.job.mode = .fused ∨ c.phase = .wait ∨ c.phase = .copyOut) := by
  unfold CurrentJob.takes
  rw [Bool.and_eq_true, sameRow_iff, Bool.or_eq_true, Bool.or_eq_true, decide_eq_true_iff, decide_eq_true_iff, decide_eq_true_iff, and_assoc,
    or_assoc]

/-- A job for the row of a queued one merges with it. -/
theorem submitJob_merges (h : ∃ j ∈ s.repairQueue, j.bank = new.bank ∧ j.row = new.row) :
    s.jobFits new = true ∧ s.submitJob new = { s with
      repairQueue := s.repairQueue.map (fun j => if j.bank = new.bank ∧ j.row = new.row then j.merge new else j) } := by
  have queued := rowQueued_iff.mpr h
  refine ⟨by unfold State.jobFits; rw [queued]; rfl, ?_⟩
  unfold State.submitJob
  rw [if_pos queued]
  have same : ∀ j : Job, (if j.sameRow new = true then j.merge new else j) = if j.bank = new.bank ∧ j.row = new.row then j.merge new else j :=
    fun j => if_congr sameRow_iff rfl rfl
  simp only [same]

section

variable (hn : ∀ j ∈ s.repairQueue, ¬ (j.bank = new.bank ∧ j.row = new.row))
include hn

theorem rowNotQueued : s.repairQueue.any (fun j => j.sameRow new) = false :=
  Bool.eq_false_iff.mpr fun e => by
    obtain ⟨j, hj, h⟩ := rowQueued_iff.mp e
    exact hn j hj h

/-- A job for the current one's row merges with it in time. -/
theorem submitJob_joins (hc : s.currentJob = some c) (ht : c.takes new = true) :
    s.jobFits new = true ∧ s.submitJob new = s.setJob (some { c with job := c.job.merge new }) := by
  have none := rowNotQueued hn
  refine ⟨?_, ?_⟩
  · unfold State.jobFits State.currentTakes
    rw [hc, none]
    dsimp only
    rw [ht]
    rfl
  · unfold State.submitJob
    rw [if_neg (by rw [none]; nofun), hc]
    exact if_pos ht

/-- Behind a current job a new one waits in the queue, -/
theorem submitJob_queues (hc : s.currentJob = some c) (ht : ¬ c.takes new = true) (hl : s.repairQueue.length < 4) :
    s.jobFits new = true ∧ s.submitJob new = ({ s with repairQueue := s.repairQueue ++ [new] } : State).quietBreak := by
  have none := rowNotQueued hn
  refine ⟨?_, ?_⟩
  · unfold State.jobFits
    rw [decide_eq_true (show s.repairQueue.length < Config.repairDepth from hl), Bool.or_true]
  · unfold State.submitJob
    rw [if_neg (by rw [none]; nofun), hc]
    exact if_neg ht

/-- if the queue has room. -/
theorem jobFits_full (hc : s.currentJob = some c) (ht : ¬ c.takes new = true) (hl : 4 ≤ s.repairQueue.length) : ¬ s.jobFits new = true := by
  unfold State.jobFits State.currentTakes
  rw [rowNotQueued hn, hc]
  dsimp only
  rw [Bool.eq_false_iff.mpr ht, decide_eq_false (show ¬ s.repairQueue.length < Config.repairDepth from Nat.not_lt.mpr hl)]
  nofun

end

/-- With no job queued or current a new one starts. -/
theorem submitJob_starts (hq : s.repairQueue = []) (hc : s.currentJob = none) :
    s.jobFits new = true ∧ s.submitJob new = State.startJobs [new] s.quietBreak := by
  refine ⟨?_, ?_⟩
  · unfold State.jobFits
    rw [hq, decide_eq_true (show ([] : List Job).length < Config.repairDepth by decide), Bool.or_true]
  · unfold State.submitJob
    rw [hq, hc]
    rfl

theorem startJobs_none (h : s.freeSpare new.bank = none) : State.startJobs [new] s = { s.dropJob new with repairQueue := [] } := by
  have dropped := startJobs_dropped (s := s) (bad := [new]) [] fun j hj => (List.mem_singleton.mp hj) ▸ h
  exact dropped

end

/-! ## The lowest-numbered FREE spare -/

theorem freeSpare_some {s : State} {b : BankId} {i : SpareId} (h : s.freeSpare b = some i) :
    ((s.spares b).get i).state = .free ∧ ∀ j, j < i → ((s.spares b).get j).state ≠ .free := by
  have range : allSpares = List.finRange 4 := by decide
  unfold State.freeSpare at h
  rw [range, find_finRange_some] at h
  exact ⟨of_decide_eq_true h.1, fun j hj => of_decide_eq_false (h.2 j hj)⟩

theorem freeSpare_none {s : State} {b : BankId} (h : ∀ i, ((s.spares b).get i).state ≠ .free) : s.freeSpare b = none := by
  unfold State.freeSpare
  exact List.find?_eq_none.mpr fun i _ e => h i (of_decide_eq_true e)

/-! ## The admission -/

section

variable {s : State} {p : Port} {r : Request} {b : BankId} {row : RowId} {m : RepairMode}

/-- No condition of Table 15 holds against a REPAIR of an awake part that no FENCE precedes. -/
theorem not_heldBack_repair (h : ControlReady s p r) (ha : s.asleep = false) {t : Tag} (c : BlockReason) :
    ¬ HeldBack s (s.newRecord p t (.repair b row m) false none) c := by
  intro hc
  cases c with
  | retention =>
    have := heldBack_retention.mpr hc
    rw [ha, Bool.and_false] at this
    cases this
  | fence =>
    obtain ⟨q, ⟨hq, -, hd⟩, he⟩ := hc
    exact hd (of_decide_eq_true (h.noFence q hq (isFence_iff.mpr he)))
  | order =>
    obtain ⟨q, -, ⟨a, n, b, m, hspan, -⟩ | he⟩ := hc
    · cases hspan
    · cases he
  | hold => obtain ⟨a, n, hspan, -⟩ := hc; cases hspan
  | bank => obtain ⟨a, n, c, hspan, -⟩ := hc; cases hspan

theorem enqueue_awake {t : Tag} {o : ReqOp} (ha : s.asleep = false) (hb : s.blockReason (s.newRecord p t o false none) = none) :
    (s.accepted p).enqueue p t o false none = s.readied p t o := by
  have hr : (s.accepted p).firstRecord p t o false none = s.readyRecord p t o := by
    unfold State.firstRecord
    exact review_unblocked rfl ((blockReason_quietBreak ..).trans hb)
  have part : s.quiet.part ≠ .retained := fun e => by
    unfold State.asleep at ha
    rw [e] at ha
    cases ha
  have joins : (s.accepted p).quietBreak.joined p (s.readyRecord p t o) none = s.readied p t o := by
    rw [quietBreak_accepted, quietBreak_frame s]; rfl
  rw [enqueue_eq, hr, joins]
  split
  · exact wakeCause_awake (fun e => part ((readied_part_retained p t o).mp e)) _ _
  · rfl

/-- A REPAIR of an awake part is carried out as it arrives, and the blocks are evaluated anew. -/
theorem receive_repair (h : ControlReady s p r) (hw : WellFormedAs r .repair (.repair b row m)) (ha : s.asleep = false)
    (hd : s.scrub.sweepDone = true) :
    s.receive p Kind.repair.code r = ((s.readied p r.tag (.repair b row m)).doRepair p s.stampCounter r.tag b row m).settle := by
  have hb : s.blockReason (s.newRecord p r.tag (.repair b row m) false none) = none := blockReason_none (not_heldBack_repair h ha)
  have hr : (s.accepted p).quietBreak.review ((s.accepted p).newRecord p r.tag (.repair b row m) false none) =
      s.readyRecord p r.tag (.repair b row m) := review_unblocked rfl ((blockReason_quietBreak ..).trans hb)
  rw [receive_control h.admitted hw rfl fun _ => hd]
  show (s.accepted p).letIn p r.tag (.repair b row m) false none = _
  unfold State.letIn
  dsimp only
  rw [enqueue_awake ha hb, hr]
  rfl

end

/-! ## What a REPAIR does -/

/-- The REPAIR's record ACTIVE, with the claim timer started anew. -/
def State.repairActive (s : State) (p : Port) (st : Stamp) : State :=
  (s.modRecord st (fun r => { r with state := .active, blocked := none })).setClaim ⟨some p, some (s.now + ms 10)⟩

section

variable {s : State} {p : Port} {st : Stamp} {tag : Tag} {b : BankId} {row : RowId} {m : RepairMode}

theorem doRepair_unclaimed (h : s.claim.holder ≠ some p) :
    s.doRepair p st tag b row m = s.finishControl st (claimAnswer s.claim.holder) := by
  unfold State.doRepair
  rw [claimRefusal_other h]

theorem doRepair_fits (h : s.claim.holder = some p) (hf : s.jobFits ⟨b, row, m, [⟨p, st, tag⟩]⟩ = true) :
    s.doRepair p st tag b row m = (s.repairActive p st).submitJob ⟨b, row, m, [⟨p, st, tag⟩]⟩ := by
  unfold State.doRepair
  rw [claimRefusal_held h]
  dsimp only
  rw [if_pos hf]
  exact congrArg (State.submitJob · _)
    (restartClaim_held (s := s.modRecord st (fun r => { r with state := .active, blocked := none })) h)

theorem doRepair_full (h : s.claim.holder = some p) (hf : ¬ s.jobFits ⟨b, row, m, [⟨p, st, tag⟩]⟩ = true) :
    s.doRepair p st tag b row m = s.finishControl st ⟨.tableFull, .none⟩ := by
  unfold State.doRepair
  rw [claimRefusal_held h]
  exact if_neg hf

end

end Sys2Proof.Machine
end

section
/-! PROOFS. What a REPAIR leaves, outcome by outcome (R134 to R137). -/

namespace Sys2Proof.Machine

section

variable {s : State} {p : Port} {t : Tag} {b : BankId} {row : RowId} {m : RepairMode}

/-- The state in which an arrived REPAIR's record stands ACTIVE. -/
def State.repairAdmitted (s : State) (p : Port) (t : Tag) (b : BankId) (row : RowId) (m : RepairMode) : State :=
  (s.readied p t (.repair b row m)).repairActive p s.stampCounter

theorem queue_repairAdmitted (hs : StampsBelowCounter s) : (s.repairAdmitted p t b row m).queue p =
    s.queue p ++ [{ s.readyRecord p t (.repair b row m) with state := .active, blocked := none }] :=
  (queue_modRecord_readied hs rfl _ p).trans (if_pos rfl)

theorem quietBreak_repairAdmitted : (s.repairAdmitted p t b row m).quietBreak = s.repairAdmitted p t b row m :=
  quietBreak_of_ended (s := s) rfl

/-- A REPAIR whose job finds no spare ends at once. -/
theorem queue_repair_dropped (hs : StampsBelowCounter s) {w : State} (hq : w.queue p = (s.repairAdmitted p t b row m).queue p) :
    (w.dropJob ⟨b, row, m, [⟨p, s.stampCounter, t⟩]⟩).queue p = s.queue p ++
      [{ s.readyRecord p t (.repair b row m) with
          state := .done, blocked := none, result := some ⟨.noSpare, .repair none 0⟩, doneAt := some w.now }] := by
  rw [queue_dropJob, hq, queue_repairAdmitted hs, List.map_append, List.map_congr_left (g := id), List.map_id]
  · refine congrArg (fun x => s.queue p ++ [x]) (if_pos ?_)
    rw [List.any_cons]
    exact Bool.or_eq_true_iff.mpr (.inl (decide_eq_true rfl))
  · intro x hx
    refine if_neg fun e => ?_
    rw [List.any_cons, List.any_nil, Bool.or_false, decide_eq_true_iff] at e
    exact absurd (e ▸ hs x (mem_records hx)) (BitVec.lt_irrefl _)

/-- Between the state before a REPAIR and the one it leaves, the array and the remap table stand, and SETTLING and ENTERING end. -/
theorem repair_keeps (u : State) (hu : u = (s.readied p t (.repair b row m)).doRepair p s.stampCounter t b row m) :
    u.mem = s.mem ∧ u.remap = s.remap ∧ u.settle.mem = s.mem ∧ u.settle.remap = s.remap ∧ AdmissionEnds s u.settle := by
  obtain ⟨v, hv⟩ : ∃ v, v = s.readied p t (.repair b row m) := ⟨_, rfl⟩
  have control : Control v u := by
    rw [hu, hv]
    exact control_carryOut (s.readied p t (.repair b row m)) (s.readyRecord p t (.repair b row m))
  have settled := control.trans (control_settle u)
  have stays : StaysActive v u := by rw [hu, hv]; exact .doRepair ..
  have joined : u.queue p ≠ [] := fun e => by
    have := stays.lengths p
    rw [e, hv] at this
    have one : (s.readied p t (.repair b row m)).queue p = s.queue p ++ [s.readyRecord p t (.repair b row m)] := PerPort.get_set_self ..
    rw [one] at this
    simp at this
  refine ⟨control.mem.trans (by rw [hv]; rfl), control.remap.trans (by rw [hv]; rfl), settled.mem.trans (by rw [hv]; rfl),
    settled.remap.trans (by rw [hv]; rfl), ?_⟩
  exact (stays.trans (.settle joined)).admissionEnds (by rw [hv]; exact admissionEnds_readied ..)

theorem bank_repairAdmitted (k : BankId) : ∃ x, (s.repairAdmitted p t b row m).bank k = (s.bank k).withRetention x :=
  quietBreak_bank s k

/-! ## The outcomes -/

/-- The state an arrived REPAIR leaves before the blocks are evaluated anew. -/
def State.repaired (s : State) (p : Port) (t : Tag) (b : BankId) (row : RowId) (m : RepairMode) : State :=
  (s.readied p t (.repair b row m)).doRepair p s.stampCounter t b row m

theorem repaired_unclaimed (hc : s.claim.holder ≠ some p) : s.repaired p t b row m =
    (s.readied p t (.repair b row m)).finishControl s.stampCounter (claimAnswer s.claim.holder) :=
  doRepair_unclaimed (s := s.readied p t (.repair b row m)) hc

theorem repaired_fits (hc : s.claim.holder = some p)
    (hf : (s.readied p t (.repair b row m)).jobFits ⟨b, row, m, [⟨p, s.stampCounter, t⟩]⟩ = true) :
    s.repaired p t b row m = (s.repairAdmitted p t b row m).submitJob ⟨b, row, m, [⟨p, s.stampCounter, t⟩]⟩ :=
  doRepair_fits (s := s.readied p t (.repair b row m)) hc hf

/-- The REPAIR's job merges with one of the queue for its row. -/
theorem repaired_merges (hc : s.claim.holder = some p) (hm : ∃ j ∈ s.repairQueue, j.bank = b ∧ j.row = row) :
    s.repaired p t b row m = { s.repairAdmitted p t b row m with repairQueue := s.repairQueue.map (fun j =>
      if j.bank = b ∧ j.row = row then j.merge ⟨b, row, m, [⟨p, s.stampCounter, t⟩]⟩ else j) } :=
  (repaired_fits hc (submitJob_merges (s := s.readied p t (.repair b row m)) (new := ⟨b, row, m, [⟨p, s.stampCounter, t⟩]⟩) hm).1).trans
    (submitJob_merges (s := s.repairAdmitted p t b row m) (new := ⟨b, row, m, [⟨p, s.stampCounter, t⟩]⟩) hm).2

section

variable {c : CurrentJob} (hn : ∀ j ∈ s.repairQueue, ¬ (j.bank = b ∧ j.row = row))
include hn

/-- It merges with the current one. -/
theorem repaired_joins (hc : s.claim.holder = some p) (hj : s.currentJob = some c)
    (ht : c.takes ⟨b, row, m, [⟨p, s.stampCounter, t⟩]⟩ = true) : s.repaired p t b row m =
      (s.repairAdmitted p t b row m).setJob (some { c with job := c.job.merge ⟨b, row, m, [⟨p, s.stampCounter, t⟩]⟩ }) :=
  (repaired_fits hc (submitJob_joins (s := s.readied p t (.repair b row m)) (new := ⟨b, row, m, [⟨p, s.stampCounter, t⟩]⟩) hn hj ht).1).trans
    (submitJob_joins (s := s.repairAdmitted p t b row m) (new := ⟨b, row, m, [⟨p, s.stampCounter, t⟩]⟩) hn hj ht).2

/-- It waits behind the current one. -/
theorem repaired_queues (hc : s.claim.holder = some p) (hj : s.currentJob = some c)
    (ht : ¬ c.takes ⟨b, row, m, [⟨p, s.stampCounter, t⟩]⟩ = true) (hl : s.repairQueue.length < 4) : s.repaired p t b row m =
      { s.repairAdmitted p t b row m with repairQueue := s.repairQueue ++ [⟨b, row, m, [⟨p, s.stampCounter, t⟩]⟩] } :=
  (repaired_fits hc (submitJob_queues (s := s.readied p t (.repair b row m)) (new := ⟨b, row, m, [⟨p, s.stampCounter, t⟩]⟩) hn hj ht hl).1).trans
    ((submitJob_queues (s := s.repairAdmitted p t b row m) (new := ⟨b, row, m, [⟨p, s.stampCounter, t⟩]⟩) hn hj ht hl).2.trans (quietBreak_of_ended (s := s) rfl))

/-- The queue is full. -/
theorem repaired_full (hc : s.claim.holder = some p) (hj : s.currentJob = some c)
    (ht : ¬ c.takes ⟨b, row, m, [⟨p, s.stampCounter, t⟩]⟩ = true) (hl : 4 ≤ s.repairQueue.length) : s.repaired p t b row m =
      (s.readied p t (.repair b row m)).finishControl s.stampCounter ⟨.tableFull, .none⟩ :=
  doRepair_full (s := s.readied p t (.repair b row m)) hc (jobFits_full (s := s.readied p t (.repair b row m)) hn hj ht hl)

end

section

variable (hc : s.claim.holder = some p) (hq : s.repairQueue = []) (hj : s.currentJob = none)
include hc hq hj

theorem repaired_starts : s.repaired p t b row m =
    State.startJobs [⟨b, row, m, [⟨p, s.stampCounter, t⟩]⟩] (s.repairAdmitted p t b row m) := by
  have fits := (submitJob_starts (s := s.readied p t (.repair b row m)) (new := ⟨b, row, m, [⟨p, s.stampCounter, t⟩]⟩) hq hj).1
  have starts := (submitJob_starts (s := s.repairAdmitted p t b row m) (new := ⟨b, row, m, [⟨p, s.stampCounter, t⟩]⟩) hq hj).2
  rw [quietBreak_repairAdmitted] at starts
  exact (repaired_fits hc fits).trans starts

/-- The job starts with a FREE spare. -/
theorem repaired_runs {sp : SpareId} (hs : s.freeSpare b = some sp) : s.repaired p t b row m =
    ({ s.repairAdmitted p t b row m with repairQueue := [] } : State).runJob ⟨b, row, m, [⟨p, s.stampCounter, t⟩]⟩ sp :=
  (repaired_starts hc hq hj).trans (startJobs_spare [] hs)

/-- No spare is FREE. -/
theorem repaired_noSpare (hs : s.freeSpare b = none) : s.repaired p t b row m =
    { (s.repairAdmitted p t b row m).dropJob ⟨b, row, m, [⟨p, s.stampCounter, t⟩]⟩ with repairQueue := [] } :=
  (repaired_starts hc hq hj).trans (startJobs_none hs)

end

theorem toldOne_repairAdmitted (w : Enables → Bool) (n : Notice) (q : Port) :
    (s.repairAdmitted p t b row m).toldOne w n q = s.toldOne w n q := by
  have online : (s.repairAdmitted p t b row m).online q = s.online q := online_readied s p q t (.repair b row m)
  unfold State.toldOne
  rw [online]
  rfl

end

theorem AdmissionEnds.of_atInstant {s t : State} {n : Instant} (h : AdmissionEnds (s.atInstant n) t) : AdmissionEnds s t :=
  ⟨h.settling, h.entering, h.active⟩

/-- A REPAIR that finds a spare starts its job. -/
theorem repairStarts {dt : Nat} {p : Port} {r : Request} {b : BankId} {row : RowId} {mode : RepairMode} {sp : SpareId} {s : State}
    (h : ControlReady s p r) (hk : kindOp .repair r = some (.repair b row mode)) (ha : s.asleep = false) (hd : s.scrub.sweepDone = true)
    (hc : s.claim.holder = some p) (hq : s.repairQueue = []) (hj : s.currentJob = none) (hs : s.freeSpare b = some sp) :
    ∃ t u : State, exec (.repair dt p r) s = .next t ∧ t = u.settle ∧
      u.currentJob = some
        { job := ⟨b, row, mode, [⟨p, s.stampCounter, r.tag⟩]⟩, chosen := sp, previous := s.servingSpare b row,
          phase := if (s.bank b).state = .closed then .copyOut else .wait, linesRead := 0, linesWritten := 0,
          poisonedWords := 0, programEnds := none } ∧
      ((s.spares b).get sp).state = .free ∧ (∀ i, i < sp → ((s.spares b).get i).state ≠ .free) ∧
      u.repairQueue = [] ∧ u.claim = ⟨some p, some ((s.passTime dt).now + ms 10)⟩ ∧
      (∃ x : Record, u.queue p = s.queue p ++ [x] ∧ x.op = .repair b row mode ∧ x.state = .active) ∧
      ((s.bank b).state = .closed → (u.bank b).state = .repairing) ∧
      ((s.bank b).state = .opening ∨ (s.bank b).state = .opened → (u.bank b).marks.repair = true) ∧
      t.mem = s.mem ∧ t.remap = s.remap ∧ AdmissionEnds s t := by
  have hr := h.passTime dt
  have hexec : exec (.repair dt p r) s = .next ((s.passTime dt).receive p Kind.repair.code r) := rfl
  obtain ⟨n, e⟩ := s.passTime_exists dt
  rw [e] at hr hexec ⊢
  rw [receive_repair (s := s.atInstant n) hr (formed_iff.mpr hk) ha hd] at hexec
  obtain ⟨u, hu⟩ : ∃ u, u = (s.atInstant n).repaired p r.tag b row mode := ⟨_, rfl⟩
  obtain ⟨-, -, mem, remap, ends⟩ := repair_keeps u hu
  obtain ⟨w, hw⟩ : ∃ w, w = (s.atInstant n).repairAdmitted p r.tag b row mode := ⟨_, rfl⟩
  have started : u = ({ w with repairQueue := [] } : State).runJob ⟨b, row, mode, [⟨p, s.stampCounter, r.tag⟩]⟩ sp := by
    rw [hw]
    exact hu.trans (repaired_runs (s := s.atInstant n) hc hq hj hs)
  have frame := runJob_frame { w with repairQueue := [] } ⟨b, row, mode, [⟨p, s.stampCounter, r.tag⟩]⟩ sp
  have bank := bank_runJob { w with repairQueue := [] } ⟨b, row, mode, [⟨p, s.stampCounter, r.tag⟩]⟩ sp b
  rw [if_pos rfl] at bank
  rw [← started] at frame bank
  obtain ⟨m, hm⟩ := bank_repairAdmitted (s := s.atInstant n) (p := p) (t := r.tag) (b := b) (row := row) (m := mode) b
  rw [← hw] at hm
  have state : (w.bank b).state = (s.bank b).state := by rw [hm]; rfl
  have queue := queue_repairAdmitted (s := s.atInstant n) (p := p) (t := r.tag) (b := b) (row := row) (m := mode) h.stamps
  obtain ⟨free, lowest⟩ := freeSpare_some hs
  refine ⟨u.settle, u, hu ▸ hexec, rfl, ?_, free, lowest, by rw [frame], by rw [frame, hw]; rfl,
    ⟨{ (s.atInstant n).readyRecord p r.tag (.repair b row mode) with state := .active, blocked := none }, ?_, rfl, rfl⟩, fun hs => ?_, fun hs => ?_, mem, remap, ends.of_atInstant⟩
  · rw [frame, ← state, hw]; rfl
  · rw [State.queue, frame, hw]; exact queue
  · rw [bank]; exact taken_state_closed (x := w.bank b) (state.trans hs)
  · rw [bank]; exact (taken_open (x := w.bank b) (by rw [state]; exact hs)).1

/-- What a REPAIR leaves, by the claim, the queue, the current job and the spares; `x` is its record. -/
structure RepairOutcome (s u : State) (p : Port) (t : Tag) (b : BankId) (row : RowId) (mode : RepairMode) (x : Record) : Prop where
  unclaimed : s.claim.holder ≠ some p → x.state = .done ∧ x.result = some (claimAnswer s.claim.holder) ∧
    u.repairQueue = s.repairQueue ∧ u.currentJob = s.currentJob ∧ u.claim = s.claim
  merges : s.claim.holder = some p → (∃ j ∈ s.repairQueue, j.bank = b ∧ j.row = row) →
    x.state = .active ∧ u.currentJob = s.currentJob ∧ u.claim = ⟨some p, some (s.now + ms 10)⟩ ∧
    u.repairQueue = s.repairQueue.map (fun j =>
      if j.bank = b ∧ j.row = row then j.merge ⟨b, row, mode, [⟨p, s.stampCounter, t⟩]⟩ else j)
  behind : s.claim.holder = some p → (∀ j ∈ s.repairQueue, ¬ (j.bank = b ∧ j.row = row)) → ∀ c, s.currentJob = some c →
    (c.takes ⟨b, row, mode, [⟨p, s.stampCounter, t⟩]⟩ = true →
      x.state = .active ∧ u.repairQueue = s.repairQueue ∧ u.claim = ⟨some p, some (s.now + ms 10)⟩ ∧
      u.currentJob = some { c with job := c.job.merge ⟨b, row, mode, [⟨p, s.stampCounter, t⟩]⟩ }) ∧
    (¬ c.takes ⟨b, row, mode, [⟨p, s.stampCounter, t⟩]⟩ = true → u.currentJob = s.currentJob ∧
      (s.repairQueue.length < 4 → x.state = .active ∧ u.claim = ⟨some p, some (s.now + ms 10)⟩ ∧
        u.repairQueue = s.repairQueue ++ [⟨b, row, mode, [⟨p, s.stampCounter, t⟩]⟩]) ∧
      (4 ≤ s.repairQueue.length → x.state = .done ∧ x.result = some ⟨.tableFull, .none⟩ ∧
        u.repairQueue = s.repairQueue ∧ u.claim = s.claim))
  noSpare : s.claim.holder = some p → s.repairQueue = [] → s.currentJob = none → s.freeSpare b = none →
    x.state = .done ∧ x.result = some ⟨.noSpare, .repair none 0⟩ ∧ u.repairQueue = [] ∧ u.currentJob = none ∧
    u.checks = s.checks ∧ (u.bank b).marks.repair = false ∧
    ((s.bank b).state ≠ .repairing → (u.bank b).state = (s.bank b).state) ∧
    ∀ q, u.noticeQ q = s.told Enables.repairDone [.repairDone b row none .noSpare 0] q

section

variable {s : State} {p : Port} {t : Tag} {b : BankId} {row : RowId} {m : RepairMode}

/-- The record of a REPAIR: it waits for its job, or has its result. -/
theorem queue_repaired_finished (hs : StampsBelowCounter s) (res : Result) :
    ((s.readied p t (.repair b row m)).finishControl s.stampCounter res).queue p =
      s.queue p ++ [(s.readyRecord p t (.repair b row m)).finished s.now res] :=
  (queue_modRecord_readied hs rfl _ p).trans (if_pos rfl)

theorem outcome_noSpare (hs : s.freeSpare b = none) (hc : s.claim.holder = some p) (hq : s.repairQueue = []) (hj : s.currentJob = none)
    {x : Record} (hx : x.state = .done ∧ x.result = some ⟨.noSpare, .repair none 0⟩) :
    RepairOutcome s (s.repaired p t b row m) p t b row m x := by
  refine ⟨fun h => absurd hc h, fun _ ⟨j, hj, _⟩ => ?_, fun _ _ d hd => ?_, fun _ _ _ _ => ⟨hx.1, hx.2, ?_, ?_, ?_, ?_, fun hst => ?_, fun q => ?_⟩⟩
  · rw [hq] at hj
    cases hj
  · rw [hj] at hd
    cases hd
  all_goals rw [repaired_noSpare hc hq hj hs]
  · exact (dropJob_registers ..).1
  · exact (dropJob_registers ..).2.2.2.2.2.2
  · show ((State.dropJob _ _).bank b).marks.repair = false
    rw [bank_dropJob, if_pos rfl]
    rfl
  · obtain ⟨y, hy⟩ := bank_repairAdmitted (s := s) (p := p) (t := t) (b := b) (row := row) (m := m) b
    show ((State.dropJob _ _).bank b).state = _
    rw [bank_dropJob, if_pos rfl, taken_released_state (by rw [hy]; exact hst), hy]
    rfl
  · show (State.dropJob _ _).noticeQ q = _
    rw [noticeQ_dropJob, toldOne_repairAdmitted, ← told_one]

/-- The record that a REPAIR leaves, with its outcome. -/
theorem repair_outcome (hs : StampsBelowCounter s) (hf : JobFirst s) :
    ∃ x : Record, (s.repaired p t b row m).queue p = s.queue p ++ [x] ∧ x.op = .repair b row m ∧ x.stamp = s.stampCounter ∧
      RepairOutcome s (s.repaired p t b row m) p t b row m x := by
  have active := queue_repairAdmitted (p := p) (t := t) (b := b) (row := row) (m := m) hs
  by_cases hc : s.claim.holder = some p
  swap
  · refine ⟨_, by rw [repaired_unclaimed hc]; exact queue_repaired_finished hs _, rfl, rfl,
      fun _ => by rw [repaired_unclaimed hc]; exact ⟨rfl, rfl, rfl, rfl, rfl⟩, fun h => absurd h hc, fun h => absurd h hc,
      fun h => absurd h hc⟩
  by_cases hm : ∃ j ∈ s.repairQueue, j.bank = b ∧ j.row = row
  · have left := repaired_merges (t := t) (m := m) hc hm
    refine ⟨_, by rw [left]; exact active, rfl, rfl, fun h => absurd hc h, fun _ _ => by rw [left]; exact ⟨rfl, rfl, rfl, rfl⟩,
      fun _ hn => ?_, fun _ hq => ?_⟩
    · obtain ⟨j, hj, h⟩ := hm
      exact absurd h (hn j hj)
    · obtain ⟨j, hj, -⟩ := hm
      rw [hq] at hj
      cases hj
  have hn : ∀ j ∈ s.repairQueue, ¬ (j.bank = b ∧ j.row = row) := fun j hj h => hm ⟨j, hj, h⟩
  cases hcur : s.currentJob with
  | some c =>
    by_cases ht : c.takes ⟨b, row, m, [⟨p, s.stampCounter, t⟩]⟩ = true
    · have left := repaired_joins hn hc hcur ht
      refine ⟨_, by rw [left]; exact active, rfl, rfl, fun h => absurd hc h, fun _ h => absurd h hm, fun _ _ d hd => ?_,
        fun _ _ hj => ?_⟩
      · obtain rfl := Option.some.inj (hcur.symm.trans hd)
        exact ⟨fun _ => by rw [left]; exact ⟨rfl, rfl, rfl, rfl⟩, fun no => absurd ht no⟩
      · rw [hcur] at hj; cases hj
    · by_cases hl : s.repairQueue.length < 4
      · have left := repaired_queues hn hc hcur ht hl
        refine ⟨_, by rw [left]; exact active, rfl, rfl, fun h => absurd hc h, fun _ h => absurd h hm, fun _ _ d hd => ?_,
          fun _ _ hj => ?_⟩
        · obtain rfl := Option.some.inj (hcur.symm.trans hd)
          exact ⟨fun h => absurd h ht, fun _ => by
            rw [left]; exact ⟨rfl, fun _ => ⟨rfl, rfl, rfl⟩, fun h => absurd hl (Nat.not_lt.mpr h)⟩⟩
        · rw [hcur] at hj; cases hj
      · have left := repaired_full hn hc hcur ht (Nat.not_lt.mp hl)
        refine ⟨_, by rw [left]; exact queue_repaired_finished hs _, rfl, rfl, fun h => absurd hc h, fun _ h => absurd h hm,
          fun _ _ d hd => ?_, fun _ _ hj => ?_⟩
        · obtain rfl := Option.some.inj (hcur.symm.trans hd)
          exact ⟨fun h => absurd h ht, fun _ => by
            rw [left]; exact ⟨rfl, fun h => absurd h hl, fun _ => ⟨rfl, rfl, rfl, rfl⟩⟩⟩
        · rw [hcur] at hj; cases hj
  | none =>
    have hq := hf hcur
    cases hsp : s.freeSpare b with
    | some sp =>
      have left := repaired_runs (t := t) (row := row) (m := m) hc hq hcur hsp
      refine ⟨{ s.readyRecord p t (.repair b row m) with state := .active, blocked := none },
        by rw [left, State.queue, runJob_frame]; exact active, rfl, rfl, fun h => absurd hc h, fun _ h => absurd h hm,
        fun _ _ d hd => ?_, fun _ _ _ no => ?_⟩
      · rw [hcur] at hd; cases hd
      · rw [hsp] at no; cases no
    | none =>
      have left := repaired_noSpare (t := t) (row := row) (m := m) hc hq hcur hsp
      exact ⟨_, by rw [left]; exact queue_repair_dropped hs rfl, rfl, rfl, outcome_noSpare hsp hc hq hcur ⟨rfl, rfl⟩⟩

end

/-- Settles O20. -/
theorem repairStartsItsJob : Obligations.RepairStartsItsJob := by
  refine ⟨fun dt p r b row mode sp s h hk ha hd hc hq hj hs => repairStarts h hk ha hd hc hq hj hs,
    fun dt p r b row mode s h hk ha hd hf => ?_, fun dt p r b row mode s h hk hd ha => ?_⟩
  · have hr := h.passTime dt
    have hexec : exec (.repair dt p r) s = .next ((s.passTime dt).receive p Kind.repair.code r) := rfl
    obtain ⟨n, e⟩ := s.passTime_exists dt
    rw [e] at hr hexec ⊢
    rw [receive_repair (s := s.atInstant n) hr (formed_iff.mpr hk) ha hd] at hexec
    obtain ⟨x, queue, op, stamp, outcome⟩ := repair_outcome (s := s.atInstant n) (p := p) (t := r.tag) (b := b) (row := row) (m := mode)
      h.stamps hf
    obtain ⟨u, hu⟩ : ∃ u, u = (s.atInstant n).repaired p r.tag b row mode := ⟨_, rfl⟩
    obtain ⟨mem, remap, -, -, ends⟩ := repair_keeps u hu
    rw [← hu] at queue outcome
    refine ⟨u, x, by rw [hu]; exact hexec, queue, op, stamp, mem, remap, ends.of_atInstant, outcome.unclaimed, outcome.merges,
      fun hc hn c hj => ?_, fun hc hq hj hs => outcome.noSpare hc hq hj (freeSpare_none (s := s.atInstant n) hs)⟩
    have behind := outcome.behind hc hn c hj
    rw [takes_iff] at behind
    exact behind
  · have hexec : exec (.repair dt p r) s = .next ((s.passTime dt).receive p Kind.repair.code r) := rfl
    obtain ⟨n, e⟩ := s.passTime_exists dt
    rw [e] at hexec ⊢
    have admitted : ControlAdmitted (s.atInstant n) p r := ⟨h.online, h.sequence, h.room, h.plain, h.tag⟩
    have asleep : HeldBack (s.atInstant n) ((s.atInstant n).newRecord p r.tag (.repair b row mode) false none) .retention :=
      heldBack_retention.mp (by rw [show (s.atInstant n).asleep = true from ha]; rfl)
    exact ⟨_, hexec, receive_waits admitted (formed_iff.mpr hk) rfl (fun _ => hd) ⟨asleep, fun d hd => absurd hd (Nat.not_lt_zero _)⟩
      fun _ => ⟨fun _ => rfl, fun _ => rfl⟩⟩

end Sys2Proof.Machine
end

section
/-! PROOFS. The fault list after one corrected word (R121). -/

namespace Sys2Proof.Machine

section

variable {c : CheckUnit} {b : BankId} {row : RowId}

theorem faultSlot_some {i : FaultSlot} {f : FaultEntry} (h : c.faults.get i = some f) (hb : f.bank = b ∧ f.row = row)
    (only : ∀ j g, c.faults.get j = some g → g.bank = b ∧ g.row = row → j = i) : c.faultSlot b row = some i := by
  unfold CheckUnit.faultSlot allFaultSlots
  rw [find_finRange_some]
  refine ⟨by rw [h]; exact decide_eq_true hb, fun j hj => ?_⟩
  cases hg : c.faults.get j with
  | none => rfl
  | some g => exact decide_eq_false fun e => absurd (only j g hg e) (ne_of_lt hj)

theorem faultSlot_none (new : ∀ j g, c.faults.get j = some g → ¬ (g.bank = b ∧ g.row = row)) : c.faultSlot b row = none := by
  refine List.find?_eq_none.mpr fun j _ => ?_
  cases hg : c.faults.get j with
  | none => exact nofun
  | some g => exact fun e => new j g hg (of_decide_eq_true e)

theorem emptySlot_some {i : FaultSlot} (h : c.faults.get i = none) (low : ∀ j, j < i → c.faults.get j ≠ none) :
    c.emptySlot = some i := by
  unfold CheckUnit.emptySlot allFaultSlots
  rw [find_finRange_some]
  exact ⟨by rw [h]; rfl, fun j hj => Option.isNone_eq_false_iff.mpr (Option.ne_none_iff_isSome.mp (low j hj))⟩

theorem emptySlot_none (h : ∀ j, c.faults.get j ≠ none) : c.emptySlot = none :=
  List.find?_eq_none.mpr fun j _ e => h j (Option.isNone_iff_eq_none.mp e)

end

/-! ## The entry to replace -/

section

variable {t : Table 16 (Option FaultEntry)} {i : FaultSlot} {f : FaultEntry}

/-- One comparison in the search of the entry to replace. -/
def lowerSlot (t : Table 16 (Option FaultEntry)) (best k : FaultSlot) : FaultSlot :=
  match t.get k, t.get best with
  | some f, some g => if f.lower g then k else best
  | _, _ => best

theorem lower_irrefl (f : FaultEntry) : f.lower f = false := by
  unfold FaultEntry.lower
  exact decide_eq_false fun h => h.elim (lt_irrefl _) fun e => absurd e.2 (BitVec.lt_irrefl _)

/-- The entry is the one to replace: of the lowest count, then the lowest stamp, then the lowest slot. -/
def LeastEntry (t : Table 16 (Option FaultEntry)) (i : FaultSlot) (f : FaultEntry) : Prop :=
  ∀ j, j ≠ i → ∃ g, t.get j = some g ∧
    (f.count < g.count ∨ f.count = g.count ∧ (f.stamp < g.stamp ∨ f.stamp = g.stamp ∧ i < j))

/-- The least entry stays the best. -/
theorem lowerSlot_stays (h : t.get i = some f) (least : LeastEntry t i f) (k : FaultSlot) : lowerSlot t i k = i := by
  unfold lowerSlot
  by_cases hk : k = i
  · rw [hk, h]
    exact if_neg (by rw [lower_irrefl]; nofun)
  · obtain ⟨g, hg, before⟩ := least k hk
    rw [hg, h]
    refine if_neg fun e => ?_
    have lower := of_decide_eq_true e
    have stamps : ∀ x y : Stamp, x < y → ¬ y < x := fun x y h => by bv_omega
    rcases before with hc | ⟨hc, hs | ⟨hs, -⟩⟩
    · omega
    · exact stamps _ _ hs (lower.resolve_left (by omega)).2
    · have := (lower.resolve_left (by omega)).2
      rw [hs] at this
      exact absurd this (BitVec.lt_irrefl _)

/-- It replaces any best entry of a lower slot. -/
theorem lowerSlot_takes (h : t.get i = some f) (least : LeastEntry t i f) {best : FaultSlot} (hb : best < i) : lowerSlot t best i = i := by
  obtain ⟨g, hg, before⟩ := least best (ne_of_lt hb)
  unfold lowerSlot
  rw [hg, h]
  refine if_pos (decide_eq_true ?_)
  rcases before with hc | ⟨hc, hs | ⟨-, hi⟩⟩
  · exact .inl hc
  · exact .inr ⟨hc, hs⟩
  · exact absurd hi (not_lt_of_gt hb)

theorem lowerSlot_cases (t : Table 16 (Option FaultEntry)) (best k : FaultSlot) : lowerSlot t best k = k ∨ lowerSlot t best k = best := by
  unfold lowerSlot
  split
  · split
    · exact .inl rfl
    · exact .inr rfl
  · exact .inr rfl

theorem foldl_lowerSlot (h : t.get i = some f) (least : LeastEntry t i f) (l : List FaultSlot) (sorted : l.Pairwise (· < ·)) (best : FaultSlot)
    (hi : best = i ∨ i ∈ l ∧ best < i) : l.foldl (lowerSlot t) best = i := by
  induction l generalizing best with
  | nil => exact hi.resolve_right fun e => nomatch e.1
  | cons k l ih =>
    obtain ⟨before, sorted⟩ := List.pairwise_cons.mp sorted
    rw [List.foldl_cons]
    refine ih sorted _ ?_
    rcases hi with rfl | ⟨hm, hb⟩
    · exact .inl (lowerSlot_stays h least k)
    · rcases List.mem_cons.mp hm with rfl | hm
      · exact .inl (lowerSlot_takes h least hb)
      · refine .inr ⟨hm, ?_⟩
        rcases lowerSlot_cases t best k with e | e <;> rw [e]
        · exact before i hm
        · exact hb

theorem victim_eq {c : CheckUnit} (h : c.faults.get i = some f) (least : LeastEntry c.faults i f) : c.victim = i := by
  refine foldl_lowerSlot h least (List.finRange 16) (List.pairwise_lt_finRange 16) 0 ?_
  by_cases h0 : (0 : FaultSlot) = i
  · exact .inl h0
  · exact .inr ⟨List.mem_finRange i, Fin.pos_of_ne_zero (Ne.symm h0)⟩

end

/-- The check-bit unit notes a corrected word as R121 says. -/
theorem noteFault_of {c : CheckUnit} {b : BankId} {row : RowId} {st : Stamp} {m : Table 16 (Option FaultEntry)} {rose : Option Nat}
    (h : FaultNoted c.faults b row st m rose) : c.noteFault b row st = ({ c with faults := m }, rose) := by
  unfold CheckUnit.noteFault
  cases h with
  | listed i f h hb only =>
    rw [faultSlot_some h hb only]
    dsimp only
    rw [h]
    rfl
  | inserted i h low new =>
    rw [faultSlot_none new]
    dsimp only
    rw [CheckUnit.newSlot, emptySlot_some h low]
  | replaced i f h least new =>
    have full : ∀ j, c.faults.get j ≠ none := fun j => by
      by_cases hj : j = i
      · rw [hj, h]; nofun
      · obtain ⟨g, hg, -⟩ := least j hj
        rw [hg]; nofun
    rw [faultSlot_none new]
    dsimp only
    rw [CheckUnit.newSlot, emptySlot_none full, victim_eq h least]

end Sys2Proof.Machine
end

section
/-! PROOFS. What the counting of a read's words leaves: the counts, the fault list, the notices, and the jobs of the fault list
(R115, R116, R119 to R122, R134 to R137). -/

namespace Sys2Proof.Machine

/-! ## The words one by one -/

theorem noteFault_cases (s : State) (b : BankId) (row : RowId) : ∃ c : CheckUnit,
    s.noteFault b row = s.setChecks c ∨ s.noteFault b row = (s.setChecks c).advise b row := by
  refine ⟨(s.checks.noteFault b row s.stampCounter).1, ?_⟩
  unfold State.noteFault
  dsimp only
  split
  · exact .inr rfl
  · exact .inl rfl

theorem advise_off {s : State} (h : s.settings.autoRepair ≠ 1) (b : BankId) (row : RowId) :
    s.advise b row = s.broadcast Enables.integrity (.repairAdvised b row) := if_neg h

theorem advise_on {s : State} (h : s.settings.autoRepair = 1) (b : BankId) (row : RowId) :
    s.advise b row = (s.broadcast Enables.integrity (.repairAdvised b row)).autoJob b row := if_pos h

/-- A relation that the changes of the check-bit unit's own state and its notices keep, and the jobs of corrected words where a row reader's
word is CORRECTED, holds between a state and the one after the words. -/
theorem rel_countWords {R : State → State → Prop} {f : ReadFor} {l : LineId} (refl : ∀ s, R s s)
    (trans : ∀ {s t u}, R s t → R t u → R s u) (check : ∀ s c, R s (s.setChecks c))
    (tell : ∀ s n, R s (s.broadcast Enables.integrity n)) (xs : List (WordIx × WordOutcome))
    (job : f = .rowReader → (∃ x ∈ xs, x.2.isCorrected = true) → ∀ s, s.settings.autoRepair = 1 →
      R s (s.autoJob (lineBank l) (lineRow l)))
    (s : State) : R s (xs.foldl (State.countWord f l) s) := by
  have advised : f = .rowReader → (∃ x ∈ xs, x.2.isCorrected = true) → ∀ s, R s (s.advise (lineBank l) (lineRow l)) := fun hf hx s => by
    by_cases ha : s.settings.autoRepair = 1
    · rw [advise_on ha]
      refine trans (tell s _) (job hf hx _ ?_)
      rw [broadcast_frame]
      exact ha
    · rw [advise_off ha]
      exact tell s _
  have word : ∀ x ∈ xs, ∀ s, R s (s.countWord f l x) := fun x hx s => by
    obtain ⟨w, o⟩ := x
    unfold State.countWord
    cases o with
    | clean | poisoned => exact refl s
    | uncorrectable => exact trans (check s _) (tell _ _)
    | corrected d =>
      cases f with
      | copyOut => exact check s _
      | rowReader =>
        obtain ⟨c, h | h⟩ := noteFault_cases (s.setChecks { s.checks with corrected := countUp top32 s.checks.corrected })
          (lineBank l) (lineRow l)
        · dsimp only; rw [h]
          exact trans (check s _) (check _ c)
        · dsimp only; rw [h]
          exact trans (trans (check s _) (check _ c)) (advised rfl ⟨_, hx, rfl⟩ _)
  clear job advised
  induction xs generalizing s with
  | nil => exact refl s
  | cons x xs ih =>
    exact trans (word x List.mem_cons_self s) (ih _ fun y hy => word y (List.mem_cons_of_mem _ hy))

/-! ## What no job changes -/

/-- Only the check-bit unit and the notices change. -/
abbrev ChecksOnly (s t : State) : Prop := t = { s with checks := t.checks, notices := t.notices }

theorem ChecksOnly.trans {s t u : State} (h : ChecksOnly s t) (k : ChecksOnly t u) : ChecksOnly s u := by
  unfold ChecksOnly
  conv_lhs => rw [k]
  rw [h]

theorem ChecksOnly.broadcast (s : State) (n : Notice) : ChecksOnly s (s.broadcast Enables.integrity n) := by
  unfold ChecksOnly
  rw [broadcast_frame]

/-- With no word CORRECTED for a row reader no job starts. -/
theorem countWords_fine {f : ReadFor} (l : LineId) {xs : List (WordIx × WordOutcome)}
    (h : f = .copyOut ∨ ∀ x ∈ xs, x.2.isCorrected = false) (s : State) : ChecksOnly s (xs.foldl (State.countWord f l) s) := by
  refine rel_countWords (R := ChecksOnly) (fun _ => rfl) (fun h k => h.trans k) (fun _ _ => rfl) .broadcast xs (fun hf ⟨x, hx, hc⟩ => ?_) s
  rcases h with h | h
  · rw [h] at hf; cases hf
  · rw [h x hx] at hc; cases hc

/-- With AUTO_REPAIR not 1 none starts. -/
theorem countWords_off (f : ReadFor) (l : LineId) (xs : List (WordIx × WordOutcome)) {s : State} (h : s.settings.autoRepair ≠ 1) :
    ChecksOnly s (xs.foldl (State.countWord f l) s) := by
  refine rel_countWords (R := fun s t => s.settings.autoRepair ≠ 1 → ChecksOnly s t) (fun _ _ => rfl) (fun h k ha => ?_)
    (fun _ _ _ => rfl) (fun s n _ => .broadcast s n) xs (fun _ _ s h1 h0 => absurd h1 h0) s h
  have first := h ha
  exact first.trans (k (by rw [first]; exact ha))

/-! ## The counts -/

theorem rises_zero {b : Nat} : Rises 0 b b := by unfold Rises; omega

theorem rises_succ {n b a : Nat} (h : Rises n (countUp top32 b) a) : Rises (n + 1) b a := by
  have top : top32 = 4294967295 := rfl
  unfold Rises countUp at *
  rw [top] at h
  split at h <;> omega

theorem corrected_countWords (f : ReadFor) (l : LineId) (xs : List (WordIx × WordOutcome)) (s : State) :
    Rises (xs.filter (fun x => x.2.isCorrected)).length s.checks.corrected (xs.foldl (State.countWord f l) s).checks.corrected := by
  induction xs generalizing s with
  | nil => exact rises_zero
  | cons x xs ih =>
    obtain ⟨w, o⟩ := x
    have rest := ih (s.countWord f l (w, o))
    cases o with
    | clean | poisoned => exact rest
    | uncorrectable =>
      rw [show (s.countWord f l (w, .uncorrectable)).checks.corrected = s.checks.corrected from (JobMove.broadcast ..).corrected] at rest
      exact rest
    | corrected d =>
      rw [corrected_countWord] at rest
      exact rises_succ rest

/-- An outcome UNCORRECTABLE. -/
def WordOutcome.isLost (o : WordOutcome) : Bool := decide (o = .uncorrectable)

theorem uncorrectable_noteFault (s : State) (b : BankId) (row : RowId) :
    (s.noteFault b row).checks.uncorrectable = s.checks.uncorrectable := by
  have noted : (s.checks.noteFault b row s.stampCounter).1.uncorrectable = s.checks.uncorrectable := by
    unfold CheckUnit.noteFault
    split
    · split <;> rfl
    · rfl
  unfold State.noteFault
  dsimp only
  split
  · exact (JobMove.advise _ b row).uncorrectable.trans noted
  · exact noted

theorem uncorrectable_countWords (f : ReadFor) (l : LineId) (xs : List (WordIx × WordOutcome)) (s : State) :
    Rises (xs.filter (fun x => x.2.isLost)).length s.checks.uncorrectable (xs.foldl (State.countWord f l) s).checks.uncorrectable := by
  induction xs generalizing s with
  | nil => exact rises_zero
  | cons x xs ih =>
    obtain ⟨w, o⟩ := x
    have rest := ih (s.countWord f l (w, o))
    cases o with
    | clean | poisoned => exact rest
    | uncorrectable =>
      rw [uncorrectable_countWord] at rest
      exact rises_succ rest
    | corrected d =>
      have same : (s.countWord f l (w, .corrected d)).checks.uncorrectable = s.checks.uncorrectable := by
        cases f with
        | copyOut => rfl
        | rowReader => exact uncorrectable_noteFault ..
      rw [same] at rest
      exact rest

/-! ## The words of a line -/

section

variable {m : Memory} {k base : Nat}

theorem numbered_readLine : numbered (m.readLine k base) = allWords.map (fun w => (w, m.readWord k base w)) := by
  unfold numbered Memory.readLine
  exact List.map_prod_left_eq_zip.symm

theorem getElem?_readLine (w : WordIx) : (m.readLine k base)[w.val]? = some (m.readWord k base w) := by
  unfold Memory.readLine
  rw [List.getElem?_map]
  have : allWords[w.val]? = some w := by revert w; decide
  rw [this]
  rfl

/-- The outcomes of a line are those of Table 37. -/
theorem outcomesOf_readLine : OutcomesOf m base (m.readLine k base) := by
  intro w
  rw [getElem?_readLine]
  unfold Memory.readWord
  refine ⟨fun h => by rw [h], fun h => by rw [h], fun h => by rw [h], fun h => ?_⟩
  rcases h with h | h <;> rw [h]

theorem correctedIn_readLine :
    correctedIn (m.readLine k base) = ((numbered (m.readLine k base)).filter (fun x => x.2.isCorrected)).length := by
  rw [numbered_readLine]
  unfold correctedIn Memory.readLine
  rw [List.filter_map, List.filter_map, List.length_map, List.length_map]
  rfl

theorem uncorrectableIn_readLine :
    uncorrectableIn (m.readLine k base) = ((numbered (m.readLine k base)).filter (fun x => x.2.isLost)).map (fun x => x.1) := by
  rw [numbered_readLine]
  unfold uncorrectableIn
  rw [List.filter_map, List.map_map]
  refine Eq.trans ?_ (List.map_id' _).symm
  refine List.filter_congr fun w _ => ?_
  rw [getElem?_readLine]
  exact decide_eq_decide.mpr (Option.some_inj)

/-- The counts of a read. -/
theorem counted_countLine (f : ReadFor) (l : LineId) (s : State) : Counted s (s.countLine f l (m.readLine k base)) (m.readLine k base) := by
  refine ⟨?_, ?_⟩
  · rw [correctedIn_readLine]; exact corrected_countWords ..
  · rw [uncorrectableIn_readLine, List.length_map]; exact uncorrectable_countWords ..

/-- A line with no word CORRECTED. -/
theorem not_isCorrected_of_zero (h : correctedIn (m.readLine k base) = 0) : ∀ x ∈ numbered (m.readLine k base), x.2.isCorrected = false := by
  rw [correctedIn_readLine, List.length_eq_zero_iff, List.filter_eq_nil_iff] at h
  exact fun x hx => Bool.eq_false_iff.mpr (h x hx)

/-- A line without a word to correct. -/
theorem any_bad_readLine : (m.readLine k base).any WordOutcome.bad = false ↔
    correctedIn (m.readLine k base) = 0 ∧ uncorrectableIn (m.readLine k base) = [] := by
  have bad : ∀ o : WordOutcome, o.bad = false ↔ o.isCorrected = false ∧ o.isLost = false := fun o => by
    cases o <;> simp [WordOutcome.bad, WordOutcome.isCorrected, WordOutcome.isLost]
  rw [correctedIn_readLine, uncorrectableIn_readLine, List.length_eq_zero_iff, List.map_eq_nil_iff, List.filter_eq_nil_iff,
    List.filter_eq_nil_iff, numbered_readLine, List.any_eq_false]
  unfold Memory.readLine
  simp only [List.forall_mem_map, Bool.not_eq_true, bad]
  exact forall₂_and

end

/-! ## The notices of a read that starts no job -/

/-- The repair buffer's read raises one notice for each word lost. -/
theorem noticeQ_countWords_copyOut (l : LineId) (xs : List (WordIx × WordOutcome)) (s : State) (q : Port) :
    (xs.foldl (State.countWord .copyOut l) s).noticeQ q = s.told Enables.integrity
      ((xs.filter (fun x => x.2.isLost)).map (fun x => .uncorrectable (wordAddr l x.1))) q := by
  induction xs generalizing s with
  | nil => exact (told_nil ..).symm
  | cons x xs ih =>
    obtain ⟨w, o⟩ := x
    have rest := ih (s.countWord .copyOut l (w, o))
    cases o with
    | clean | poisoned | corrected => exact rest
    | uncorrectable =>
      refine rest.trans (told_cons (noticeQ_broadcast ..) ?_ _)
      rw [broadcast_frame]; rfl

theorem faults_countWords_copyOut (l : LineId) (xs : List (WordIx × WordOutcome)) (s : State) :
    (xs.foldl (State.countWord .copyOut l) s).checks.faults = s.checks.faults := by
  induction xs generalizing s with
  | nil => rfl
  | cons x xs ih =>
    obtain ⟨w, o⟩ := x
    refine (ih _).trans ?_
    cases o with
    | clean | poisoned | corrected => rfl
    | uncorrectable => rw [State.countWord, broadcast_frame]; rfl

end Sys2Proof.Machine
end

section
/-! PROOFS. The jobs that the fault list raises: a threshold met is advised, and with AUTO_REPAIR 1 a SOFT job merges, waits, starts or is
dropped (R122, R135 to R137). -/

namespace Sys2Proof.Machine

/-! ## A job without requesters -/

/-- The job of the fault list for a row. -/
def softJob (b : BankId) (row : RowId) : Job := ⟨b, row, .soft, []⟩

theorem merge_softJob (j : Job) (b : BankId) (row : RowId) : j.merge (softJob b row) = j := by
  obtain ⟨bank, row', mode, rs⟩ := j
  unfold Job.merge softJob
  rw [List.append_nil]
  cases mode <;> rfl

theorem autoJob_eq (s : State) (b : BankId) (row : RowId) :
    s.autoJob b row = if s.jobFits (softJob b row) then s.submitJob (softJob b row) else s := rfl

theorem takes_softJob {c : CurrentJob} {b : BankId} {row : RowId} :
    c.takes (softJob b row) = true ↔ c.job.bank = b ∧ c.job.row = row := by
  rw [takes_iff]
  exact ⟨fun h => ⟨h.1, h.2.1⟩, fun h => ⟨h.1, h.2, .inl rfl⟩⟩

section

variable {s : State} {b : BankId} {row : RowId}

/-- A row with a queued job gets no other. -/
theorem autoJob_merges (h : ∃ j ∈ s.repairQueue, j.bank = b ∧ j.row = row) : s.autoJob b row = s := by
  obtain ⟨fits, merges⟩ := submitJob_merges (new := softJob b row) h
  rw [autoJob_eq, if_pos fits, merges]
  have same : s.repairQueue.map (fun j => if j.bank = b ∧ j.row = row then j.merge (softJob b row) else j) = s.repairQueue := by
    refine (List.map_congr_left fun j _ => ?_).trans (List.map_id _)
    rw [merge_softJob, ite_self]
    rfl
  exact congrArg (fun q => ({ s with repairQueue := q } : State)) same

section

variable {c : CurrentJob} (hn : ∀ j ∈ s.repairQueue, ¬ (j.bank = b ∧ j.row = row)) (hc : s.currentJob = some c)
include hn hc

/-- Nor one with the current job. -/
theorem autoJob_joins (ht : c.job.bank = b ∧ c.job.row = row) : s.autoJob b row = s := by
  obtain ⟨fits, joins⟩ := submitJob_joins (new := softJob b row) hn hc (takes_softJob.mpr ht)
  rw [autoJob_eq, if_pos fits, joins, merge_softJob]
  show ({ s with currentJob := some c } : State) = s
  rw [← hc]

theorem autoJob_queues (ht : ¬ (c.job.bank = b ∧ c.job.row = row)) (hl : s.repairQueue.length < 4) :
    s.autoJob b row = ({ s with repairQueue := s.repairQueue ++ [softJob b row] } : State).quietBreak := by
  obtain ⟨fits, queues⟩ := submitJob_queues (new := softJob b row) hn hc (fun e => ht (takes_softJob.mp e)) hl
  rw [autoJob_eq, if_pos fits, queues]

theorem autoJob_drops (ht : ¬ (c.job.bank = b ∧ c.job.row = row)) (hl : 4 ≤ s.repairQueue.length) : s.autoJob b row = s :=
  if_neg (jobFits_full (new := softJob b row) hn hc (fun e => ht (takes_softJob.mp e)) hl)

end

section

variable (hc : s.currentJob = none) (hq : s.repairQueue = [])
include hc hq

theorem autoJob_runs {sp : SpareId} (hs : s.freeSpare b = some sp) :
    s.autoJob b row = ({ s.quietBreak with repairQueue := [] } : State).runJob (softJob b row) sp := by
  obtain ⟨fits, starts⟩ := submitJob_starts (new := softJob b row) hq hc
  rw [autoJob_eq, if_pos fits, starts]
  refine startJobs_spare [] ?_
  rw [freeSpare_congr (by rw [quietBreak_frame])]
  exact hs

theorem autoJob_noSpare (hs : s.freeSpare b = none) :
    s.autoJob b row = { s.quietBreak.dropJob (softJob b row) with repairQueue := [] } := by
  obtain ⟨fits, starts⟩ := submitJob_starts (new := softJob b row) hq hc
  rw [autoJob_eq, if_pos fits, starts]
  refine startJobs_none ?_
  rw [freeSpare_congr (by rw [quietBreak_frame])]
  exact hs

end

end

/-! ## What the jobs leave, however many words advise them -/

/-- The scrubber holds, or waits for a hold, in the bank. -/
abbrev ScrubsBank (s : State) (b : BankId) : Prop :=
  (s.scrub.step = .holding ∨ s.scrub.step = .pending) ∧ lineBank s.scrub.pointer = b

/-- No job waits but behind the current one, unless one for the row does. -/
def RowFirst (s : State) (b : BankId) (row : RowId) : Prop :=
  s.currentJob = none → s.repairQueue = [] ∨ ∃ j ∈ s.repairQueue, j.bank = b ∧ j.row = row

/-- What the jobs of the fault list for a row leave as it is. -/
structure JobsKept (s t : State) (b : BankId) (row : RowId) : Prop where
  first : RowFirst t b row
  job : s.currentJob ≠ none → t.currentJob = s.currentJob
  queues : t.queues = s.queues
  detached : t.detached = s.detached
  remap : t.remap = s.remap
  marks : s.currentJob ≠ none → (t.bank b).marks.repair = (s.bank b).marks.repair
  state : (s.bank b).state = .opened → (t.bank b).state = .opened
  scrub : s.currentJob ≠ none ∨ ¬ ScrubsBank s b → t.scrub = s.scrub ∧ t.holds = s.holds
  now : t.now = s.now

/-- What they do to the row's bank and to the queue, once one at least was raised. -/
structure JobAdvised (s t : State) (b : BankId) (row : RowId) : Prop where
  queued : (∃ j ∈ s.repairQueue, j.bank = b ∧ j.row = row) → t.repairQueue = s.repairQueue ∧ t.currentJob = s.currentJob
  behind : (∀ j ∈ s.repairQueue, ¬ (j.bank = b ∧ j.row = row)) → ∀ c, s.currentJob = some c → t.currentJob = s.currentJob ∧
    (c.job.bank = b ∧ c.job.row = row ∨ 4 ≤ s.repairQueue.length → t.repairQueue = s.repairQueue) ∧
    (¬ (c.job.bank = b ∧ c.job.row = row) → s.repairQueue.length < 4 → t.repairQueue = s.repairQueue ++ [softJob b row])
  starts : s.currentJob = none → s.repairQueue = [] → (s.bank b).state = .opened → t.repairQueue = [] ∧
    (∀ sp, s.freeSpare b = some sp → (t.bank b).marks.repair = true ∧ t.currentJob = some
      { job := softJob b row, chosen := sp, previous := s.servingSpare b row, phase := .wait, linesRead := 0, linesWritten := 0
        poisonedWords := 0, programEnds := none }) ∧
    (s.freeSpare b = none → t.currentJob = none) ∧
    (ScrubsBank s b → StepEnded s t s.now ∧ ∀ e ∈ t.holds, e.holder ≠ .scrubber)

section

variable {s t u : State} {b : BankId} {row : RowId}

theorem JobsKept.refl (h : RowFirst s b row) : JobsKept s s b row :=
  ⟨h, fun _ => rfl, rfl, rfl, rfl, fun _ => rfl, id, fun _ => ⟨rfl, rfl⟩, rfl⟩

theorem JobsKept.trans (h : JobsKept s t b row) (k : JobsKept t u b row) : JobsKept s u b row := by
  have job : s.currentJob ≠ none → t.currentJob ≠ none := fun hj => by rw [h.job hj]; exact hj
  refine ⟨k.first, fun hj => (k.job (job hj)).trans (h.job hj), k.queues.trans h.queues, k.detached.trans h.detached,
    k.remap.trans h.remap, fun hj => (k.marks (job hj)).trans (h.marks hj), fun ho => k.state (h.state ho), fun hc => ?_,
    k.now.trans h.now⟩
  obtain ⟨hs, hh⟩ := h.scrub hc
  obtain ⟨ks, kh⟩ := k.scrub (hc.imp job fun hn => by unfold ScrubsBank; rw [hs]; exact hn)
  exact ⟨ks.trans hs, kh.trans hh⟩

/-- A second advice changes nothing more. -/
theorem JobAdvised.trans (hk : JobsKept s t b row) (h : JobAdvised s t b row) (kk : JobsKept t u b row) (k : JobAdvised t u b row) :
    JobAdvised s u b row := by
  refine ⟨fun hq => ?_, fun hn c hc => ?_, fun hc hq ho => ?_⟩
  · obtain ⟨queue, job⟩ := h.queued hq
    obtain ⟨queue', job'⟩ := k.queued (by rw [queue]; exact hq)
    exact ⟨queue'.trans queue, job'.trans job⟩
  · obtain ⟨job, same, appended⟩ := h.behind hn c hc
    have stays : c.job.bank = b ∧ c.job.row = row ∨ 4 ≤ s.repairQueue.length → u.repairQueue = s.repairQueue := fun hs => by
      have queue := same hs
      obtain ⟨-, same', -⟩ := k.behind (by rw [queue]; exact hn) c (job.trans hc)
      exact (same' (by rw [queue]; exact hs)).trans queue
    refine ⟨(kk.job (by rw [job, hc]; nofun)).trans job, stays, fun hr hl => ?_⟩
    have queue := appended hr hl
    refine (k.queued ⟨softJob b row, ?_, rfl, rfl⟩).1.trans queue
    rw [queue]
    exact List.mem_append_right _ (List.mem_singleton_self _)
  · obtain ⟨queue, runs, none, ended⟩ := h.starts hc hq ho
    have after : ScrubsBank s b → StepEnded s u s.now ∧ ∀ e ∈ u.holds, e.holder ≠ .scrubber := fun hb => by
      obtain ⟨step, holds⟩ := ended hb
      obtain ⟨scrub, held⟩ := kk.scrub (.inr fun e => by
        unfold ScrubsBank at e
        rw [step.step] at e
        exact e.1.elim nofun nofun)
      exact ⟨step.of_scrub scrub, by rw [held]; exact holds⟩
    cases hsp : s.freeSpare b with
    | some sp =>
      obtain ⟨marks, job⟩ := runs sp hsp
      obtain ⟨job', same, -⟩ := k.behind (by rw [queue]; exact nofun) _ job
      refine ⟨(same (.inl ⟨rfl, rfl⟩)).trans queue, fun sp' hsp' => ?_, nofun, after⟩
      obtain rfl := Option.some.inj hsp'
      exact ⟨(kk.marks (by rw [job]; nofun)).trans marks, job'.trans job⟩
    | none =>
      obtain ⟨queue', -, none', -⟩ := k.starts (none hsp) queue (hk.state ho)
      exact ⟨queue', nofun, fun _ => none' ((freeSpare_congr hk.remap b).trans hsp), after⟩

/-! ## One job -/

theorem takeBank_unscrubbed (h : ¬ ScrubsBank s b) : (s.takeBank b).scrub = s.scrub ∧ (s.takeBank b).holds = s.holds := by
  unfold State.takeBank
  dsimp only
  rw [if_neg h]
  exact ⟨rfl, rfl⟩

theorem takeBank_scrubbed (h : ScrubsBank s b) : StepEnded s (s.takeBank b) s.now ∧
    ∀ e ∈ (s.takeBank b).holds, e.holder ≠ .scrubber := by
  unfold State.takeBank
  dsimp only
  rw [if_pos h]
  refine ⟨(stepEnded_scrubStepEnd s).of_scrub rfl, fun e he => ?_⟩
  exact of_decide_eq_true (List.mem_filter.mp he).2

theorem StepEnded.since {s v t : State} {n : Instant} (h : StepEnded v t n) (hs : v.scrub = s.scrub) (hg : v.settings = s.settings) :
    StepEnded s t n :=
  ⟨h.step, h.kept, hs ▸ h.pointer, hs ▸ h.passes, hg ▸ h.timer⟩

theorem quietBreak_state (s : State) (b : BankId) : (s.quietBreak.bank b).state = (s.bank b).state ∧
    (s.quietBreak.bank b).marks.repair = (s.bank b).marks.repair := by
  obtain ⟨m, hm⟩ := quietBreak_bank s b
  rw [hm]
  exact ⟨rfl, rfl⟩

theorem taken_opened {x : Bank} (h : x.state = .opened) : x.taken = { x with marks := { x.marks with repair := true }, idle := .stopped } := by
  unfold Bank.taken
  rw [h]

/-- The end of a job without requesters ends no record. -/
theorem dropJob_softJob (s : State) (b : BankId) (row : RowId) : (s.dropJob (softJob b row)).queues = s.queues ∧
    (s.dropJob (softJob b row)).detached = s.detached ∧ (s.dropJob (softJob b row)).scrub = (s.takeBank b).scrub ∧
    (s.dropJob (softJob b row)).holds = (s.takeBank b).holds := by
  have records : ∀ u : State, u.mapRecords (Record.answeredBy [] u.now ⟨.noSpare, .repair none 0⟩) = u := mapRecords_id
  unfold State.dropJob
  rw [endJob_frame]
  have ended : ((s.takeBank b).jobEnded (softJob b row) ⟨.noSpare, .repair none 0⟩) =
      ({ s.takeBank b with currentJob := none, repairBuffer := [] } : State).releaseBank b := records _
  refine ⟨?_, ?_, ?_, ?_⟩
  · show ((s.takeBank b).jobEnded (softJob b row) _).queues = _
    rw [ended, takeBank_frame]; rfl
  · show ((s.takeBank b).jobEnded (softJob b row) _).detached = _
    rw [ended, takeBank_frame]; rfl
  · rfl
  · rfl

/-- What one advice does. -/
theorem autoJob_advised (h : RowFirst s b row) :
    JobsKept s (s.autoJob b row) b row ∧ JobAdvised s (s.autoJob b row) b row := by
  by_cases hm : ∃ j ∈ s.repairQueue, j.bank = b ∧ j.row = row
  · rw [autoJob_merges hm]
    obtain ⟨j, hj, hrow⟩ := hm
    exact ⟨.refl h, fun _ => ⟨rfl, rfl⟩, fun hn => absurd hrow (hn j hj), fun _ hq => (by rw [hq] at hj; cases hj)⟩
  have hn : ∀ j ∈ s.repairQueue, ¬ (j.bank = b ∧ j.row = row) := fun j hj e => hm ⟨j, hj, e⟩
  cases hc : s.currentJob with
  | some c =>
    have idle : ∀ u, u = s → (c.job.bank = b ∧ c.job.row = row ∨ 4 ≤ s.repairQueue.length) →
        JobsKept s u b row ∧ JobAdvised s u b row :=
      fun u hu hr => by
        rw [hu]
        refine ⟨.refl h, fun e => absurd e hm, fun _ d hd => ⟨rfl, fun _ => rfl, fun h1 h2 => ?_⟩, fun e => (by rw [hc] at e; cases e)⟩
        obtain rfl := Option.some.inj (hc.symm.trans hd)
        exact absurd hr (not_or.mpr ⟨h1, Nat.not_le.mpr h2⟩)
    by_cases ht : c.job.bank = b ∧ c.job.row = row
    · exact idle _ (autoJob_joins hn hc ht) (.inl ht)
    · by_cases hl : s.repairQueue.length < 4
      · obtain ⟨v, hv⟩ : ∃ v : State, v = { s with repairQueue := s.repairQueue ++ [softJob b row] } := ⟨_, rfl⟩
        rw [autoJob_queues hn hc ht hl, ← hv]
        have frame := quietBreak_frame v
        obtain ⟨state, marks⟩ := quietBreak_state v b
        have bank : v.bank b = s.bank b := by rw [hv]; rfl
        rw [bank] at state marks
        refine ⟨⟨?_, fun _ => by rw [frame, hv], by rw [frame, hv], by rw [frame, hv], by rw [frame, hv], fun _ => marks,
          fun ho => state.trans ho,
          fun _ => by rw [frame, hv]; exact ⟨rfl, rfl⟩, by rw [frame, hv]⟩, fun e => absurd e hm,
          fun _ d hd => ⟨by rw [frame, hv], fun hr => ?_, fun _ _ => by rw [frame, hv]⟩, fun e => (by rw [hc] at e; cases e)⟩
        · intro e
          rw [frame, hv] at e
          rw [hc] at e
          cases e
        · obtain rfl := Option.some.inj (hc.symm.trans hd)
          exact absurd hr (not_or.mpr ⟨ht, Nat.not_le.mpr hl⟩)
      · exact idle _ (autoJob_drops hn hc ht (Nat.not_lt.mp hl)) (.inr (Nat.not_lt.mp hl))
  | none =>
    have hq : s.repairQueue = [] := (h hc).resolve_right hm
    obtain ⟨v, hv⟩ : ∃ v, v = s.quietBreak := ⟨_, rfl⟩
    have frame := quietBreak_frame s
    rw [← hv] at frame
    obtain ⟨state, -⟩ := quietBreak_state s b
    rw [← hv] at state
    have same : v.scrub = s.scrub ∧ v.holds = s.holds ∧ v.settings = s.settings ∧ v.now = s.now ∧ v.remap = s.remap := by
      rw [frame]; exact ⟨rfl, rfl, rfl, rfl, rfl⟩
    obtain ⟨scrub, holds, settings, now, remap⟩ := same
    have free : ¬ ScrubsBank s b → (v.takeBank b).scrub = s.scrub ∧ (v.takeBank b).holds = s.holds := fun hs => by
      obtain ⟨h1, h2⟩ := takeBank_unscrubbed (s := v) (b := b) (by unfold ScrubsBank; rw [scrub]; exact hs)
      exact ⟨h1.trans scrub, h2.trans holds⟩
    have ended : ScrubsBank s b → StepEnded s (v.takeBank b) s.now ∧ ∀ e ∈ (v.takeBank b).holds, e.holder ≠ .scrubber := fun hs => by
      obtain ⟨h1, h2⟩ := takeBank_scrubbed (s := v) (b := b) (by unfold ScrubsBank; rw [scrub]; exact hs)
      exact ⟨now ▸ h1.since scrub settings, h2⟩
    cases hsp : s.freeSpare b with
    | some sp =>
      obtain ⟨u, hu⟩ : ∃ u, u = ({ v with repairQueue := [] } : State).runJob (softJob b row) sp := ⟨_, rfl⟩
      rw [autoJob_runs hc hq hsp, ← hv, ← hu]
      have run := runJob_frame { v with repairQueue := [] } (softJob b row) sp
      have bank := bank_runJob { v with repairQueue := [] } (softJob b row) sp b
      rw [← hu] at run bank
      have mine : u.bank b = (v.bank b).taken := bank.trans (if_pos rfl)
      have scrubs : u.scrub = (v.takeBank b).scrub ∧ u.holds = (v.takeBank b).holds := by
        rw [hu]
        unfold State.runJob State.takeBank
        dsimp only
        split <;> (rename_i h1; split <;> rename_i h2)
        · exact ⟨rfl, rfl⟩
        · exact absurd h1 h2
        · exact absurd h2 h1
        · exact ⟨rfl, rfl⟩
      refine ⟨⟨fun _ => .inl (by rw [run]), fun e => absurd hc e, by rw [run, frame], by rw [run, frame], by rw [run, frame],
        fun e => absurd hc e, fun ho => ?_, fun e => ?_, by rw [run, frame]⟩,
        fun e => absurd e hm, fun _ d hd => ?_, fun _ _ ho => ⟨by rw [run], fun sp' hsp' => ?_,
          fun e => (by rw [hsp] at e; cases e), fun hs => ?_⟩⟩
      · rw [mine, taken_opened (state.trans ho)]; exact state.trans ho
      · rw [scrubs.1, scrubs.2]; exact free (e.resolve_left fun h => h hc)
      · rw [hc] at hd; cases hd
      · obtain rfl := Option.some.inj (hsp.symm.trans hsp')
        refine ⟨by rw [mine, taken_opened (state.trans ho)], ?_⟩
        rw [run, ← servingSpare_congr remap]
        show some (State.startRecord _ (softJob b row) sp) = _
        unfold State.startRecord
        rw [if_neg]
        · rfl
        · show ¬ (v.bank b).state = .closed
          rw [state, ho]; nofun
      · obtain ⟨step, off⟩ := ended hs
        exact ⟨step.of_scrub scrubs.1, by rw [scrubs.2]; exact off⟩
    | none =>
      obtain ⟨u, hu⟩ : ∃ u : State, u = { v.dropJob (softJob b row) with repairQueue := [] } := ⟨_, rfl⟩
      rw [autoJob_noSpare hc hq hsp, ← hv, ← hu]
      obtain ⟨queues, detached, scrubs, holds'⟩ := dropJob_softJob v b row
      obtain ⟨job, -, -, now', -, remap', -⟩ := dropJob_registers v (softJob b row)
      refine ⟨⟨fun _ => .inl (by rw [hu]), fun e => absurd hc e, ?_, ?_, ?_, fun e => absurd hc e, fun ho => ?_, fun e => ?_, ?_⟩,
        fun e => absurd e hm, fun _ d hd => ?_, fun _ _ ho => ⟨by rw [hu],
          fun sp' e => (by rw [hsp] at e; cases e), fun _ => by rw [hu]; exact job, fun hs => ?_⟩⟩
      · rw [hu]; exact queues.trans (by rw [frame])
      · rw [hu]; exact detached.trans (by rw [frame])
      · rw [hu]; exact remap'.trans remap
      · rw [hu]
        show ((v.dropJob (softJob b row)).bank b).state = _
        rw [bank_dropJob, if_pos (show b = (softJob b row).bank from rfl), taken_released_state (by rw [state, ho]; nofun), state, ho]
      · rw [hu]
        obtain ⟨h1, h2⟩ := free (e.resolve_left fun h => h hc)
        exact ⟨scrubs.trans h1, holds'.trans h2⟩
      · rw [hu]; exact now'.trans now
      · rw [hc] at hd; cases hd
      · obtain ⟨step, off⟩ := ended hs
        rw [hu]
        exact ⟨step.of_scrub scrubs, fun e he => off e (holds' ▸ he)⟩

end

end Sys2Proof.Machine
end

section
/-! PROOFS. A row reader's line, its words in ascending order: the fault list and the notices it leaves, and the job of its row
(R119 to R122, R136, R137). -/

namespace Sys2Proof.Machine

/-! ## What no job of the fault list takes away -/

/-- The idle timers stay or stop, every hold but the scrubber's stays, and the scrubber stays but for a step that ends. -/
structure Yields (s t : State) : Prop where
  idle : ∀ b, (t.bank b).idle = (s.bank b).idle ∨ (t.bank b).idle = .stopped
  holds : ∀ e ∈ s.holds, e.holder ≠ .scrubber → e ∈ t.holds
  scrub : t.scrub = s.scrub ∨ (s.scrub.step = .holding ∨ s.scrub.step = .pending) ∧ StepEnded s t s.now
  now : t.now = s.now
  settings : t.settings = s.settings

/-- A job's start besides: the check-bit unit stays. -/
structure JobYields (s t : State) : Prop extends Yields s t where
  checks : t.checks = s.checks

section

variable {s t u : State}

theorem Yields.same (hb : ∀ b, (t.bank b).idle = (s.bank b).idle)
    (h : t.holds = s.holds ∧ t.scrub = s.scrub ∧ t.now = s.now ∧ t.settings = s.settings) : Yields s t :=
  ⟨fun b => .inl (hb b), fun _ he _ => h.1 ▸ he, .inl h.2.1, h.2.2.1, h.2.2.2⟩

theorem Yields.trans (h : Yields s t) (k : Yields t u) : Yields s u := by
  refine ⟨fun b => ?_, fun e he hn => k.holds e (h.holds e he hn) hn, ?_, k.now.trans h.now, k.settings.trans h.settings⟩
  · exact (k.idle b).elim (fun same => (h.idle b).imp same.trans same.trans) .inr
  · rcases h.scrub with hs | ⟨hs, step⟩
    · rcases k.scrub with ks | ⟨ks, step⟩
      · exact .inl (ks.trans hs)
      · exact .inr ⟨hs ▸ ks, h.now ▸ step.since hs h.settings⟩
    · rcases k.scrub with ks | ⟨ks, -⟩
      · exact .inr ⟨hs, step.of_scrub ks⟩
      · rw [step.step] at ks
        exact ks.elim nofun nofun

theorem JobYields.trans (h : JobYields s t) (k : JobYields t u) : JobYields s u :=
  ⟨h.toYields.trans k.toYields, k.checks.trans h.checks⟩

theorem taken_idle (x : Bank) : x.taken.idle = x.idle ∨ x.taken.idle = .stopped := by
  unfold Bank.taken
  split
  · exact .inr rfl
  · exact .inr rfl
  · exact .inr rfl
  all_goals exact .inl rfl

theorem jobYields_takeBank (s : State) (b : BankId) : JobYields s (s.takeBank b) := by
  refine ⟨⟨fun k => ?_, fun e he hn => ?_, ?_, by rw [takeBank_frame], by rw [takeBank_frame]⟩, by rw [takeBank_frame]⟩
  · rw [bank_takeBank]
    by_cases hk : k = b
    · rw [if_pos hk, hk]; exact taken_idle _
    · rw [if_neg hk]; exact .inl rfl
  · unfold State.takeBank
    dsimp only
    split
    · exact List.mem_filter.mpr ⟨he, decide_eq_true hn⟩
    · exact he
  · by_cases h : ScrubsBank s b
    · exact .inr ⟨h.1, (takeBank_scrubbed h).1⟩
    · exact .inl (takeBank_unscrubbed h).1

theorem jobYields_dropJob (s : State) (j : Job) : JobYields s (s.dropJob j) := by
  refine (jobYields_takeBank s j.bank).trans ⟨.same (fun k => ?_) ?_, ?_⟩
  · unfold State.dropJob
    rw [bank_endJob]
    split
    · rename_i h; rw [h]; rfl
    · rfl
  · unfold State.dropJob; rw [endJob_frame]; exact ⟨rfl, rfl, rfl, rfl⟩
  · unfold State.dropJob; rw [endJob_frame]; rfl

theorem jobYields_startJobs (js : List Job) (s : State) : JobYields s (State.startJobs js s) := by
  induction js generalizing s with
  | nil => exact ⟨.same (fun _ => rfl) ⟨rfl, rfl, rfl, rfl⟩, rfl⟩
  | cons j js ih =>
    cases hs : s.freeSpare j.bank with
    | some sp =>
      rw [startJobs_spare js hs]
      have queued : JobYields s ({ s with repairQueue := js }.setJob (some (({ s with repairQueue := js } : State).startRecord j sp))) :=
        ⟨.same (fun _ => rfl) ⟨rfl, rfl, rfl, rfl⟩, rfl⟩
      exact queued.trans (jobYields_takeBank _ _)
    | none =>
      unfold State.startJobs
      rw [hs]
      exact (jobYields_dropJob s j).trans (ih _)

theorem jobYields_quietBreak (s : State) : JobYields s s.quietBreak := by
  refine ⟨.same (fun b => ?_) (by rw [quietBreak_frame]; exact ⟨rfl, rfl, rfl, rfl⟩), by rw [quietBreak_frame]⟩
  obtain ⟨m, hm⟩ := quietBreak_bank s b
  rw [hm]
  rfl

theorem jobYields_autoJob (s : State) (b : BankId) (row : RowId) : JobYields s (s.autoJob b row) := by
  have same : ∀ {t : State}, t = { s with repairQueue := t.repairQueue, currentJob := t.currentJob } → JobYields s t := fun e => by
    rw [e]; exact ⟨.same (fun _ => rfl) ⟨rfl, rfl, rfl, rfl⟩, rfl⟩
  rw [autoJob_eq]
  split
  · unfold State.submitJob
    split
    · exact same rfl
    · split
      · split
        · exact same rfl
        · have queued := same (t := { s with repairQueue := s.repairQueue ++ [softJob b row] }) rfl
          exact queued.trans (jobYields_quietBreak _)
      · exact (jobYields_quietBreak s).trans (jobYields_startJobs _ _)
  · exact same rfl

theorem yields_countLine (s : State) (f : ReadFor) (l : LineId) (os : List WordOutcome) : Yields s (s.countLine f l os) := by
  refine rel_countWords (R := Yields) (fun _ => .same (fun _ => rfl) ⟨rfl, rfl, rfl, rfl⟩) (fun h k => h.trans k)
    (fun _ _ => .same (fun _ => rfl) ⟨rfl, rfl, rfl, rfl⟩)
    (fun s n => ?_) _ (fun _ _ s _ => (jobYields_autoJob s ..).toYields) s
  rw [broadcast_frame]
  exact .same (fun _ => rfl) ⟨rfl, rfl, rfl, rfl⟩

theorem jobMove_autoJob (s : State) (b : BankId) (row : RowId) : JobMove s (s.autoJob b row) := by
  rw [autoJob_eq]
  split
  · exact .submitJob ..
  · exact .refl s

theorem checks_advise (s : State) (b : BankId) (row : RowId) : (s.advise b row).checks = s.checks := by
  have told : (s.broadcast Enables.integrity (.repairAdvised b row)).checks = s.checks := by rw [broadcast_frame]
  by_cases h : s.settings.autoRepair = 1
  · rw [advise_on h]; exact (jobYields_autoJob ..).checks.trans told
  · rw [advise_off h]; exact told

theorem jobMove_countLine (s : State) (l : LineId) (os : List WordOutcome) : (s.countLine .rowReader l os) = { s with
    banks := (s.countLine .rowReader l os).banks, queues := (s.countLine .rowReader l os).queues
    detached := (s.countLine .rowReader l os).detached, notices := (s.countLine .rowReader l os).notices
    checks := (s.countLine .rowReader l os).checks, scrub := (s.countLine .rowReader l os).scrub
    holds := (s.countLine .rowReader l os).holds, repairQueue := (s.countLine .rowReader l os).repairQueue
    currentJob := (s.countLine .rowReader l os).currentJob, repairBuffer := (s.countLine .rowReader l os).repairBuffer
    quiet := (s.countLine .rowReader l os).quiet } := by
  refine rel_countWords (R := fun s t => t = { s with
    banks := t.banks, queues := t.queues, detached := t.detached, notices := t.notices, checks := t.checks, scrub := t.scrub
    holds := t.holds, repairQueue := t.repairQueue, currentJob := t.currentJob, repairBuffer := t.repairBuffer, quiet := t.quiet })
    (fun _ => rfl) (fun h k => ?_) (fun _ _ => rfl) (fun s n => (JobMove.broadcast s _ n).frame) (numbered os)
    (fun _ _ s _ => (jobMove_autoJob ..).frame) s
  refine k.trans ?_
  rw [h]

end

/-! ## The fault list's words -/

/-- A CORRECTED word of a row reader: its entry, and the advice where its count reaches the threshold. -/
theorem countWord_mended {s : State} {l : LineId} {w : WordIx} {d : Word} {m : Table 16 (Option FaultEntry)} {rose : Option Nat}
    (h : FaultNoted s.checks.faults (lineBank l) (lineRow l) s.stampCounter m rose) : ∃ c : CheckUnit, c.faults = m ∧
      s.countWord .rowReader l (w, .corrected d) =
        if rose = some s.settings.faultThreshold then (s.setChecks c).advise (lineBank l) (lineRow l) else s.setChecks c := by
  refine ⟨{ s.checks with corrected := countUp top32 s.checks.corrected, faults := m }, rfl, ?_⟩
  have noted := noteFault_of (c := { s.checks with corrected := countUp top32 s.checks.corrected }) h
  obtain ⟨x, hx⟩ : ∃ x, x = ({ s.checks with corrected := countUp top32 s.checks.corrected } : CheckUnit).noteFault
    (lineBank l) (lineRow l) s.stampCounter := ⟨_, rfl⟩
  have step : s.countWord .rowReader l (w, .corrected d) =
      if x.2 = some s.settings.faultThreshold then (s.setChecks x.1).advise (lineBank l) (lineRow l) else s.setChecks x.1 := by
    rw [hx]; rfl
  rw [step, hx, noted]

/-- What holds along the words of a row reader's line, where their fault list is `ReadNoted`. -/
theorem rel_readNoted {P : State → List Notice → State → Prop} {l : LineId} {thr : Nat} {st : Stamp}
    (done : ∀ s, P s [] s) (check : ∀ s c ns u, P (s.setChecks c) ns u → P s ns u)
    (lost : ∀ s w ns u, P (s.broadcast Enables.integrity (.uncorrectable (wordAddr l w))) ns u →
      P s (.uncorrectable (wordAddr l w) :: ns) u)
    (advised : ∀ s ns u, P (s.advise (lineBank l) (lineRow l)) ns u → P s (.repairAdvised (lineBank l) (lineRow l) :: ns) u)
    {xs : List (WordIx × WordOutcome)} {t f : Table 16 (Option FaultEntry)} {ns : List Notice} (h : ReadNoted l thr st xs t f ns) (s : State)
    (ht : s.checks.faults = t) (hthr : s.settings.faultThreshold = thr) (hst : s.stampCounter = st) :
    P s ns (xs.foldl (State.countWord .rowReader l) s) ∧ (xs.foldl (State.countWord .rowReader l) s).checks.faults = f := by
  induction h generalizing s with
  | done => exact ⟨done s, ht⟩
  | fine w o xs t u ns ho h ih =>
    have same : s.countWord .rowReader l (w, o) = s := by rcases ho with ⟨d, rfl⟩ | rfl <;> rfl
    rw [List.foldl_cons, same]
    exact ih s ht hthr hst
  | lost w xs t u ns h ih =>
    obtain ⟨v, hv⟩ : ∃ v, v = s.setChecks { s.checks with uncorrectable := countUp top32 s.checks.uncorrectable } := ⟨_, rfl⟩
    have step : s.countWord .rowReader l (w, .uncorrectable) = v.broadcast Enables.integrity (.uncorrectable (wordAddr l w)) := by
      rw [hv]; rfl
    have frame := broadcast_frame v Enables.integrity (.uncorrectable (wordAddr l w))
    rw [List.foldl_cons, step]
    obtain ⟨told, faults⟩ := ih (v.broadcast Enables.integrity (.uncorrectable (wordAddr l w)))
      (by rw [frame, hv]; exact ht) (by rw [frame, hv]; exact hthr) (by rw [frame, hv]; exact hst)
    refine ⟨check s { s.checks with uncorrectable := countUp top32 s.checks.uncorrectable } _ _ ?_, faults⟩
    rw [← hv]
    exact lost v w ns _ told
  | mended w d xs t m u rose ns hm h ih =>
    subst ht hthr hst
    obtain ⟨c, hc, step⟩ := countWord_mended (w := w) (d := d) hm
    rw [List.foldl_cons, step]
    by_cases hr : rose = some s.settings.faultThreshold
    · rw [if_pos hr, if_pos hr]
      have frame := (JobMove.advise (s.setChecks c) (lineBank l) (lineRow l)).frame
      obtain ⟨rest, faults⟩ := ih ((s.setChecks c).advise (lineBank l) (lineRow l)) (by rw [checks_advise]; exact hc) (by rw [frame]; rfl)
        (by rw [frame]; rfl)
      exact ⟨check s c _ _ (advised _ _ _ rest), faults⟩
    · rw [if_neg hr, if_neg hr]
      obtain ⟨rest, faults⟩ := ih (s.setChecks c) hc rfl rfl
      exact ⟨check s c _ _ rest, faults⟩

/-! ## The notices -/

section

variable {s : State} {l : LineId} {f : Table 16 (Option FaultEntry)} {ns : List Notice} {os : List WordOutcome}

/-- With a current job an automatic one tells no port. -/
theorem autoJob_busy {c : CurrentJob} (hc : s.currentJob = some c) (b : BankId) (row : RowId) :
    (s.autoJob b row).notices = s.notices ∧ (s.autoJob b row).links = s.links ∧ (s.autoJob b row).currentJob ≠ none := by
  by_cases hm : ∃ j ∈ s.repairQueue, j.bank = b ∧ j.row = row
  · rw [autoJob_merges hm, hc]; exact ⟨rfl, rfl, nofun⟩
  have hn : ∀ j ∈ s.repairQueue, ¬ (j.bank = b ∧ j.row = row) := fun j hj e => hm ⟨j, hj, e⟩
  by_cases ht : c.job.bank = b ∧ c.job.row = row
  · rw [autoJob_joins hn hc ht, hc]; exact ⟨rfl, rfl, nofun⟩
  by_cases hl : s.repairQueue.length < 4
  · rw [autoJob_queues hn hc ht hl, quietBreak_frame]
    exact ⟨rfl, rfl, fun e => by rw [show s.currentJob = none from e] at hc; cases hc⟩
  · rw [autoJob_drops hn hc ht (Nat.not_lt.mp hl), hc]; exact ⟨rfl, rfl, nofun⟩

theorem told_congr {t : State} {w : Enables → Bool} {q : Port} (hq : t.noticeQ q = s.noticeQ q) (ho : t.online q = s.online q)
    (ns : List Notice) : t.told w ns q = s.told w ns q := by
  unfold State.told
  rw [hq, ho]

/-- The fault list and, where no job starts, the notices of a row reader's line. -/
theorem readNoted_countLine (h : ReadNoted l s.settings.faultThreshold s.stampCounter (numbered os) s.checks.faults f ns) :
    (s.countLine .rowReader l os).checks.faults = f ∧
      (s.settings.autoRepair ≠ 1 ∨ s.currentJob ≠ none → ∀ q, (s.countLine .rowReader l os).noticeQ q = s.told Enables.integrity ns q) := by
  have words := rel_readNoted (P := fun s ns u => s.settings.autoRepair ≠ 1 ∨ s.currentJob ≠ none → ∀ q,
      u.noticeQ q = s.told Enables.integrity ns q)
    (fun s _ q => (told_nil ..).symm) (fun s c ns u h => h)
    (fun s w ns u h hs q => ?_) (fun s ns u h hs q => ?_) h s rfl rfl rfl
  · exact ⟨words.2, words.1⟩
  · have frame := broadcast_frame s Enables.integrity (.uncorrectable (wordAddr l w))
    refine (h (by rw [frame]; exact hs) q).trans (told_cons (noticeQ_broadcast ..) ?_ ns)
    rw [frame]; rfl
  · obtain ⟨v, hv⟩ : ∃ v, v = s.broadcast Enables.integrity (.repairAdvised (lineBank l) (lineRow l)) := ⟨_, rfl⟩
    have frame := broadcast_frame s Enables.integrity (.repairAdvised (lineBank l) (lineRow l))
    rw [← hv] at frame
    have first : v.told Enables.integrity ns q = s.told Enables.integrity (.repairAdvised (lineBank l) (lineRow l) :: ns) q :=
      told_cons (hv ▸ noticeQ_broadcast ..) (by rw [frame]; rfl) ns
    by_cases ha : s.settings.autoRepair = 1
    · obtain ⟨c, hc⟩ := Option.ne_none_iff_exists'.mp (hs.resolve_left fun e => e ha)
      obtain ⟨notices, links, busy⟩ := autoJob_busy (s := v) (c := c) (by rw [frame]; exact hc) (lineBank l) (lineRow l)
      rw [advise_on ha, ← hv] at h
      refine (h (.inr busy) q).trans ((told_congr ?_ ?_ ns).trans first)
      · unfold State.noticeQ; rw [notices]
      · unfold State.online State.link; rw [links]
    · rw [advise_off ha, ← hv] at h
      exact (h (.inl (by rw [frame]; exact ha)) q).trans first

/-! ## The jobs -/

theorem JobsKept.of_checksOnly {s t : State} {b : BankId} {row : RowId} (h : ChecksOnly s t) (hf : RowFirst s b row) : JobsKept s t b row := by
  rw [h]
  exact ⟨hf, fun _ => rfl, rfl, rfl, rfl, fun _ => rfl, id, fun _ => ⟨rfl, rfl⟩, rfl⟩

theorem JobAdvised.since_checks {s t u : State} {b : BankId} {row : RowId} (h : ChecksOnly s t) (k : JobAdvised t u b row) :
    JobAdvised s u b row := by
  rw [h] at k
  refine ⟨k.queued, k.behind, fun hc hq ho => ?_⟩
  obtain ⟨queue, runs, drops, ended⟩ := k.starts hc hq ho
  exact ⟨queue, runs, drops, fun hs => ⟨(ended hs).1.since rfl rfl, (ended hs).2⟩⟩

theorem JobAdvised.then_checks {s t u : State} {b : BankId} {row : RowId} (k : JobAdvised s t b row) (h : ChecksOnly t u) :
    JobAdvised s u b row := by
  rw [h]
  refine ⟨k.queued, k.behind, fun hc hq ho => ?_⟩
  obtain ⟨queue, runs, drops, ended⟩ := k.starts hc hq ho
  exact ⟨queue, runs, drops, fun hs => ⟨(ended hs).1.of_scrub rfl, (ended hs).2⟩⟩

/-- Without an advice the jobs stay. -/
theorem checksOnly_countLine (h : ReadNoted l s.settings.faultThreshold s.stampCounter (numbered os) s.checks.faults f ns)
    (hn : .repairAdvised (lineBank l) (lineRow l) ∉ ns) : ChecksOnly s (s.countLine .rowReader l os) :=
  (rel_readNoted (P := fun s ns u => .repairAdvised (lineBank l) (lineRow l) ∉ ns → ChecksOnly s u) (fun _ _ => rfl)
    (fun s c _ _ h hn => ChecksOnly.trans (t := s.setChecks c) rfl (h hn))
    (fun s w _ _ h hn => (ChecksOnly.broadcast s (.uncorrectable (wordAddr l w))).trans (h fun e => hn (List.mem_cons_of_mem _ e)))
    (fun _ _ _ _ hn => absurd List.mem_cons_self hn) h s rfl rfl rfl).1 hn

/-- What no number of words does to the jobs, where none waits but behind the current one or for the row itself. -/
theorem jobsKept_countLine (hf : RowFirst s (lineBank l) (lineRow l)) :
    JobsKept s (s.countLine .rowReader l os) (lineBank l) (lineRow l) :=
  rel_countWords (R := fun s t => RowFirst s (lineBank l) (lineRow l) → JobsKept s t (lineBank l) (lineRow l)) (fun _ hf => .refl hf)
    (fun h k hf => (h hf).trans (k (h hf).first)) (fun _ _ hf => .of_checksOnly rfl hf)
    (fun s n hf => .of_checksOnly (.broadcast s n) hf) _ (fun _ _ _ _ hf => (autoJob_advised hf).1) s hf

/-- What one advice at least does. -/
theorem jobAdvised_countLine (h : ReadNoted l s.settings.faultThreshold s.stampCounter (numbered os) s.checks.faults f ns)
    (ha : s.settings.autoRepair = 1) (hf : RowFirst s (lineBank l) (lineRow l)) (hn : .repairAdvised (lineBank l) (lineRow l) ∈ ns) :
    JobAdvised s (s.countLine .rowReader l os) (lineBank l) (lineRow l) := by
  have line := (rel_readNoted (P := fun s ns u => s.settings.autoRepair = 1 → RowFirst s (lineBank l) (lineRow l) →
      JobsKept s u (lineBank l) (lineRow l) ∧ (.repairAdvised (lineBank l) (lineRow l) ∉ ns → ChecksOnly s u) ∧
        (.repairAdvised (lineBank l) (lineRow l) ∈ ns → JobAdvised s u (lineBank l) (lineRow l)))
    (fun s _ hf => ⟨.refl hf, fun _ => rfl, nofun⟩) (fun s c ns u h ha hf => ?_)
    (fun s w ns u h ha hf => ?_) (fun s ns u h ha hf => ?_) h s rfl rfl rfl).1 ha hf
  · exact line.2.2 hn
  · obtain ⟨kept, none, some⟩ := h ha hf
    have first : ChecksOnly s (s.setChecks c) := rfl
    exact ⟨(JobsKept.of_checksOnly first hf).trans kept, fun hn => first.trans (none hn), fun hn => (some hn).since_checks first⟩
  · have told := ChecksOnly.broadcast s (.uncorrectable (wordAddr l w))
    obtain ⟨kept, none, some⟩ := h (by rw [told]; exact ha) (by rw [told]; exact hf)
    exact ⟨(JobsKept.of_checksOnly told hf).trans kept, fun hn => told.trans (none fun e => hn (List.mem_cons_of_mem _ e)),
      fun hn => (some ((List.mem_cons.mp hn).resolve_left nofun)).since_checks told⟩
  · have told := ChecksOnly.broadcast s (.repairAdvised (lineBank l) (lineRow l))
    obtain ⟨v, hv⟩ : ∃ v, v = s.broadcast Enables.integrity (.repairAdvised (lineBank l) (lineRow l)) := ⟨_, rfl⟩
    rw [advise_on ha, ← hv] at h
    rw [← hv] at told
    have hfv : RowFirst v (lineBank l) (lineRow l) := by rw [told]; exact hf
    obtain ⟨kept, adv⟩ := autoJob_advised hfv
    obtain ⟨rest, none, some⟩ := h (by rw [(jobYields_autoJob ..).settings, told]; exact ha) kept.first
    have first := (JobsKept.of_checksOnly told hf).trans kept
    refine ⟨first.trans rest, fun hn => absurd List.mem_cons_self hn, fun _ => ?_⟩
    have mine := adv.since_checks told
    by_cases hn : .repairAdvised (lineBank l) (lineRow l) ∈ ns
    · exact mine.trans first rest (some hn)
    · exact mine.then_checks (none hn)

/-- Where no job can start but behind the current one the records stay. -/
theorem queues_countLine {m : Memory} {k base : Nat} (h : NoJobBehind s (m.readLine k base)) :
    (s.countLine .rowReader l (m.readLine k base)).queues = s.queues ∧
      (s.countLine .rowReader l (m.readLine k base)).detached = s.detached := by
  have only : ∀ {t : State}, ChecksOnly s t → t.queues = s.queues ∧ t.detached = s.detached := fun e => by rw [e]; exact ⟨rfl, rfl⟩
  rcases h with h | h | h
  · exact only (countWords_off _ _ _ h)
  · exact only (countWords_fine _ (.inr (not_isCorrected_of_zero h)) _)
  · have kept := jobsKept_countLine (os := m.readLine k base) (l := l) (s := s) fun hc => .inl (h hc)
    exact ⟨kept.queues, kept.detached⟩

end

/-! ## Reads with one word CORRECTED, or none -/

section

variable {l : LineId} {thr : Nat} {st : Stamp} {t f : Table 16 (Option FaultEntry)} {xs : List (WordIx × WordOutcome)} {ns : List Notice}

theorem isCorrected_of_advised (h : ReadNoted l thr st xs t f ns) (hn : .repairAdvised (lineBank l) (lineRow l) ∈ ns) :
    ∃ x ∈ xs, x.2.isCorrected = true := by
  induction h with
  | done => cases hn
  | fine w o xs t u ns ho h ih =>
    obtain ⟨x, hx, hc⟩ := ih hn
    exact ⟨x, List.mem_cons_of_mem _ hx, hc⟩
  | lost w xs t u ns h ih =>
    obtain ⟨x, hx, hc⟩ := ih ((List.mem_cons.mp hn).resolve_left nofun)
    exact ⟨x, List.mem_cons_of_mem _ hx, hc⟩
  | mended w d xs t m u rose ns hm h ih => exact ⟨_, List.mem_cons_self, rfl⟩

theorem readNoted_none (h : (xs.filter (fun x => x.2.isCorrected)).length = 0) : ∃ ns, ReadNoted l thr st xs t t ns := by
  induction xs with
  | nil => exact ⟨[], .done t⟩
  | cons x xs ih =>
    obtain ⟨w, o⟩ := x
    cases o with
    | clean d =>
      obtain ⟨ns, hns⟩ := ih h
      exact ⟨ns, .fine w _ _ _ _ _ (.inl ⟨d, rfl⟩) hns⟩
    | poisoned =>
      obtain ⟨ns, hns⟩ := ih h
      exact ⟨ns, .fine w _ _ _ _ _ (.inr rfl) hns⟩
    | uncorrectable =>
      obtain ⟨ns, hns⟩ := ih h
      exact ⟨_, .lost w _ _ _ _ hns⟩
    | corrected d => cases h

/-- The one CORRECTED word of a line that brings its row to the threshold is advised. -/
theorem readNoted_one (h : (xs.filter (fun x => x.2.isCorrected)).length = 1)
    (hf : FaultNoted t (lineBank l) (lineRow l) st f (some thr)) :
    ∃ ns, ReadNoted l thr st xs t f ns ∧ .repairAdvised (lineBank l) (lineRow l) ∈ ns := by
  induction xs with
  | nil => cases h
  | cons x xs ih =>
    obtain ⟨w, o⟩ := x
    cases o with
    | clean d =>
      obtain ⟨ns, hns, hn⟩ := ih h
      exact ⟨ns, .fine w _ _ _ _ _ (.inl ⟨d, rfl⟩) hns, hn⟩
    | poisoned =>
      obtain ⟨ns, hns, hn⟩ := ih h
      exact ⟨ns, .fine w _ _ _ _ _ (.inr rfl) hns, hn⟩
    | uncorrectable =>
      obtain ⟨ns, hns, hn⟩ := ih h
      exact ⟨_, .lost w _ _ _ _ hns, List.mem_cons_of_mem _ hn⟩
    | corrected d =>
      obtain ⟨ns, hns⟩ := readNoted_none (l := l) (thr := thr) (st := st) (t := f) (Nat.succ.inj h)
      refine ⟨_, .mended w d _ _ _ _ _ _ hf hns, ?_⟩
      rw [if_pos rfl]
      exact List.mem_cons_self

end

end Sys2Proof.Machine
end

section
/-! PROOFS. A record's end, by its parts: the record itself, and the region that it leaves, whose drain may end (R50, R52, R90, R96). -/

namespace Sys2Proof.Machine

/-! ## Leaving a region -/

/-- Records leave regions between `s` and `t`: only REGION_SETs that waited for a drain change, to DONE. -/
structure RegionLeft (s t : State) : Prop where
  frame : t = { s with queues := t.queues, detached := t.detached, regions := t.regions, watches := t.watches, notices := t.notices }
  queue : ∀ p, ∃ f : Record → Record, t.queue p = (s.queue p).map f ∧
    ∀ q ∈ s.queue p, f q = q ∨ f q = q.finished s.now ⟨.ok, .none⟩ ∧ ∃ y ∈ s.records, y.stamp = q.stamp ∧ ∃ g, DrainsFor g y
  detached : ∃ f : Record → Record, t.detached = s.detached.map f ∧
    ∀ q, f q = q ∨ f q = q.finished s.now ⟨.ok, .none⟩

section

variable {s t : State} {r : Record} {res : Result}

theorem RegionLeft.of_eq (h : t = { s with regions := t.regions, watches := t.watches, notices := t.notices }) : RegionLeft s t := by
  rw [h]
  exact ⟨rfl, fun p => ⟨id, (List.map_id _).symm, fun _ _ => .inl rfl⟩, ⟨id, (List.map_id _).symm, fun _ => .inl rfl⟩⟩

theorem regionLeft_endDrain (s : State) (g : RegionIx) : RegionLeft s (s.endDrain g) := by
  unfold State.endDrain
  split
  · exact .of_eq rfl
  · rename_i x _
    obtain ⟨u, hu⟩ : ∃ u, u = s.takeEffect g x := ⟨_, rfl⟩
    have frame := takeEffect_frame s g x
    rw [← hu] at frame
    dsimp only
    rw [← hu]
    split
    · rename_i y hy
      have drains := drains_iff.mp (List.find?_some hy)
      have hm := List.mem_of_find?_eq_some hy
      rw [frame] at hm
      have finished : ∀ q : Record, (if q.stamp = y.stamp then q.finished u.now ⟨.ok, .none⟩ else q) = q ∨
          (if q.stamp = y.stamp then q.finished u.now ⟨.ok, .none⟩ else q) = q.finished s.now ⟨.ok, .none⟩ ∧
            y.stamp = q.stamp := fun q => by
        by_cases hq : q.stamp = y.stamp
        · rw [if_pos hq, frame]; exact .inr ⟨rfl, hq.symm⟩
        · rw [if_neg hq]; exact .inl rfl
      refine ⟨?_, fun p => ⟨_, ?_, fun q _ => (finished q).imp id fun e => ⟨e.1, y, hm, e.2, g, drains⟩⟩,
        ⟨_, ?_, fun q => (finished q).imp id And.left⟩⟩
      · unfold State.finishControl State.modRecord State.mapRecords
        rw [frame]
      · have queue : u.queue p = s.queue p := by rw [frame]; rfl
        rw [← queue]
        exact PerPort.get_map ..
      · have detached : u.detached = s.detached := by rw [frame]
        rw [← detached]
        rfl
    · refine .of_eq ?_
      rw [frame]

theorem RegionLeft.since {u : State} (h : RegionLeft t u) (k : t = { s with regions := t.regions }) : RegionLeft s u := by
  rw [k] at h
  exact ⟨h.frame, h.queue, h.detached⟩

theorem regionLeft_leaveRegionOf (s : State) (r : Record) : RegionLeft s (s.leaveRegionOf r) := by
  unfold State.leaveRegionOf
  split
  · unfold State.leaveRegion
    dsimp only
    split
    · exact (regionLeft_endDrain _ _).since rfl
    · exact .of_eq rfl
  · exact .of_eq rfl

/-- A record whose stamp names no REGION_SET stays. -/
theorem RegionLeft.mem (h : RegionLeft s t) {p : Port} {x : Record} (hx : x ∈ s.queue p)
    (hn : ∀ y ∈ s.records, y.stamp = x.stamp → y.op.span.isSome = true) : x ∈ t.queue p := by
  obtain ⟨f, hf, hq⟩ := h.queue p
  rw [hf]
  refine List.mem_map.mpr ⟨x, hx, (hq x hx).resolve_right ?_⟩
  rintro ⟨-, y, hy, hs, g, -, ps, hps, -⟩
  have lines := hn y hy hs
  rw [hps] at lines
  cases lines

/-! ## The record itself -/

/-- What a record's end does to the records before the record leaves its region. -/
structure RecordEnded (s w : State) (r : Record) (res : Result) : Prop where
  frame : w = { s with queues := w.queues, detached := w.detached, notices := w.notices }
  answered : s.queued r = true → r.posted = false → w = s.modRecord r.stamp (fun q => q.finished s.now res)
  taken : s.queued r = true → r.posted = true → ∀ p, w.queue p =
    if p = r.port then (s.queue p).filter (fun q => decide (q.stamp ≠ r.stamp)) else s.queue p
  dropped : s.queued r = false → w = { s with detached := s.detached.filter (fun q => decide (q.stamp ≠ r.stamp)) }

theorem finishMemory_ended (s : State) (r : Record) (res : Result) :
    ∃ w, s.finishMemory r res = w.leaveRegionOf r ∧ RecordEnded s w r res := by
  have queue : ∀ p, (s.dropRecord r.port r.stamp).queue p =
      if p = r.port then (s.queue p).filter (fun q => decide (q.stamp ≠ r.stamp)) else s.queue p := fun p => by
    unfold State.dropRecord
    by_cases hp : p = r.port
    · rw [if_pos hp, hp, State.queue_setQueue_self]
    · rw [if_neg hp, State.queue_setQueue_of_ne _ hp]
  unfold State.finishMemory
  by_cases hq : s.queued r = true
  · rw [if_pos hq]
    by_cases hp : r.posted = true
    · rw [if_pos hp]
      refine ⟨_, rfl, ?_, fun _ h => absurd (hp.symm.trans h) nofun, fun _ _ p => ?_, fun h => absurd (hq.symm.trans h) nofun⟩
      · split
        · rfl
        · rw [placeNotice_frame]; rfl
      · rw [← queue p]
        split
        · rfl
        · rw [State.queue, placeNotice_frame]; rfl
    · rw [if_neg hp]
      exact ⟨_, rfl, rfl, fun _ _ => rfl, fun _ h => absurd h hp, fun h => absurd (hq.symm.trans h) nofun⟩
  · rw [if_neg hq]
    exact ⟨_, rfl, rfl, fun h => absurd h hq, fun h => absurd h hq, fun _ => rfl⟩

theorem finishMemory_frame (s : State) (r : Record) (res : Result) : s.finishMemory r res = { s with
    queues := (s.finishMemory r res).queues, detached := (s.finishMemory r res).detached, notices := (s.finishMemory r res).notices
    regions := (s.finishMemory r res).regions, watches := (s.finishMemory r res).watches } := by
  obtain ⟨w, hw, ended⟩ := finishMemory_ended s r res
  rw [hw, (regionLeft_leaveRegionOf w r).frame, ended.frame]

/-- A record that its queue holds and that awaits a response is DONE. -/
theorem finishMemory_done {x : Record} (hx : x ∈ s.queue r.port) (hs : x.stamp = r.stamp) (hp : r.posted = false)
    (hn : ∀ y ∈ s.records, y.stamp = r.stamp → y.op.span.isSome = true) :
    x.finished s.now res ∈ (s.finishMemory r res).queue r.port := by
  obtain ⟨w, hw, ended⟩ := finishMemory_ended s r res
  have queued : s.queued r = true := List.any_eq_true.mpr ⟨x, hx, decide_eq_true hs⟩
  have mod := ended.answered queued hp
  have queue : ∀ p, w.queue p = (s.queue p).map (fun q => if q.stamp = r.stamp then q.finished s.now res else q) := fun p => by
    rw [mod]; exact PerPort.get_map ..
  rw [hw]
  refine (regionLeft_leaveRegionOf w r).mem ?_ fun y hy hys => ?_
  · rw [queue]
    exact List.mem_map.mpr ⟨x, hx, if_pos hs⟩
  · by_cases he : y.stamp = r.stamp
    · obtain ⟨z, hz, hzs, ho⟩ := (mod ▸ changesOnly_modRecord s r.stamp (fun _ => rfl) (fun _ => rfl) : ChangesOnly s w r.stamp).ops y hy he
      rw [ho]
      exact hn z hz hzs
    · exact absurd (hys.trans hs) he

/-- A posted record leaves its queue. -/
theorem finishMemory_taken (hq : s.queued r = true) (hp : r.posted = true) :
    ∀ q ∈ (s.finishMemory r res).queue r.port, q.stamp ≠ r.stamp := by
  obtain ⟨w, hw, ended⟩ := finishMemory_ended s r res
  have queue := ended.taken hq hp r.port
  rw [if_pos rfl] at queue
  obtain ⟨f, hf, keeps⟩ := (regionLeft_leaveRegionOf w r).queue r.port
  rw [hw, hf]
  intro q hm
  obtain ⟨x, hx, rfl⟩ := List.mem_map.mp hm
  have off : x.stamp ≠ r.stamp := by
    rw [queue] at hx
    exact of_decide_eq_true (List.mem_filter.mp hx).2
  rcases keeps x hx with e | ⟨e, -⟩ <;> rw [e] <;> exact off

/-- A detached record ends. -/
theorem finishMemory_detached (hq : s.queued r = false) : ∀ x ∈ (s.finishMemory r res).detached, x.stamp ≠ r.stamp := by
  obtain ⟨w, hw, ended⟩ := finishMemory_ended s r res
  have gone := ended.dropped hq
  obtain ⟨f, hf, keeps⟩ := (regionLeft_leaveRegionOf w r).detached
  rw [hw, hf]
  intro q hm
  obtain ⟨x, hx, rfl⟩ := List.mem_map.mp hm
  have off : x.stamp ≠ r.stamp := by
    rw [gone] at hx
    exact of_decide_eq_true (List.mem_filter.mp hx).2
  rcases keeps x with e | e <;> rw [e] <;> exact off

/-- The region counts one record less, whether its drain ends or not. -/
theorem finishMemory_inFlight {g : RegionIx} (hg : r.region = some g) :
    ((s.finishMemory r res).region g).inFlight = (s.region g).inFlight - 1 := by
  obtain ⟨w, hw, ended⟩ := finishMemory_ended s r res
  have same : w.region g = s.region g := by rw [State.region, ended.frame]; rfl
  have left := leftRegion w r
  rw [hw, ← same]
  by_cases h : ∃ g x, EndsDrain w r g x
  · obtain ⟨k, x, hx⟩ := h
    obtain rfl := Option.some.inj (hx.counted.symm.trans hg)
    have force := (left.force k x hx).1
    rw [show (w.leaveRegionOf r).region k = _ from force]
    have last := hx.last
    show 0 = _
    omega
  · rw [left.count g hg fun x hx => h ⟨g, x, hx⟩]

/-- A record that awaits a response tells no port, and without a drain that ends no watch goes. -/
theorem finishMemory_calm (hp : r.posted = false) (hd : ∀ g x, ¬ EndsDrain s r g x) :
    (s.finishMemory r res).watches = s.watches ∧ ∀ q, (s.finishMemory r res).noticeQ q = s.noticeQ q := by
  obtain ⟨w, hw, ended⟩ := finishMemory_ended s r res
  have rest : w.regions = s.regions ∧ w.watches = s.watches ∧ w.notices = s.notices := by
    by_cases hq : s.queued r = true
    · rw [ended.answered hq hp]; exact ⟨rfl, rfl, rfl⟩
    · rw [ended.dropped (Bool.eq_false_iff.mpr hq)]; exact ⟨rfl, rfl, rfl⟩
  obtain ⟨regions, watches, notices⟩ := rest
  have same : ∀ g, w.region g = s.region g := fun g => by unfold State.region; rw [regions]
  obtain ⟨calm, told⟩ := (leftRegion w r).calm fun g x h =>
    hd g x ⟨h.counted, same g ▸ h.draining, same g ▸ h.last, same g ▸ h.pending⟩
  rw [hw]
  exact ⟨calm.trans watches, fun q => (told q).trans (by unfold State.noticeQ; rw [notices])⟩

end

end Sys2Proof.Machine
end

section
/-! PROOFS. A READ_LINE for a request record: what it does to the path, the bank, the stored line, the counts and the record
(R10, R11, R39, R56, R59, R70, R115). -/

namespace Sys2Proof.Machine

/-! ## The read in three steps -/

/-- A request's read with its counts, before its record goes on. -/
def State.readCounted (s : State) (r : Record) (l : LineId) : State := (s.readTaken r l).countLine .rowReader l (s.outcomes l)

/-- The record as the read leaves it, but for its end. -/
def State.readRecord (s : State) (r : Record) (l : LineId) : Record := r.issued [checkedWords (s.outcomes l)] 1

/-- A request's read before the blocks are evaluated anew. -/
def State.readEnded (s : State) (r : Record) (l : LineId) : State :=
  (s.readCounted r l).afterRead (s.readRecord r l) l (checkedWords (s.outcomes l))

theorem requestRead_eq (s : State) (r : Record) (l : LineId) : s.requestRead r l = (s.readEnded r l).settle := rfl

theorem outcomes_eq (s : State) (l : LineId) : s.outcomes l = s.mem.readLine s.freeCount (s.openLine l) := rfl

/-! ## The record goes on -/

section

variable {s : State} {r : Record} {l : LineId} {ws : List CheckedWord}

theorem afterRead_watch {a : Addr} (h : r.op = .watch a) :
    s.afterRead r l ws = (s.armWatch r.port l).finishMemory r (watchResult (s.watchPlace r.port l) (wordAt ws a)) := by
  unfold State.afterRead; rw [h]

theorem afterRead_last {a : Addr} {n : Nat} (h : r.op = .read a n) (hn : n ≤ r.linesDone) :
    s.afterRead r l ws = s.finishMemory r (readResult r.readLines) := by
  unfold State.afterRead; rw [h]
  exact if_neg (Nat.not_lt.mpr hn)

theorem afterRead_more {a : Addr} {n : Nat} (h : r.op = .read a n) (hn : r.linesDone < n) : s.afterRead r l ws = s := by
  unfold State.afterRead; rw [h]
  exact if_pos hn

theorem afterRead_merge {a : Addr} {mask : List Byte} {data : List Word} (h : r.op = .writePart a mask data) : s.afterRead r l ws = s := by
  unfold State.afterRead; rw [h]

/-- An atomic at the addressed word `old`. -/
theorem afterRead_atomic {a : Addr} (h : (∃ x, r.op = .fetchAdd a x) ∨ (∃ x, r.op = .swap a x) ∨ (∃ c x, r.op = .compareSwap a c x)) :
    s.afterRead r l ws =
      if (r.op.newWord (wordAt ws a)).isSome then s else s.finishMemory r (r.op.atomicResult (wordAt ws a)) := by
  unfold State.afterRead
  rcases h with ⟨x, h⟩ | ⟨x, h⟩ | ⟨c, x, h⟩ <;> rw [h]

theorem armWatch_frame (s : State) (p : Port) (l : LineId) : s.armWatch p l = { s with watches := (s.armWatch p l).watches } := by
  unfold State.armWatch
  split <;> rfl

/-- What the record's going on leaves as it is. -/
theorem afterRead_frame (s : State) (r : Record) (l : LineId) (ws : List CheckedWord) : s.afterRead r l ws = { s with
    queues := (s.afterRead r l ws).queues, detached := (s.afterRead r l ws).detached, notices := (s.afterRead r l ws).notices
    regions := (s.afterRead r l ws).regions, watches := (s.afterRead r l ws).watches } := by
  have done := finishMemory_frame s r
  unfold State.afterRead
  split
  · split
    · rfl
    · exact done _
  · rw [finishMemory_frame, armWatch_frame]
  · split
    · rfl
    · exact done _
  · split
    · rfl
    · exact done _
  · split
    · rfl
    · exact done _
  · rfl

/-- The record stands, or ends in a state with the watch armed or as it was. -/
theorem afterRead_cases (s : State) (r : Record) (l : LineId) (ws : List CheckedWord) :
    s.afterRead r l ws = s ∨ ∃ (w : State) (res : Result), w = { s with watches := w.watches } ∧ s.afterRead r l ws = w.finishMemory r res := by
  have ends : ∀ res, ∃ (w : State) (res' : Result), w = { s with watches := w.watches } ∧ s.finishMemory r res = w.finishMemory r res' :=
    fun res => ⟨s, res, rfl, rfl⟩
  unfold State.afterRead
  split
  · split
    · exact .inl rfl
    · exact .inr (ends _)
  · exact .inr ⟨_, _, armWatch_frame .., rfl⟩
  · split
    · exact .inl rfl
    · exact .inr (ends _)
  · split
    · exact .inl rfl
    · exact .inr (ends _)
  · split
    · exact .inl rfl
    · exact .inr (ends _)
  · exact .inl rfl

/-- A record that is not posted tells no port of its own end; where no drain ends none is told at all. -/
theorem afterRead_calm (hp : r.posted = false) (hd : ∀ g x, ¬ EndsDrain s r g x) (q : Port) :
    (s.afterRead r l ws).noticeQ q = s.noticeQ q := by
  rcases afterRead_cases s r l ws with h | ⟨w, res, hw, h⟩ <;> rw [h]
  have same : ∀ g, w.region g = s.region g := fun g => by rw [hw]; rfl
  refine ((finishMemory_calm hp fun g x h => hd g x ?_).2 q).trans (by rw [hw]; rfl)
  exact ⟨h.counted, same g ▸ h.draining, same g ▸ h.last, same g ▸ h.pending⟩

/-! ## Holds -/

theorem takeHold_atomic {a : Addr} (h : (∃ x, r.op = .fetchAdd a x) ∨ (∃ x, r.op = .swap a x) ∨ (∃ c x, r.op = .compareSwap a c x)) :
    s.takeHold r l ws =
      if (r.op.newWord (wordAt ws a)).isSome then s.setHolds (s.holds ++ [{ line := l, holder := r.holder }]) else s := by
  unfold State.takeHold
  rcases h with ⟨x, h⟩ | ⟨x, h⟩ | ⟨c, x, h⟩ <;> rw [h]

theorem readTaken_holds_atomic {a : Addr}
    (h : (∃ x, r.op = .fetchAdd a x) ∨ (∃ x, r.op = .swap a x) ∨ (∃ c x, r.op = .compareSwap a c x)) :
    (s.readTaken r l).holds = if (r.op.newWord (wordAt (checkedWords (s.outcomes l)) a)).isSome
      then s.holds ++ [{ line := l, holder := r.holder }] else s.holds := by
  unfold State.readTaken
  rw [takeHold_atomic h]
  split <;> rfl

theorem readTaken_holds_other (h : r.op.isAtomic = false) : (s.readTaken r l).holds = s.holds :=
  (readTaken_holds s r l).resolve_right fun e => absurd (h.symm.trans e.1) nofun

end

/-! ## The read, but for the record's end -/

section

variable {s : State} {r : Record} {l : LineId}

theorem bank_readTaken (s : State) (r : Record) (l : LineId) :
    (s.readTaken r l).bank (lineBank l) = (s.bank (lineBank l)).requestAccess s.now true r := by
  rw [State.bank, readTaken_eq]
  exact Table.get_set_self ..

/-- What the read changes of the rest. -/
structure ReadRest (s t : State) : Prop where
  checks : t.checks = s.checks
  scrub : t.scrub = s.scrub
  repairQueue : t.repairQueue = s.repairQueue
  currentJob : t.currentJob = s.currentJob
  remap : t.remap = s.remap
  settings : t.settings = s.settings
  stamps : t.stampCounter = s.stampCounter
  notices : t.notices = s.notices
  links : t.links = s.links
  regions : t.regions = s.regions
  watches : t.watches = s.watches
  now : t.now = s.now
  quiet : t.quiet = s.quiet

theorem readTaken_rest (s : State) (r : Record) (l : LineId) : ReadRest s (s.readTaken r l) := by
  rw [readTaken_eq]
  exact ⟨rfl, rfl, rfl, rfl, rfl, rfl, rfl, rfl, rfl, rfl, rfl, rfl, rfl⟩

theorem control_readEnded (s : State) (r : Record) (l : LineId) : Control (s.readTaken r l) (s.readEnded r l) :=
  (control_countLine ..).trans (control_afterRead ..)

theorem mem_readEnded : (s.readEnded r l).mem = s.mem.writeBack (s.openLine l) (numbered (s.outcomes l)) :=
  (control_readEnded s r l).mem.trans (readTaken_mem ..)

theorem pathBusy_readEnded : (s.readEnded r l).pathBusy = some (s.now + 5) := by
  rw [(control_readEnded s r l).pathBusy, readTaken_eq]
  rfl

theorem lastRead_requestAccess (x : Bank) (now : Instant) (r : Record) : (x.requestAccess now true r).lastRead = some now := by
  unfold Bank.requestAccess Bank.startRecord
  split
  · split <;> rfl
  · rfl

theorem lastRead_readEnded : ((s.readEnded r l).bank (lineBank l)).lastRead = some s.now := by
  have core := congrArg Bank.lastRead ((control_readEnded s r l).bank (lineBank l))
  rw [bank_readTaken] at core
  exact core.trans (lastRead_requestAccess ..)

/-- A line access reaches its bank's streak and idle timer as R10 and R11 say. -/
theorem requestAccess_reaches {u : State} {isRead : Bool}
    (hc : (u.bank (lineBank l)).core = ((s.bank (lineBank l)).requestAccess s.now isRead r).core)
    (hi : (u.bank (lineBank l)).idle = ((s.bank (lineBank l)).requestAccess s.now isRead r).idle ∨ (u.bank (lineBank l)).idle = .stopped) :
    RequestReaches s u (lineBank l) r := by
  have streak := congrArg Bank.streak hc
  have first := congrArg Bank.firstStart hc
  change (u.bank (lineBank l)).streak = ((s.bank (lineBank l)).requestAccess s.now isRead r).streak at streak
  change (u.bank (lineBank l)).firstStart = ((s.bank (lineBank l)).requestAccess s.now isRead r).firstStart at first
  refine ⟨streak.trans ?_, first.trans ?_, fun h => hi.elim (fun e => e.trans ?_) id⟩
  all_goals unfold Bank.requestAccess Bank.startRecord Record.isReady
  · by_cases hr : r.state = .ready
    · by_cases hs : (s.bank (lineBank l)).firstStart = true
      · simp [hr, hs, Bank.issueAccess, countUp]
      · simp [hr, hs, Bank.issueAccess]
    · simp [hr, Bank.issueAccess]
  · by_cases hr : r.state = .ready
    · by_cases hs : (s.bank (lineBank l)).firstStart = true
      · simp [hr, hs, Bank.issueAccess]
      · simp [hr, hs, Bank.issueAccess]
    · simp [hr, Bank.issueAccess]
  · split
    · split <;> exact if_pos ⟨rfl, h⟩
    · exact if_pos ⟨rfl, h⟩

/-- The registers that the record's end leaves. -/
theorem readEnded_registers (s : State) (r : Record) (l : LineId) :
    (s.readEnded r l).banks = (s.readCounted r l).banks ∧ (s.readEnded r l).checks = (s.readCounted r l).checks ∧
    (s.readEnded r l).holds = (s.readCounted r l).holds ∧ (s.readEnded r l).scrub = (s.readCounted r l).scrub ∧
    (s.readEnded r l).repairQueue = (s.readCounted r l).repairQueue ∧ (s.readEnded r l).currentJob = (s.readCounted r l).currentJob := by
  unfold State.readEnded
  rw [afterRead_frame]
  exact ⟨rfl, rfl, rfl, rfl, rfl, rfl⟩

theorem requestReaches_readEnded : RequestReaches s (s.readEnded r l) (lineBank l) r := by
  have core := (control_readEnded s r l).bank (lineBank l)
  have idle := (yields_countLine (s.readTaken r l) .rowReader l (s.outcomes l)).idle (lineBank l)
  have banks : (s.readEnded r l).bank (lineBank l) = (s.readCounted r l).bank (lineBank l) := by
    unfold State.bank
    rw [(readEnded_registers s r l).1]
  rw [bank_readTaken] at core idle
  exact requestAccess_reaches core (by rw [banks]; exact idle)

theorem counted_readEnded : Counted s (s.readEnded r l) (s.outcomes l) := by
  have counted := counted_countLine (m := s.mem) (k := s.freeCount) (base := s.openLine l) .rowReader l (s.readTaken r l)
  have checks := (readEnded_registers s r l).2.1
  rw [← outcomes_eq] at counted
  refine ⟨?_, ?_⟩
  · rw [checks, ← (readTaken_rest s r l).checks]; exact counted.corrected
  · rw [checks, ← (readTaken_rest s r l).checks]; exact counted.uncorrectable

/-- The fault list and the notices of the read's words. -/
theorem readNoted_readCounted {f : Table 16 (Option FaultEntry)} {ns : List Notice}
    (h : ReadNoted l s.settings.faultThreshold s.stampCounter (numbered (s.outcomes l)) s.checks.faults f ns) :
    (s.readCounted r l).checks.faults = f ∧
      (s.settings.autoRepair ≠ 1 → ∀ q, (s.readCounted r l).noticeQ q = s.told Enables.integrity ns q) := by
  have rest := readTaken_rest s r l
  rw [← rest.settings, ← rest.stamps, ← rest.checks] at h
  obtain ⟨faults, told⟩ := readNoted_countLine h
  refine ⟨faults, fun ha q => (told (.inl (by rw [rest.settings]; exact ha)) q).trans (told_congr ?_ ?_ ns)⟩
  · unfold State.noticeQ; rw [rest.notices]
  · unfold State.online State.link; rw [rest.links]

theorem noJobBehind_readTaken {os : List WordOutcome} (h : NoJobBehind s os) : NoJobBehind (s.readTaken r l) os := by
  have rest := readTaken_rest s r l
  unfold NoJobBehind JobFirst at *
  rw [rest.settings, rest.currentJob, rest.repairQueue]
  exact h

/-- The records after the read, where no job starts. -/
theorem readCounted_records (h : NoJobBehind s (s.outcomes l)) :
    (∀ p, (s.readCounted r l).queue p =
      (s.queue p).map (fun q => if q.stamp = r.stamp then q.issued [checkedWords (s.outcomes l)] 1 else q)) ∧
    (s.readCounted r l).detached =
      s.detached.map (fun q => if q.stamp = r.stamp then q.issued [checkedWords (s.outcomes l)] 1 else q) := by
  obtain ⟨queues, detached⟩ := queues_countLine (l := l) (noJobBehind_readTaken (r := r) (l := l) h)
  refine ⟨fun p => ?_, ?_⟩
  · have : (s.readCounted r l).queue p = (s.readTaken r l).queue p := congrArg (fun q : PerPort (List Record) => q.get p) queues
    rw [this, State.queue, readTaken_eq]
    exact PerPort.get_map ..
  · refine detached.trans ?_
    rw [readTaken_eq]

/-- What the read leaves but for the records, the jobs and what they reach. -/
theorem readCounted_rest (s : State) (r : Record) (l : LineId) : (s.readCounted r l).watches = s.watches ∧
    (s.readCounted r l).regions = s.regions ∧ (s.readCounted r l).now = s.now ∧ (s.readCounted r l).links = s.links ∧
    (s.readCounted r l).settings = s.settings := by
  have rest := readTaken_rest s r l
  unfold State.readCounted
  rw [jobMove_countLine]
  exact ⟨rest.watches, rest.regions, rest.now, rest.links, rest.settings⟩

/-- Without automatic repair the holds stand as the read took them. -/
theorem readCounted_holds_off (ha : s.settings.autoRepair ≠ 1) : (s.readCounted r l).holds = (s.readTaken r l).holds := by
  have only := countWords_off .rowReader l (numbered (s.outcomes l)) (s := s.readTaken r l)
    (by rw [(readTaken_rest s r l).settings]; exact ha)
  unfold State.readCounted State.countLine
  rw [only]

/-- An advice after the read is one of the state before it. -/
theorem JobAdvised.since_read {u : State} {b : BankId} {row : RowId} (h : JobAdvised (s.readTaken r l) u b row) : JobAdvised s u b row := by
  have rest := readTaken_rest s r l
  have state : ((s.readTaken r l).bank b).state = (s.bank b).state := by
    by_cases hb : b = lineBank l
    · rw [hb, bank_readTaken]; exact (requestAccess_keeps ..).1
    · rw [State.bank, readTaken_eq]; exact congrArg Bank.state (Table.get_set_of_ne _ hb _)
  obtain ⟨queued, behind, starts⟩ := h
  rw [rest.repairQueue, rest.currentJob, state, freeSpare_congr rest.remap, servingSpare_congr rest.remap, rest.now] at starts
  rw [rest.repairQueue, rest.currentJob] at queued behind
  refine ⟨queued, behind, fun hc hq ho => ?_⟩
  obtain ⟨queue, runs, drops, ended⟩ := starts hc hq ho
  refine ⟨queue, runs, drops, fun hs => ?_⟩
  obtain ⟨step, off⟩ := ended (by unfold ScrubsBank; rw [rest.scrub]; exact hs)
  exact ⟨step.since rest.scrub rest.settings, off⟩

/-- The job of a line's corrected words, once they are advised. -/
theorem jobAdvised_readCounted {f : Table 16 (Option FaultEntry)} {ns : List Notice}
    (h : ReadNoted l s.settings.faultThreshold s.stampCounter (numbered (s.outcomes l)) s.checks.faults f ns)
    (ha : s.settings.autoRepair = 1) (hf : RowFirst s (lineBank l) (lineRow l)) (hn : .repairAdvised (lineBank l) (lineRow l) ∈ ns) :
    JobAdvised s (s.readCounted r l) (lineBank l) (lineRow l) := by
  have rest := readTaken_rest s r l
  rw [← rest.settings, ← rest.stamps, ← rest.checks] at h
  refine JobAdvised.since_read (r := r) (l := l) (jobAdvised_countLine h (by rw [rest.settings]; exact ha) ?_ hn)
  unfold RowFirst
  rw [rest.currentJob, rest.repairQueue]
  exact hf

/-! ## The record that ends at its read -/

theorem changesOnly_readCounted (h : NoJobBehind s (s.outcomes l)) : ChangesOnly s (s.readCounted r l) r.stamp := by
  obtain ⟨queue, detached⟩ := readCounted_records (r := r) h
  have mod := changesOnly_modRecord s r.stamp (f := fun q => q.issued [checkedWords (s.outcomes l)] 1) (fun _ => rfl) (fun _ => rfl)
  obtain ⟨u, hu⟩ : ∃ u, u = s.modRecord r.stamp (fun q => q.issued [checkedWords (s.outcomes l)] 1) := ⟨_, rfl⟩
  rw [← hu] at mod
  have queues : ∀ p, (s.readCounted r l).queue p = u.queue p := fun p => by
    rw [queue, hu]; exact (PerPort.get_map ..).symm
  have records : (s.readCounted r l).records = u.records := by
    unfold State.records
    rw [queues, queues, queues, detached, hu]
    rfl
  exact ⟨fun y hy => mod.back y (records ▸ hy), fun p q hq hn => by rw [queues]; exact mod.stay p q hq hn,
    fun y hy => mod.ops y (records ▸ hy)⟩

/-- A read for a record that ends with it, said of its end. `w` is the state before the end, the watch table being `w0`. -/
theorem endsAtRead_of {w : State} {os : List WordOutcome} {res : Result} (hr : r ∈ s.records) (ho : r.op.span.isSome = true)
    (hc : ChangesOnly s w r.stamp) (hg : w.regions = s.regions) (hp : r.posted = false)
    (hn : s.settings.autoRepair ≠ 1 → ∀ f ns,
      ReadNoted l s.settings.faultThreshold s.stampCounter (allWords.zip os) s.checks.faults f ns →
        ∀ q, w.noticeQ q = s.told Enables.integrity ns q) (c : List (List CheckedWord)) (k : Nat) :
    EndsAtRead s (w.finishMemory (r.issued c k) res) r l os w.now w.watches := by
  obtain ⟨nq, left, -, plain, -⟩ := finishMemory_left (q := r.issued c k) hc hr ho hg rfl rfl res
  exact ⟨nq, left, fun ha f ns h q => (plain (.inl hp) q).trans (hn ha f ns h q)⟩

/-- The record's own end, where its queue holds it alone under its stamp. -/
theorem doneWith_of {w : State} {res : Result} (hs : s.Sole r) (ho : r.op.span.isSome = true)
    (hc : ChangesOnly s w r.stamp) (hp : r.posted = false) {c : List (List CheckedWord)} {k : Nat}
    (hq : r.issued c k ∈ w.queue r.port) : DoneWith (w.finishMemory (r.issued c k) res) r w.now res := by
  refine ⟨(r.issued c k).finished w.now res, finishMemory_done (r := r.issued c k) hq rfl hp fun y hy hys => ?_, rfl, rfl, rfl, rfl, rfl⟩
  obtain ⟨x, hx, hxs, hxo⟩ := hc.ops y hy hys
  rw [hxo, hs.only x hx hxs]
  exact ho

theorem readRecord_mem (hs : s.Sole r) (h : NoJobBehind s (s.outcomes l)) : s.readRecord r l ∈ (s.readCounted r l).queue r.port := by
  rw [(readCounted_records h).1]
  exact List.mem_map.mpr ⟨r, hs.here, if_pos rfl⟩

end

end Sys2Proof.Machine
end

section
/-! PROOFS. A READ_LINE for a READ or a merge (R10, R11, R39, R40, R50, R52, R90, R115, R119 to R122). -/

namespace Sys2Proof.Machine

/-! ## What a line access that is issued for a record finds -/

section

variable {s : State} {dt : Nat} {b : BankId} {line : LineIx} {l : LineId} {r : Record} {c : ArrayCmd}

theorem span_of_nextAccess {x : Bool × LineId} (h : r.nextAccess = some x) : r.op.span.isSome = true := by
  unfold Record.nextAccess at h
  cases hs : r.op.span with
  | none => rw [hs] at h; cases h
  | some => rfl

/-- The bank is OPENED, and the record is one of the state's with that access next. -/
theorem access_of_choice (h : (s.passTime dt).arbiterChoice = some ⟨c, .request r⟩) (hc : c = .readLine b line ∨ c = .writeLine b line)
    (hl : s.lineOf b line = some l) : (s.bank (lineBank l)).state = .opened ∧ r ∈ s.records ∧
      ∃ isRead, r.nextAccess = some (isRead, l) ∧ (isRead = true ↔ c = .readLine b line) := by
  obtain ⟨k, isRead, -, hk, access, -, reads, record⟩ := (choice_legal h).2.line hc
  rw [State.passTime_lineOf, hl] at hk
  obtain rfl := Option.some.inj hk
  obtain ⟨hr, next⟩ := record r rfl
  rw [State.passTime_records] at hr
  have opened := access.opened
  rw [State.passTime_bank] at opened
  exact ⟨opened, hr, isRead, next, reads⟩

end

/-! ## A READ's last line -/

theorem readResult_eq (ls : List (List CheckedWord)) :
    readResult ls = ⟨if ∃ ws ∈ ls, CheckedWord.poisoned ∈ ws then .poisoned else .ok, .lines ls⟩ := by
  have poisoned : ls.any (fun l => l.any (fun w => decide (w = CheckedWord.poisoned))) = true ↔
      ∃ ws ∈ ls, CheckedWord.poisoned ∈ ws := by
    simp only [List.any_eq_true, decide_eq_true_eq, exists_eq_right]
  unfold readResult
  simp only [poisoned]

/-! ## The read at an instant, with the bits that have gone wrong -/

/-- The state in which a read takes its line: at its instant, the bits flipped. -/
structure ReadsFrom (s v : State) (n : Instant) (l : LineId) (flips : List Flip) : Prop where
  eq : v = (s.atInstant n).decay l flips

section

variable {s v : State} {n : Instant} {l : LineId} {flips : List Flip} {r : Record} (hv : ReadsFrom s v n l flips)
include hv

theorem ReadsFrom.reaches : RequestReaches s (v.readEnded r l) (lineBank l) r := by
  have h := requestReaches_readEnded (s := v) (r := r) (l := l)
  obtain ⟨rfl⟩ := hv
  exact ⟨h.streak, h.first, h.idle⟩

theorem ReadsFrom.counted : Counted s (v.readEnded r l) (v.outcomes l) := by
  have h := counted_readEnded (s := v) (r := r) (l := l)
  obtain ⟨rfl⟩ := hv
  exact ⟨h.corrected, h.uncorrectable⟩

theorem ReadsFrom.changesOnly (h : NoJobBehind s (v.outcomes l)) : ChangesOnly s (v.readCounted r l) r.stamp := by
  obtain ⟨rfl⟩ := hv
  have c := changesOnly_readCounted (s := (s.atInstant n).decay l flips) (r := r) (l := l) h
  exact ⟨c.back, c.stay, c.ops⟩

theorem ReadsFrom.noted {f : Table 16 (Option FaultEntry)} {ns : List Notice}
    (h : ReadNoted l s.settings.faultThreshold s.stampCounter (allWords.zip (v.outcomes l)) s.checks.faults f ns) :
    (v.readCounted r l).checks.faults = f ∧
      (s.settings.autoRepair ≠ 1 → ∀ q, (v.readCounted r l).noticeQ q = s.told Enables.integrity ns q) := by
  obtain ⟨rfl⟩ := hv
  obtain ⟨faults, told⟩ := readNoted_readCounted (s := (s.atInstant n).decay l flips) (r := r) h
  exact ⟨faults, fun ha q => (told ha q).trans (told_congr rfl rfl ns)⟩

theorem ReadsFrom.advised {f : Table 16 (Option FaultEntry)} (ha : s.settings.autoRepair = 1) (hc : correctedIn (v.outcomes l) = 1)
    (hf : FaultNoted s.checks.faults (lineBank l) (lineRow l) s.stampCounter f (some s.settings.faultThreshold))
    (first : RowFirst s (lineBank l) (lineRow l)) : JobAdvised v (v.readCounted r l) (lineBank l) (lineRow l) := by
  obtain ⟨rfl⟩ := hv
  rw [outcomes_eq, correctedIn_readLine] at hc
  obtain ⟨ns, noted, hn⟩ := readNoted_one hc hf
  exact jobAdvised_readCounted (s := (s.atInstant n).decay l flips) (r := r) noted ha first hn

/-- The record, where its queue holds it alone under its stamp and no job starts. -/
theorem ReadsFrom.readRecord_mem (hs : s.Sole r) (h : NoJobBehind s (v.outcomes l)) :
    v.readRecord r l ∈ (v.readCounted r l).queue r.port := by
  obtain ⟨rfl⟩ := hv
  exact Machine.readRecord_mem (s := (s.atInstant n).decay l flips) ⟨hs.here, hs.only⟩ h

end

/-- The counts bring no record in. -/
theorem stamp_readCounted {s : State} {r x : Record} {l : LineId} {p : Port} (h : x ∈ (s.readCounted r l).queue p) :
    ∃ y ∈ s.queue p, y.stamp = x.stamp := by
  obtain ⟨z, hz, key⟩ := List.mem_map.mp (((control_countLine (s.readTaken r l) .rowReader l (s.outcomes l)).queues p).subset
    (List.mem_map_of_mem (f := Record.key) h))
  have stamp : z.stamp = x.stamp := congrArg (fun k => k.2.2.2.2.2) key
  rw [State.queue, readTaken_eq, show PerPort.get _ p = _ from PerPort.get_map ..] at hz
  obtain ⟨y, hy, rfl⟩ := List.mem_map.mp hz
  refine ⟨y, hy, Eq.trans ?_ stamp⟩
  split <;> rfl

/-- Settles O29. -/
theorem readLineServesARead : Obligations.ReadLineServesARead := by
  intro dt b line flips r l s h hl
  obtain ⟨opened, hr, _, next, -⟩ := access_of_choice h (.inl rfl) hl
  have span := span_of_nextAccess next
  have ex := exec_readLine_of (flips := flips) h rfl hl
  obtain ⟨n, e⟩ := s.passTime_exists dt
  rw [e] at ex ⊢
  obtain ⟨v, hv⟩ : ∃ v, v = (s.atInstant n).decay l flips := ⟨_, rfl⟩
  have reading : ReadsFrom s v n l flips := ⟨hv⟩
  rw [← hv] at ex
  obtain ⟨-, checks, holds, -, repairQueue, currentJob⟩ := readEnded_registers v r l
  have banks : ∀ k, (v.readEnded r l).bank k = (v.readCounted r l).bank k := fun k => by
    unfold State.bank; rw [(readEnded_registers v r l).1]
  have control := control_settle (v.readEnded r l)
  refine ⟨v.readEnded r l, v.outcomes l, s.openLine l, s.mem.flipBits (s.openLine l) flips, ex, rfl, rfl, by rw [hv]; rfl,
    by rw [hv]; exact outcomesOf_readLine, mem_readEnded.trans (by rw [hv]; rfl), control.mem,
    control.pathBusy.trans (pathBusy_readEnded.trans (by rw [hv]; rfl)), lastRead_readEnded.trans (by rw [hv]; rfl),
    reading.reaches, reading.counted, fun f ns noted => ?_, fun f ha one noted => ?_, fun _ _ more behind => ?_, fun _ _ op last => ?_⟩
  · obtain ⟨faults, told⟩ := reading.noted noted
    refine ⟨by rw [checks]; exact faults, fun ha hp hd q => Eq.trans ?_ (told ha q)⟩
    have merged : (∃ a mask data, r.op = .writePart a mask data) → (v.readEnded r l).noticeQ q = (v.readCounted r l).noticeQ q :=
      fun ⟨a, mask, data, op⟩ => congrArg (State.noticeQ · q) (afterRead_merge (r := v.readRecord r l) op)
    rcases hd with calm | ⟨a, k, op, more⟩ | merge
    · rcases hp with plain | merge
      · have regions : ∀ g, (v.readCounted r l).region g = s.region g := fun g => by
          unfold State.region; rw [(readCounted_rest v r l).2.1, hv]; rfl
        exact afterRead_calm (r := v.readRecord r l) plain (fun g x hx => calm g x
          ⟨hx.counted, regions g ▸ hx.draining, regions g ▸ hx.last, regions g ▸ hx.pending⟩) q
      · exact merged merge
    · exact congrArg (State.noticeQ · q) (afterRead_more (r := v.readRecord r l) op more)
    · exact merged merge
  · have advised := reading.advised (r := r) ha one noted
    rw [repairQueue, currentJob, banks]
    subst hv
    refine ⟨fun waits => (advised fun _ => .inr waits).queued waits, fun new => ⟨fun c hc => ?_, fun hc hq => ?_⟩⟩
    · exact (advised fun hn => nomatch hn.symm.trans hc).behind new c hc
    · obtain ⟨queue, runs, drops, -⟩ := (advised fun _ => .inl hq).starts hc hq opened
      exact ⟨queue, runs, drops⟩
  · have same : v.readEnded r l = v.readCounted r l := by
      rcases more with ⟨op, more⟩ | ⟨mask, data, op⟩
      · exact afterRead_more (r := v.readRecord r l) op more
      · exact afterRead_merge (r := v.readRecord r l) op
    have plain : r.op.isAtomic = false := by rcases more with ⟨op, -⟩ | ⟨mask, data, op⟩ <;> rw [op] <;> rfl
    have watches : (v.readCounted r l).watches = s.watches := (readCounted_rest v r l).1.trans (by rw [hv]; rfl)
    have held : s.settings.autoRepair ≠ 1 → (v.readCounted r l).holds = s.holds := fun ha =>
      (readCounted_holds_off (s := v) (by rw [hv]; exact ha)).trans ((readTaken_holds_other plain).trans (by rw [hv]; rfl))
    rw [same]
    refine ⟨?_, ?_, watches, held⟩
    all_goals subst hv
    all_goals obtain ⟨queue, detached⟩ := readCounted_records (r := r) (l := l) (s := (s.atInstant n).decay l flips) behind
    · exact queue
    · exact detached
  · have ends : v.readEnded r l = (v.readCounted r l).finishMemory (v.readRecord r l) (readResult (v.readRecord r l).readLines) :=
      afterRead_last (r := v.readRecord r l) op last
    obtain ⟨watches, regions, now, -, -⟩ := readCounted_rest v r l
    have instant : (v.readCounted r l).now = (s.atInstant n).now := by rw [now, hv]; rfl
    have counted : (v.readCounted r l).watches = s.watches ∧ (v.readCounted r l).regions = s.regions := by
      rw [watches, regions, hv]; exact ⟨rfl, rfl⟩
    rw [ends, ← instant, ← counted.1]
    refine ⟨fun behind plain sole => ?_, fun behind plain => ?_, fun gone => ?_, fun g hg => ?_⟩
    · have done := doneWith_of (res := readResult (v.readRecord r l).readLines) sole span (reading.changesOnly behind) plain
        (reading.readRecord_mem sole behind)
      exact (congrArg (DoneWith _ r _) (readResult_eq _)).mp done
    · exact endsAtRead_of hr span (reading.changesOnly behind) counted.2 plain (fun ha f ns noted => (reading.noted noted).2 ha) _ _
    · refine finishMemory_detached (r := v.readRecord r l) (Bool.eq_false_iff.mpr fun queued => ?_)
      obtain ⟨x, hx, hs⟩ := List.any_eq_true.mp queued
      obtain ⟨y, hy, hys⟩ := stamp_readCounted hx
      refine gone y ?_ (hys.trans (of_decide_eq_true hs))
      rw [hv] at hy
      exact hy
    · rw [finishMemory_inFlight (r := v.readRecord r l) hg, State.region, counted.2]
      rfl

end Sys2Proof.Machine
end

section
/-! PROOFS. A READ_LINE for an atomic or a WATCH (R56, R58 to R63, R69, R70). -/

namespace Sys2Proof.Machine

/-! ## The addressed word, and a line with nothing to write back -/

section

variable {m : Memory} {k base : Nat}

theorem wordAt_readLine (a : Addr) : wordAt (checkedWords (m.readLine k base)) a = (m.readWord k base (addrWord a)).checked := by
  unfold wordAt checkedWords
  rw [List.getD_eq_getElem?_getD, List.getElem?_map, getElem?_readLine]
  rfl

/-- The word handed on of the addressed one is Table 37's. -/
theorem readsAs_wordAt (a : Addr) : ReadsAs m (wordCell base (addrWord a)) (wordAt (checkedWords (m.readLine k base)) a) := by
  rw [wordAt_readLine]
  unfold ReadsAs Memory.readWord
  refine ⟨fun h => ?_, fun h => ?_⟩
  · rcases h with h | h <;> rw [h] <;> rfl
  · rcases h with h | h | h <;> rw [h] <;> rfl

theorem writeBack_clean (xs : List (WordIx × WordOutcome)) (h : ∀ x ∈ xs, x.2.bad = false) : m.writeBack base xs = m := by
  induction xs with
  | nil => rfl
  | cons x xs ih =>
    obtain ⟨w, o⟩ := x
    have rest := ih fun x hx => h x (List.mem_cons_of_mem _ hx)
    have fine := h _ List.mem_cons_self
    cases o with
    | clean | poisoned => exact rest
    | corrected | uncorrectable => cases fine

theorem writeBack_readLine (h : ∀ w, m.mark (wordCell base w) = .good ∨ m.mark (wordCell base w) = .poison ∨
    m.mark (wordCell base w) = .poisonOne) : m.writeBack base (numbered (m.readLine k base)) = m := by
  refine writeBack_clean _ fun x hx => ?_
  rw [numbered_readLine] at hx
  obtain ⟨w, -, rfl⟩ := List.mem_map.mp hx
  unfold Memory.readWord
  rcases h w with h | h | h <;> rw [h] <;> rfl

end

/-! ## What an atomic writes -/

section

variable {op : ReqOp} {a : Addr}

theorem newWord_poisoned (op : ReqOp) : op.newWord .poisoned = none := by cases op <;> rfl

/-- An atomic that writes nothing of a word that is not poisoned is a COMPARE_SWAP that misses. -/
theorem atomicResult_missed {w : Word} (h : (∃ x, op = .fetchAdd a x) ∨ (∃ x, op = .swap a x) ∨ (∃ c x, op = .compareSwap a c x))
    (hn : op.newWord (.data w) = none) : op.atomicResult (.data w) = ⟨.casMiss, .oldWord w⟩ := by
  rcases h with ⟨x, rfl⟩ | ⟨x, rfl⟩ | ⟨c, x, rfl⟩
  · cases hn
  · cases hn
  · have miss : w ≠ c := fun e => nomatch (if_pos e).symm.trans hn
    show (⟨if w = c then .ok else .casMiss, .oldWord w⟩ : Result) = _
    rw [if_neg miss]

end

/-! ## Control records that wait, where memory records only go on -/

theorem NoneToCarryOut.mapped {s t : State} {f : Record → Record} (h : NoneToCarryOut s) (hq : ∀ p, t.queue p = (s.queue p).map f)
    (hd : t.detached = s.detached.map f) (ha : t.asleep = s.asleep)
    (hf : ∀ q, f q = q ∨ (f q).state = .active ∧ (f q).port = q.port ∧ (f q).stamp = q.stamp ∧ (f q).op = q.op) : NoneToCarryOut t := by
  have undone : ∀ {x q}, EarlierUndone s x q → EarlierUndone t x (f q) ∧ (f q).op = q.op := fun {x q} ⟨place, stamp, state⟩ => by
    have same : (f q).port = q.port ∧ (f q).stamp = q.stamp ∧ (f q).op = q.op ∧ (f q).state ≠ .done := by
      rcases hf q with e | ⟨active, port, stamp', op⟩
      · rw [e]; exact ⟨rfl, rfl, rfl, state⟩
      · exact ⟨port, stamp', op, by rw [active]; nofun⟩
    refine ⟨⟨?_, by rw [same.2.1]; exact stamp, same.2.2.2⟩, same.2.2.1⟩
    rw [hq, hd, same.1]
    exact place.imp (List.mem_map_of_mem (f := f)) fun e => ⟨List.mem_map_of_mem (f := f) e.1, e.2⟩
  intro p y hy hs
  rw [hq] at hy
  obtain ⟨q, hm, rfl⟩ := List.mem_map.mp hy
  rcases hf q with e | ⟨active, -⟩
  · rw [e] at hs ⊢
    refine (h p q hm hs).imp_right fun held => held.imp_right ?_
    rintro ⟨c, hc⟩
    cases c with
    | retention => exact ⟨.retention, heldBack_retention.mp (by rw [ha]; exact heldBack_retention.mpr hc)⟩
    | fence =>
      obtain ⟨z, hz, fence⟩ := hc
      obtain ⟨hz', op⟩ := undone hz
      exact ⟨.fence, f z, hz', op.trans fence⟩
    | order =>
      obtain ⟨z, hz, meets⟩ := hc
      obtain ⟨hz', op⟩ := undone hz
      refine ⟨.order, f z, hz', meets.imp_left ?_⟩
      unfold LinesMeet
      rw [op]
      exact id
    | hold =>
      obtain ⟨a, k, lines, -⟩ := hc
      cases hs.symm.trans lines
    | bank =>
      obtain ⟨a, k, c, lines, -⟩ := hc
      cases hs.symm.trans lines
  · exact .inl active

section

variable {s v : State} {n : Instant} {l : LineId} {flips : List Flip} {r : Record}

/-- A STARTED or PENDING step of a line that is held is skipped. -/
theorem stepEnded_held {u : State} (h : NoneToCarryOut u) (hs : u.scrub = s.scrub) (hg : u.settings = s.settings)
    (hw : s.scrub.step = .started ∨ s.scrub.step = .pending) (hl : ∃ e ∈ u.holds, e.line = s.scrub.pointer) :
    StepEnded s u.settle u.now :=
  (stepEnded_settle h (by rw [hs]; exact hw) (by rw [hs]; exact held_iff.mpr hl)).since hs hg

/-- A step that has ended stays so. -/
theorem stepEnded_stays {u : State} {now : Instant} (h : NoneToCarryOut u) (hs : StepEnded s u now) : StepEnded s u.settle now := by
  refine hs.of_scrub ((settle_scrub h).trans (if_neg ?_))
  rw [hs.step]
  exact fun e => e.1.elim nofun nofun

theorem ReadsFrom.noneToCarryOut (hv : ReadsFrom s v n l flips) (h : NoJobBehind s (v.outcomes l)) (hc : NoneToCarryOut s) :
    NoneToCarryOut (v.readCounted r l) := by
  have control := control_countLine (v.readTaken r l) .rowReader l (v.outcomes l)
  have asleep : (v.readTaken r l).asleep = v.asleep := by unfold State.asleep; rw [(readTaken_rest v r l).quiet]
  obtain ⟨rfl⟩ := hv
  obtain ⟨queue, detached⟩ := readCounted_records (r := r) (s := (s.atInstant n).decay l flips) h
  refine hc.mapped queue detached (control.asleep.trans asleep) fun q => ?_
  split
  · exact .inr ⟨rfl, rfl, rfl, rfl⟩
  · exact .inl rfl

/-- A hold taken with the read skips the scrub step of its line. -/
theorem ReadsFrom.skipsStep (hv : ReadsFrom s v n l flips) (h : NoJobBehind s (v.outcomes l)) (hc : NoneToCarryOut s)
    (hw : s.scrub.step = .started ∨ s.scrub.step = .pending) (hp : s.scrub.pointer = l)
    (hl : ⟨l, r.holder⟩ ∈ (v.readCounted r l).holds) : StepEnded s (v.readCounted r l).settle n := by
  have none := hv.noneToCarryOut (r := r) h hc
  have yields := yields_countLine (v.readTaken r l) .rowReader l (v.outcomes l)
  have rest := readTaken_rest v r l
  have before : v.scrub = s.scrub ∧ v.settings = s.settings ∧ v.now = n := by rw [hv.eq]; exact ⟨rfl, rfl, rfl⟩
  have now : (v.readCounted r l).now = n := (readCounted_rest v r l).2.2.1.trans before.2.2
  rcases yields.scrub with scrub | ⟨-, step⟩
  · have ended := stepEnded_held none (scrub.trans (rest.scrub.trans before.1)) ((readCounted_rest v r l).2.2.2.2.trans before.2.1) hw
      ⟨_, hl, hp.symm⟩
    rw [now] at ended
    exact ended
  · rw [rest.now, before.2.2] at step
    exact stepEnded_stays none (step.since (rest.scrub.trans before.1) (rest.settings.trans before.2.1))

end

/-! ## The atomics -/

/-- Settles O30. -/
theorem readLineServesAnAtomic : Obligations.ReadLineServesAnAtomic := by
  intro dt b line flips r a l s h op hl plain sole
  obtain ⟨opened, hr, _, next, -⟩ := access_of_choice h (.inl rfl) hl
  have span := span_of_nextAccess next
  have ex := exec_readLine_of (flips := flips) h rfl hl
  obtain ⟨n, e⟩ := s.passTime_exists dt
  rw [e] at ex ⊢
  obtain ⟨v, hv⟩ : ∃ v, v = (s.atInstant n).decay l flips := ⟨_, rfl⟩
  have reading : ReadsFrom s v n l flips := ⟨hv⟩
  rw [← hv] at ex
  obtain ⟨old, hold⟩ : ∃ old, old = wordAt (checkedWords (v.outcomes l)) a := ⟨_, rfl⟩
  have outcomes : v.outcomes l = (s.mem.flipBits (s.openLine l) flips).readLine s.freeCount (s.openLine l) := by rw [hv]; rfl
  have goesOn := afterRead_atomic (s := v.readCounted r l) (r := v.readRecord r l) (l := l) (ws := checkedWords (v.outcomes l)) op
  have holds := readTaken_holds_atomic (s := v) (r := r) (l := l) op
  have kept : (v.readEnded r l).holds = (v.readCounted r l).holds := (readEnded_registers v r l).2.2.1
  have off : s.settings.autoRepair ≠ 1 → (v.readEnded r l).holds = (v.readTaken r l).holds := fun ha =>
    kept.trans (readCounted_holds_off (by rw [hv]; exact ha))
  have same : v.holds = s.holds := by rw [hv]; rfl
  rw [← hold] at goesOn holds
  refine ⟨v.readEnded r l, old, s.mem.flipBits (s.openLine l) flips, ex, rfl, ?_, reading.reaches, fun fine => ?_, fun x hx => ?_, fun hn => ?_,
    fun e => by rw [e]; exact newWord_poisoned _, fun w x e o => by rw [e, o]; rfl, fun w x e o => by rw [e, o]; rfl,
    fun w c x e o => by rw [e, o]; rfl⟩
  · rw [hold, outcomes]; exact readsAs_wordAt a
  · rw [mem_readEnded, outcomes, hv]
    exact writeBack_readLine fine
  · have some : (r.op.newWord old).isSome = true := by rw [hx]; rfl
    rw [if_pos some] at holds
    have stands : v.readEnded r l = v.readCounted r l := goesOn.trans (if_pos some)
    have held : ⟨l, .request r.port r.stamp⟩ ∈ (v.readCounted r l).holds := by
      refine (yields_countLine (v.readTaken r l) .rowReader l (v.outcomes l)).holds _ ?_ nofun
      rw [holds]
      exact List.mem_append_right _ (List.mem_singleton_self _)
    refine ⟨by rw [stands]; exact held, fun ha => (off ha).trans (by rw [holds, same]; rfl), fun behind => ?_⟩
    rw [← outcomes] at behind
    refine ⟨?_, fun none waits pointer => ?_⟩
    · rw [stands]
      exact ⟨v.readRecord r l, reading.readRecord_mem sole behind, rfl, rfl, rfl⟩
    · rw [stands]
      exact reading.skipsStep behind none waits pointer held
  · have none : ¬ (r.op.newWord old).isSome = true := by rw [hn]; nofun
    rw [if_neg none] at holds
    have ends : v.readEnded r l = (v.readCounted r l).finishMemory (v.readRecord r l) (r.op.atomicResult old) := goesOn.trans (if_neg none)
    obtain ⟨watches, regions, now, -, -⟩ := readCounted_rest v r l
    have instant : (v.readCounted r l).now = (s.atInstant n).now := by rw [now, hv]; rfl
    have counted : (v.readCounted r l).watches = s.watches ∧ (v.readCounted r l).regions = s.regions := by
      rw [watches, regions, hv]; exact ⟨rfl, rfl⟩
    refine ⟨fun ha => (off ha).trans (holds.trans same), fun behind => ?_⟩
    rw [← outcomes] at behind ⊢
    have done := doneWith_of (res := r.op.atomicResult old) sole span (reading.changesOnly behind) plain (reading.readRecord_mem sole behind)
    rw [ends, ← instant, ← counted.1]
    refine ⟨fun e => ?_, fun w e => ?_, ?_⟩
    · rw [e] at done ⊢
      exact done
    · rw [e] at done ⊢ hn
      rw [atomicResult_missed op hn] at done ⊢
      exact done
    · exact endsAtRead_of hr span (reading.changesOnly behind) counted.2 plain (fun ha f ns noted => (reading.noted noted).2 ha) _ _

end Sys2Proof.Machine
end

section
/-! PROOFS. A READ_LINE for a WATCH (R69, R70). -/

namespace Sys2Proof.Machine

/-! ## The entry that a WATCH finds or arms -/

section

variable {s : State} {p : Port} {l : LineId} {i : WatchId}

theorem watchPlace_congr {t : State} (h : t.watches = s.watches) (p : Port) (l : LineId) : t.watchPlace p l = s.watchPlace p l := by
  unfold State.watchPlace State.watchOf State.watchCount State.freeWatch
  rw [h]

theorem watchPlace_owned (h : OwnsWatch s p l i) : s.watchPlace p l = some i := by
  unfold State.watchPlace
  rw [watchOf_some.mpr h]

theorem watchPlace_full (h : ∀ i, s.watches.get i ≠ some ⟨p, l⟩) (full : 16 ≤ watchesOf s p ∨ ∀ i, s.watches.get i ≠ none) :
    s.watchPlace p l = none := by
  unfold State.watchPlace
  rw [watchOf_none.mpr h]
  dsimp only
  by_cases hc : s.watchCount p < Config.watchesPerPort
  · rw [if_pos hc]
    refine freeWatch_none.mpr (full.resolve_left (Nat.not_le.mpr ?_))
    rw [← watchCount_eq]
    exact hc
  · exact if_neg hc

theorem watchPlace_free (h : ∀ i, s.watches.get i ≠ some ⟨p, l⟩) (room : watchesOf s p < 16) (free : LowestFree s i) :
    s.watchPlace p l = some i := by
  unfold State.watchPlace
  rw [watchOf_none.mpr h]
  dsimp only
  rw [← watchCount_eq] at room
  refine (if_pos room).trans ?_
  exact freeWatch_some.mpr free

theorem armWatch_some (h : s.watchPlace p l = some i) : (s.armWatch p l).watches = s.watches.set i (some ⟨p, l⟩) := by
  unfold State.armWatch
  rw [h]
  rfl

theorem armWatch_none (h : s.watchPlace p l = none) : (s.armWatch p l).watches = s.watches := by
  unfold State.armWatch
  rw [h]

end

/-- The status of a WATCH's word, where it has an entry. -/
def watchStatus (x : CheckedWord) : Status := if x = .poisoned then .poisoned else .ok

/-- Settles O31. -/
theorem readLineArmsAWatch : Obligations.ReadLineArmsAWatch := by
  intro dt b line flips r a l s h op hl plain sole
  obtain ⟨opened, hr, _, next, -⟩ := access_of_choice h (.inl rfl) hl
  have span := span_of_nextAccess next
  have ex := exec_readLine_of (flips := flips) h rfl hl
  obtain ⟨n, e⟩ := s.passTime_exists dt
  rw [e] at ex ⊢
  obtain ⟨v, hv⟩ : ∃ v, v = (s.atInstant n).decay l flips := ⟨_, rfl⟩
  have reading : ReadsFrom s v n l flips := ⟨hv⟩
  rw [← hv] at ex
  obtain ⟨x, hx⟩ : ∃ x, x = wordAt (checkedWords (v.outcomes l)) a := ⟨_, rfl⟩
  obtain ⟨w, hw⟩ : ∃ w, w = (v.readCounted r l).armWatch r.port l := ⟨_, rfl⟩
  have outcomes : v.outcomes l = (s.mem.flipBits (s.openLine l) flips).readLine s.freeCount (s.openLine l) := by rw [hv]; rfl
  obtain ⟨watches, regions, now, -, -⟩ := readCounted_rest v r l
  have table : (v.readCounted r l).watches = s.watches := by rw [watches, hv]; rfl
  have place := watchPlace_congr table r.port l
  have armed : w = { v.readCounted r l with watches := w.watches } := by rw [hw]; exact armWatch_frame ..
  have ends : v.readEnded r l = w.finishMemory (v.readRecord r l) (watchResult (s.watchPlace r.port l) x) := by
    rw [hw, hx, ← place]
    exact afterRead_watch (r := v.readRecord r l) op
  have instant : w.now = (s.atInstant n).now := by rw [armed, show State.now _ = _ from now, hv]; rfl
  have owned : ∀ i, OwnsWatch s r.port l i → s.watchPlace r.port l = some i := fun i => watchPlace_owned
  have some : ∀ i, s.watchPlace r.port l = some i → w.watches = s.watches.set i (some ⟨r.port, l⟩) := fun i hi => by
    rw [hw, armWatch_some (place.trans hi), table]
  have none : s.watchPlace r.port l = none → w.watches = s.watches := fun hi => by
    rw [hw, armWatch_none (place.trans hi), table]
  refine ⟨v.readEnded r l, x, x.word?, s.mem.flipBits (s.openLine l) flips, watchStatus x, w.watches, ex, rfl, ?_, reading.reaches,
    fun e => by rw [e]; exact ⟨rfl, rfl⟩, fun d e => by rw [e]; exact ⟨rfl, rfl⟩, fun behind => ?_, ?_,
    fun new full => none (watchPlace_full new full), fun i new room free => some i (watchPlace_free new room free), fun calm => ?_⟩
  · rw [hx, outcomes]; exact readsAs_wordAt a
  · rw [← outcomes] at behind ⊢
    have changes : ChangesOnly s w r.stamp := (reading.changesOnly behind).trans (.same _ (by rw [armed]) (by rw [armed]))
    have mem : v.readRecord r l ∈ w.queue r.port := by
      rw [armed]; exact reading.readRecord_mem sole behind
    have done : ∀ res, DoneWith (w.finishMemory (v.readRecord r l) res) r w.now res := fun res => doneWith_of sole span changes plain mem
    rw [ends, ← instant]
    refine ⟨fun i hi => ?_, fun new full => ?_, fun i new room free => ?_, ?_⟩
    · rw [owned i hi]; exact done _
    · rw [watchPlace_full new full]; exact done _
    · rw [watchPlace_free new room free]; exact done _
    · refine endsAtRead_of hr span changes ?_ plain (fun ha f ns noted q => ?_) _ _
      · rw [armed]; exact regions.trans (by rw [hv]; rfl)
      · rw [armed]; exact (reading.noted noted).2 ha q
  · rintro ⟨i, hi⟩ j
    rw [some i (owned i hi)]
    by_cases hj : j = i
    · rw [hj, Table.get_set_self, hi.1]
    · rw [Table.get_set_of_ne _ hj]
  · rw [ends]
    refine (finishMemory_calm plain fun g y hy => calm g y ?_).1
    have same : w.region g = s.region g := by
      rw [State.region, armed, show State.regions _ = _ from regions, hv]; rfl
    exact ⟨hy.counted, same ▸ hy.draining, same ▸ hy.last, same ▸ hy.pending⟩

end Sys2Proof.Machine
end

section
/-! PROOFS. The line accesses of the sweep, of the repair job and of the scrubber (R65, R116, R125, R126, R128, R139, R141). -/

namespace Sys2Proof.Machine

/-! ## The writes -/

section

variable {s : State} {l : LineId} {n : Instant}

theorem sweepWrite_spec (s : State) (l : LineId) : (s.sweepWrite l).watches = s.watches ∧ (s.sweepWrite l).holds = s.holds ∧
    (s.sweepWrite l).mem = s.mem.storeLine (s.openLine l) (allWords.map (fun w => (w, .data 0))) ∧
    (s.sweepWrite l).scrub.sweepAt = s.scrub.sweepAt + 1 ∧ (s.sweepWrite l).checks = s.checks := by
  rw [sweepWrite_eq]
  exact ⟨rfl, rfl, rfl, rfl, rfl⟩

/-- The scrubber's write before the blocks are evaluated anew. -/
def State.scrubWritten (s : State) (l : LineId) : State := ((s.scrubStored l).releaseHold .scrubber).scrubStepEnd

theorem scrubWrite_eq (s : State) (l : LineId) : s.scrubWrite l = (s.scrubWritten l).settle := rfl

theorem scrubWritten_spec (s : State) (l : LineId) : (s.scrubWritten l).watches = s.watches ∧
    (s.scrubWritten l).mem = s.mem.storeLine (s.openLine l) s.scrub.kept ∧ StepEnded s (s.scrubWritten l) s.now ∧
    ∀ e ∈ (s.scrubWritten l).holds, e.holder ≠ .scrubber := by
  have stored := scrubStored_eq s l
  obtain ⟨w, hw⟩ : ∃ w, w = s.scrubStored l := ⟨_, rfl⟩
  unfold State.scrubWritten
  rw [← hw] at stored ⊢
  have scrub : (w.releaseHold .scrubber).scrub = s.scrub := by rw [stored]; rfl
  have settings : (w.releaseHold .scrubber).settings = s.settings := by rw [stored]; rfl
  have now : (w.releaseHold .scrubber).now = s.now := by rw [stored]; rfl
  refine ⟨by rw [stored]; rfl, by rw [stored]; rfl, now ▸ (stepEnded_scrubStepEnd (w.releaseHold .scrubber)).since scrub settings,
    fun e he => ?_⟩
  exact of_decide_eq_true (List.mem_filter.mp he).2

/-- The repair job's write. -/
structure RepairWritten (s t : State) (l : LineId) (c : CurrentJob) (ws : List (WordIx × CheckedWord)) : Prop where
  watches : t.watches = s.watches
  mem : t.mem = s.mem.storeLine (s.openLine l) ws
  job : t.currentJob = some { c with
    linesWritten := c.linesWritten + 1
    poisonedWords := c.poisonedWords + (ws.filter (fun x => decide (x.2 = .poisoned))).length }
  lastWrite : (t.bank (lineBank l)).lastWrite = some s.now
  pathBusy : t.pathBusy = some (s.now + 5)
  rest : t.repairBuffer = s.repairBuffer ∧ t.repairQueue = s.repairQueue ∧ t.scrub = s.scrub ∧ t.holds = s.holds ∧
    t.queues = s.queues ∧ t.notices = s.notices

theorem repairWrite_spec {c : CurrentJob} (hc : s.currentJob = some c) :
    RepairWritten s (s.repairWrite l) l c (s.bufferWords c.linesWritten) := by
  rw [repairWrite_eq, hc]
  refine ⟨rfl, rfl, rfl, ?_, rfl, rfl, rfl, rfl, rfl, rfl, rfl⟩
  exact congrArg Bank.lastWrite (Table.get_set_self ..)

theorem bufferWords_some {k : Nat} {line8 : List CheckedWord} (h : s.repairBuffer[k]? = some line8) :
    s.bufferWords k = allWords.map (fun w => (w, line8.getD w.val .poisoned)) := by
  unfold State.bufferWords
  rw [List.getD_eq_getElem?_getD, h]
  rfl

theorem bufferWords_none {k : Nat} (h : s.repairBuffer[k]? = none) : s.bufferWords k = allWords.map (fun w => (w, .poisoned)) := by
  unfold State.bufferWords
  rw [List.getD_eq_getElem?_getD, h]
  exact List.map_congr_left fun w _ => congrArg (Prod.mk w) (by rw [Option.getD_none, List.getD_nil])

/-! ## The repair job's read -/

/-- The repair job's read of a line, its words counted. -/
structure RepairReadDone (s t : State) (l : LineId) (os : List WordOutcome) (c : CurrentJob) : Prop where
  mem : t.mem = s.mem
  counted : Counted s t os
  faults : t.checks.faults = s.checks.faults
  told : ∀ q, t.noticeQ q = s.told Enables.integrity (uncorrectableNotices l os) q
  buffer : t.repairBuffer = s.repairBuffer ++ [os.map WordOutcome.checked]
  job : t.currentJob = some { c with linesRead := c.linesRead + 1 }
  lastRead : (t.bank (lineBank l)).lastRead = some s.now
  pathBusy : t.pathBusy = some (s.now + 5)
  rest : t.queues = s.queues ∧ t.holds = s.holds ∧ t.watches = s.watches ∧ t.repairQueue = s.repairQueue ∧ t.scrub = s.scrub

theorem repairRead_spec {c : CurrentJob} (hc : s.currentJob = some c) : RepairReadDone s (s.repairRead l) l (s.outcomes l) c := by
  have taken := repairReadTaken_eq s l
  have buffered : (s.repairReadTaken l).repairBuffer = s.repairBuffer ++ [(s.outcomes l).map WordOutcome.checked] ∧
      (s.repairReadTaken l).currentJob = some { c with linesRead := c.linesRead + 1 } := by
    unfold State.repairReadTaken State.bufferLine
    have job : (s.useFree.occupyPath.touchBank l (fun x => x.issueAccess s.now true false)).currentJob = some c := hc
    rw [job]
    exact ⟨rfl, rfl⟩
  obtain ⟨w, hw⟩ : ∃ w, w = s.repairReadTaken l := ⟨_, rfl⟩
  rw [← hw] at taken buffered
  have counted := counted_countLine (m := s.mem) (k := s.freeCount) (base := s.openLine l) .copyOut l w
  have told := noticeQ_countWords_copyOut l (numbered (s.outcomes l)) w
  have faults := faults_countWords_copyOut l (numbered (s.outcomes l)) w
  have only := countWords_fine l (f := .copyOut) (xs := numbered (s.outcomes l)) (.inl rfl) w
  have read : s.repairRead l = (numbered (s.outcomes l)).foldl (State.countWord .copyOut l) w := by rw [hw]; rfl
  rw [← outcomes_eq, show w.countLine .copyOut l (s.outcomes l) = s.repairRead l from read.symm] at counted
  rw [← read] at told faults only
  obtain ⟨buffer, job⟩ := buffered
  have checks : w.checks = s.checks := by rw [taken]
  refine ⟨by rw [only, taken], ⟨checks ▸ counted.corrected, checks ▸ counted.uncorrectable⟩, by rw [faults, checks],
    fun q => (told q).trans ?_,
    by rw [only]; exact buffer, by rw [only]; exact job, ?_, by rw [only, taken]; rfl, by rw [only, taken]; exact ⟨rfl, rfl, rfl, rfl, rfl⟩⟩
  · have lost : uncorrectableNotices l (s.outcomes l) =
        ((numbered (s.outcomes l)).filter (fun x => x.2.isLost)).map (fun x => .uncorrectable (wordAddr l x.1)) := by
      unfold uncorrectableNotices
      rw [outcomes_eq, uncorrectableIn_readLine, List.map_map]
      rfl
    rw [lost]
    exact told_congr (by rw [taken]; rfl) (by rw [taken]; rfl) _
  · have bank : w.bank (lineBank l) = (s.bank (lineBank l)).issueAccess s.now true false := by
      rw [State.bank, taken]; exact Table.get_set_self ..
    rw [only]
    exact congrArg Bank.lastRead bank

/-! ## The scrubber's read -/

/-- The hold that the scrubber asks (R55). -/
theorem holdMayBeGiven_scrubber : s.holdMayBeGiven .scrubber l = true ↔
    s.holds.length < 8 ∧ (∀ e ∈ s.holds, e.line ≠ l) ∧ (∀ q ∈ s.records, q.accessesLater l = false) ∧
      s.repairPhase (lineBank l) = none := by
  have other : ∀ q : Record, decide (q.holder ≠ .scrubber) = true := fun q => rfl
  simp only [State.holdMayBeGiven, State.holdFree, State.held, State.accessPending, other, Config.holdEntries, Bool.and_eq_true,
    decide_eq_true_eq, Bool.not_eq_true', List.any_eq_false, Bool.true_and, Bool.not_eq_true, Option.isNone_iff_eq_none, and_assoc]
  exact and_congr decide_eq_true_iff Iff.rfl

theorem mem_allWords (w : WordIx) : w ∈ allWords := by revert w; decide

theorem mem_keptWords {m : Memory} {k base : Nat} {w : WordIx} {x : CheckedWord} : (w, x) ∈ keptWords (m.readLine k base) ↔
    ((m.readLine k base)[w.val]? = some .uncorrectable ∧ x = .poisoned) ∨
      ∃ d, (m.readLine k base)[w.val]? = some (.corrected d) ∧ x = .data d := by
  have kept : (w, x) ∈ keptWords (m.readLine k base) ↔ (m.readWord k base w).bad = true ∧ (m.readWord k base w).checked = x := by
    unfold keptWords
    rw [numbered_readLine, List.mem_map]
    constructor
    · rintro ⟨⟨w', o⟩, hm, e⟩
      obtain ⟨hm, bad⟩ := List.mem_filter.mp hm
      obtain ⟨z, -, hz⟩ := List.mem_map.mp hm
      cases hz
      cases e
      exact ⟨bad, rfl⟩
    · rintro ⟨bad, rfl⟩
      exact ⟨(w, m.readWord k base w), List.mem_filter.mpr ⟨List.mem_map.mpr ⟨w, mem_allWords w, rfl⟩, bad⟩, rfl⟩
  rw [kept, getElem?_readLine]
  cases m.readWord k base w with
  | clean d => exact iff_of_false (fun h => nomatch h.1) (fun h => h.elim (fun e => nomatch e.1) fun ⟨_, e, _⟩ => nomatch e)
  | poisoned => exact iff_of_false (fun h => nomatch h.1) (fun h => h.elim (fun e => nomatch e.1) fun ⟨_, e, _⟩ => nomatch e)
  | uncorrectable => exact ⟨fun h => .inl ⟨rfl, h.2.symm⟩, fun h => ⟨rfl, h.elim (fun e => e.2.symm) fun ⟨_, e, _⟩ => nomatch e⟩⟩
  | corrected d =>
    refine ⟨fun h => .inr ⟨d, rfl, h.2.symm⟩, fun h => ⟨rfl, h.elim (fun e => nomatch e.1) ?_⟩⟩
    rintro ⟨_, e, rfl⟩
    cases e
    rfl

end

end Sys2Proof.Machine
end

section
/-! PROOFS. The scrubber's read (R65, R116, R122, R125, R126, R134 to R137). -/

namespace Sys2Proof.Machine

section

variable {s : State} {l : LineId}

/-! ## The step and the hold -/

/-- With nothing to correct the step ends. -/
theorem scrubReadTaken_fine (h : (s.outcomes l).any WordOutcome.bad = false) :
    StepEnded s (s.scrubReadTaken l) s.now ∧ (s.scrubReadTaken l).holds = s.holds := by
  unfold State.scrubReadTaken
  dsimp only
  rw [if_neg (by rw [h]; nofun)]
  exact ⟨(stepEnded_scrubStepEnd (s.useFree.occupyPath.touchBank l (fun x => x.issueAccess s.now true false))).since rfl rfl, rfl⟩

/-- The scrubber's registers and holds after it found something to correct. -/
structure HoldAsked (s t : State) (l : LineId) (os : List WordOutcome) : Prop where
  pointer : t.scrub.pointer = s.scrub.pointer
  passes : t.scrub.passes = s.scrub.passes
  given : s.holdMayBeGiven .scrubber l = true →
    t.scrub.step = .holding ∧ t.holds = s.holds ++ [⟨l, .scrubber⟩] ∧ t.scrub.kept = keptWords os
  refused : s.holdMayBeGiven .scrubber l ≠ true → t.scrub.step = .pending ∧ t.scrub.kept = [] ∧ t.holds = s.holds

theorem scrubReadTaken_bad (h : (s.outcomes l).any WordOutcome.bad = true) : HoldAsked s (s.scrubReadTaken l) l (s.outcomes l) := by
  have same : (s.useFree.occupyPath.touchBank l (fun x => x.issueAccess s.now true false)).holdMayBeGiven .scrubber l =
      s.holdMayBeGiven .scrubber l := rfl
  unfold State.scrubReadTaken
  dsimp only
  rw [if_pos h]
  unfold State.askScrubHold
  by_cases hg : s.holdMayBeGiven .scrubber l = true
  · rw [if_pos (same.trans hg)]
    exact ⟨rfl, rfl, fun _ => ⟨rfl, rfl, rfl⟩, fun hn => absurd hg hn⟩
  · rw [if_neg (fun e => hg (same.symm.trans e))]
    exact ⟨rfl, rfl, fun e => absurd e hg, fun _ => ⟨rfl, rfl, rfl⟩⟩

/-- In both cases the step waits for its hold or keeps it. -/
theorem HoldAsked.scrubs {t : State} {os : List WordOutcome} (h : HoldAsked s t l os) (hb : lineBank s.scrub.pointer = lineBank l) :
    ScrubsBank t (lineBank l) := by
  refine ⟨?_, by rw [h.pointer]; exact hb⟩
  by_cases hg : s.holdMayBeGiven .scrubber l = true
  · exact .inl (h.given hg).1
  · exact .inr (h.refused hg).1

/-- A step that ends after its hold was asked is the state's own. -/
theorem StepEnded.since_asked {t u : State} {os : List WordOutcome} {now : Instant} (k : StepEnded t u now) (h : HoldAsked s t l os)
    (hg : t.settings = s.settings) : StepEnded s u now :=
  ⟨k.step, k.kept, h.pointer ▸ k.pointer, h.pointer ▸ h.passes ▸ k.passes, hg ▸ k.timer⟩

/-! ## The words -/

/-- The scrubber's read with its counts, before the blocks are evaluated anew. -/
def State.scrubCounted (s : State) (l : LineId) : State := (s.scrubReadTaken l).countLine .rowReader l (s.outcomes l)

/-- What the scrubber's read itself leaves. -/
structure ScrubRest (s t : State) : Prop where
  checks : t.checks = s.checks
  repairQueue : t.repairQueue = s.repairQueue
  currentJob : t.currentJob = s.currentJob
  remap : t.remap = s.remap
  settings : t.settings = s.settings
  stamps : t.stampCounter = s.stampCounter
  notices : t.notices = s.notices
  links : t.links = s.links
  watches : t.watches = s.watches
  now : t.now = s.now
  queues : t.queues = s.queues
  mem : t.mem = s.mem

theorem scrubReadTaken_rest (s : State) (l : LineId) : ScrubRest s (s.scrubReadTaken l) := by
  rw [scrubReadTaken_eq]
  exact ⟨rfl, rfl, rfl, rfl, rfl, rfl, rfl, rfl, rfl, rfl, rfl, rfl⟩

theorem bank_scrubReadTaken (s : State) (l : LineId) :
    (s.scrubReadTaken l).bank (lineBank l) = (s.bank (lineBank l)).issueAccess s.now true false := by
  rw [State.bank, scrubReadTaken_eq]
  exact Table.get_set_self ..

/-- The scrubber stays where no job takes its bank. -/
theorem scrub_countLine {m : Memory} {k base : Nat}
    (h : s.settings.autoRepair ≠ 1 ∨ correctedIn (m.readLine k base) = 0 ∨ s.currentJob ≠ none) :
    (s.countLine .rowReader l (m.readLine k base)).scrub = s.scrub ∧ (s.countLine .rowReader l (m.readLine k base)).holds = s.holds := by
  have only : ∀ {t : State}, ChecksOnly s t → t.scrub = s.scrub ∧ t.holds = s.holds := fun e => by rw [e]; exact ⟨rfl, rfl⟩
  rcases h with h | h | h
  · exact only (countWords_off _ _ _ h)
  · exact only (countWords_fine _ (.inr (not_isCorrected_of_zero h)) _)
  · exact (jobsKept_countLine (os := m.readLine k base) (l := l) (s := s) fun hc => absurd hc h).scrub (.inl h)

theorem mem_scrubCounted : (s.scrubCounted l).mem = s.mem :=
  (control_countLine ..).mem.trans (scrubReadTaken_rest s l).mem

theorem watches_scrubCounted : (s.scrubCounted l).watches = s.watches := by
  unfold State.scrubCounted
  rw [jobMove_countLine]
  exact (scrubReadTaken_rest s l).watches

theorem lastRead_scrubCounted : ((s.scrubCounted l).bank (lineBank l)).lastRead = some s.now := by
  have core := congrArg Bank.lastRead ((control_countLine (s.scrubReadTaken l) .rowReader l (s.outcomes l)).bank (lineBank l))
  rw [bank_scrubReadTaken] at core
  exact core

theorem counted_scrubCounted : Counted s (s.scrubCounted l) (s.outcomes l) := by
  have counted := counted_countLine (m := s.mem) (k := s.freeCount) (base := s.openLine l) .rowReader l (s.scrubReadTaken l)
  have checks := (scrubReadTaken_rest s l).checks
  exact ⟨checks ▸ counted.corrected, checks ▸ counted.uncorrectable⟩

/-- Where no job can start but behind the current one the records stay. -/
theorem queues_scrubCounted (h : NoJobBehind s (s.outcomes l)) : (s.scrubCounted l).queues = s.queues := by
  have rest := scrubReadTaken_rest s l
  refine (queues_countLine ?_).1.trans rest.queues
  unfold NoJobBehind JobFirst at *
  rw [rest.settings, rest.currentJob, rest.repairQueue]
  exact h

/-- The scrubber's step and its hold, where no job takes its bank. -/
theorem step_scrubCounted (h : s.settings.autoRepair ≠ 1 ∨ correctedIn (s.outcomes l) = 0 ∨ s.currentJob ≠ none) :
    (correctedIn (s.outcomes l) = 0 ∧ uncorrectableIn (s.outcomes l) = [] →
      StepEnded s (s.scrubCounted l) s.now ∧ (s.scrubCounted l).holds = s.holds) ∧
    (¬ (correctedIn (s.outcomes l) = 0 ∧ uncorrectableIn (s.outcomes l) = []) → HoldAsked s (s.scrubCounted l) l (s.outcomes l)) := by
  have rest := scrubReadTaken_rest s l
  have kept : (s.scrubCounted l).scrub = (s.scrubReadTaken l).scrub ∧ (s.scrubCounted l).holds = (s.scrubReadTaken l).holds :=
    scrub_countLine (by rw [rest.settings, rest.currentJob]; exact h)
  obtain ⟨scrub, holds⟩ := kept
  refine ⟨fun fine => ?_, fun bad => ?_⟩
  · obtain ⟨ended, same⟩ := scrubReadTaken_fine (any_bad_readLine.mpr fine)
    exact ⟨ended.of_scrub scrub, holds.trans same⟩
  · obtain ⟨pointer, passes, given, refused⟩ := scrubReadTaken_bad (s := s) (l := l)
      (Bool.eq_true_of_not_eq_false fun fine => bad (any_bad_readLine.mp fine))
    rw [← scrub] at pointer passes given refused
    rw [← holds] at given refused
    exact ⟨pointer, passes, given, refused⟩

section

variable {f : Table 16 (Option FaultEntry)} {ns : List Notice}
  (h : ReadNoted l s.settings.faultThreshold s.stampCounter (numbered (s.outcomes l)) s.checks.faults f ns)
include h

theorem noted_scrubReadTaken : ReadNoted l (s.scrubReadTaken l).settings.faultThreshold (s.scrubReadTaken l).stampCounter
    (numbered (s.outcomes l)) (s.scrubReadTaken l).checks.faults f ns := by
  have rest := scrubReadTaken_rest s l
  rw [rest.settings, rest.stamps, rest.checks]
  exact h

theorem readNoted_scrubCounted : (s.scrubCounted l).checks.faults = f ∧
    (s.settings.autoRepair ≠ 1 ∨ s.currentJob ≠ none → ∀ q, (s.scrubCounted l).noticeQ q = s.told Enables.integrity ns q) := by
  have rest := scrubReadTaken_rest s l
  obtain ⟨faults, told⟩ := readNoted_countLine (noted_scrubReadTaken h)
  rw [rest.settings, rest.currentJob] at told
  refine ⟨faults, fun hs q => (told hs q).trans (told_congr ?_ ?_ ns)⟩
  · unfold State.noticeQ; rw [rest.notices]
  · unfold State.online State.link; rw [rest.links]

/-- Without automatic repair, or without an advice, the jobs stay. -/
theorem jobs_scrubCounted (hn : s.settings.autoRepair ≠ 1 ∨ .repairAdvised (lineBank l) (lineRow l) ∉ ns) :
    (s.scrubCounted l).repairQueue = s.repairQueue ∧ (s.scrubCounted l).currentJob = s.currentJob := by
  have rest := scrubReadTaken_rest s l
  have only : ChecksOnly (s.scrubReadTaken l) (s.scrubCounted l) := by
    rcases hn with hn | hn
    · exact countWords_off _ _ _ (by rw [rest.settings]; exact hn)
    · exact checksOnly_countLine (noted_scrubReadTaken h) hn
  rw [only]
  exact ⟨rest.repairQueue, rest.currentJob⟩

/-- An advice's job, with the end of the step where it starts. -/
theorem jobAdvised_scrubCounted (hb : lineBank s.scrub.pointer = lineBank l) (ha : s.settings.autoRepair = 1)
    (hf : RowFirst s (lineBank l) (lineRow l)) (hn : .repairAdvised (lineBank l) (lineRow l) ∈ ns) :
    JobAdvised (s.scrubReadTaken l) (s.scrubCounted l) (lineBank l) (lineRow l) ∧
      (s.currentJob = none → s.repairQueue = [] → (s.bank (lineBank l)).state = .opened →
        StepEnded s (s.scrubCounted l) s.now ∧ ∀ e ∈ (s.scrubCounted l).holds, e.holder ≠ .scrubber) := by
  have rest := scrubReadTaken_rest s l
  have bad : (s.outcomes l).any WordOutcome.bad = true := by
    refine Bool.eq_true_of_not_eq_false fun fine => ?_
    obtain ⟨x, hx, hc⟩ := isCorrected_of_advised h hn
    rw [not_isCorrected_of_zero (any_bad_readLine.mp fine).1 x hx] at hc
    cases hc
  have asked := scrubReadTaken_bad bad
  have advised := jobAdvised_countLine (noted_scrubReadTaken h) (by rw [rest.settings]; exact ha)
    (by unfold RowFirst; rw [rest.currentJob, rest.repairQueue]; exact hf) hn
  refine ⟨advised, fun hc hq ho => ?_⟩
  have state : ((s.scrubReadTaken l).bank (lineBank l)).state = .opened := by rw [bank_scrubReadTaken]; exact ho
  obtain ⟨-, -, -, ended⟩ := advised.starts (rest.currentJob.trans hc) (rest.repairQueue.trans hq) state
  obtain ⟨step, off⟩ := ended (asked.scrubs hb)
  exact ⟨rest.now ▸ step.since_asked asked rest.settings, off⟩

end

end

/-- A read for the scrubber is of its pointer's bank. -/
theorem candidate_scrub {s : State} {k : Nat} {b : BankId} {line : LineIx} (h : Candidate s k ⟨.readLine b line, .scrubber⟩) :
    lineBank s.scrub.pointer = b := by
  have access : ∀ {isRead cmd}, ScrubAccess s isRead cmd → cmd = .readLine b line → lineBank s.scrub.pointer = b := fun ha e => by
    cases ha with
    | opens _ _ hc => cases hc <;> cases e
    | access _ _ _ _ => exact lineCmd_bank (.inl e)
  cases h with
  | scrub _ _ _ h =>
    cases h with
    | started _ ha => exact access ha rfl
    | pending _ _ ha => exact access ha rfl
    | holding _ ha => exact access ha rfl

/-- The line of a line access that is issued: its bank is OPENED. -/
theorem line_of_choice {s : State} {dt : Nat} {b : BankId} {line : LineIx} {l : LineId} {src : Source} {c : ArrayCmd}
    (h : (s.passTime dt).arbiterChoice = some ⟨c, src⟩) (hc : c = .readLine b line ∨ c = .writeLine b line)
    (hl : s.lineOf b line = some l) : lineBank l = b ∧ (s.bank (lineBank l)).state = .opened := by
  obtain ⟨k, _, hb, hk, access, -⟩ := (choice_legal h).2.line hc
  rw [State.passTime_lineOf, hl] at hk
  obtain rfl := Option.some.inj hk
  exact ⟨hb, by rw [← State.passTime_bank s (lineBank l) dt]; exact access.opened⟩

/-- Settles O33. -/
theorem backgroundWritesFireNothing : Obligations.BackgroundWritesFireNothing := by
  refine ⟨fun dt b line src l s h hl => ⟨fun hsrc => ?_, fun hsrc => ?_, fun c hsrc hc => ?_⟩, fun dt b line flips l s h hl => ?_,
    fun dt b line flips l c s h hl hc => ?_⟩
  · subst hsrc
    have ex := exec_writeLine_of h rfl hl
    obtain ⟨n, e⟩ := s.passTime_exists dt
    rw [e] at ex
    exact ⟨_, ex, sweepWrite_spec (s.atInstant n) l⟩
  · subst hsrc
    have ex := exec_writeLine_of h rfl hl
    obtain ⟨n, e⟩ := s.passTime_exists dt
    rw [e] at ex ⊢
    obtain ⟨watches, mem, ended, off⟩ := scrubWritten_spec (s.atInstant n) l
    exact ⟨(s.atInstant n).scrubWritten l, ex, watches, mem, ended.since rfl rfl, off⟩
  · subst hsrc
    have ex := exec_writeLine_of h rfl hl
    obtain ⟨n, e⟩ := s.passTime_exists dt
    rw [e] at ex ⊢
    have written := repairWrite_spec (s := s.atInstant n) (l := l) hc
    exact ⟨_, _, ex, written.watches, written.mem, fun _ => bufferWords_some, bufferWords_none, written.job, written.lastWrite,
      written.pathBusy, written.rest⟩
  · obtain ⟨hb, opened⟩ := line_of_choice h (.inl rfl) hl
    have pointer : lineBank s.scrub.pointer = lineBank l := by
      obtain ⟨k, candidate⟩ := choice_candidate h
      rw [hb, ← candidate_scrub candidate, State.passTime_scrub]
    have ex := exec_readLine_of (flips := flips) h rfl hl
    obtain ⟨n, e⟩ := s.passTime_exists dt
    rw [e] at ex ⊢
    obtain ⟨v, hv⟩ : ∃ v, v = (s.atInstant n).decay l flips := ⟨_, rfl⟩
    rw [← hv] at ex
    have outcomes : v.outcomes l = v.mem.readLine s.freeCount (s.openLine l) := by rw [hv]; rfl
    have mem := mem_scrubCounted (s := v) (l := l)
    have rest := scrubReadTaken_rest v l
    have counted : Counted v (v.scrubCounted l) (v.outcomes l) := counted_scrubCounted
    have noted : ∀ f ns, ReadNoted l s.settings.faultThreshold s.stampCounter (allWords.zip (v.outcomes l)) s.checks.faults f ns →
        ReadNoted l v.settings.faultThreshold v.stampCounter (numbered (v.outcomes l)) v.checks.faults f ns := fun f ns hf => by
      rw [hv] at hf ⊢; exact hf
    refine ⟨v.scrubCounted l, v.outcomes l, ex, by rw [mem, hv]; rfl, by rw [mem]; exact outcomes, by rw [mem, outcomes]; exact outcomesOf_readLine,
      ⟨by rw [hv] at counted ⊢; exact counted.corrected, by rw [hv] at counted ⊢; exact counted.uncorrectable⟩, fun f ns hf => ?_,
      watches_scrubCounted.trans (by rw [hv]; rfl), lastRead_scrubCounted.trans (by rw [hv]; rfl), fun behind => ?_, fun stays => ?_,
      fun f ns hf => ⟨fun none => ?_, fun ha hn => ?_⟩⟩
    · obtain ⟨faults, told⟩ := readNoted_scrubCounted (noted f ns hf)
      rw [hv] at told ⊢
      exact ⟨by rw [hv] at faults; exact faults, told⟩
    · subst hv
      exact queues_scrubCounted behind
    · have step := step_scrubCounted (s := v) (l := l) (by rw [hv] at stays ⊢; exact stays)
      have given := holdMayBeGiven_scrubber (s := v) (l := l)
      have kept := fun w x => mem_keptWords (m := v.mem) (k := v.freeCount) (base := v.openLine l) (w := w) (x := x)
      subst hv
      refine ⟨fun fine => ⟨(step.1 fine).1.since rfl rfl, (step.1 fine).2⟩, fun bad => ?_⟩
      have asked := step.2 bad
      refine ⟨asked.pointer, fun free => ?_, fun free => asked.refused fun e => free (given.mp e)⟩
      obtain ⟨holding, holds, words⟩ := asked.given (given.mpr free)
      exact ⟨holding, holds, fun w x => by rw [words]; exact kept w x⟩
    · have jobs := jobs_scrubCounted (noted f ns hf) (by rw [hv]; exact none)
      rw [hv] at jobs ⊢
      exact jobs
    · have advised := jobAdvised_scrubCounted (noted f ns hf) (by rw [hv]; exact pointer) (by rw [hv]; exact ha)
      have queue : (v.scrubReadTaken l).repairQueue = s.repairQueue := rest.repairQueue.trans (by rw [hv]; rfl)
      have job : (v.scrubReadTaken l).currentJob = s.currentJob := rest.currentJob.trans (by rw [hv]; rfl)
      have remap : (v.scrubReadTaken l).remap = s.remap := rest.remap.trans (by rw [hv]; rfl)
      have state : ((v.scrubReadTaken l).bank (lineBank l)).state = .opened := by rw [bank_scrubReadTaken, hv]; exact opened
      have first : RowFirst s (lineBank l) (lineRow l) → RowFirst v (lineBank l) (lineRow l) := fun hf => by rw [hv]; exact hf
      unfold RowFirst at first
      rw [← queue, ← job] at first ⊢
      refine ⟨fun waits => (advised (by unfold RowFirst; exact first fun _ => .inr waits) hn).1.queued waits,
        fun new => ⟨fun c hc => ?_, fun hc hq => ?_⟩⟩
      · exact (advised (by unfold RowFirst; exact first fun hn => nomatch hn.symm.trans hc) hn).1.behind new c hc
      · obtain ⟨jobs, ends⟩ := advised (by unfold RowFirst; exact first fun _ => .inl hq) hn
        obtain ⟨queue', runs, drops, -⟩ := jobs.starts hc hq state
        obtain ⟨ended, off⟩ := ends (by rw [← hc, job, hv]; rfl) (by rw [← hq, queue, hv]; rfl) (by rw [hv]; exact opened)
        rw [freeSpare_congr remap, servingSpare_congr remap] at runs
        rw [freeSpare_congr remap] at drops
        refine ⟨queue', ?_, off, runs, drops⟩
        subst hv
        exact ended.since rfl rfl
  · have ex := exec_readLine_of (flips := flips) h rfl hl
    obtain ⟨n, e⟩ := s.passTime_exists dt
    rw [e] at ex ⊢
    obtain ⟨v, hv⟩ : ∃ v, v = (s.atInstant n).decay l flips := ⟨_, rfl⟩
    rw [← hv] at ex
    have done := repairRead_spec (s := v) (l := l) (c := c) (by rw [hv]; exact hc)
    have outcomes : v.outcomes l = v.mem.readLine s.freeCount (s.openLine l) := by rw [hv]; rfl
    refine ⟨v.repairRead l, v.outcomes l, ex, done.mem.trans (by rw [hv]; rfl), by rw [done.mem]; exact outcomes,
      by rw [done.mem, outcomes]; exact outcomesOf_readLine, ?_⟩
    have mem := done.counted
    subst hv
    exact ⟨⟨mem.corrected, mem.uncorrectable⟩, done.faults, done.told, done.buffer, done.job, done.lastRead, done.pathBusy, done.rest⟩

end Sys2Proof.Machine
end

section
/-! PROOFS. The bytes of a word, and the words that a WRITE_PART stores (R40, R59, R118). -/

namespace Sys2Proof.Machine

/-! ## Bytes -/

theorem getD_leBytes {n k : Nat} (h : k < n) (v : Nat) : (leBytes n v).getD k 0 = BitVec.ofNat 8 (v / 256 ^ k) := by
  induction n generalizing k v with
  | zero => omega
  | succ n ih =>
    cases k with
    | zero => rw [Nat.pow_zero, Nat.div_one]; rfl
    | succ k =>
      have rest := ih (Nat.lt_of_succ_lt_succ h) (v / 256)
      rw [Nat.div_div_eq_div_mul, ← Nat.pow_succ'] at rest
      exact rest

theorem leNat_lt (bs : List Byte) : leNat bs < 256 ^ bs.length := by
  induction bs with
  | nil => exact Nat.one_pos
  | cons b bs ih =>
    have := b.isLt
    show b.toNat + 256 * leNat bs < 256 ^ (bs.length + 1)
    rw [Nat.pow_succ']
    omega

theorem leNat_byte {bs : List Byte} {k : Nat} (h : k < bs.length) : leNat bs / 256 ^ k % 256 = (bs.getD k 0).toNat := by
  induction bs generalizing k with
  | nil => cases h
  | cons b bs ih =>
    have := b.isLt
    cases k with
    | zero =>
      show (b.toNat + 256 * leNat bs) / 1 % 256 = b.toNat
      omega
    | succ k =>
      have tail : (b.toNat + 256 * leNat bs) / 256 = leNat bs := by omega
      show (b.toNat + 256 * leNat bs) / 256 ^ (k + 1) % 256 = _
      rw [Nat.pow_succ', ← Nat.div_div_eq_div_mul, tail]
      exact ih (Nat.lt_of_succ_lt_succ h)

theorem toNat_byteOf (w : Word) (k : Nat) : (w.extractLsb' (8 * k) 8).toNat = w.toNat / 256 ^ k % 256 := by
  rw [BitVec.extractLsb'_toNat, Nat.shiftRight_eq_div_pow, Nat.pow_mul]

theorem getD_wordBytes {k : Nat} (h : k < 8) (w : Word) : (wordBytes w).getD k 0 = w.extractLsb' (8 * k) 8 := by
  unfold wordBytes
  rw [getD_leBytes h]
  refine BitVec.eq_of_toNat_eq ?_
  rw [toNat_byteOf, BitVec.toNat_ofNat]

theorem byteOf_wordOfBytes {bs : List Byte} (h : bs.length = 8) {k : Nat} (hk : k < 8) :
    (wordOfBytes bs).extractLsb' (8 * k) 8 = bs.getD k 0 := by
  have bound : leNat bs < 2 ^ 64 := (leNat_lt bs).trans_eq (by rw [h]; norm_num)
  refine BitVec.eq_of_toNat_eq ?_
  rw [toNat_byteOf]
  unfold wordOfBytes
  rw [BitVec.toNat_ofNat, Nat.mod_eq_of_lt bound]
  exact leNat_byte (by omega)

/-- Words with the same bytes are the same. -/
theorem word_ext {x y : Word} (h : ∀ k < 8, x.extractLsb' (8 * k) 8 = y.extractLsb' (8 * k) 8) : x = y := by
  refine BitVec.eq_of_getLsbD_eq fun i hi => ?_
  have byte : (x.extractLsb' (8 * (i / 8)) 8).getLsbD (i % 8) = (y.extractLsb' (8 * (i / 8)) 8).getLsbD (i % 8) :=
    congrArg (BitVec.getLsbD · (i % 8)) (h (i / 8) (by omega))
  rw [BitVec.getLsbD_extractLsb', BitVec.getLsbD_extractLsb', Nat.div_add_mod] at byte
  simpa [Nat.mod_lt] using byte

/-- The merge of two words, byte by byte. -/
theorem byteOf_mergeBytes (mask : Byte) (new old : Word) {k : Nat} (hk : k < 8) : (mergeBytes mask new old).extractLsb' (8 * k) 8 =
    if mask.getLsbD k = true then new.extractLsb' (8 * k) 8 else old.extractLsb' (8 * k) 8 := by
  have byte : ∀ f : Nat → Byte, ((List.range 8).map f).getD k 0 = f k := fun f => by
    rw [List.getD_eq_getElem?_getD, List.getElem?_map, List.getElem?_range hk]
    rfl
  unfold mergeBytes
  rw [byteOf_wordOfBytes (by rw [List.length_map, List.length_range]) hk, byte, getD_wordBytes hk, getD_wordBytes hk]

/-! ## The words of a WRITE_PART -/

theorem partWord_iff {mask : Byte} {new : Word} {old x : CheckedWord} : partWord mask new old = some x ↔ PartStored mask new old x := by
  unfold partWord PartStored
  by_cases h0 : mask = 0
  · rw [if_pos h0, h0]
    exact iff_of_false nofun (by rintro (⟨h, -⟩ | ⟨h, -⟩) <;> exact absurd h (by decide))
  rw [if_neg h0]
  by_cases hf : mask = 0xFF
  · rw [if_pos hf, Option.some_inj]
    exact ⟨fun e => .inl ⟨hf, e.symm⟩, fun h => (h.resolve_right fun e => e.2.1 hf).2.symm⟩
  rw [if_neg hf]
  have part : ∀ {P : Prop}, (mask = 0xFF ∧ x = .data new ∨ mask ≠ 0 ∧ mask ≠ 0xFF ∧ P) ↔ P := fun {P} =>
    ⟨fun h => (h.resolve_left fun e => hf e.1).2.2, fun h => .inr ⟨h0, hf, h⟩⟩
  rw [part]
  cases old with
  | poisoned =>
    refine ⟨fun e => .inl ⟨rfl, (Option.some.inj e).symm⟩, fun h => ?_⟩
    rcases h with ⟨-, rfl⟩ | ⟨o, d, e, -⟩
    · rfl
    · cases e
  | data o =>
    constructor
    · intro e
      exact .inr ⟨o, mergeBytes mask new o, rfl, (Option.some.inj e).symm, fun k hk => byteOf_mergeBytes mask new o hk⟩
    · rintro (⟨e, -⟩ | ⟨o', d, e, rfl, bytes⟩)
      · cases e
      · cases e
        refine congrArg (fun w => some (CheckedWord.data w)) (word_ext fun k hk => ?_)
        rw [byteOf_mergeBytes mask new o hk, bytes k hk]

section

variable {r : Record}

theorem writeWords_write {a : Addr} {n : Nat} {data : List Word} (h : r.op = .write a n data) :
    r.writeWords = allWords.map (fun w => (w, .data (data.getD (8 * r.linesDone + w.val) 0))) := by
  unfold Record.writeWords; rw [h]

theorem mem_writeWords_part {a : Addr} {mask : List Byte} {data : List Word} (h : r.op = .writePart a mask data) (w : WordIx)
    (x : CheckedWord) : (w, x) ∈ r.writeWords ↔ PartStored (mask.getD w.val 0) (data.getD w.val 0) (r.oldWord w) x := by
  unfold Record.writeWords
  rw [h, ← partWord_iff, List.mem_filterMap]
  constructor
  · rintro ⟨z, -, hz⟩
    obtain ⟨y, hy, e⟩ := Option.map_eq_some_iff.mp hz
    cases e
    exact hy
  · exact fun hx => ⟨w, mem_allWords w, by rw [hx]; rfl⟩

theorem writeWords_atomic {a : Addr} {x : Word}
    (h : (∃ d, r.op = .fetchAdd a d) ∨ (∃ d, r.op = .swap a d) ∨ (∃ d e, r.op = .compareSwap a d e))
    (hx : r.op.newWord (r.oldWord (addrWord a)) = some x) : r.writeWords = [(addrWord a, .data x)] := by
  unfold Record.writeWords
  rcases h with ⟨d, h⟩ | ⟨d, h⟩ | ⟨d, e, h⟩ <;> rw [h] at hx ⊢ <;> dsimp only <;> rw [hx]

/-! ## The result of a write -/

theorem lastWrite_iff : r.lastWrite = true ↔ ∀ a n data, r.op = .write a n data → n ≤ r.linesDone + 1 := by
  unfold Record.lastWrite
  split
  · rename_i a n data h
    rw [decide_eq_true_iff]
    exact ⟨fun hn _ _ _ e => (by rw [h] at e; cases e; exact hn), fun hn => hn _ _ _ h⟩
  · rename_i h
    exact iff_of_true rfl fun a n data e => absurd e (h a n data)

theorem writeResult_write {a : Addr} {n : Nat} {data : List Word} (h : r.op = .write a n data) : r.writeResult = ⟨.ok, .none⟩ := by
  unfold Record.writeResult; rw [h]

theorem writeResult_part {a : Addr} {mask : List Byte} {data : List Word} (h : r.op = .writePart a mask data) : r.writeResult =
    ⟨if ∃ w : WordIx, mask.getD w.val 0 ≠ 0 ∧ mask.getD w.val 0 ≠ 0xFF ∧ r.oldWord w = .poisoned then .poisoned else .ok, .none⟩ := by
  have poisoned : allWords.any (fun w => partPoisoned (mask.getD w.val 0) (r.oldWord w)) = true ↔
      ∃ w : WordIx, mask.getD w.val 0 ≠ 0 ∧ mask.getD w.val 0 ≠ 0xFF ∧ r.oldWord w = .poisoned := by
    rw [List.any_eq_true]
    exact ⟨fun ⟨w, _, h⟩ => ⟨w, of_decide_eq_true h⟩, fun ⟨w, h⟩ => ⟨w, mem_allWords w, decide_eq_true h⟩⟩
  unfold Record.writeResult
  rw [h]
  simp only [poisoned]

theorem writeResult_fetch {a : Addr} {w : Word} (h : (∃ d, r.op = .fetchAdd a d) ∨ (∃ d, r.op = .swap a d))
    (hw : r.oldWord (addrWord a) = .data w) : r.writeResult = ⟨.ok, .oldWord w⟩ := by
  unfold Record.writeResult
  rcases h with ⟨d, h⟩ | ⟨d, h⟩ <;> rw [h] <;> dsimp only <;> rw [hw] <;> rfl

theorem writeResult_compare {a : Addr} {c x w : Word} (h : r.op = .compareSwap a c x) (hw : r.oldWord (addrWord a) = .data w) :
    r.writeResult = ⟨if w = c then .ok else .casMiss, .oldWord w⟩ := by
  unfold Record.writeResult
  rw [h]
  dsimp only
  rw [hw]
  rfl

end

end Sys2Proof.Machine
end

section
/-! PROOFS. A WRITE_LINE for a request record (R10, R11, R40, R50 to R52, R58, R59, R64, R71, R90, R94, R96). -/

namespace Sys2Proof.Machine

section

variable {s : State} {r : Record} {l : LineId} {i : WatchId} {w : Watch} {res : Result}

/-! ## The watches of a record's end -/

theorem watches_recheckWatches (h : s.recheckWatches.watches.get i = some w) : s.watches.get i = some w := by
  rw [(recheckWatches_over s).watch, if_pos (mem_allWatchIds i), Option.bind_eq_some_iff] at h
  obtain ⟨y, hy, hw⟩ := h
  by_cases lapsed : s.watchLapsed y = true
  · rw [if_pos lapsed] at hw; cases hw
  · rw [if_neg lapsed] at hw; rw [← hw]; exact hy

theorem watches_takeEffect {g : RegionIx} {x : Replacement} (h : (s.takeEffect g x).watches.get i = some w) : s.watches.get i = some w := by
  unfold State.takeEffect at h
  have kept := watches_recheckWatches h
  exact kept

theorem watches_endDrain {g : RegionIx} (h : (s.endDrain g).watches.get i = some w) : s.watches.get i = some w := by
  unfold State.endDrain at h
  split at h
  · exact h
  · rename_i x _
    obtain ⟨v, hv⟩ : ∃ v, v = s.takeEffect g x := ⟨_, rfl⟩
    dsimp only at h
    rw [← hv] at h
    have kept : v.watches.get i = some w := by split at h <;> exact h
    exact watches_takeEffect (hv ▸ kept)

theorem watches_leaveRegionOf (h : (s.leaveRegionOf r).watches.get i = some w) : s.watches.get i = some w := by
  unfold State.leaveRegionOf at h
  split at h
  · rename_i g _
    unfold State.leaveRegion at h
    obtain ⟨v, hv⟩ : ∃ v, v = s.setRegion g { s.region g with inFlight := (s.region g).inFlight - 1 } := ⟨_, rfl⟩
    have same : v.watches = s.watches := by rw [hv]; rfl
    dsimp only at h
    rw [← hv] at h
    rw [← same]
    split at h
    · exact watches_endDrain h
    · exact h
  · exact h

/-- A record's end arms no watch. -/
theorem watches_finishMemory (h : (s.finishMemory r res).watches.get i = some w) : s.watches.get i = some w := by
  obtain ⟨v, hv, ended⟩ := finishMemory_ended s r res
  rw [hv] at h
  have kept := watches_leaveRegionOf h
  rw [ended.frame] at kept
  exact kept

/-! ## The write before the record's end -/

theorem bank_writeStored (s : State) (r : Record) (l : LineId) :
    (s.writeStored r l).bank (lineBank l) = (s.bank (lineBank l)).requestAccess s.now false r := by
  rw [State.bank, writeStored_eq]
  exact Table.get_set_self ..

theorem fireWatches_frame (s : State) (p : Port) (l : LineId) :
    s.fireWatches p l = { s with watches := (s.fireWatches p l).watches, notices := (s.fireWatches p l).notices } :=
  (fireWatches_over s p l).frame

/-- What a write reported leaves of the state with the line stored. -/
theorem writeReported_frame (s : State) (r : Record) (l : LineId) : s.writeReported r l = { s.writeStored r l with
    watches := (s.writeReported r l).watches, notices := (s.writeReported r l).notices
    holds := s.holds.filter (fun e => decide (e.holder ≠ r.holder)) } := by
  have holds : (s.writeStored r l).holds = s.holds := by rw [writeStored_eq]
  unfold State.writeReported State.releaseHold State.setHolds
  rw [fireWatches_frame]
  dsimp only
  rw [holds]

/-- What a write stored leaves of the state. -/
theorem writeStored_rest (s : State) (r : Record) (l : LineId) : (s.writeStored r l).watches = s.watches ∧
    (s.writeStored r l).notices = s.notices ∧ (s.writeStored r l).links = s.links ∧ (s.writeStored r l).regions = s.regions ∧
    (s.writeStored r l).now = s.now := by
  rw [writeStored_eq]
  exact ⟨rfl, rfl, rfl, rfl, rfl⟩

/-- The write in the words of R71: the other ports' watches on the line fire. -/
structure WriteFires (s : State) (r : Record) (l : LineId) (w0 : Table 32 (Option Watch)) (nq : Port → NoticeQueue) : Prop where
  watch : ∀ i w, w0.get i = some w ↔ s.watches.get i = some w ∧ (w.line ≠ l ∨ w.owner = r.port)
  own : nq r.port = s.noticeQ r.port
  fired : ∀ q, q ≠ r.port → ∀ i, WatchesBounded s → s.watches.get i = some ⟨q, l⟩ → s.online q = true →
    nq q = (s.noticeQ q).joined (.watchEnded i l (.written r.port))
  calm : ∀ q, q ≠ r.port → (∀ i, s.watches.get i ≠ some ⟨q, l⟩) → nq q = s.noticeQ q

theorem writeReported_fires (s : State) (r : Record) (l : LineId) :
    WriteFires s r l (s.writeReported r l).watches (s.writeReported r l).noticeQ := by
  obtain ⟨watches, notices, links, -⟩ := writeStored_rest s r l
  have noticeQ : ∀ q, (s.writeStored r l).noticeQ q = s.noticeQ q := fun q => by unfold State.noticeQ; rw [notices]
  have online : ∀ q, (s.writeStored r l).online q = s.online q := fun q => by unfold State.online State.link; rw [links]
  obtain ⟨watch, own, others⟩ := fireWatches_spec (s.writeStored r l) r.port l
  obtain ⟨f, hf⟩ : ∃ f, f = (s.writeStored r l).fireWatches r.port l := ⟨_, rfl⟩
  have reported : s.writeReported r l = f.releaseHold r.holder := by rw [hf]; rfl
  unfold WatchesBounded at others
  rw [← hf] at watch own others
  rw [noticeQ] at own
  rw [reported]
  refine ⟨fun i w => (watch i w).trans (by rw [watches]), own, fun q hq i hb hw ho => ?_, fun q hq hn => ?_⟩
  · rw [← noticeQ q]
    exact (others q hq).1 i (by rw [watches]; exact hb) (by rw [watches]; exact hw) (by rw [online]; exact ho)
  · rw [← noticeQ q]
    exact (others q hq).2 fun i => by rw [watches]; exact hn i

/-- The records after the write. -/
theorem writeReported_records (s : State) (r : Record) (l : LineId) :
    (∀ p, (s.writeReported r l).queue p = (s.queue p).map (fun q => if q.stamp = r.stamp then q.issued [] r.writeCount else q)) ∧
    (s.writeReported r l).detached = s.detached.map (fun q => if q.stamp = r.stamp then q.issued [] r.writeCount else q) := by
  rw [writeReported_frame, writeStored_eq]
  exact ⟨fun p => PerPort.get_map .., rfl⟩

theorem changesOnly_writeReported : ChangesOnly s (s.writeReported r l) r.stamp := by
  have mod := changesOnly_modRecord s r.stamp (f := fun q => q.issued [] r.writeCount) (fun _ => rfl) (fun _ => rfl)
  obtain ⟨queue, detached⟩ := writeReported_records s r l
  obtain ⟨u, hu⟩ : ∃ u, u = s.modRecord r.stamp (fun q => q.issued [] r.writeCount) := ⟨_, rfl⟩
  rw [← hu] at mod
  have queues : ∀ p, (s.writeReported r l).queue p = u.queue p := fun p => by
    rw [queue, hu]; exact (PerPort.get_map ..).symm
  have records : (s.writeReported r l).records = u.records := by
    unfold State.records
    rw [queues, queues, queues, detached, hu]
    rfl
  exact ⟨fun y hy => mod.back y (records ▸ hy), fun p q hq hn => by rw [queues]; exact mod.stay p q hq hn,
    fun y hy => mod.ops y (records ▸ hy)⟩

/-- A WRITE with more lines counts one more. -/
theorem issued_write {q : Record} {a : Addr} {n : Nat} {data : List Word} (h : r.op = .write a n data) :
    q.issued [] r.writeCount = { q with state := .active, blocked := none, linesDone := q.linesDone + 1 } := by
  have count : r.writeCount = 1 := by
    unfold Record.writeCount
    rw [h]
    exact if_neg (by rw [show (ReqOp.write a n data).readsFirst = false from rfl, Bool.and_false]; nofun)
  unfold Record.issued
  rw [count, List.append_nil]

/-! ## The write with the record's end -/

/-- A request's write before the blocks are evaluated anew. -/
def State.writeEnded (s : State) (r : Record) (l : LineId) : State :=
  if r.lastWrite then (s.writeReported r l).finishMemory r r.writeResult else s.writeReported r l

theorem requestWrite_eq (s : State) (r : Record) (l : LineId) : s.requestWrite r l = (s.writeEnded r l).settle := rfl

theorem writeEnded_last (h : r.lastWrite = true) : s.writeEnded r l = (s.writeReported r l).finishMemory r r.writeResult := if_pos h

theorem writeEnded_more (h : r.lastWrite ≠ true) : s.writeEnded r l = s.writeReported r l := if_neg h

theorem writeEnded_frame (s : State) (r : Record) (l : LineId) : s.writeEnded r l = { s.writeReported r l with
    queues := (s.writeEnded r l).queues, detached := (s.writeEnded r l).detached, notices := (s.writeEnded r l).notices
    regions := (s.writeEnded r l).regions, watches := (s.writeEnded r l).watches } := by
  by_cases h : r.lastWrite = true
  · rw [writeEnded_last h]; exact finishMemory_frame ..
  · rw [writeEnded_more h]

/-- What the record's end leaves of the state with the line stored. -/
theorem writeEnded_rest (s : State) (r : Record) (l : LineId) : (s.writeEnded r l).banks = (s.writeStored r l).banks ∧
    (s.writeEnded r l).mem = (s.writeStored r l).mem ∧ (s.writeEnded r l).pathBusy = (s.writeStored r l).pathBusy ∧
    (s.writeEnded r l).holds = s.holds.filter (fun e => decide (e.holder ≠ r.holder)) := by
  rw [writeEnded_frame, writeReported_frame]
  exact ⟨rfl, rfl, rfl, rfl⟩

theorem bank_writeEnded (s : State) (r : Record) (l : LineId) :
    (s.writeEnded r l).bank (lineBank l) = (s.bank (lineBank l)).requestAccess s.now false r := by
  rw [State.bank, (writeEnded_rest s r l).1]
  exact bank_writeStored ..

theorem lastWrite_requestAccess (x : Bank) (now : Instant) (r : Record) : (x.requestAccess now false r).lastWrite = some now := by
  unfold Bank.requestAccess Bank.startRecord
  split
  · split <;> rfl
  · rfl

theorem watches_writeEnded (h : (s.writeEnded r l).watches.get i = some w) : (s.writeReported r l).watches.get i = some w := by
  by_cases hl : r.lastWrite = true
  · rw [writeEnded_last hl] at h; exact watches_finishMemory h
  · rw [writeEnded_more hl] at h; exact h

/-- What the end of a record at its last WRITE_LINE leaves: its region counts one less, and the notice queues stood at `nq` until then. -/
structure WriteLeft (s u : State) (r : Record) (now : Instant) (w0 : Table 32 (Option Watch)) (before nq : Port → NoticeQueue) : Prop where
  left : LeftRegion s u r now w0 nq
  others : ∀ p, p ≠ r.port → nq p = before p
  plain : r.posted = false ∨ (∀ q ∈ s.queue r.port, q.stamp ≠ r.stamp) → nq r.port = before r.port
  posted : r.posted = true → r ∈ s.queue r.port → nq r.port =
    if s.online r.port = true ∧ r.writeResult.status ≠ .ok then (before r.port).joined (.error r.tag r.writeResult.status) else before r.port

theorem queued_writeReported : (s.writeReported r l).queued r = true ↔ ∃ q ∈ s.queue r.port, q.stamp = r.stamp := by
  unfold State.queued
  rw [(writeReported_records s r l).1, List.any_eq_true]
  have stamp : ∀ q : Record, (if q.stamp = r.stamp then q.issued [] r.writeCount else q).stamp = q.stamp := fun q => by split <;> rfl
  constructor
  · rintro ⟨x, hx, hs⟩
    obtain ⟨q, hq, rfl⟩ := List.mem_map.mp hx
    exact ⟨q, hq, (stamp q).symm.trans (of_decide_eq_true hs)⟩
  · rintro ⟨q, hq, hs⟩
    exact ⟨_, List.mem_map.mpr ⟨q, hq, rfl⟩, decide_eq_true ((stamp q).trans hs)⟩

theorem writeEnded_left (hl : r.lastWrite = true) (hr : r ∈ s.records) (ho : r.op.span.isSome = true) :
    ∃ nq, WriteLeft s (s.writeEnded r l) r s.now (s.writeReported r l).watches (s.writeReported r l).noticeQ nq := by
  obtain ⟨-, -, links, regions, now⟩ := writeStored_rest s r l
  have rest : (s.writeReported r l).regions = s.regions ∧ (s.writeReported r l).now = s.now ∧ (s.writeReported r l).links = s.links := by
    rw [writeReported_frame]; exact ⟨regions, now, links⟩
  obtain ⟨regions, now, links⟩ := rest
  have online : (s.writeReported r l).online r.port = s.online r.port := by unfold State.online State.link; rw [links]
  obtain ⟨nq, left, others, plain, posted⟩ := finishMemory_left (q := r) (changesOnly_writeReported (l := l)) hr ho regions rfl rfl r.writeResult
  rw [now] at left
  refine ⟨nq, by rw [writeEnded_last hl]; exact left, others, fun h => plain (h.imp_right fun gone => ?_) _, fun hp here => ?_⟩
  · refine Bool.eq_false_iff.mpr fun queued => ?_
    obtain ⟨q, hq, hs⟩ := queued_writeReported.mp queued
    exact gone q hq hs
  · rw [posted hp (queued_writeReported.mpr ⟨r, here, rfl⟩), online]

theorem writeEnded_done (hl : r.lastWrite = true) (hs : s.Sole r) (ho : r.op.span.isSome = true) (hp : r.posted = false) :
    DoneWith (s.writeEnded r l) r s.now r.writeResult := by
  have now : (s.writeReported r l).now = s.now := by rw [writeReported_frame]; exact (writeStored_rest s r l).2.2.2.2
  have mem : r.issued [] r.writeCount ∈ (s.writeReported r l).queue r.port := by
    rw [(writeReported_records s r l).1]
    exact List.mem_map.mpr ⟨r, hs.here, if_pos rfl⟩
  rw [writeEnded_last hl, ← now]
  refine ⟨_, finishMemory_done mem rfl hp fun y hy hys => ?_, rfl, rfl, rfl, rfl, rfl⟩
  obtain ⟨x, hx, hxs, hxo⟩ := (changesOnly_writeReported (l := l)).ops y hy hys
  rw [hxo, hs.only x hx hxs]
  exact ho

end

/-- An end at the state's next instant is an end of the state's own record. -/
theorem LeftRegion.of_atInstant {s t : State} {n : Instant} {r : Record} {now : Instant} {w0 : Table 32 (Option Watch)}
    {nq : Port → NoticeQueue} (h : LeftRegion (s.atInstant n) t r now w0 nq) : LeftRegion s t r now w0 nq := by
  have back : ∀ {g x}, EndsDrain (s.atInstant n) r g x → EndsDrain s r g x := fun e => ⟨e.counted, e.draining, e.last, e.pending⟩
  have forth : ∀ {g x}, EndsDrain s r g x → EndsDrain (s.atInstant n) r g x := fun e => ⟨e.counted, e.draining, e.last, e.pending⟩
  exact ⟨h.others, fun g hg hn => h.count g hg fun x hx => hn x (back hx), fun hn => h.calm fun g x hx => hn g x (back hx),
    fun g x hx => h.force g x (forth hx),
    fun g x q hx hown hs hd ho => h.answered g x q (forth hx) hown ⟨hs.here, hs.only⟩ hd ho⟩

/-- Settles O32. -/
theorem writeLineStoresItsWords : Obligations.WriteLineStoresItsWords := by
  intro dt b line r l s h hl
  obtain ⟨-, hr, _, next, -⟩ := access_of_choice h (.inr rfl) hl
  have span := span_of_nextAccess next
  have ex := exec_writeLine_of h rfl hl
  obtain ⟨n, e⟩ := s.passTime_exists dt
  rw [e] at ex ⊢
  obtain ⟨v, hv⟩ : ∃ v, v = s.atInstant n := ⟨_, rfl⟩
  rw [← hv] at ex ⊢
  have fires := writeReported_fires v r l
  have fired : WriteFires s r l (v.writeReported r l).watches (v.writeReported r l).noticeQ := by
    rw [hv] at fires ⊢
    exact ⟨fires.watch, fires.own, fires.fired, fires.calm⟩
  obtain ⟨banks, mem, pathBusy, holds⟩ := writeEnded_rest v r l
  have control := control_settle (v.writeEnded r l)
  have stored := writeStored_eq v r l
  have bank := bank_writeEnded v r l
  have reaches := requestAccess_reaches (s := v) (isRead := false) (congrArg Bank.core bank) (.inl (congrArg Bank.idle bank))
  have first : ∃ nq : Port → NoticeQueue, (r.lastWrite = true →
      WriteLeft v (v.writeEnded r l) r v.now (v.writeReported r l).watches (v.writeReported r l).noticeQ nq) ∧
      (r.lastWrite ≠ true → nq = (v.writeReported r l).noticeQ) := by
    by_cases last : r.lastWrite = true
    · obtain ⟨nq, left⟩ := writeEnded_left (s := v) (l := l) last (by rw [hv]; exact hr) span
      exact ⟨nq, fun _ => left, fun hn => absurd last hn⟩
    · exact ⟨_, fun e => absurd e last, fun _ => rfl⟩
  obtain ⟨nq, left, same⟩ := first
  have others : ∀ q, q ≠ r.port → nq q = (v.writeReported r l).noticeQ q := fun q hq => by
    by_cases last : r.lastWrite = true
    · exact (left last).others q hq
    · rw [same last]
  refine ⟨v.writeEnded r l, (v.writeReported r l).watches, nq, ex, ?_, ?_, ?_, ?_, fired.watch, fun i w => watches_writeEnded,
    fun q hq => ⟨fun i hb hw ho => (others q hq).trans (fired.fired q hq i hb hw ho), fun hn => (others q hq).trans (fired.calm q hq hn)⟩,
    fun calm => ?_, fun e he => ?_, fun a n data => writeWords_write, fun a mask data => mem_writeWords_part, fun a x => writeWords_atomic,
    fun a n data op more => ?_, fun last => ?_⟩
  · rw [control.mem, mem, stored, hv]; rfl
  · rw [control.pathBusy, pathBusy, stored]; rfl
  · rw [bank]; exact lastWrite_requestAccess ..
  · rw [hv] at reaches ⊢
    exact ⟨reaches.streak, reaches.first, reaches.idle⟩
  · by_cases last : r.lastWrite = true
    · exact (left last).left.calm fun g x hx => calm g x (by rw [hv] at hx; exact ⟨hx.counted, hx.draining, hx.last, hx.pending⟩)
    · rw [same last, writeEnded_more last]; exact ⟨rfl, fun _ => rfl⟩
  · rw [holds] at he
    exact of_decide_eq_true (List.mem_filter.mp he).2
  · have last : r.lastWrite ≠ true := fun e => absurd (lastWrite_iff.mp e a n data op) (Nat.not_le.mpr more)
    obtain ⟨queue, detached⟩ := writeReported_records v r l
    have counts : ∀ q : Record, (if q.stamp = r.stamp then q.issued [] r.writeCount else q) = if q.stamp = r.stamp then
        { q with state := .active, blocked := none, linesDone := q.linesDone + 1 } else q := fun q => by rw [issued_write op]
    rw [same last, writeEnded_more last]
    refine ⟨fun p => ?_, ?_, rfl, fun _ => rfl, fired.own, ?_⟩
    · rw [queue, hv]; exact List.map_congr_left fun q _ => counts q
    · rw [detached, hv]; exact List.map_congr_left fun q _ => counts q
    · rw [writeReported_frame, stored, hv]; rfl
  · have last := lastWrite_iff.mpr last
    obtain ⟨region, -, plain, posted⟩ := left last
    rw [fired.own] at plain posted
    refine ⟨r.writeResult, fun a n data => writeResult_write, fun a mask data => writeResult_part, fun a w => writeResult_fetch,
      fun a c x w => writeResult_compare, ?_, fun hp sole => ⟨?_, plain (.inl hp)⟩, fun hp sole => ⟨?_, ?_⟩,
      fun gone => ⟨plain (.inr (by rw [hv]; exact gone)), ?_⟩⟩
    · rw [hv] at region ⊢
      exact region.of_atInstant
    · exact writeEnded_done last (by rw [hv]; exact ⟨sole.here, sole.only⟩) span hp
    · rw [writeEnded_last last]
      exact finishMemory_taken (queued_writeReported.mpr ⟨r, by rw [hv]; exact sole.here, rfl⟩) hp
    · have told := posted hp (by rw [hv]; exact sole.here)
      rw [hv] at told
      exact told
    · rw [writeEnded_last last]
      refine finishMemory_detached (Bool.eq_false_iff.mpr fun queued => ?_)
      obtain ⟨q, hq, hs⟩ := queued_writeReported.mp queued
      exact gone q (by rw [hv] at hq; exact hq) hs

end Sys2Proof.Machine
end

section
/-! PROOFS. What a port that has left never gets back from the others' control records: no watch is armed and no requester joins for it
(R75, R144). -/

namespace Sys2Proof.Machine

/-- The job has no requester of the port. -/
def Job.ClearOf (j : Job) (p : Port) : Prop := ∀ q ∈ j.requesters, q.port ≠ p

/-- No job has a requester of the port. -/
structure JobsClear (p : Port) (s : State) : Prop where
  queued : ∀ j ∈ s.repairQueue, j.ClearOf p
  current : ∀ c, s.currentJob = some c → c.job.ClearOf p

/-- Between `s` and `t` no watch is armed, and no requester of the port joins a job. -/
structure Bereft (p : Port) (s t : State) : Prop where
  watches : ∀ i w, t.watches.get i = some w → s.watches.get i = some w
  jobs : JobsClear p s → JobsClear p t

namespace Bereft

variable {p : Port} {s t u : State}

theorem refl (s : State) : Bereft p s s := ⟨fun _ _ => id, id⟩

theorem trans (h : Bereft p s t) (k : Bereft p t u) : Bereft p s u :=
  ⟨fun i w e => h.watches i w (k.watches i w e), fun e => k.jobs (h.jobs e)⟩

theorem of_eq (hw : t.watches = s.watches) (hq : t.repairQueue = s.repairQueue) (hc : t.currentJob = s.currentJob) : Bereft p s t :=
  ⟨fun i w e => by rw [← hw]; exact e, fun e => ⟨by rw [hq]; exact e.queued, by rw [hc]; exact e.current⟩⟩

/-- Only watches go. -/
theorem of_watches (hw : ∀ i w, t.watches.get i = some w → s.watches.get i = some w) (hq : t.repairQueue = s.repairQueue)
    (hc : t.currentJob = s.currentJob) : Bereft p s t :=
  ⟨hw, fun e => ⟨by rw [hq]; exact e.queued, by rw [hc]; exact e.current⟩⟩

theorem finishControl (s : State) (st : Stamp) (res : Result) : Bereft p s (s.finishControl st res) := of_eq rfl rfl rfl

theorem restartClaim (s : State) : Bereft p s s.restartClaim := of_eq rfl rfl rfl

theorem quietBreak (s : State) : Bereft p s s.quietBreak := by
  rw [quietBreak_frame]; exact of_eq rfl rfl rfl

theorem takeEffect (s : State) (g : RegionIx) (x : Replacement) : Bereft p s (s.takeEffect g x) :=
  of_watches (fun _ _ => watches_takeEffect) (by rw [takeEffect_frame]) (by rw [takeEffect_frame])

theorem leaveRegionOf (s : State) (r : Record) : Bereft p s (s.leaveRegionOf r) :=
  of_watches (fun _ _ => watches_leaveRegionOf) (by rw [(regionLeft_leaveRegionOf s r).frame])
    (by rw [(regionLeft_leaveRegionOf s r).frame])

/-! ## Jobs -/

theorem takeBank (s : State) (b : BankId) : Bereft p s (s.takeBank b) := by
  rw [takeBank_frame]; exact of_eq rfl rfl rfl

theorem watches_startJobs (js : List Job) (s : State) : (State.startJobs js s).watches = s.watches := by
  rw [(JobMove.startJobs js s).frame]

theorem startJobs (js : List Job) (s : State) (h : ∀ j ∈ js, j.ClearOf p) (hc : s.currentJob = none) :
    JobsClear p (State.startJobs js s) := by
  induction js generalizing s with
  | nil => exact ⟨nofun, fun c e => nomatch hc.symm.trans e⟩
  | cons j js ih =>
    cases hs : s.freeSpare j.bank with
    | some sp =>
      rw [startJobs_spare js hs, runJob_frame]
      refine ⟨fun k hk => h k (List.mem_cons_of_mem _ hk), fun c e => ?_⟩
      cases e
      exact h j List.mem_cons_self
    | none =>
      unfold State.startJobs
      rw [hs]
      exact ih (s.dropJob j) (fun k hk => h k (List.mem_cons_of_mem _ hk)) (dropJob_registers s j).1

theorem merge_clear {j new : Job} (h : j.ClearOf p) (hn : new.ClearOf p) : (j.merge new).ClearOf p := fun q hq =>
  (List.mem_append.mp hq).elim (h q) (hn q)

/-- A new job has no requester of the port. -/
theorem submitJob (s : State) {j : Job} (h : j.ClearOf p) : Bereft p s (s.submitJob j) := by
  unfold State.submitJob
  split
  · refine ⟨fun _ _ => id, fun e => ⟨fun k hk => ?_, e.current⟩⟩
    obtain ⟨x, hx, rfl⟩ := List.mem_map.mp hk
    split
    · exact merge_clear (e.queued x hx) h
    · exact e.queued x hx
  · split
    · rename_i c hc
      split
      · refine ⟨fun _ _ => id, fun e => ⟨e.queued, fun d hd => ?_⟩⟩
        cases hd
        exact merge_clear (e.current c hc) h
      · have queued : Bereft p s { s with repairQueue := s.repairQueue ++ [j] } :=
          ⟨fun _ _ => id, fun e => ⟨fun k hk => (List.mem_append.mp hk).elim (e.queued k) fun hs => List.mem_singleton.mp hs ▸ h,
            e.current⟩⟩
        exact queued.trans (quietBreak _)
    · rename_i hc
      have frame := quietBreak_frame s
      refine ⟨fun i w e => ?_, fun e => ?_⟩
      · have same : (State.startJobs (s.repairQueue ++ [j]) s.quietBreak).watches = s.watches := by
          refine (watches_startJobs _ _).trans (by rw [frame])
        rw [← same]; exact e
      · exact (startJobs _ _ (fun k hk => (List.mem_append.mp hk).elim (e.queued k) fun hs => List.mem_singleton.mp hs ▸ h)
          (by rw [frame]; exact hc))

/-! ## The kinds -/

theorem doUnwatch (s : State) (q : Port) (i : Nat) : Bereft p s (s.doUnwatch q i).1 := by
  unfold State.doUnwatch
  split
  · rename_i h
    split
    · split
      · refine of_watches (fun k w e => ?_) rfl rfl
        have cleared : (s.watches.set ⟨i, h⟩ none).get k = some w := e
        rw [Table.get_set] at cleared
        split at cleared
        · cases cleared
        · exact cleared
      · exact refl s
    · exact refl s
  · exact refl s

theorem doRegionSet (s : State) (q : Port) (st : Stamp) (ps : RegionSetParams) : Bereft p s (s.doRegionSet q st ps) := by
  unfold State.doRegionSet
  split
  · exact finishControl ..
  · split
    · exact finishControl ..
    · split
      · exact finishControl ..
      · split
        · exact finishControl ..
        · split
          · exact ((takeEffect ..).trans (restartClaim _)).trans (finishControl ..)
          · rename_i g new _ _ _ _
            have drained : Bereft p s (((s.setRegion g { s.region g with state := .draining, replacement := some new }).modRecord st
                (fun r => { r with state := .active, blocked := none })).restartClaim) := of_eq rfl rfl rfl
            exact drained.trans (quietBreak _)

theorem doQuiet (s : State) (q : Port) (v : Nat) : Bereft p s (s.doQuiet q v).1 := by
  have voted : ∀ x, Bereft p s (s.setVote q x) := fun x => of_eq rfl rfl rfl
  have woken : ∀ u c, Bereft p u (State.wakeCause u c q) := fun u c => by rw [wakeCause_frame]; exact of_eq rfl rfl rfl
  unfold State.doQuiet
  split
  · exact ((voted _).trans (quietBreak _)).trans (woken ..)
  · exact (voted _).trans (quietBreak _)
  · exact refl s

theorem doClaim (s : State) (q : Port) : Bereft p s (s.doClaim q).1 := by
  unfold State.doClaim
  split
  · exact of_eq rfl rfl rfl
  · split
    · exact of_eq rfl rfl rfl
    · exact refl s

theorem doRelease (s : State) (q : Port) : Bereft p s (s.doRelease q).1 := by
  unfold State.doRelease
  split
  · exact of_eq rfl rfl rfl
  · exact refl s

theorem doSet (s : State) (q : Port) (c v : Nat) : Bereft p s (s.doSet q c v).1 := by
  unfold State.doSet
  split
  · exact of_eq rfl rfl rfl
  · split
    · exact refl s
    · split
      · exact refl s
      · split
        · exact of_eq rfl rfl rfl
        · split
          · have set : Bereft p s (s.putSetting c v) := by
              rw [putSetting_frame s (by omega), agedBy_frame]
              exact of_eq rfl rfl rfl
            exact set.trans (restartClaim _)
          · exact refl s

theorem doRepair (s : State) {q : Port} (hq : q ≠ p) (st : Stamp) (tag : Tag) (b : BankId) (row : RowId) (m : RepairMode) :
    Bereft p s (s.doRepair q st tag b row m) := by
  have active : Bereft p s ((s.modRecord st (fun r => { r with state := .active, blocked := none })).restartClaim) := of_eq rfl rfl rfl
  unfold State.doRepair
  split
  · exact finishControl ..
  · dsimp only
    split
    · refine active.trans (submitJob _ fun x hx => ?_)
      rw [List.mem_singleton.mp hx]
      exact hq
    · exact finishControl ..

theorem carryOut (s : State) {r : Record} (h : r.port ≠ p) : Bereft p s (s.carryOut r) := by
  unfold State.carryOut
  split
  · exact finishControl ..
  · exact (doUnwatch ..).trans (finishControl ..)
  · have masked : ∀ e, Bereft p s (s.doNoticeMask r.port e) := fun e => of_eq rfl rfl rfl
    exact (masked _).trans (finishControl ..)
  · exact doRegionSet ..
  · exact finishControl ..
  · exact doRepair s h ..
  · exact (doQuiet ..).trans (finishControl ..)
  · exact (doClaim ..).trans (finishControl ..)
  · exact (doRelease ..).trans (finishControl ..)
  · exact (doSet ..).trans (finishControl ..)
  · exact finishControl ..
  all_goals exact refl s

/-! ## The blocks evaluated anew -/

theorem reviewRecords (s : State) : Bereft p s s.reviewRecords := of_eq rfl rfl rfl

/-- With the port offline only the others' control records are carried out. -/
theorem drive (n : Nat) (s : State) (h : PortsConsistent s) (ho : s.online p = false) : Bereft p s (s.drive n) := by
  induction n generalizing s with
  | zero => exact reviewRecords s
  | succ n ih =>
    unfold State.drive
    dsimp only
    split
    · exact reviewRecords s
    · rename_i r hr
      have reviewed := (ports_reviewRecords s).consistent (control_reviewRecords s) h
      obtain ⟨q, hq⟩ := nextControl_mem hr
      have online := online_of_mem reviewed hq
      have other : r.port ≠ p := fun e => by
        have off : s.reviewRecords.online p = false := ho
        rw [← e, online] at off
        cases off
      have drawn := (ports_useFree s.reviewRecords).trans (ports_carryOut _ r online)
      have control := (control_useFree s.reviewRecords).trans (control_carryOut _ r)
      have taken : Bereft p s ({ s.reviewRecords with freeCount := s.reviewRecords.freeCount + 1 } : State) := of_eq rfl rfl rfl
      exact (taken.trans (carryOut _ other)).trans (ih _ (drawn.consistent control reviewed) ((drawn.online p).trans ho))

theorem settle (s : State) (h : PortsConsistent s) (ho : s.online p = false) : Bereft p s s.settle := by
  have rest : ∀ u : State, Bereft p u u.reviewScrub.reviewIdle.reviewQuiet := fun u => by
    rw [reviewQuiet_frame, reviewScrub_frame]
    exact of_eq rfl rfl rfl
  exact (drive _ s h ho).trans (rest _)

end Bereft

end Sys2Proof.Machine
end

section
/-! PROOFS. Records that leave their regions one after another: which drains end, and what stands after (R52, R74, R90, R94, R96, R97). -/

namespace Sys2Proof.Machine

/-! ## Which drains end -/

/-- The records of the list that region `g` counts. -/
def countedIn (ds : List Record) (g : RegionIx) : Nat := (ds.filter (fun r => decide (r.region = some g))).length

/-- The records of the list are the last that a DRAINING region counts. -/
structure EndsIn (s : State) (ds : List Record) (g : RegionIx) (x : Replacement) : Prop where
  some : 0 < countedIn ds g
  last : (s.region g).inFlight ≤ countedIn ds g
  draining : (s.region g).state = .draining
  pending : (s.region g).replacement = .some x

section

variable {s : State} {r : Record} {ds : List Record} {g : RegionIx} {x y : Replacement}

theorem countedIn_cons_self (h : r.region = some g) : countedIn (r :: ds) g = countedIn ds g + 1 := by
  unfold countedIn
  rw [List.filter_cons_of_pos (p := fun r : Record => decide (r.region = some g)) (decide_eq_true h), List.length_cons]

theorem countedIn_cons_other (h : r.region ≠ some g) : countedIn (r :: ds) g = countedIn ds g := by
  unfold countedIn
  rw [List.filter_cons_of_neg (p := fun r : Record => decide (r.region = some g)) (by rw [decide_eq_true_iff]; exact h)]

/-- A region that does not end its drain with the first record. -/
theorem region_leave (h : ∀ x, ¬ EndsDrain s r g x) :
    (s.leaveRegionOf r).region g = { s.region g with inFlight := (s.region g).inFlight - countedIn [r] g } := by
  have left := leftRegion s r
  by_cases hr : r.region = some g
  · rw [left.count g hr h, countedIn_cons_self hr]
    rfl
  · rw [left.others g hr, countedIn_cons_other hr]
    rfl

theorem not_endsIn_after (h : EndsDrain s r g x) : ¬ EndsIn (s.leaveRegionOf r) ds g y := fun e => by
  have state := e.draining
  rw [((leftRegion s r).force g x h).1] at state
  dsimp only at state
  split at state <;> cases state

/-- A drain ends with the first record, or with the ones that follow. -/
theorem endsIn_cons : EndsIn s (r :: ds) g x ↔ EndsDrain s r g x ∨ EndsIn (s.leaveRegionOf r) ds g x := by
  by_cases hd : ∃ y, EndsDrain s r g y
  · obtain ⟨y, hy⟩ := hd
    refine ⟨fun h => .inl ?_, fun h => ?_⟩
    · obtain rfl := Option.some.inj (hy.pending.symm.trans h.pending)
      exact hy
    · have ends := h.resolve_right (not_endsIn_after hy)
      refine ⟨?_, ?_, ends.draining, ends.pending⟩
      · rw [countedIn_cons_self ends.counted]; exact Nat.succ_pos _
      · rw [countedIn_cons_self ends.counted]; exact ends.last.trans (Nat.succ_le_succ (Nat.zero_le _))
  · have none : ∀ y, ¬ EndsDrain s r g y := not_exists.mp hd
    have after := region_leave none
    have same : EndsIn (s.leaveRegionOf r) ds g x ↔ 0 < countedIn ds g ∧ (s.region g).inFlight - countedIn [r] g ≤ countedIn ds g ∧
        (s.region g).state = .draining ∧ (s.region g).replacement = .some x := by
      constructor
      · rintro ⟨some, last, draining, pending⟩
        rw [after] at last draining pending
        exact ⟨some, last, draining, pending⟩
      · rintro ⟨some, last, draining, pending⟩
        exact ⟨some, by rw [after]; exact last, by rw [after]; exact draining, by rw [after]; exact pending⟩
    rw [same, or_iff_right (none x)]
    by_cases hr : r.region = .some g
    · have total := countedIn_cons_self (ds := ds) hr
      have one : countedIn [r] g = 1 := countedIn_cons_self (ds := []) hr
      constructor
      · intro h
        have last := h.last
        have more : ¬ (s.region g).inFlight ≤ 1 := fun e => none x ⟨hr, h.draining, e, h.pending⟩
        refine ⟨?_, ?_, h.draining, h.pending⟩ <;> omega
      · rintro ⟨some, last, draining, pending⟩
        refine ⟨?_, ?_, draining, pending⟩ <;> omega
    · have total := countedIn_cons_other (ds := ds) hr
      have zero : countedIn [r] g = 0 := countedIn_cons_other (ds := []) hr
      rw [zero, Nat.sub_zero, ← total]
      exact ⟨fun h => ⟨h.some, h.last, h.draining, h.pending⟩, fun h => ⟨h.1, h.2.1, h.2.2.1, h.2.2.2⟩⟩

/-! ## The regions after -/

/-- The drains that end have their replacement in force, and the other regions count so many records less. -/
theorem regions_leaveAll (ds : List Record) (s : State) :
    (∀ g x, EndsIn s ds g x → InForce (ds.foldl State.leaveRegionOf s) g x) ∧
    ∀ g, (∀ x, ¬ EndsIn s ds g x) →
      (ds.foldl State.leaveRegionOf s).region g = { s.region g with inFlight := (s.region g).inFlight - countedIn ds g } := by
  induction ds generalizing s with
  | nil => exact ⟨fun g x h => absurd h.some (Nat.lt_irrefl 0), fun g _ => rfl⟩
  | cons r ds ih =>
    obtain ⟨force, count⟩ := ih (s.leaveRegionOf r)
    refine ⟨fun g x h => ?_, fun g h => ?_⟩
    · rcases endsIn_cons.mp h with ends | ends
      · have first := ((leftRegion s r).force g x ends).1
        unfold InForce at *
        rw [List.foldl_cons, count g fun y => not_endsIn_after ends, first]
        simp only [Nat.zero_sub]
      · exact force g x ends
    · have first := region_leave fun x e => h x (endsIn_cons.mpr (.inl e))
      rw [List.foldl_cons, count g fun x e => h x (endsIn_cons.mpr (.inr e)), first]
      have sum : (s.region g).inFlight - countedIn [r] g - countedIn ds g = (s.region g).inFlight - countedIn (r :: ds) g := by
        rw [Nat.sub_sub]
        by_cases hr : r.region = some g
        · rw [countedIn_cons_self (ds := ds) hr, countedIn_cons_self (ds := []) hr, show countedIn [] g = 0 from rfl]
          omega
        · rw [countedIn_cons_other (ds := ds) hr, countedIn_cons_other (ds := []) hr, show countedIn [] g = 0 from rfl, Nat.zero_add]
      exact congrArg (fun n => ({ s.region g with inFlight := n } : Region)) sum

/-! ## The watches and the notices after -/

theorem watches_leaveAll {i : WatchId} {w : Watch} (ds : List Record) (s : State)
    (h : (ds.foldl State.leaveRegionOf s).watches.get i = some w) : s.watches.get i = some w := by
  induction ds generalizing s with
  | nil => exact h
  | cons r ds ih => exact watches_leaveRegionOf (ih _ h)

/-- Where no drain ends no watch goes and no port is told. -/
theorem calm_leaveAll (ds : List Record) (s : State) (h : ∀ g x, ¬ EndsIn s ds g x) :
    (ds.foldl State.leaveRegionOf s).watches = s.watches ∧ ∀ q, (ds.foldl State.leaveRegionOf s).noticeQ q = s.noticeQ q := by
  induction ds generalizing s with
  | nil => exact ⟨rfl, fun _ => rfl⟩
  | cons r ds ih =>
    obtain ⟨watches, told⟩ := (leftRegion s r).calm fun g x e => h g x (endsIn_cons.mpr (.inl e))
    obtain ⟨watches', told'⟩ := ih (s.leaveRegionOf r) fun g x e => h g x (endsIn_cons.mpr (.inr e))
    exact ⟨watches'.trans watches, fun q => (told' q).trans (told q)⟩

theorem online_leaveAll (ds : List Record) (s : State) (q : Port) : (ds.foldl State.leaveRegionOf s).online q = s.online q :=
  (Ports.foldl ports_leaveRegionOf ds s).online q

/-- Regions with the same state and body cover the same. -/
theorem covering_same {t : State} (h : ∀ g, (t.region g).state = (s.region g).state ∧ (t.region g).body = (s.region g).body) (page : Nat)
    (g : RegionIx) : Covering t page g ↔ Covering s page g := by
  unfold Covering
  rw [(h g).1, (h g).2]

/-- A recheck stands while regions only count. -/
theorem Rechecked.carried {w0 : Table 32 (Option Watch)} {nq : Port → NoticeQueue} {t u : State} (h : Rechecked w0 nq t)
    (hg : ∀ g, (u.region g).state = (t.region g).state ∧ (u.region g).body = (t.region g).body) (hw : u.watches = t.watches)
    (hn : ∀ q, u.noticeQ q = t.noticeQ q) (ho : ∀ q, u.online q = t.online q) : Rechecked w0 nq u := by
  have cover := fun page g => covering_same hg page g
  refine ⟨fun i w j h0 hc only rights => ?_, fun i w h0 hc => ?_, fun i h0 => by rw [hw]; exact h.empty i h0,
    fun q => by rw [hn, ho, hw]; exact h.told q⟩
  · rw [hw]
    exact h.kept i w j h0 ((cover _ _).mp hc) (fun k hk => only k ((cover _ _).mpr hk)) ((hg j).2 ▸ rights)
  · rw [hw]
    exact h.cancelled i w h0 fun j hj => (hg j).2 ▸ hc j ((cover _ _).mpr hj)

theorem calm_regions {t : State} (ds : List Record) (h : ∀ g x, ¬ EndsIn t ds g x) (g : RegionIx) :
    ((ds.foldl State.leaveRegionOf t).region g).state = (t.region g).state ∧
      ((ds.foldl State.leaveRegionOf t).region g).body = (t.region g).body := by
  rw [(regions_leaveAll ds t).2 g (h g)]
  exact ⟨rfl, rfl⟩

/-- Where one region's drain ends alone, the watches are rechecked once. -/
theorem rechecked_leaveAll (ds : List Record) (s : State) (h : EndsIn s ds g x) (only : ∀ k y, EndsIn s ds k y → k = g) :
    Rechecked s.watches s.noticeQ (ds.foldl State.leaveRegionOf s) := by
  induction ds generalizing s with
  | nil => exact absurd h.some (Nat.lt_irrefl 0)
  | cons r ds ih =>
    have left := leftRegion s r
    rcases endsIn_cons.mp h with ends | ends
    · have rest : ∀ k y, ¬ EndsIn (s.leaveRegionOf r) ds k y := fun k y e => by
        obtain rfl := only k y (endsIn_cons.mpr (.inr e))
        exact not_endsIn_after ends e
      obtain ⟨watches, told⟩ := calm_leaveAll ds _ rest
      exact (left.force g x ends).2.carried (calm_regions ds rest) watches told (online_leaveAll ds _)
    · have first : ∀ k y, ¬ EndsDrain s r k y := fun k y e => by
        obtain rfl := only k y (endsIn_cons.mpr (.inl e))
        exact not_endsIn_after e ends
      obtain ⟨watches, told⟩ := left.calm first
      have later := ih _ ends fun k y e => only k y (endsIn_cons.mpr (.inr e))
      rw [watches, funext told] at later
      exact later

/-- A drain's end cancels the watches whose lines their owners have no rights to afterwards. -/
theorem cancelled_leaveAll {i : WatchId} {w : Watch} (ds : List Record) (s : State) (h : EndsIn s ds g x) (hw : s.watches.get i = some w)
    (hc : ∀ j, Covering (ds.foldl State.leaveRegionOf s) (w.line.val / 64) j →
      ((ds.foldl State.leaveRegionOf s).region j).body.rights.get w.owner = .none) :
    (ds.foldl State.leaveRegionOf s).watches.get i = none := by
  induction ds generalizing s g x with
  | nil => exact absurd h.some (Nat.lt_irrefl 0)
  | cons r ds ih =>
    by_cases later : ∃ k y, EndsIn (s.leaveRegionOf r) ds k y
    · obtain ⟨k, y, hk⟩ := later
      cases hs : (s.leaveRegionOf r).watches.get i with
      | none =>
        cases he : ((r :: ds).foldl State.leaveRegionOf s).watches.get i with
        | none => rfl
        | some z => exact absurd (watches_leaveAll ds _ he) (by rw [hs]; nofun)
      | some z =>
        obtain rfl := Option.some.inj (hw.symm.trans (watches_leaveRegionOf hs))
        exact ih _ hk hs hc
    · have rest : ∀ k y, ¬ EndsIn (s.leaveRegionOf r) ds k y := fun k y e => later ⟨k, y, e⟩
      have ends := (endsIn_cons.mp h).resolve_right (rest g x)
      have same := calm_regions ds rest
      rw [List.foldl_cons, (calm_leaveAll ds _ rest).1]
      exact ((leftRegion s r).force g x ends).2.cancelled i w hw fun j hj =>
        (same j).2 ▸ hc j ((covering_same same _ _).mpr hj)

/-! ## Watches that stay -/

theorem page_overlaps {b l b' l' page : Nat} (h : b ≤ page ∧ page ≤ l) (k : b' ≤ page ∧ page ≤ l') : rangesOverlap b l b' l' = true :=
  decide_eq_true ⟨h.1.trans k.2, k.1.trans h.2⟩

/-- Of regions that are apart, one alone covers a page, before and after drains end. -/
theorem covering_leaveAll {page : Nat} {j k : RegionIx} (apart : RegionsApart s) (hj : Covering s page j)
    (hk : Covering (ds.foldl State.leaveRegionOf s) page k) : k = j := by
  by_contra ne
  obtain ⟨active, low, high⟩ := hj
  have mine : (s.region j).Range (s.region j).body.base (s.region j).body.limit := .inl ⟨active, rfl, rfl⟩
  obtain ⟨b, l, range, hb, hl⟩ : ∃ b l, (s.region k).Range b l ∧ b ≤ page ∧ page ≤ l := by
    obtain ⟨force, count⟩ := regions_leaveAll ds s
    obtain ⟨active, low, high⟩ := hk
    by_cases h : ∃ x, EndsIn s ds k x
    · obtain ⟨x, hx⟩ := h
      have region := force k x hx
      unfold InForce at region
      rw [region] at active low high
      have enabled : x.enable = true := by
        by_contra off
        exact active (if_neg off)
      exact ⟨_, _, .inr ⟨x, hx.pending, enabled, rfl, rfl⟩, low, high⟩
    · rw [count k (not_exists.mp h)] at active low high
      exact ⟨_, _, .inl ⟨active, rfl, rfl⟩, low, high⟩
  have clash := apart.apart k j ne b l _ _ range mine
  rw [page_overlaps ⟨hb, hl⟩ ⟨low, high⟩] at clash
  cases clash

/-- A watch whose line its owner has rights to before and after stays. -/
theorem kept_leaveAll {i : WatchId} {w : Watch} {j k : RegionIx} (ds : List Record) (s : State) (apart : RegionsApart s)
    (hw : s.watches.get i = some w) (hj : Covering s (w.line.val / 64) j) (rj : (s.region j).body.rights.get w.owner ≠ .none)
    (hk : Covering (ds.foldl State.leaveRegionOf s) (w.line.val / 64) k)
    (rk : ((ds.foldl State.leaveRegionOf s).region k).body.rights.get w.owner ≠ .none) :
    (ds.foldl State.leaveRegionOf s).watches.get i = some w := by
  induction ds generalizing s with
  | nil => exact hw
  | cons r ds ih =>
    have apart' : RegionsApart (s.leaveRegionOf r) := (control_leaveRegionOf s r).regions apart
    obtain rfl := covering_leaveAll (ds := r :: ds) apart hj hk
    have left := leftRegion s r
    have covers : Covering (s.leaveRegionOf r) (w.line.val / 64) k ∧ ((s.leaveRegionOf r).region k).body.rights.get w.owner ≠ .none := by
      by_cases h : ∃ x, EndsDrain s r k x
      · obtain ⟨x, hx⟩ := h
        have final := (regions_leaveAll ds (s.leaveRegionOf r)).2 k fun y => not_endsIn_after hx
        unfold Covering at hk ⊢
        rw [List.foldl_cons, final] at hk rk
        exact ⟨hk, rk⟩
      · unfold Covering
        rw [region_leave (not_exists.mp h)]
        exact ⟨hj, rj⟩
    obtain ⟨cover, rights⟩ := covers
    refine ih _ apart' ?_ cover rights hk rk
    by_cases h : ∃ g x, EndsDrain s r g x
    · obtain ⟨g, x, hx⟩ := h
      exact (left.force g x hx).2.kept i w k hw cover (fun m hm => covering_leaveAll (ds := []) apart' cover hm) rights
    · rw [(left.calm fun g x e => h ⟨g, x, e⟩).1]
      exact hw

end

end Sys2Proof.Machine
end

section
/-! PROOFS. The records after others have left their regions: a REGION_SET that waited for a drain is DONE, and the others stand
(R52, R95, R96). -/

namespace Sys2Proof.Machine

/-! ## One record leaves its region -/

section

variable {s t : State} {r q : Record} {g : RegionIx} {x : Replacement}

/-- The regions, the watches and the notices change, and no more. -/
abbrev RegionsOnly (s t : State) : Prop := t = { s with regions := t.regions, watches := t.watches, notices := t.notices }

/-- Where its drain ends the REGION_SET that waited for it becomes DONE. -/
theorem leaveRegionOf_ends (h : EndsDrain s r g x) : ∃ u, RegionsOnly s u ∧
    ((s.records.find? (Record.drains g) = none ∧ s.leaveRegionOf r = u) ∨
      ∃ y, s.records.find? (Record.drains g) = some y ∧ s.leaveRegionOf r = u.finishControl y.stamp ⟨.ok, .none⟩) := by
  obtain ⟨v, hv⟩ : ∃ v, v = s.setRegion g { s.region g with inFlight := (s.region g).inFlight - 1 } := ⟨_, rfl⟩
  have last := h.last
  have leaves : s.leaveRegionOf r = v.endDrain g := by
    unfold State.leaveRegionOf
    rw [h.counted]
    unfold State.leaveRegion
    dsimp only
    rw [if_pos ⟨h.draining, by omega⟩, hv]
  have region : v.region g = { s.region g with inFlight := (s.region g).inFlight - 1 } := by rw [hv]; exact State.region_setRegion_self ..
  have frame := takeEffect_frame v g x
  obtain ⟨u, hu⟩ : ∃ u, u = v.takeEffect g x := ⟨_, rfl⟩
  rw [← hu] at frame
  have only : RegionsOnly s u := by
    unfold RegionsOnly
    rw [frame, hv]
    rfl
  have records : u.records = s.records := by rw [only]; rfl
  refine ⟨u, only, ?_⟩
  rw [leaves]
  unfold State.endDrain
  rw [region]
  dsimp only
  rw [h.pending]
  dsimp only
  rw [← hu, records]
  split
  · rename_i y hy
    exact .inr ⟨y, hy, rfl⟩
  · rename_i hn
    exact .inl ⟨hn, rfl⟩

/-- Where no drain ends no record changes. -/
theorem leaveRegionOf_plain (h : ∀ g x, ¬ EndsDrain s r g x) : RegionsOnly s (s.leaveRegionOf r) := by
  unfold State.leaveRegionOf
  cases hr : r.region with
  | none => rfl
  | some g =>
    dsimp only
    unfold State.leaveRegion
    dsimp only
    split
    · rename_i hc
      obtain ⟨v, hv⟩ : ∃ v, v = s.setRegion g { s.region g with inFlight := (s.region g).inFlight - 1 } := ⟨_, rfl⟩
      have region : v.region g = { s.region g with inFlight := (s.region g).inFlight - 1 } := by rw [hv]; exact State.region_setRegion_self ..
      have none : (s.region g).replacement = none := by
        by_contra hn
        obtain ⟨x, hx⟩ := Option.ne_none_iff_exists'.mp hn
        exact h g x ⟨hr, hc.1, by omega, hx⟩
      rw [← hv]
      unfold State.endDrain
      rw [region]
      dsimp only
      rw [none, hv]
      rfl
    · rfl

theorem records_mapRecords (s : State) (f : Record → Record) : (s.mapRecords f).records = s.records.map f := by
  unfold State.records
  simp only [State.queue_mapRecords, List.map_append]
  rfl

theorem mem_finishControl {st : Stamp} {res : Result} {z : Record} (h : z ∈ (t.finishControl st res).records) :
    ∃ y ∈ t.records, z = if y.stamp = st then y.finished t.now res else y := by
  unfold State.finishControl State.modRecord at h
  rw [records_mapRecords] at h
  obtain ⟨y, hy, e⟩ := List.mem_map.mp h
  exact ⟨y, hy, e.symm⟩

theorem queue_finishControl (t : State) (st : Stamp) (res : Result) (p : Port) :
    (t.finishControl st res).queue p = (t.queue p).map (fun y => if y.stamp = st then y.finished t.now res else y) :=
  State.queue_mapRecords ..

/-- What a record that leaves its region does to the records: none changes, or one REGION_SET that waits becomes DONE. -/
theorem leaveRegionOf_cases (s : State) (r : Record) : ∃ u, RegionsOnly s u ∧
    (s.leaveRegionOf r = u ∨ ∃ g x y, EndsDrain s r g x ∧ y ∈ s.records ∧ DrainsFor g y ∧
      s.leaveRegionOf r = u.finishControl y.stamp ⟨.ok, .none⟩) := by
  by_cases h : ∃ g x, EndsDrain s r g x
  · obtain ⟨g, x, hx⟩ := h
    obtain ⟨u, only, ends⟩ := leaveRegionOf_ends hx
    refine ⟨u, only, ends.imp And.right ?_⟩
    rintro ⟨y, hy, e⟩
    exact ⟨g, x, y, hx, List.mem_of_find?_eq_some hy, drains_iff.mp (List.find?_some hy), e⟩
  · exact ⟨_, leaveRegionOf_plain fun g x e => h ⟨g, x, e⟩, .inl rfl⟩

/-! ## The REGION_SET that waits -/

/-- The record alone is the REGION_SET that waits for the region's drain. -/
structure WaitsAlone (s : State) (g : RegionIx) (q : Record) : Prop where
  sole : s.Sole q
  drains : DrainsFor g q
  only : ∀ y ∈ s.records, DrainsFor g y → y = q

/-- Its stamp names nothing but a DONE record with that answer. -/
structure AnsweredAlone (s : State) (q : Record) (now : Instant) : Prop where
  done : DoneWith s q now ⟨.ok, .none⟩
  settled : ∀ z ∈ s.records, z.stamp = q.stamp → z.state = .done

theorem drainsFor_unique {k : RegionIx} (h : DrainsFor g q) (hk : DrainsFor k q) : g = k := by
  obtain ⟨-, ps, op, ix⟩ := h
  obtain ⟨-, ps', op', ix'⟩ := hk
  rw [op] at op'
  cases op'
  exact Fin.ext (ix.symm.trans ix')

/-- The end of its drain answers it. -/
theorem WaitsAlone.answered (w : WaitsAlone s g q) (h : EndsDrain s r g x) : AnsweredAlone (s.leaveRegionOf r) q s.now := by
  obtain ⟨u, only, ends⟩ := leaveRegionOf_ends h
  have records : u.records = s.records := by rw [only]; rfl
  have queue : ∀ p, u.queue p = s.queue p := fun p => by rw [only]; rfl
  have now : u.now = s.now := by rw [only]
  rcases ends with ⟨none, -⟩ | ⟨y, hy, e⟩
  · exact absurd (drains_iff.mpr w.drains) (List.find?_eq_none.mp none q (mem_records w.sole.here))
  · obtain rfl := w.only y (List.mem_of_find?_eq_some hy) (drains_iff.mp (List.find?_some hy))
    rw [e, ← now]
    refine ⟨⟨y.finished u.now ⟨.ok, .none⟩, ?_, rfl, rfl, rfl, rfl, rfl⟩, fun z hz hs => ?_⟩
    · rw [queue_finishControl, queue]
      exact List.mem_map.mpr ⟨y, w.sole.here, if_pos rfl⟩
    · obtain ⟨v, -, rfl⟩ := mem_finishControl hz
      by_cases hv : v.stamp = y.stamp
      · rw [if_pos hv]; rfl
      · rw [if_neg hv] at hs; exact absurd hs hv

/-- Another's end leaves it waiting. -/
theorem WaitsAlone.stays (w : WaitsAlone s g q) (h : ∀ x, ¬ EndsDrain s r g x) : WaitsAlone (s.leaveRegionOf r) g q := by
  obtain ⟨u, only, ends⟩ := leaveRegionOf_cases s r
  have records : u.records = s.records := by rw [only]; rfl
  have queue : ∀ p, u.queue p = s.queue p := fun p => by rw [only]; rfl
  rcases ends with e | ⟨k, x, y, hx, hy, drains, e⟩
  · rw [e]
    exact ⟨⟨by rw [queue]; exact w.sole.here, by rw [records]; exact w.sole.only⟩, w.drains, by rw [records]; exact w.only⟩
  · have other : q.stamp ≠ y.stamp := fun hs => by
      obtain rfl := w.sole.only y hy hs.symm
      obtain rfl := drainsFor_unique w.drains drains
      exact h x hx
    rw [e]
    refine ⟨⟨?_, fun z hz hs => ?_⟩, w.drains, fun z hz hd => ?_⟩
    · rw [queue_finishControl, queue]
      exact List.mem_map.mpr ⟨q, w.sole.here, if_neg other⟩
    · obtain ⟨v, hv, rfl⟩ := mem_finishControl hz
      rw [records] at hv
      by_cases hy : v.stamp = y.stamp
      · rw [if_pos hy] at hs
        exact absurd (hs.symm.trans hy) other
      · rw [if_neg hy] at hs ⊢
        exact w.sole.only v hv hs
    · obtain ⟨v, hv, rfl⟩ := mem_finishControl hz
      rw [records] at hv
      by_cases hy : v.stamp = y.stamp
      · rw [if_pos hy] at hd
        cases hd.1
      · rw [if_neg hy] at hd ⊢
        exact w.only v hv hd

/-- Once answered it stands. -/
theorem AnsweredAlone.stays {now : Instant} (a : AnsweredAlone s q now) : AnsweredAlone (s.leaveRegionOf r) q now := by
  obtain ⟨u, only, ends⟩ := leaveRegionOf_cases s r
  have records : u.records = s.records := by rw [only]; rfl
  have queue : ∀ p, u.queue p = s.queue p := fun p => by rw [only]; rfl
  obtain ⟨z, hz, stamp, rest⟩ := a.done
  rcases ends with e | ⟨k, x, y, hx, hy, drains, e⟩
  · rw [e]
    exact ⟨⟨z, by rw [queue]; exact hz, stamp, rest⟩, by rw [records]; exact a.settled⟩
  · have other : y.stamp ≠ q.stamp := fun hs => by
      have active := drains.1
      rw [a.settled y hy hs] at active
      cases active
    rw [e]
    refine ⟨⟨z, ?_, stamp, rest⟩, fun v hv hs => ?_⟩
    · rw [queue_finishControl, queue]
      exact List.mem_map.mpr ⟨z, hz, if_neg fun hs => other (hs.symm.trans stamp)⟩
    · obtain ⟨z', hz', rfl⟩ := mem_finishControl hv
      rw [records] at hz'
      by_cases hy : z'.stamp = y.stamp
      · rw [if_pos hy]; rfl
      · rw [if_neg hy] at hs ⊢
        exact a.settled z' hz' hs

end

/-! ## All leave -/

section

variable {s : State} {ds : List Record} {g : RegionIx} {x : Replacement} {q : Record}

theorem answered_stays {now : Instant} (ds : List Record) (s : State) (a : AnsweredAlone s q now) :
    AnsweredAlone (ds.foldl State.leaveRegionOf s) q now := by
  induction ds generalizing s with
  | nil => exact a
  | cons r ds ih => exact ih _ a.stays

/-- The drain that ends answers the REGION_SET that waited for it. -/
theorem answered_leaveAll (ds : List Record) (s : State) (w : WaitsAlone s g q) (h : EndsIn s ds g x) :
    DoneWith (ds.foldl State.leaveRegionOf s) q s.now ⟨.ok, .none⟩ := by
  induction ds generalizing s with
  | nil => exact absurd h.some (Nat.lt_irrefl 0)
  | cons r ds ih =>
    by_cases first : ∃ y, EndsDrain s r g y
    · obtain ⟨y, hy⟩ := first
      exact (answered_stays ds _ (w.answered hy)).done
    · have later := ih _ (w.stays (not_exists.mp first)) ((endsIn_cons.mp h).resolve_left (not_exists.mp first x))
      rw [(control_leaveRegionOf s r).now] at later
      exact later

/-- Records leave regions between `s` and `t`: of the records, some became DONE. -/
structure OnlyAnswers (s t : State) : Prop where
  frame : t = { s with queues := t.queues, detached := t.detached, regions := t.regions, watches := t.watches, notices := t.notices }
  queue : ∀ p, ∃ f : Record → Record, t.queue p = (s.queue p).map f ∧ ∀ q, f q = q ∨ f q = q.finished s.now ⟨.ok, .none⟩
  detached : ∃ f : Record → Record, t.detached = s.detached.map f ∧ ∀ q, f q = q ∨ f q = q.finished s.now ⟨.ok, .none⟩

theorem onlyAnswers_leaveRegionOf (s : State) (r : Record) : OnlyAnswers s (s.leaveRegionOf r) := by
  obtain ⟨u, only, ends⟩ := leaveRegionOf_cases s r
  rcases ends with e | ⟨g, x, y, -, -, -, e⟩
  · rw [e, only]
    exact ⟨rfl, fun p => ⟨id, (List.map_id _).symm, fun _ => .inl rfl⟩, ⟨id, (List.map_id _).symm, fun _ => .inl rfl⟩⟩
  · have finished : ∀ q : Record, (if q.stamp = y.stamp then q.finished s.now ⟨.ok, .none⟩ else q) = q ∨
        (if q.stamp = y.stamp then q.finished s.now ⟨.ok, .none⟩ else q) = q.finished s.now ⟨.ok, .none⟩ := fun q => by
      by_cases hq : q.stamp = y.stamp
      · exact .inr (if_pos hq)
      · exact .inl (if_neg hq)
    rw [e, only]
    exact ⟨rfl, fun p => ⟨_, queue_finishControl .., finished⟩, ⟨_, rfl, finished⟩⟩

theorem onlyAnswers_leaveAll (ds : List Record) (s : State) : OnlyAnswers s (ds.foldl State.leaveRegionOf s) := by
  induction ds generalizing s with
  | nil => exact ⟨rfl, fun p => ⟨id, (List.map_id _).symm, fun _ => .inl rfl⟩, ⟨id, (List.map_id _).symm, fun _ => .inl rfl⟩⟩
  | cons r ds ih =>
    have first := onlyAnswers_leaveRegionOf s r
    have rest := ih (s.leaveRegionOf r)
    have now : (s.leaveRegionOf r).now = s.now := (control_leaveRegionOf s r).now
    have both : ∀ {f k : Record → Record}, (∀ q, f q = q ∨ f q = q.finished s.now ⟨.ok, .none⟩) →
        (∀ q, k q = q ∨ k q = q.finished (s.leaveRegionOf r).now ⟨.ok, .none⟩) →
        ∀ q, k (f q) = q ∨ k (f q) = q.finished s.now ⟨.ok, .none⟩ := fun {f k} hf hk q => by
      rw [now] at hk
      rcases hf q with e | e <;> rcases hk (f q) with e' | e' <;> rw [e', e]
      · exact .inl rfl
      · exact .inr rfl
      · exact .inr rfl
      · exact .inr rfl
    refine ⟨?_, fun p => ?_, ?_⟩
    · obtain ⟨u, hu⟩ : ∃ u, u = ds.foldl State.leaveRegionOf (s.leaveRegionOf r) := ⟨_, rfl⟩
      have frame := rest.frame
      rw [← hu] at frame
      rw [List.foldl_cons, ← hu]
      refine frame.trans ?_
      rw [first.frame]
    · obtain ⟨f, hf, each⟩ := first.queue p
      obtain ⟨k, hk, each'⟩ := rest.queue p
      exact ⟨k ∘ f, by rw [List.foldl_cons, hk, hf, List.map_map], both (f := f) (k := k) each each'⟩
    · obtain ⟨f, hf, each⟩ := first.detached
      obtain ⟨k, hk, each'⟩ := rest.detached
      exact ⟨k ∘ f, by rw [List.foldl_cons, hk, hf, List.map_map], both (f := f) (k := k) each each'⟩

end

end Sys2Proof.Machine
end

section
/-! PROOFS. The teardown of a port whose link is lost (R52, R75, R84, R90, R94 to R97, R144, R149, R150, R153, R161, R167, R173, R179). -/

namespace Sys2Proof.Machine

/-- The teardown before the blocks are evaluated anew. -/
def State.tornDown (s : State) (p : Port) : State := ((s.discarded p).foldl State.leaveRegionOf (s.leavePort p)).quietBreak

theorem teardown_eq (s : State) (p : Port) : s.teardown p = (s.tornDown p).settle := rfl

/-- The quiet controller as an event leaves it (R150, R153). -/
theorem quietBreak_quiet (s : State) : s.quietBreak.quiet = { s.quiet with
    part := if s.quiet.part = .settling ∨ s.quiet.part = .entering then .active else s.quiet.part
    holdTimer := if s.quiet.part = .settling then none else s.quiet.holdTimer } := by
  by_cases h1 : s.quiet.part = .settling
  · rw [quietBreak_settling h1, if_pos (.inl h1), if_pos h1]; rfl
  · rw [if_neg h1]
    by_cases h2 : s.quiet.part = .entering
    · rw [quietBreak_entering h2, if_pos (.inr h2)]; rfl
    · rw [quietBreak_else h1 h2, if_neg (not_or.mpr ⟨h1, h2⟩)]

section

variable {s : State} {p : Port}

/-- Which records a teardown discards under a region. -/
theorem countedIn_discarded (s : State) (p : Port) (g : RegionIx) : countedIn (s.discarded p) g = discardedUnder s p g := by
  unfold countedIn State.discarded discardedUnder
  rw [List.filter_filter]
  congr 1
  refine List.filter_congr fun r _ => ?_
  unfold Record.isActive Record.isDone
  cases r.state <;> simp

theorem teardownEnds_iff {g : RegionIx} {x : Replacement} : TeardownEnds s p g x ↔ EndsIn (s.leavePort p) (s.discarded p) g x := by
  constructor
  · intro h
    exact ⟨by rw [countedIn_discarded]; exact h.some, by rw [countedIn_discarded]; exact h.last, h.draining, h.pending⟩
  · intro h
    have some := h.some
    have last := h.last
    rw [countedIn_discarded] at some last
    exact ⟨some, last, h.draining, h.pending⟩

/-- What the teardown leaves, besides the port's own side, of the state after the records have left their regions. -/
theorem tornDown_frame (s : State) (p : Port) : ∃ v, v = (s.discarded p).foldl State.leaveRegionOf (s.leavePort p) ∧
    s.tornDown p = { v with quiet := (s.tornDown p).quiet, banks := (s.tornDown p).banks } :=
  ⟨_, rfl, quietBreak_frame _⟩

theorem link_tornDown (s : State) (p q : Port) : (s.tornDown p).link q = (s.leavePort p).link q := by
  obtain ⟨v, hv, frame⟩ := tornDown_frame s p
  rw [State.link, frame, hv, (onlyAnswers_leaveAll ..).frame]
  rfl

theorem quiet_tornDown (s : State) (p : Port) : (s.tornDown p).quiet = { s.quiet with
    part := if s.quiet.part = .settling ∨ s.quiet.part = .entering then .active else s.quiet.part
    votes := s.quiet.votes.set p none
    holdTimer := if s.quiet.part = .settling then none else s.quiet.holdTimer } := by
  unfold State.tornDown
  rw [quietBreak_quiet, (onlyAnswers_leaveAll ..).frame]
  rfl

theorem retention_tornDown (h : s.quiet.part = .entering) (b : BankId) : ((s.tornDown p).bank b).marks.retention = false :=
  ((admissionEnds_quietBreak _).entering (by rw [(onlyAnswers_leaveAll ..).frame]; exact h)).2 b

/-- No control record of another port waits, where none waited. -/
theorem noneToCarryOut_tornDown (h : ∀ q, q ≠ p → ∀ x ∈ s.queue q, x.op.span = none → x.state = .active ∨ x.state = .done) :
    NoneToCarryOut (s.tornDown p) := by
  intro q y hy span
  have queue : (s.tornDown p).queue q = ((s.discarded p).foldl State.leaveRegionOf (s.leavePort p)).queue q := by
    obtain ⟨v, hv, frame⟩ := tornDown_frame s p
    rw [← hv, State.queue, frame]
    rfl
  obtain ⟨f, hf, each⟩ := (onlyAnswers_leaveAll (s.discarded p) (s.leavePort p)).queue q
  rw [queue, hf, queue_leavePort] at hy
  by_cases hq : q = p
  · rw [if_pos hq] at hy; cases hy
  · rw [if_neg hq] at hy
    obtain ⟨x, hx, rfl⟩ := List.mem_map.mp hy
    rcases each x with e | e
    · rw [e] at span ⊢
      exact (h q hq x hx span).imp id .inl
    · rw [e]; exact .inr (.inl rfl)

theorem detached_tornDown (s : State) (p : Port) : (s.tornDown p).detached.map (fun r => (r.port, r.stamp, r.op)) =
    (s.detached ++ (s.queue p).filter (fun r => decide (r.state = .active) && r.op.span.isSome)).map (fun r => (r.port, r.stamp, r.op)) := by
  obtain ⟨f, hf, each⟩ := (onlyAnswers_leaveAll (s.discarded p) (s.leavePort p)).detached
  have detached : (s.tornDown p).detached = (s.leavePort p).detached.map f := by
    obtain ⟨v, hv, frame⟩ := tornDown_frame s p
    rw [frame, ← hf, ← hv]
  rw [detached, List.map_map]
  refine List.map_congr_left fun r _ => ?_
  show ((f r).port, (f r).stamp, (f r).op) = _
  rcases each r with e | e <;> rw [e]
  rfl

/-! ## The regions and the watches -/

theorem region_tornDown (s : State) (p : Port) (g : RegionIx) :
    (s.tornDown p).region g = ((s.discarded p).foldl State.leaveRegionOf (s.leavePort p)).region g := by
  obtain ⟨v, hv, frame⟩ := tornDown_frame s p
  rw [← hv, State.region, frame]
  rfl

theorem watches_tornDown (s : State) (p : Port) :
    (s.tornDown p).watches = ((s.discarded p).foldl State.leaveRegionOf (s.leavePort p)).watches := by
  obtain ⟨v, hv, frame⟩ := tornDown_frame s p
  rw [← hv, frame]

theorem noticeQ_tornDown (s : State) (p q : Port) :
    (s.tornDown p).noticeQ q = ((s.discarded p).foldl State.leaveRegionOf (s.leavePort p)).noticeQ q := by
  obtain ⟨v, hv, frame⟩ := tornDown_frame s p
  rw [← hv, State.noticeQ, frame]
  rfl

theorem watches_leavePort {i : WatchId} {w : Watch} : (s.leavePort p).watches.get i = some w ↔ s.watches.get i = some w ∧ w.owner ≠ p := by
  have get : (s.leavePort p).watches.get i = (s.watches.get i).bind (Watch.unless p) := Table.get_map ..
  rw [get, Option.bind_eq_some_iff]
  unfold Watch.unless
  constructor
  · rintro ⟨x, hx, e⟩
    by_cases ho : x.owner = p
    · rw [if_pos ho] at e; cases e
    · rw [if_neg ho] at e; cases e; exact ⟨hx, ho⟩
  · rintro ⟨hw, ho⟩
    exact ⟨w, hw, if_neg ho⟩

theorem table_ext {n : Nat} {α : Type} {t u : Table n α} (h : ∀ i, t.get i = u.get i) : t = u := by
  obtain ⟨xs, hx⟩ := t
  obtain ⟨ys, hy⟩ := u
  have same : xs = ys := List.ext_getElem (hx.trans hy.symm) fun k hk _ => h ⟨k, hx ▸ hk⟩
  subst same
  rfl

/-- The watch table is what the statement calls `w0`. -/
theorem watches_leavePort_eq {w0 : Table 32 (Option Watch)} (h : ∀ i w, w0.get i = some w ↔ s.watches.get i = some w ∧ w.owner ≠ p) :
    (s.leavePort p).watches = w0 :=
  table_ext fun i => Option.ext fun w => watches_leavePort.trans (h i w).symm

end

/-- A link that is lost tears its port down. -/
theorem exec_linkLoss {c : Instr} {dt : Nat} {p : Port} {s : State} (ho : s.online p = true)
    (h : c = .signalLoss dt p ∨ c = .resetPacket dt p ∨ (c = .silenceTimeout dt p ∧ (s.passTime dt).reached (s.link p).silence = true)) :
    exec c s = .next ((s.passTime dt).teardown p) := by
  have online : (s.passTime dt).online p = true := by rw [State.passTime_online]; exact ho
  rcases h with rfl | rfl | ⟨rfl, silent⟩
  · have up : ((s.passTime dt).link p).state = .up := of_decide_eq_true online
    show execSignalLoss dt p s = _
    unfold execSignalLoss
    dsimp only
    rw [up]
  · exact if_pos online
  · exact if_pos ⟨online, by rw [State.passTime_link]; exact silent⟩

/-- The ports stay consistent through a teardown, and the port that leaves is offline from its start on. -/
theorem consistent_tornDown {s : State} (p : Port) (h : PortsConsistent s) :
    PortsConsistent (s.tornDown p) ∧ (s.tornDown p).online p = false := by
  have ports := (Ports.foldl ports_leaveRegionOf (s.discarded p) (s.leavePort p)).trans (ports_quietBreak _)
  have control := (Control.foldl control_leaveRegionOf (s.discarded p) (s.leavePort p)).trans (control_quietBreak _)
  refine ⟨ports.consistent control (ports_leavePort h p), (ports.online p).trans ?_⟩
  rw [online_leavePort, if_pos rfl]

/-- The port gets nothing back. -/
theorem bereft_teardown {s : State} (p : Port) (h : PortsConsistent s) : Bereft p (s.leavePort p) (s.teardown p) := by
  have fold : ∀ (ds : List Record) (u : State), Bereft p u (ds.foldl State.leaveRegionOf u) := fun ds => by
    induction ds with
    | nil => exact Bereft.refl
    | cons r ds ih => exact fun u => (Bereft.leaveRegionOf u r).trans (ih _)
  obtain ⟨consistent, off⟩ := consistent_tornDown p h
  exact ((fold _ _).trans (Bereft.quietBreak _)).trans (Bereft.settle _ consistent off)

theorem jobsClear_leavePort (s : State) (p : Port) : JobsClear p (s.leavePort p) := by
  have clear : ∀ j : Job, (j.without p).ClearOf p := fun j q hq => of_decide_eq_true (List.mem_filter.mp hq).2
  refine ⟨fun j hj => ?_, fun c hc => ?_⟩
  · obtain ⟨x, -, rfl⟩ := List.mem_map.mp hj
    exact clear x
  · obtain ⟨x, -, rfl⟩ := Option.map_eq_some_iff.mp hc
    exact clear x.job

/-- What the port and the others are left with. -/
structure PortTornDown (s t : State) (p : Port) : Prop where
  down : (t.link p).state = .down
  idle : PortIdle t p
  expected : (t.link p).expected = (s.link p).expected
  sendSeq : (t.link p).sendSeq = (s.link p).sendSeq
  watches : ∀ i w, t.watches.get i = some w → w.owner ≠ p
  claim : t.claim.holder ≠ some p
  queued : ∀ j ∈ t.repairQueue, ∀ q ∈ j.requesters, q.port ≠ p
  current : ∀ j, t.currentJob = some j → ∀ q ∈ j.job.requesters, q.port ≠ p
  others : ∀ q, q ≠ p → (t.link q).state = (s.link q).state ∧ (t.link q).replay = (s.link q).replay
  mem : t.mem = s.mem
  remap : t.remap = s.remap

theorem teardown_tornDown {s : State} (p : Port) (h : PortsConsistent s) : PortTornDown s (s.teardown p) p := by
  have ports := ports_teardown s p (ports_leavePort h p)
  have control := control_teardown s p
  have after := ports.consistent control (ports_leavePort h p)
  have offline : (s.teardown p).online p = false := (ports.online p).trans (by rw [online_leavePort, if_pos rfl])
  have bereft := bereft_teardown p h
  have jobs := bereft.jobs (jobsClear_leavePort s p)
  have own : ((s.teardown p).link p).core = ((s.link p).downed.dropped).core := by
    rw [control.link p, link_leavePort, if_pos rfl]
  have other : ∀ q, q ≠ p → ((s.teardown p).link q).core = (s.link q).core := fun q hq => by
    rw [control.link q, link_leavePort, if_neg hq]
  exact {
    down := (congrArg Link.state own : _)
    idle := after.offline p offline
    expected := (congrArg Link.expected own : _)
    sendSeq := (congrArg Link.sendSeq own : _)
    watches := fun i w hw => (watches_leavePort.mp (bereft.watches i w hw)).2
    claim := fun e => nomatch (after.holder p e).symm.trans offline
    queued := jobs.queued
    current := jobs.current
    others := fun q hq => ⟨(congrArg Link.state (other q hq) : _), (congrArg Link.replay (other q hq) : _)⟩
    mem := control.mem
    remap := control.remap }

/-- A REGION_SET of another port waits on while the port leaves. -/
theorem WaitsAlone.leavePort {s : State} {p : Port} {g : RegionIx} {q : Record} (hq : q.port ≠ p) (hs : s.Sole q)
    (hd : DrainsFor g q) (ho : ∀ y ∈ s.records, DrainsFor g y → y = q) : WaitsAlone (s.leavePort p) g q := by
  have sub := (records_leavePort s p).subset
  refine ⟨⟨?_, fun y hy => hs.only y (sub hy)⟩, hd, fun y hy => ho y (sub hy)⟩
  rw [queue_leavePort, if_neg hq]
  exact hs.here

/-- Settles O8. -/
theorem linkLossTearsDown : Obligations.LinkLossTearsDown := by
  intro c dt p s consistent ho hc
  have ex := exec_linkLoss ho hc
  obtain ⟨n, e⟩ := s.passTime_exists dt
  rw [e] at ex ⊢
  have before : PortsConsistent (s.atInstant n) :=
    ⟨consistent.own, fun q hq => ⟨(consistent.offline q hq).queue, (consistent.offline q hq).notices, (consistent.offline q hq).replay,
      (consistent.offline q hq).refusals, (consistent.offline q hq).vote⟩, consistent.votes, consistent.holder, consistent.timer⟩
  have ends : ∀ {g x}, TeardownEnds s p g x ↔ EndsIn ((s.atInstant n).leavePort p) ((s.atInstant n).discarded p) g x := fun {g x} =>
    Iff.trans ⟨fun h => ⟨h.some, h.last, h.draining, h.pending⟩, fun h => ⟨h.some, h.last, h.draining, h.pending⟩⟩
      (teardownEnds_iff (s := s.atInstant n))
  obtain ⟨v, hv⟩ : ∃ v, v = s.atInstant n := ⟨_, rfl⟩
  rw [← hv] at ex before ends ⊢
  have torn := teardown_tornDown p before
  obtain ⟨force, count⟩ := regions_leaveAll (v.discarded p) (v.leavePort p)
  have apart : RegionsApart s → RegionsApart (v.leavePort p) := fun h => by rw [hv]; exact h
  have link := link_tornDown v p
  have none : (∀ g x, ¬ TeardownEnds s p g x) → ∀ g x, ¬ EndsIn (v.leavePort p) (v.discarded p) g x := fun h g x e => h g x (ends.mpr e)
  refine ⟨v.teardown p, v.tornDown p, ex, rfl, torn.down, torn.idle, torn.expected.trans (by rw [hv]; rfl),
    torn.sendSeq.trans (by rw [hv]; rfl), torn.watches, torn.claim, torn.queued, torn.current,
    fun q hq => by rw [(torn.others q hq).1, (torn.others q hq).2, hv]; exact ⟨rfl, rfl⟩, torn.mem.trans (by rw [hv]; rfl),
    torn.remap.trans (by rw [hv]; rfl), ?_, fun q hq => ?_, ?_, fun entering b => ?_, fun waits => ?_, ?_, fun g hg => ?_, fun g x hx => ⟨?_, ?_⟩,
    fun w0 h0 => ?_⟩
  · rw [link, link_leavePort, if_pos rfl, hv]; rfl
  · rw [link, link_leavePort, if_neg hq, hv]; rfl
  · rw [quiet_tornDown, hv]; rfl
  · exact retention_tornDown (by rw [hv]; exact entering) b
  · exact quietReviewed_settle (noneToCarryOut_tornDown (by rw [hv]; exact waits))
  · rw [detached_tornDown, hv]; rfl
  · rw [region_tornDown, count g fun x e => hg x (ends.mpr e), countedIn_discarded, hv]; rfl
  · unfold InForce
    rw [region_tornDown]
    exact force g x (ends.mp hx)
  · intro q hq sole drains only
    have alone : WaitsAlone (v.leavePort p) g q := .leavePort hq (by rw [hv]; exact ⟨sole.here, sole.only⟩) drains (by rw [hv]; exact only)
    obtain ⟨z, hz, done⟩ := answered_leaveAll (v.discarded p) _ alone (ends.mp hx)
    refine ⟨z, ?_, done⟩
    obtain ⟨u, hu, frame⟩ := tornDown_frame v p
    rw [frame, hu]
    exact hz
  · have table : (v.leavePort p).watches = w0 := watches_leavePort_eq (by rw [hv]; exact h0)
    have regions := region_tornDown v p
    have same : ∀ g, ((v.tornDown p).region g).state = (((v.discarded p).foldl State.leaveRegionOf (v.leavePort p)).region g).state ∧
        ((v.tornDown p).region g).body = (((v.discarded p).foldl State.leaveRegionOf (v.leavePort p)).region g).body := fun g => by
      rw [regions]; exact ⟨rfl, rfl⟩
    have cover := fun page g => covering_same same page g
    rw [watches_tornDown]
    refine ⟨fun calm => ?_, fun g x hx only => ?_, fun g x hx i w hw rights => ?_, fun hs i w j k hw hj rj hk rk => ?_⟩
    · obtain ⟨watches, told⟩ := calm_leaveAll _ _ (none calm)
      refine ⟨watches.trans table, fun q hq => ?_⟩
      rw [noticeQ_tornDown, told, noticeQ_leavePort, if_neg hq, hv]
      rfl
    · have recheck := rechecked_leaveAll _ _ (ends.mp hx) fun k y e => only k y (ends.mpr e)
      have queues : (v.leavePort p).noticeQ = fun q => if q = p then NoticeQueue.reset else s.noticeQ q := funext fun q => by
        rw [noticeQ_leavePort, hv]; rfl
      rw [table, queues] at recheck
      exact recheck.carried same (watches_tornDown v p) (noticeQ_tornDown v p) fun q => by
        unfold State.tornDown
        rw [State.online, State.link, quietBreak_frame]
        rfl
    · refine cancelled_leaveAll _ _ (ends.mp hx) (by rw [table]; exact hw) fun j hj => ?_
      rw [← (same j).2]
      exact rights j ((cover _ _).mpr hj)
    · refine kept_leaveAll (j := j) (k := k) _ _ (apart hs) (by rw [table]; exact hw) (by rw [hv]; exact hj) (by rw [hv]; exact rj)
        ((cover _ _).mp hk) ?_
      rw [← (same k).2]
      exact rk

end Sys2Proof.Machine
end
